-- ==== Sys2Proof/Word.lean ====
section
/-! DEFINITION. The word types of UGBA-STC and their plainest arithmetic: bytes, 16-bit register cells and
32-bit bus words (spec/00_scope.md R5, R7). -/

namespace Sys2Proof

/-- A byte of MEM or STORE (spec/20_memory.md R50). -/
abbrev Byte := BitVec 8

/-- A 16-bit register cell (spec/20_memory.md R55). -/
abbrev Half := BitVec 16

/-- A 32-bit bus word, bus address or command operand (spec/00_scope.md R5, ADDR_BITS). -/
abbrev Word := BitVec 32

/-- A signed output sample of PCM_BITS = 16 bits (spec/00_scope.md R5, spec/10_state.md R28). -/
abbrev Pcm := BitVec 16

/-- An interrupt source position 0 .. N_IRQ - 1 (spec/10_state.md R19, R20). -/
abbrev Source := Fin 14

/-- A DMA channel index 0 .. N_DMA - 1 (spec/10_state.md R21). -/
abbrev DmaIndex := Fin 4

/-- A mixer timer index 0 .. N_TIMER - 1 (spec/10_state.md R26). -/
abbrev TimerIndex := Fin 2

/-- An audio channel: A is 0, B is 1 (spec/00_scope.md R5, N_AUDIO). -/
abbrev Audio := Fin 2

end Sys2Proof
end

