-- ==== Sys2Proof/Config.lean ====
section
/-! DEFINITION. What the spec fixes for the block and what it leaves OPEN: the constants of
spec/00_scope.md R5, and the record of OPEN parameters that a machine carries unchanged. -/

namespace Sys2Proof

/-- The OPEN parameters of spec/00_scope.md R5 and spec/92_eei_decisions.md ("Open parameters in one
list"). A machine holds one record for its whole life: no operation and no reset writes it (log 4). -/
structure Config where
  /-- STORAGE_BASE: the bus name of the first byte of the storage region; a name only (R58). -/
  storageBase : Word
  /-- STORAGE_SIZE, written S. -/
  storageSize : Nat
  /-- CLOCKS_PER_FRAME. -/
  clocksPerFrame : Nat
  /-- CLOCKS_PER_SAMPLE. -/
  clocksPerSample : Nat
  /-- SAMPLES_PER_FRAME: the samples of a silent frame. -/
  samplesPerFrame : Nat
  /-- BUF_CAP: the capacity of each per-channel sample buffer. -/
  bufCap : Nat
  /-- MIX_CAP: the capacity of the mixed buffer, in stereo pairs. -/
  mixCap : Nat
  /-- SCRATCH_CAP: the largest declared size the LZ77 scratch buffer can hold. -/
  scratchCap : Nat
deriving DecidableEq, Repr

/-- The suggested defaults of spec/00_scope.md R5: SAMPLES_PER_FRAME is the quotient of the two clock constants rounded
down, BUF_CAP the quotient rounded up, MIX_CAP is BUF_CAP. -/
def Config.default : Config :=
  { storageBase := 0x0E000000#32
    storageSize := 0x10000
    clocksPerFrame := 280896
    clocksPerSample := 512
    samplesPerFrame := 280896 / 512
    bufCap := (280896 + 511) / 512
    mixCap := (280896 + 511) / 512
    scratchCap := 2 ^ 24 - 1 }

/-- LINES_PER_FRAME (spec/00_scope.md R5). -/
def Config.linesPerFrame : Nat := 228

/-- VISIBLE_LINES: lines 0 to 159 are visible (spec/00_scope.md R5). -/
def Config.visibleLines : Nat := 160

/-- VBLANK_LINE: the line whose step carries the VBlank effects (spec/00_scope.md R5). -/
def Config.vblankLine : Nat := 160

/-- IO_BASE (spec/00_scope.md R5). -/
def Config.ioBase : Word := 0x04000000#32

/-- MIX_SCALE (spec/00_scope.md R5). -/
def Config.mixScale : Int := 64

/-- FRAME_PERIOD_MS = 1000/60 ms, in sixtieths of a millisecond: exactly 1000 (spec/00_scope.md R5; the
unit is DESIGN CHOICE, log 8). -/
def Config.framePeriod : Nat := 1000

end Sys2Proof
end

