-- ==== Sys2Proof/Syntax.lean ====
section
/-! DEFINITION. The operations of the block as syntax: one constructor of Instr for each row of
spec/opcode_table.json, 10 commands of the command port and 31 registers of the register window
(spec/30_encoding.md R75, R76). -/

namespace Sys2Proof

/-- `dir` of format BUS (spec/30_encoding.md R71). -/
inductive Dir where
  | read
  | write
deriving DecidableEq, Repr

/-- `size` of format BUS; code 3 is reserved and decodes to nothing (spec/30_encoding.md R71, R80). -/
inductive AccessSize where
  | byte
  | half
  | word
deriving DecidableEq, Repr

/-- What a guest bus access says beside the register it addresses: direction, size, the byte offset of its
address in the register's cell, and the write data (spec/30_encoding.md R71, R76). -/
structure BusAccess where
  dir : Dir
  size : AccessSize
  off : BitVec 2
  wdata : Word
deriving DecidableEq, Repr

/-- The operations. A command's constructor carries the operands the command uses, in the order of
spec/30_encoding.md R75; the operands it does not use are ignored (R72). -/
inductive Instr where
  | halt
  | vsync
  | cpuset (src dst control : Word)
  | cpufastset (src dst control : Word)
  | lz77 (src dst : Word)
  | diff8 (src dst : Word)
  | diff16 (src dst : Word)
  | sramRead (dest offset length : Word)
  | sramWrite (offset src length : Word)
  | irqSetHandler (source ref : Word)
  | regDispstat (a : BusAccess)
  | regVcount (a : BusAccess)
  | regSoundcntH (a : BusAccess)
  | regSoundcntX (a : BusAccess)
  | regFifoA (a : BusAccess)
  | regFifoB (a : BusAccess)
  | regDma0Sad (a : BusAccess)
  | regDma0Dad (a : BusAccess)
  | regDma0CntL (a : BusAccess)
  | regDma0CntH (a : BusAccess)
  | regDma1Sad (a : BusAccess)
  | regDma1Dad (a : BusAccess)
  | regDma1CntL (a : BusAccess)
  | regDma1CntH (a : BusAccess)
  | regDma2Sad (a : BusAccess)
  | regDma2Dad (a : BusAccess)
  | regDma2CntL (a : BusAccess)
  | regDma2CntH (a : BusAccess)
  | regDma3Sad (a : BusAccess)
  | regDma3Dad (a : BusAccess)
  | regDma3CntL (a : BusAccess)
  | regDma3CntH (a : BusAccess)
  | regTm0CntL (a : BusAccess)
  | regTm0CntH (a : BusAccess)
  | regTm1CntL (a : BusAccess)
  | regTm1CntH (a : BusAccess)
  | regKeyinput (a : BusAccess)
  | regKeycnt (a : BusAccess)
  | regIe (a : BusAccess)
  | regIf (a : BusAccess)
  | regIme (a : BusAccess)
deriving DecidableEq, Repr

end Sys2Proof
end

