-- ==== Sys2Proof/WellFormed.lean ====
section
/-! DEFINITION. Which terms of Instr stand for an operation a guest can present: a bus access's offset lies in
the cell of the register it names (spec/30_encoding.md R76). Every command term is well formed: each operand is
a whole 32-bit field (spec/30_encoding.md R73). -/

namespace Sys2Proof

/-- The access's byte offset lies in a cell of `bytes` bytes (spec/20_memory.md R51: a register covers
width/8 bytes from its offset). -/
def BusAccess.inCell (bytes : Nat) (a : BusAccess) : Bool := decide (a.off.toNat < bytes)

/-- Well-formed operations. -/
def WellFormed (i : Instr) : Bool :=
  match i with
  | .halt => true
  | .vsync => true
  | .cpuset _ _ _ => true
  | .cpufastset _ _ _ => true
  | .lz77 _ _ => true
  | .diff8 _ _ => true
  | .diff16 _ _ => true
  | .sramRead _ _ _ => true
  | .sramWrite _ _ _ => true
  | .irqSetHandler _ _ => true
  | .regDispstat a => a.inCell 2
  | .regVcount a => a.inCell 2
  | .regSoundcntH a => a.inCell 2
  | .regSoundcntX a => a.inCell 2
  | .regFifoA a => a.inCell 4
  | .regFifoB a => a.inCell 4
  | .regDma0Sad a => a.inCell 4
  | .regDma0Dad a => a.inCell 4
  | .regDma0CntL a => a.inCell 2
  | .regDma0CntH a => a.inCell 2
  | .regDma1Sad a => a.inCell 4
  | .regDma1Dad a => a.inCell 4
  | .regDma1CntL a => a.inCell 2
  | .regDma1CntH a => a.inCell 2
  | .regDma2Sad a => a.inCell 4
  | .regDma2Dad a => a.inCell 4
  | .regDma2CntL a => a.inCell 2
  | .regDma2CntH a => a.inCell 2
  | .regDma3Sad a => a.inCell 4
  | .regDma3Dad a => a.inCell 4
  | .regDma3CntL a => a.inCell 2
  | .regDma3CntH a => a.inCell 2
  | .regTm0CntL a => a.inCell 2
  | .regTm0CntH a => a.inCell 2
  | .regTm1CntL a => a.inCell 2
  | .regTm1CntH a => a.inCell 2
  | .regKeyinput a => a.inCell 2
  | .regKeycnt a => a.inCell 2
  | .regIe a => a.inCell 2
  | .regIf a => a.inCell 2
  | .regIme a => a.inCell 2

end Sys2Proof
end

