-- ==== Sys2Proof/Decode.lean ====
section
/-! DEFINITION. The two formats of the block and their decoder and encoder (spec/30_encoding.md R70 to R76,
R80, R81): CMD, 128 bits, one command; BUS, 67 bits, one guest access to the register window. The port an
operation arrives on tells the formats apart, not a bit of the operation (R70). -/

namespace Sys2Proof

/-- One operation as it is presented at a port of the block: the bits of a format and the port (R70). -/
inductive PortOp where
  | cmd (w : BitVec 128)
  | bus (w : BitVec 67)
deriving DecidableEq, Repr

/-- Why a presented operation is no operation of the block. -/
inductive DecodeError where
  /-- CMD bits 127:104 are not 0 (R72). -/
  | nonzeroZeroField
  /-- The opcode is not in the table of R75 (R80, R81). -/
  | unassignedOpcode
  /-- BUS size code 3 (R71, R80). -/
  | reservedSize
  /-- The BUS address lies in no register's cell (R80, spec/20_memory.md R51). -/
  | notInRegset
deriving DecidableEq, Repr

/-! ### Format CMD -/

/-- Bits 127:104 of a CMD operation. -/
def cmdZero (w : BitVec 128) : BitVec 24 := w.extractLsb' 104 24

/-- `op`, bits 103:96. -/
def cmdOp (w : BitVec 128) : Byte := w.extractLsb' 96 8

/-- `a0`, bits 95:64. -/
def cmdA0 (w : BitVec 128) : Word := w.extractLsb' 64 32

/-- `a1`, bits 63:32. -/
def cmdA1 (w : BitVec 128) : Word := w.extractLsb' 32 32

/-- `a2`, bits 31:0. -/
def cmdA2 (w : BitVec 128) : Word := w.extractLsb' 0 32

/-- The CMD operation with a zero `zero` field (R72). -/
def cmdWord (op : Byte) (a0 a1 a2 : Word) : BitVec 128 := 0#24 ++ op ++ a0 ++ a1 ++ a2

/-- The opcode map of R75: every other value of `op` is unassigned (R80). A word with a non-zero `zero` field (R72) and an
unassigned `op` is refused for its `zero` field: DESIGN CHOICE, the spec orders the two refusals nowhere (log 23). -/
def decodeCmd (w : BitVec 128) : Except DecodeError Instr :=
  if cmdZero w ≠ 0 then .error .nonzeroZeroField
  else if cmdOp w = 0x02 then .ok .halt
  else if cmdOp w = 0x05 then .ok .vsync
  else if cmdOp w = 0x0B then .ok (.cpuset (cmdA0 w) (cmdA1 w) (cmdA2 w))
  else if cmdOp w = 0x0C then .ok (.cpufastset (cmdA0 w) (cmdA1 w) (cmdA2 w))
  else if cmdOp w = 0x11 then .ok (.lz77 (cmdA0 w) (cmdA1 w))
  else if cmdOp w = 0x16 then .ok (.diff8 (cmdA0 w) (cmdA1 w))
  else if cmdOp w = 0x18 then .ok (.diff16 (cmdA0 w) (cmdA1 w))
  else if cmdOp w = 0xE0 then .ok (.sramRead (cmdA0 w) (cmdA1 w) (cmdA2 w))
  else if cmdOp w = 0xE1 then .ok (.sramWrite (cmdA0 w) (cmdA1 w) (cmdA2 w))
  else if cmdOp w = 0xE2 then .ok (.irqSetHandler (cmdA0 w) (cmdA1 w))
  else .error .unassignedOpcode

/-! ### Format BUS -/

/-- `dir`, bit 66: 0 is a read, 1 a write. -/
def busDir (w : BitVec 67) : Dir := if w.getLsbD 66 then .write else .read

/-- `size`, bits 65:64. -/
def busSizeCode (w : BitVec 67) : BitVec 2 := w.extractLsb' 64 2

/-- `addr`, bits 63:32. -/
def busAddr (w : BitVec 67) : Word := w.extractLsb' 32 32

/-- `wdata`, bits 31:0. -/
def busWdata (w : BitVec 67) : Word := w.extractLsb' 0 32

/-- The code of `dir`. -/
def Dir.code : Dir → BitVec 1
  | .read => 0
  | .write => 1

/-- The code of `size`. -/
def AccessSize.code : AccessSize → BitVec 2
  | .byte => 0
  | .half => 1
  | .word => 2

/-- The size a code stands for; code 3 is reserved (R71). -/
def AccessSize.ofCode (c : BitVec 2) : Option AccessSize :=
  if c = 0 then some .byte else if c = 1 then some .half else if c = 2 then some .word else none

/-- One BUS row of the opcode table: it matches iff `addr AND mask = base` (R71, R76). -/
structure BusRow where
  base : Word
  mask : Word
  make : BusAccess → Instr

/-- The row of a 16-bit register (R76). -/
def row16 (base : Word) (make : BusAccess → Instr) : BusRow := ⟨base, 0xFFFFFFFE#32, make⟩

/-- The row of a 32-bit register (R76). -/
def row32 (base : Word) (make : BusAccess → Instr) : BusRow := ⟨base, 0xFFFFFFFC#32, make⟩

/-- The display timing and sound control registers and the FIFO addresses (spec/10_state.md R34). -/
def displaySoundRows : List BusRow :=
  [ row16 0x04000004#32 .regDispstat,
    row16 0x04000006#32 .regVcount,
    row16 0x04000082#32 .regSoundcntH,
    row16 0x04000084#32 .regSoundcntX,
    row32 0x040000A0#32 .regFifoA,
    row32 0x040000A4#32 .regFifoB ]

/-- The registers of DMA channel 0 (spec/10_state.md R21, R34). -/
def dma0Rows : List BusRow :=
  [ row32 0x040000B0#32 .regDma0Sad,
    row32 0x040000B4#32 .regDma0Dad,
    row16 0x040000B8#32 .regDma0CntL,
    row16 0x040000BA#32 .regDma0CntH ]

/-- The registers of DMA channel 1 (spec/10_state.md R21, R34). -/
def dma1Rows : List BusRow :=
  [ row32 0x040000BC#32 .regDma1Sad,
    row32 0x040000C0#32 .regDma1Dad,
    row16 0x040000C4#32 .regDma1CntL,
    row16 0x040000C6#32 .regDma1CntH ]

/-- The registers of DMA channel 2 (spec/10_state.md R21, R34). -/
def dma2Rows : List BusRow :=
  [ row32 0x040000C8#32 .regDma2Sad,
    row32 0x040000CC#32 .regDma2Dad,
    row16 0x040000D0#32 .regDma2CntL,
    row16 0x040000D2#32 .regDma2CntH ]

/-- The registers of DMA channel 3 (spec/10_state.md R21, R34). -/
def dma3Rows : List BusRow :=
  [ row32 0x040000D4#32 .regDma3Sad,
    row32 0x040000D8#32 .regDma3Dad,
    row16 0x040000DC#32 .regDma3CntL,
    row16 0x040000DE#32 .regDma3CntH ]

/-- The timer, keypad and interrupt control registers (spec/10_state.md R34). -/
def timerKeyIrqRows : List BusRow :=
  [ row16 0x04000100#32 .regTm0CntL,
    row16 0x04000102#32 .regTm0CntH,
    row16 0x04000104#32 .regTm1CntL,
    row16 0x04000106#32 .regTm1CntH,
    row16 0x04000130#32 .regKeyinput,
    row16 0x04000132#32 .regKeycnt,
    row16 0x04000200#32 .regIe,
    row16 0x04000202#32 .regIf,
    row16 0x04000208#32 .regIme ]

/-- The 31 register rows (R76). -/
def busRows : List BusRow :=
  displaySoundRows ++ dma0Rows ++ dma1Rows ++ dma2Rows ++ dma3Rows ++ timerKeyIrqRows

/-- The row matches the address. -/
def BusRow.hits (r : BusRow) (addr : Word) : Bool := decide (addr &&& r.mask = r.base)

/-- The row's operation for an access of this direction, size, address and data. -/
def BusRow.access (r : BusRow) (dir : Dir) (size : AccessSize) (addr wdata : Word) : Instr :=
  r.make ⟨dir, size, (addr - r.base).setWidth 2, wdata⟩

/-- A BUS operation names the register whose cell contains its address (R71); which sizes and alignments are
accepted is the access's own rule (spec/40_register_access.md R90). -/
def decodeBus (w : BitVec 67) : Except DecodeError Instr :=
  match AccessSize.ofCode (busSizeCode w) with
  | none => .error .reservedSize
  | some size =>
    match busRows.find? (fun r => r.hits (busAddr w)) with
    | none => .error .notInRegset
    | some r => .ok (r.access (busDir w) size (busAddr w) (busWdata w))

/-- The decoder: total on whatever is presented. -/
def decode (p : PortOp) : Except DecodeError Instr :=
  match p with
  | .cmd w => decodeCmd w
  | .bus w => decodeBus w

/-! ### The encoder -/

/-- The BUS operation for an access to the register at `base` (R71). -/
def busWord (base : Word) (a : BusAccess) : BitVec 67 :=
  a.dir.code ++ a.size.code ++ (base + a.off.setWidth 32) ++ a.wdata

/-- The bits of an operation and the port it goes to (R71, R72, R75, R76). -/
def encode (i : Instr) : PortOp :=
  match i with
  | .halt => .cmd (cmdWord 0x02 0 0 0)
  | .vsync => .cmd (cmdWord 0x05 0 0 0)
  | .cpuset src dst control => .cmd (cmdWord 0x0B src dst control)
  | .cpufastset src dst control => .cmd (cmdWord 0x0C src dst control)
  | .lz77 src dst => .cmd (cmdWord 0x11 src dst 0)
  | .diff8 src dst => .cmd (cmdWord 0x16 src dst 0)
  | .diff16 src dst => .cmd (cmdWord 0x18 src dst 0)
  | .sramRead dest offset length => .cmd (cmdWord 0xE0 dest offset length)
  | .sramWrite offset src length => .cmd (cmdWord 0xE1 offset src length)
  | .irqSetHandler source ref => .cmd (cmdWord 0xE2 source ref 0)
  | .regDispstat a => .bus (busWord 0x04000004#32 a)
  | .regVcount a => .bus (busWord 0x04000006#32 a)
  | .regSoundcntH a => .bus (busWord 0x04000082#32 a)
  | .regSoundcntX a => .bus (busWord 0x04000084#32 a)
  | .regFifoA a => .bus (busWord 0x040000A0#32 a)
  | .regFifoB a => .bus (busWord 0x040000A4#32 a)
  | .regDma0Sad a => .bus (busWord 0x040000B0#32 a)
  | .regDma0Dad a => .bus (busWord 0x040000B4#32 a)
  | .regDma0CntL a => .bus (busWord 0x040000B8#32 a)
  | .regDma0CntH a => .bus (busWord 0x040000BA#32 a)
  | .regDma1Sad a => .bus (busWord 0x040000BC#32 a)
  | .regDma1Dad a => .bus (busWord 0x040000C0#32 a)
  | .regDma1CntL a => .bus (busWord 0x040000C4#32 a)
  | .regDma1CntH a => .bus (busWord 0x040000C6#32 a)
  | .regDma2Sad a => .bus (busWord 0x040000C8#32 a)
  | .regDma2Dad a => .bus (busWord 0x040000CC#32 a)
  | .regDma2CntL a => .bus (busWord 0x040000D0#32 a)
  | .regDma2CntH a => .bus (busWord 0x040000D2#32 a)
  | .regDma3Sad a => .bus (busWord 0x040000D4#32 a)
  | .regDma3Dad a => .bus (busWord 0x040000D8#32 a)
  | .regDma3CntL a => .bus (busWord 0x040000DC#32 a)
  | .regDma3CntH a => .bus (busWord 0x040000DE#32 a)
  | .regTm0CntL a => .bus (busWord 0x04000100#32 a)
  | .regTm0CntH a => .bus (busWord 0x04000102#32 a)
  | .regTm1CntL a => .bus (busWord 0x04000104#32 a)
  | .regTm1CntH a => .bus (busWord 0x04000106#32 a)
  | .regKeyinput a => .bus (busWord 0x04000130#32 a)
  | .regKeycnt a => .bus (busWord 0x04000132#32 a)
  | .regIe a => .bus (busWord 0x04000200#32 a)
  | .regIf a => .bus (busWord 0x04000202#32 a)
  | .regIme a => .bus (busWord 0x04000208#32 a)

/-! ### The table's own numbering -/

/-- The operation whose opcode-table bits are `w`. The table gives a CMD row the 8 bits of `op` and a BUS row
the 32 bits of `addr`; the other fields of a format have no table bits. A CMD row's operands are 0. A BUS row's
access is a 16-bit read, since the all-zero completion would be an 8-bit access, which
spec/20_memory.md R55 refuses whatever the row (DESIGN CHOICE, log 11). A word as long as a whole format is that
format's bits. -/
def tableOp (nbits w : Nat) : PortOp :=
  if nbits ≤ 8 then .cmd (cmdWord (BitVec.ofNat 8 w) 0 0 0)
  else if nbits ≤ 32 then .bus (Dir.read.code ++ AccessSize.half.code ++ BitVec.ofNat 32 w ++ 0#32)
  else if nbits ≤ 72 then .bus (BitVec.ofNat 67 w)
  else .cmd (BitVec.ofNat 128 w)

/-- What the decoder reads from an opcode-table word. -/
def decodeTableWord (nbits w : Nat) : Option Instr :=
  match decode (tableOp nbits w) with
  | .ok i => some i
  | .error _ => none

end Sys2Proof
end

