-- ==== Sys2Proof/Machine/State.lean ====
section
/-! DEFINITION. The state of UGBA-STC as plain data (spec/10_state.md), the reasons a step can stop, and the
state right after reset (spec/10_state.md R45, spec/70_reset_and_hazards.md R261). -/

namespace Sys2Proof.Machine

/-! ### Memories -/

/-- A byte memory in one canonical form: cells of strictly rising address, none holding the byte an unlisted
address reads as (Machine/Ops.lean, Memory.wf). Used for MEM and for STORE. -/
abbrev Memory := List Host.Cell

/-! ### Units of the block -/

/-- TRIG of a DMA channel (spec/10_state.md R21). -/
inductive Trigger where
  | immediate
  | vblank
  | hblank
  | fifo
deriving DecidableEq, Repr

/-- One DMA channel: its four registers' fields (spec/10_state.md R21) and the hidden latches ISRC and IDST
(R22). -/
structure DmaChannel where
  sad : Word
  dad : Word
  cnt : Half
  dstFixed : Bool
  srcFixed : Bool
  rep : Bool
  w32 : Bool
  trig : Trigger
  en : Bool
  isrc : Word
  idst : Word
deriving DecidableEq, Repr

/-- A DMA channel at reset (spec/10_state.md R45). -/
def DmaChannel.initial : DmaChannel :=
  { sad := 0, dad := 0, cnt := 0, dstFixed := false, srcFixed := false, rep := false, w32 := false,
    trig := .immediate, en := false, isrc := 0, idst := 0 }

/-- The SOUNDCNT_H fields of one audio channel: AMP, REN, LEN, TSEL (spec/10_state.md R24). -/
structure SoundCtl where
  amp : Bool
  right : Bool
  left : Bool
  tsel : TimerIndex
deriving DecidableEq, Repr

/-- Sound control of a channel at reset (spec/10_state.md R45). -/
def SoundCtl.initial : SoundCtl := { amp := false, right := false, left := false, tsel := 0 }

/-- One mixer timer: RELOAD, PSEL, START; it has no counting register (spec/10_state.md R26). -/
structure Timer where
  reload : Half
  psel : BitVec 2
  start : Bool
deriving DecidableEq, Repr

/-- A timer at reset (spec/10_state.md R45). -/
def Timer.initial : Timer := { reload := 0, psel := 0, start := false }

/-- CACHE of an audio channel: the last 4 fetched FIFO bytes, index 0 from the lowest address
(spec/10_state.md R27). -/
structure Cache where
  b0 : Byte
  b1 : Byte
  b2 : Byte
  b3 : Byte
deriving DecidableEq, Repr

/-- An empty cache, as reset and the FIFO reset leave it (spec/10_state.md R45, spec/43_sound_mixer.md
R168). -/
def Cache.initial : Cache := ⟨0, 0, 0, 0⟩

/-- SoundDmaState of one audio channel (spec/10_state.md R27). Samples and bytes are held as their 8 bits; the
mixer reads a sample's signed value. -/
structure SoundDma where
  buf : List Byte
  bufn : Nat
  srcclk : Nat
  outclk : Nat
  cache : Cache
  rem : Nat
  cur : Byte
deriving DecidableEq, Repr

/-- SoundDmaState at reset: every element 0 (spec/10_state.md R45). -/
def SoundDma.initial (cfg : Config) : SoundDma :=
  { buf := List.replicate cfg.bufCap 0, bufn := 0, srcclk := 0, outclk := 0, cache := Cache.initial,
    rem := 0, cur := 0 }

/-! ### Sequencing -/

/-- The phases of a line step, in their order (spec/41_timing_engine.md R120). -/
inductive Phase where
  | p1
  | p2
  | p3
  | p4
  | p5
  | p6
  | p7
  | p8
  | p9
  | p10
deriving DecidableEq, Repr

/-- The two commands that advance lines (spec/41_timing_engine.md R130, R131). -/
inductive TimingCmd where
  | halt
  | vsync
deriving DecidableEq, Repr

/-- Where a HALT or VSYNC stands while control is inside a handler: the source in service, the phase that
raised it, and the command to go on with when the handler returns (spec/60_exceptions.md R236,
spec/10_state.md R13; DESIGN CHOICE, log 3). -/
structure Suspension where
  src : Source
  phase : Phase
  cmd : TimingCmd
deriving DecidableEq, Repr

/-- The wires of the command port: opcode and operands as last presented, and the result as last returned
(spec/10_state.md R12; log 10). -/
structure CmdPort where
  op : Byte
  a0 : Word
  a1 : Word
  a2 : Word
  res : Word
deriving DecidableEq, Repr

/-- The wires of the command port at reset (DESIGN CHOICE, log 10). -/
def CmdPort.initial : CmdPort := { op := 0, a0 := 0, a1 := 0, a2 := 0, res := 0 }

/-! ### Host side -/

/-- The host inputs, each sampled at the one point its rule names (spec/10_state.md R32). Times are in
sixtieths of a millisecond (log 8). -/
structure HostInputs where
  keys : BitVec 10
  queueOver : Bool
  fastForward : Bool
  now : Nat
  allocOk : Bool
deriving DecidableEq, Repr

/-- The host inputs held at reset (DESIGN CHOICE, log 7): the draws that spec/95_test_vectors.md takes where it
says nothing else. -/
def HostInputs.initial : HostInputs :=
  { keys := 0, queueOver := false, fastForward := true, now := 0, allocOk := true }

/-- Why a firmware call aborted (spec/44_firmware_calls.md R190). -/
inductive LogCode where
  /-- Code 1, LOG_LZ77_BAD_TYPE. -/
  | badType
  /-- Code 2, LOG_LZ77_BACKREF. -/
  | backref
  /-- Code 3, LOG_SCRATCH_ALLOC. -/
  | scratchAlloc
deriving DecidableEq, Repr

/-- The output events (spec/10_state.md R40). -/
inductive Event where
  | call (src : Source) (ref : Word)
  | ret (src : Source)
  | draw (line : BitVec 8)
  | present
  | capture (buf : List (Pcm × Pcm))
  | audio (buf : List (Pcm × Pcm))
  | sleep (time : Nat)
  | log (code : LogCode)
deriving DecidableEq, Repr

/-- What the guest and the environment present to the block, one item a step (DESIGN CHOICE, log 1). -/
inductive Input where
  /-- The guest presents an operation at a port (spec/00_scope.md R6). -/
  | op (p : PortOp)
  /-- The guest's handler routine returns (spec/60_exceptions.md R236). -/
  | ret
  /-- The reset event of the environment (spec/70_reset_and_hazards.md R260). -/
  | reset
  /-- The host changes its inputs (spec/10_state.md R32). -/
  | host (h : HostInputs)
  /-- The platform, the guest's own processor among it, stores a byte of MEM (spec/20_memory.md R50, R58). -/
  | store (addr : Word) (b : Byte)
deriving DecidableEq, Repr

/-! ### Why a step can stop -/

/-- Faults. The block itself has none: it raises no synchronous exception (spec/60_exceptions.md R243). -/
inductive Fault where
  /-- Raised by a handler's return when HDEPTH = 1 and no suspended command is held: a state that no run
  reaches (State.Inv in Safety.lean). Safe: the model stops (log 12). -/
  | lostResumePoint
deriving DecidableEq, Repr

/-- Refusals: inputs to which the spec gives no meaning (spec/60_exceptions.md R244,
spec/93_implementation_defined.md section 2). Each is safe: the model stops and says nothing of what follows. -/
inductive Refusal where
  /-- Raised by exec for an operation without a meaning. Safe. -/
  | notModelled (mnemonic : String)
  /-- Raised by every register access that is 8-bit, misaligned or not wholly inside REGSET
  (spec/40_register_access.md R90), by a BUS operation of size code 3 or of an address outside REGSET, and by a
  platform store into REGSET, which is an 8-bit access. Safe. -/
  | badRegisterAccess
  /-- Raised by a write to DMAnCNT_H with bit 5 or bit 7 set (spec/40_register_access.md R100). Safe. -/
  | dmaModeNotInSource
  /-- Raised by every engine access to a byte of REGSET (spec/20_memory.md R56): DMA transfers, FIFO refills,
  firmware calls, storage caller buffers. Safe. -/
  | engineAccessToRegisters
  /-- Raised by step for a CMD operation whose opcode is not in the table (spec/30_encoding.md R80). Safe. -/
  | unassignedOpcode
  /-- Raised by step for a CMD operation with bits 127:104 not 0 (spec/30_encoding.md R72). Safe. -/
  | nonzeroZeroField
  /-- Raised by HALT and VSYNC while HDEPTH = 1 (spec/30_encoding.md R82). Safe. -/
  | timingCommandInHandler
  /-- Raised by every operation presented while BUSY = 1 and HDEPTH = 0 (spec/60_exceptions.md R244); no run
  reaches such a state. Safe. -/
  | operationWhileBusy
  /-- Raised by a handler's return while HDEPTH = 0: no handler is running (spec/60_exceptions.md R236; log 12).
  Safe. -/
  | returnOutsideHandler
  /-- Raised by the reset event while a command is executing or suspended at a handler, when it cannot occur
  (spec/70_reset_and_hazards.md R260; log 13). Safe. -/
  | resetWhileBusy
deriving DecidableEq, Repr

/-! ### The state -/

/-- The state of the block (spec/10_state.md R10), with the bus memory it works on, the record of its outputs,
and the inputs still to come. INVENTORY.md lists every field with its rule and reset value. -/
structure State where
  /-- The OPEN parameters; never written (log 4). -/
  cfg : Config
  /-- LINE; also VCOUNT, its mirror (R14, R15). -/
  line : BitVec 8
  /-- VCMP (R16). -/
  vcmp : BitVec 8
  /-- DEADLINE, in sixtieths of a millisecond (R32). -/
  deadline : Nat
  /-- IE (R19). -/
  ie : BitVec 14
  /-- IF (R19). -/
  ifReg : BitVec 14
  /-- INSVC (R19). -/
  insvc : BitVec 14
  /-- IME (R19). -/
  ime : Bool
  /-- VEC (R19). -/
  vec : Vector (Option Word) 14
  /-- The four DMA channels (R21, R22). -/
  dma : Vector DmaChannel 4
  /-- MASTER (R25). -/
  master : Bool
  /-- SOUNDCNT_H's stored fields, A and B (R24). -/
  ctl : Vector SoundCtl 2
  /-- The two timers (R26). -/
  timer : Vector Timer 2
  /-- SoundDmaState, A and B (R27). -/
  snd : Vector SoundDma 2
  /-- MIX: pairs (left, right) (R28). -/
  mix : List (Pcm × Pcm)
  /-- MIXN (R28). -/
  mixn : Nat
  /-- KEYSNAP (R29). -/
  keysnap : BitVec 10
  /-- KWATCH (R29). -/
  kwatch : BitVec 10
  /-- KIRQ_EN (R29). -/
  kirqEn : Bool
  /-- KAND (R29). -/
  kand : Bool
  /-- STORE, by offset (R30). -/
  store : Memory
  /-- BUSY (R31). -/
  busy : Bool
  /-- HDEPTH, 0 or 1 (R31). -/
  hdepth : Bool
  /-- Where the suspended HALT or VSYNC stands, while a handler runs (log 3). -/
  susp : Option Suspension
  /-- The command port's wires (R12). -/
  port : CmdPort
  /-- The response to the last register read (spec/30_encoding.md R71). -/
  rdata : Word
  /-- MEM, the guest bus memory (spec/20_memory.md R50, R52). -/
  mem : Memory
  /-- The host inputs as they stand (R32). -/
  host : HostInputs
  /-- What is still to be presented, the next item first (log 1). -/
  inputs : List Input
  /-- The output trace, oldest event first (R40). -/
  trace : List Event
deriving DecidableEq, Repr

/-- The reset state of a machine with these parameters (spec/10_state.md R45), STORE and MEM listing nothing
(log 5, log 6). -/
def State.initial (cfg : Config) : State :=
  { cfg := cfg
    line := 0
    vcmp := 0
    deadline := 0
    ie := 0
    ifReg := 0
    insvc := 0
    ime := false
    vec := Vector.replicate 14 none
    dma := Vector.replicate 4 DmaChannel.initial
    master := false
    ctl := Vector.replicate 2 SoundCtl.initial
    timer := Vector.replicate 2 Timer.initial
    snd := Vector.replicate 2 (SoundDma.initial cfg)
    mix := List.replicate cfg.mixCap (0, 0)
    mixn := 0
    keysnap := 0
    kwatch := 0
    kirqEn := false
    kand := false
    store := []
    busy := false
    hdepth := false
    susp := none
    port := CmdPort.initial
    rdata := 0
    mem := []
    host := HostInputs.initial
    inputs := []
    trace := [] }

/-- The machine right after its first reset, with the suggested parameters (spec/00_scope.md R5,
spec/10_state.md R45). -/
def State.reset : State := State.initial Config.default

end Sys2Proof.Machine
end

