-- ==== Sys2Proof/Machine/Flags.lean ====
section
/-! DEFINITION. Every flag and status code of the block (spec/10_state.md R18): the interrupt flags, VBLANK_FLAG,
the keypad condition, the storage status and the log codes, and the packing of one flag into a register. -/

namespace Sys2Proof.Machine

/-! ### One bit of a register -/

/-- A flag at bit `k` of a 16-bit register. -/
def flagAt (b : Bool) (k : Nat) : Half := (BitVec.ofBool b).setWidth 16 <<< k

/-- Bit `src` of an interrupt register (spec/10_state.md R20). -/
def flagOf (v : BitVec 14) (src : Source) : Bool := v.getLsbD src.val

/-- The interrupt register with bit `src` 1. -/
def setFlag (v : BitVec 14) (src : Source) : BitVec 14 := v ||| (1#14 <<< src.val)

/-- The interrupt register with bit `src` 0. -/
def clearFlag (v : BitVec 14) (src : Source) : BitVec 14 := v &&& ~~~(1#14 <<< src.val)

/-! ### Interrupt sources (spec/10_state.md R20) -/

/-- VBLANK, raised by the step of line 160. -/
def srcVblank : Source := 0

/-- HBLANK, raised by the step of a line below 160. -/
def srcHblank : Source := 1

/-- VCOUNT, raised when LINE = VCMP. -/
def srcVcount : Source := 2

/-- KEYPAD, raised by the step of line 160 after the input poll. -/
def srcKeypad : Source := 12

/-! ### The frame counter -/

/-- A line below 160 is visible (spec/10_state.md R17). -/
def visible (line : BitVec 8) : Bool := decide (line.toNat < Config.visibleLines)

/-- VBLANK_FLAG = (LINE >= 160) (spec/10_state.md R17). -/
def vblankFlag (line : BitVec 8) : Bool := decide (Config.vblankLine ≤ line.toNat)

/-- The line after this one: up by 1, 228 becoming 0 (spec/41_timing_engine.md R129). -/
def nextLine (line : BitVec 8) : BitVec 8 := BitVec.ofNat 8 ((line.toNat + 1) % Config.linesPerFrame)

/-! ### The keypad condition (spec/41_timing_engine.md R128) -/

/-- The condition over the watched buttons: all of them pressed (KAND = 1) or some (KAND = 0). -/
def keypadCondition (kand : Bool) (kwatch keys : BitVec 10) : Bool :=
  let hit := keys &&& kwatch
  if kand then decide (hit = kwatch) else decide (hit ≠ 0)

/-! ### Status and log codes -/

/-- The status of a storage command (spec/45_storage.md R220). -/
inductive StorageStatus where
  | ok
  | oversize
  | beforeStart
  | outOfRange
deriving DecidableEq, Repr

/-- The `res` value of a status (spec/45_storage.md R220). -/
def StorageStatus.code : StorageStatus → Word
  | .ok => 0
  | .oversize => 1
  | .beforeStart => 2
  | .outOfRange => 3

/-- The bounds check, in its fixed order of priority, on mathematical integers (spec/45_storage.md R221). -/
def storageCheck (size : Nat) (off : Int) (len : Nat) : StorageStatus :=
  if size < len then .oversize
  else if off < 0 then .beforeStart
  else if (size : Int) < off + len then .outOfRange
  else .ok

/-- The number of a LOG event (spec/44_firmware_calls.md R190). -/
def LogCode.number : LogCode → Nat
  | .badType => 1
  | .backref => 2
  | .scratchAlloc => 3

end Sys2Proof.Machine
end

