-- ==== Sys2Proof/Machine/Operands.lean ====
section
/-! DEFINITION. Every operand form of the block: the address of a bus access and the halves of a 32-bit register
(spec/20_memory.md R55), unit widths and address rounding (R54), the packed operands and data formats of
spec/30_encoding.md R73, and signed readings (spec/00_scope.md R7). -/

namespace Sys2Proof.Machine

/-! ### Bus accesses -/

/-- The number of bytes of an access. -/
def sizeBytes : AccessSize → Nat
  | .byte => 1
  | .half => 2
  | .word => 4

/-- The low half of a bus word, `wdata[15:0]`. -/
def lowHalf (v : Word) : Half := v.extractLsb' 0 16

/-- The high half of a bus word, `wdata[31:16]`. -/
def highHalf (v : Word) : Half := v.extractLsb' 16 16

/-- A word with its low (`hi = false`) or high (`hi = true`) half replaced. -/
def setHalf (hi : Bool) (v : Word) (h : Half) : Word :=
  if hi then h ++ lowHalf v else highHalf v ++ h

/-- The low or high half of a 32-bit register: the half at the lower address is bits 15:0
(spec/40_register_access.md R90). -/
def getHalf (hi : Bool) (v : Word) : Half := if hi then highHalf v else lowHalf v

/-! ### Units and rounding -/

/-- The unit width in bytes of a 16/32-bit flag (spec/42_dma.md R142, spec/44_firmware_calls.md R192). -/
def unitBytes (w32 : Bool) : Nat := if w32 then 4 else 2

/-- An address rounded down to a multiple of 2 or 4: `addr AND NOT (w-1)` (spec/20_memory.md R54). -/
def alignDown (addr : Word) (w : Nat) : Word := addr &&& ~~~(BitVec.ofNat 32 (w - 1))

/-! ### Signed readings -/

/-- `s8`: the signed meaning of a byte (spec/00_scope.md R7). -/
def s8 (b : Byte) : Int := b.toInt

/-- `sext_32` of a 32-bit storage offset: its two's complement value (spec/45_storage.md R220). -/
def storageOffset (v : Word) : Int := v.toInt

/-! ### The control word of CPUSET and CPUFASTSET (spec/44_firmware_calls.md R192, R195) -/

/-- `count`, bits 20:0. -/
def controlCount (control : Word) : Nat := (control.extractLsb' 0 21).toNat

/-- `fill`, bit 24. -/
def controlFill (control : Word) : Bool := control.getLsbD 24

/-- `w32`, bit 26. -/
def controlW32 (control : Word) : Bool := control.getLsbD 26

/-- The count of CPUFASTSET: truncated down to a multiple of 8 (spec/44_firmware_calls.md R195). -/
def fastCount (control : Word) : Nat := controlCount control / 8 * 8

/-! ### The data header (spec/44_firmware_calls.md R200) -/

/-- `type`, bits 7:4 of the header word. -/
def headerType (h : Nat) : Nat := h / 16 % 16

/-- `size`, bits 31:8 of the header word. -/
def headerSize (h : Nat) : Nat := h / 256

/-! ### LZ77 tokens (spec/44_firmware_calls.md R202, R203) -/

/-- The number of bytes a back-reference copies: `b0[7:4] + 3`. -/
def backrefLength (b0 : Nat) : Nat := b0 / 16 + 3

/-- The displacement field of a back-reference: `(b0[3:0] << 8) OR b1`. -/
def backrefDisp (b0 b1 : Nat) : Nat := b0 % 16 * 256 + b1

/-! ### Mixer configuration (spec/43_sound_mixer.md R162) -/

/-- PRESC of a prescaler code (spec/10_state.md R26). -/
def prescaler (psel : BitVec 2) : Nat :=
  if psel = 0 then 1 else if psel = 1 then 64 else if psel = 2 then 256 else 1024

/-- PERIOD of a timer: `(65536 - RELOAD) * PRESC`. -/
def period (t : Timer) : Nat := (65536 - t.reload.toNat) * prescaler t.psel

/-- LV of a channel: 1 + AMP if it is enabled to the left, else 0. -/
def leftVolume (c : SoundCtl) : Int := if c.left then (if c.amp then 2 else 1) else 0

/-- RV of a channel: 1 + AMP if it is enabled to the right, else 0. -/
def rightVolume (c : SoundCtl) : Int := if c.right then (if c.amp then 2 else 1) else 0

/-! ### Trigger codes (spec/10_state.md R21) -/

/-- The code of TRIG. -/
def triggerCode : Trigger → BitVec 2
  | .immediate => 0
  | .vblank => 1
  | .hblank => 2
  | .fifo => 3

/-- The trigger of a code. -/
def triggerOf (c : BitVec 2) : Trigger :=
  if c = 0 then .immediate else if c = 1 then .vblank else if c = 2 then .hblank else .fifo

end Sys2Proof.Machine
end

