-- ==== Sys2Proof/Machine/Ops.lean ====
section
/-! DEFINITION. The shared operations: bytes and units of a memory, the engine's access to MEM with EngineCheck
(spec/20_memory.md R52, R53, R56), the command port (spec/30_encoding.md R77, R82), the occurrence of an
interrupt, the entry of a handler and its return (spec/60_exceptions.md R233 to R236), and what the environment
does to the block (spec/70_reset_and_hazards.md R260, R261; spec/20_memory.md R58). -/

namespace Sys2Proof.Machine

/-! ### Byte memories -/

/-- What an unlisted address of MEM or STORE reads as (DESIGN CHOICE, log 5, log 6). -/
def blankByte : Byte := 0

/-- The byte at an address. -/
def Memory.read : Memory → Nat → Byte
  | [], _ => blankByte
  | (k, v) :: rest, a => if k = a then v else Memory.read rest a

/-- The memory with one byte replaced, in canonical form. -/
def Memory.write : Memory → Nat → Byte → Memory
  | [], a, b => if b = blankByte then [] else [(a, b)]
  | (k, v) :: rest, a, b =>
    if a < k then (if b = blankByte then (k, v) :: rest else (a, b) :: (k, v) :: rest)
    else if a = k then (if b = blankByte then rest else (a, b) :: rest)
    else (k, v) :: Memory.write rest a b

/-- The cells' addresses rise strictly from `low` and stay below `bound`, and no cell holds the byte an
unlisted address reads as. -/
def Memory.wfFrom (bound : Nat) : Nat → Memory → Bool
  | _, [] => true
  | low, (k, v) :: rest =>
    decide (low ≤ k) && decide (k < bound) && decide (v ≠ blankByte) && Memory.wfFrom bound (k + 1) rest

/-- The canonical form of a memory of `bound` bytes. -/
def Memory.wf (bound : Nat) (m : Memory) : Bool := Memory.wfFrom bound 0 m

/-- The number of bytes of MEM (spec/20_memory.md R52). -/
def memBytes : Nat := 2 ^ 32

/-! ### Units of MEM, little-endian, addresses wrapping modulo 2^32 (spec/20_memory.md R52, R53) -/

/-- The little-endian value of `n` bytes. -/
def readLE (m : Memory) : Nat → Word → Nat
  | 0, _ => 0
  | n + 1, addr => (m.read addr.toNat).toNat + 256 * readLE m n (addr + 1)

/-- The memory with the low `n` bytes of a value stored, lowest byte first. -/
def writeLE : Nat → Memory → Word → Nat → Memory
  | 0, m, _, _ => m
  | n + 1, m, addr, v => writeLE n (m.write addr.toNat (BitVec.ofNat 8 v)) (addr + 1) (v / 256)

/-! ### REGSET and EngineCheck -/

/-- The offsets from IO_BASE that registers occupy, first and last byte (spec/20_memory.md R51). -/
def regsetRanges : List (Nat × Nat) :=
  [ (0x004, 0x007), (0x082, 0x085), (0x0A0, 0x0A7), (0x0B0, 0x0DF),
    (0x100, 0x107), (0x130, 0x133), (0x200, 0x203), (0x208, 0x209) ]

/-- The byte address lies in REGSET (spec/20_memory.md R51). -/
def inRegset (addr : Word) : Bool :=
  regsetRanges.any fun r =>
    decide (Config.ioBase.toNat + r.1 ≤ addr.toNat) && decide (addr.toNat ≤ Config.ioBase.toNat + r.2)

/-- None of the `n` bytes from `addr` lies in REGSET: EngineCheck passes (spec/20_memory.md R56). -/
def engineOk : Nat → Word → Bool
  | 0, _ => true
  | n + 1, addr => !inRegset addr && engineOk n (addr + 1)

/-- All of the `n` bytes from `addr` lie in REGSET (spec/20_memory.md R55). -/
def allInRegset : Nat → Word → Bool
  | 0, _ => true
  | n + 1, addr => inRegset addr && allInRegset n (addr + 1)

/-- MemRead: an engine's read of `n` bytes (spec/00_scope.md R7). -/
def memRead (m : Memory) (addr : Word) (n : Nat) : Except Refusal Nat :=
  if engineOk n addr then .ok (readLE m n addr) else .error .engineAccessToRegisters

/-- MemWrite: an engine's write of `n` bytes (spec/00_scope.md R7). -/
def memWrite (m : Memory) (addr : Word) (n : Nat) (v : Nat) : Except Refusal Memory :=
  if engineOk n addr then .ok (writeLE n m addr v) else .error .engineAccessToRegisters

/-! ### Events and accessors -/

/-- `emit E` (spec/10_state.md R40). -/
def emit (e : Event) (s : State) : State := { s with trace := s.trace ++ [e] }

/-- DMA channel `n` replaced. -/
def setDma (n : DmaIndex) (c : DmaChannel) (s : State) : State := { s with dma := s.dma.set n c }

/-- The SOUNDCNT_H fields of channel `c` replaced. -/
def setCtl (c : Audio) (x : SoundCtl) (s : State) : State := { s with ctl := s.ctl.set c x }

/-- Timer `t` replaced. -/
def setTimer (t : TimerIndex) (x : Timer) (s : State) : State := { s with timer := s.timer.set t x }

/-- SoundDmaState of channel `c` replaced. -/
def setSnd (c : Audio) (x : SoundDma) (s : State) : State := { s with snd := s.snd.set c x }

/-- Byte `k` of CACHE. -/
def cacheByte (c : Cache) (k : Nat) : Byte :=
  match k with
  | 0 => c.b0
  | 1 => c.b1
  | 2 => c.b2
  | _ => c.b3

/-! ### The command port -/

/-- No operation is in progress, or control is inside a handler (spec/30_encoding.md R82). -/
def portFree (s : State) : Bool := !s.busy || s.hdepth

/-- An outcome of an operation that ends in a state or is refused. -/
def outcomeOf (r : Except Refusal State) : Host.Outcome State Fault Refusal :=
  match r with
  | .ok s => .next s
  | .error e => .refused e

/-- BUSY at the start of a command (spec/30_encoding.md R77). -/
def beginCommand (s : State) : State := { s with busy := true }

/-- The end of a command that returns `res`: BUSY <- 0, inside a handler too (spec/30_encoding.md R77). -/
def endCommand (res : Word) (s : State) : State :=
  { s with busy := false, port := { s.port with res := res } }

/-- A command that is accepted inside a handler too: it runs to its end in one step (spec/30_encoding.md R77,
R82). `body` gives the result `res` and the state. -/
def standalone (s : State) (body : Except Refusal (Word × State)) : Host.Outcome State Fault Refusal :=
  if portFree s then
    match body with
    | .ok (res, s') => .next (endCommand res s')
    | .error e => .refused e
  else .refused .operationWhileBusy

/-- The opcode and operands a CMD operation presents, on the port's wires (spec/10_state.md R12). -/
def latchOperands (w : BitVec 128) (s : State) : State :=
  { s with port := { s.port with op := cmdOp w, a0 := cmdA0 w, a1 := cmdA1 w, a2 := cmdA2 w } }

/-- The wires after an operation is presented: a register access leaves the command port's alone. -/
def latchPort (p : PortOp) (s : State) : State :=
  match p with
  | .cmd w => latchOperands w s
  | .bus _ => s

/-! ### Taking an interrupt (spec/60_exceptions.md R233, R234, R236) -/

/-- How a phase of a line step ends: the step goes on, control passes to a handler, or the run is refused. -/
inductive Flow where
  | go (s : State)
  | call (s : State)
  | stop (r : Refusal)
deriving DecidableEq, Repr

/-- `invoke`: entry of the handler `ref` of source `src`, raised in phase `phase` of command `cmd`. IF[src] is
cleared (R234), INSVC[src] and HDEPTH are set, CALL is emitted, and control is with the guest. -/
def invoke (cmd : TimingCmd) (phase : Phase) (src : Source) (ref : Word) (s : State) : State :=
  emit (.call src ref)
    { s with
      ifReg := clearFlag s.ifReg src
      insvc := setFlag s.insvc src
      hdepth := true
      susp := some { src := src, phase := phase, cmd := cmd } }

/-- `raise_irq`: one occurrence of source `src` (R233). -/
def raiseIrq (cmd : TimingCmd) (phase : Phase) (src : Source) (s : State) : Flow :=
  if flagOf s.ie src then
    let s1 := { s with ifReg := setFlag s.ifReg src }
    if s1.ime then
      match s1.vec[src] with
      | none => .go s1
      | some ref => .call (invoke cmd phase src ref s1)
    else .go s1
  else .go s

/-- The return of the handler in service: RET is emitted, INSVC and HDEPTH are cleared (R236), and the suspended
command is executing again, which is what BUSY = 1 says (spec/10_state.md R31; DEDUCED, log 9). -/
def leaveHandler (x : Suspension) (s : State) : State :=
  { emit (.ret x.src) s with
    busy := true
    insvc := clearFlag s.insvc x.src
    hdepth := false
    susp := none }

/-! ### The environment -/

/-- The reset event: every element of the block at its reset value, the trace empty, DEADLINE the host clock;
STORE and MEM are not touched (spec/70_reset_and_hazards.md R260, R261). It occurs only while no command is
executing, nor suspended at a handler (log 13). -/
def resetEvent (s : State) : Host.Outcome State Fault Refusal :=
  if s.busy || s.hdepth then .refused .resetWhileBusy
  else .next { State.initial s.cfg with
    deadline := s.host.now
    store := s.store
    mem := s.mem
    host := s.host
    inputs := s.inputs }

/-- A store of the platform into MEM; into REGSET it is an 8-bit register access, which is refused
(spec/20_memory.md R55, R58). -/
def platformStore (addr : Word) (b : Byte) (s : State) : Host.Outcome State Fault Refusal :=
  if inRegset addr then .refused .badRegisterAccess
  else .next { s with mem := s.mem.write addr.toNat b }

/-- The refusal of an operation that decodes to nothing. -/
def refusalOf (e : DecodeError) : Refusal :=
  match e with
  | .nonzeroZeroField => .nonzeroZeroField
  | .unassignedOpcode => .unassignedOpcode
  | .reservedSize => .badRegisterAccess
  | .notInRegset => .badRegisterAccess

end Sys2Proof.Machine
end

