-- ==== Sys2Proof/Machine/Firmware.lean ====
section
/-! DEFINITION. The firmware call emulation layer (spec/44_firmware_calls.md): block copy and fill, LZ77
decompression and the delta unfilters. They work on MEM only. -/

namespace Sys2Proof.Machine

/-! ### Block copy and fill (R192, R195) -/

/-- `k` units copied from `s` to `d`, unit by unit ascending, each written before the next one is read. -/
def copyUnits (w : Nat) : Nat → Word → Word → Memory → Except Refusal Memory
  | 0, _, _, m => .ok m
  | k + 1, s, d, m => do
    let v ← memRead m s w
    let m' ← memWrite m d w v
    copyUnits w k (s + BitVec.ofNat 32 w) (d + BitVec.ofNat 32 w) m'

/-- The value `v` written to `k` units from `d`, ascending. -/
def fillUnits (w : Nat) (v : Nat) : Nat → Word → Memory → Except Refusal Memory
  | 0, _, m => .ok m
  | k + 1, d, m => do
    let m' ← memWrite m d w v
    fillUnits w v k (d + BitVec.ofNat 32 w) m'

/-- A block copy or fill of `count` units of `w` bytes, both addresses rounded down to the unit width; a fill
reads its unit once, and only if there is a unit to write (R192). -/
def blockSet (fill : Bool) (count w : Nat) (src dst : Word) (m : Memory) : Except Refusal Memory :=
  let s := alignDown src w
  let d := alignDown dst w
  if fill then
    if 0 < count then do
      let v ← memRead m s w
      fillUnits w v count d m
    else .ok m
  else copyUnits w count s d m

/-- A firmware call that changes MEM alone and returns `res` = 0. -/
def memoryCall (s : State) (r : Except Refusal Memory) : Except Refusal (Word × State) :=
  match r with
  | .ok m => .ok (0, { s with mem := m })
  | .error e => .error e

/-- CPUSET, block copy / block fill (R192). -/
def execCpuset (src dst control : Word) (s : State) : Host.Outcome State Fault Refusal :=
  standalone s <| memoryCall (beginCommand s) <|
    blockSet (controlFill control) (controlCount control) (unitBytes (controlW32 control)) src dst s.mem

/-- CPUFASTSET: 32-bit units, the count truncated down to a multiple of 8 (R195). -/
def execCpufastset (src dst control : Word) (s : State) : Host.Outcome State Fault Refusal :=
  standalone s <| memoryCall (beginCommand s) <|
    blockSet (controlFill control) (fastCount control) 4 src dst s.mem

/-! ### The data header (R200) -/

/-- The header word at `src`: four single-byte reads. -/
def readHeader (m : Memory) (src : Word) : Except Refusal Nat := memRead m src 4

/-! ### LZ77 (R201 to R205) -/

/-- How a decode ends: with the whole output, or in an abort. -/
inductive LzEnd where
  | done (out : List Byte)
  | abort (code : LogCode)
deriving DecidableEq, Repr

/-- Copy `k` bytes one at a time from `dist` bytes back in the output (R203). -/
def copyBack (dist : Nat) : Nat → List Byte → List Byte
  | 0, out => out
  | k + 1, out => copyBack dist k (out ++ [out.getD (out.length - dist) 0])

/-- One token at `p`, with its control bit: the output and the next source address, or none where a
back-reference would read before the output's start (R201, R203, R204). -/
def lzToken (m : Memory) (size : Nat) (backref : Bool) (p : Word) (out : List Byte) :
    Except Refusal (Option (Word × List Byte)) :=
  if backref then do
    let b0 ← memRead m p 1
    let b1 ← memRead m (p + 1) 1
    let dist := backrefDisp b0 b1 + 1
    if out.length < dist then return none
    else return some (p + 2, copyBack dist (min (backrefLength b0) (size - out.length)) out)
  else do
    let b ← memRead m p 1
    return some (p + 1, out ++ [BitVec.ofNat 8 b])

/-- The control bits a token is governed by, how many of the control byte's bits are left after it, and the
token's address. `ctrl` is the control byte in use and `k` how many of its bits, from bit `k - 1` down, are still to
govern a token; with none left the next control byte is read (R202). -/
def lzControl (m : Memory) (ctrl : Byte) (k : Nat) (p : Word) : Except Refusal (Byte × Nat × Word) :=
  match k with
  | 0 => do
    let c ← memRead m p 1
    return (BitVec.ofNat 8 c, 7, p + 1)
  | k' + 1 => .ok (ctrl, k', p)

/-- The token loop; a control byte is read only while output is still needed (R202). `fuel` bounds the tokens: each
produces at least one byte, so `size` of them are enough (spec/70_reset_and_hazards.md R276). -/
def lzTokens (m : Memory) (size : Nat) : Nat → Byte → Nat → Word → List Byte → Except Refusal LzEnd
  | 0, _, _, _, out => .ok (.done out)
  | fuel + 1, ctrl, k, p, out =>
    if size ≤ out.length then .ok (.done out)
    else do
      let c ← lzControl m ctrl k p
      let r ← lzToken m size (c.1.getLsbD c.2.1) c.2.2 out
      match r with
      | none => .ok (.abort .backref)
      | some (p', out') => lzTokens m size fuel c.1 c.2.1 p' out'

/-- The decode of the stream at `src` into the scratch buffer (R201). -/
def lzDecode (cap : Nat) (allocOk : Bool) (m : Memory) (src : Word) : Except Refusal LzEnd := do
  let h ← readHeader m src
  if headerType h ≠ 1 then return .abort .badType
  else if cap < headerSize h ∨ allocOk = false then return .abort .scratchAlloc
  else lzTokens m (headerSize h) (headerSize h) 0 0 (src + 4) []

/-- Single bytes written to MEM in ascending order (R205). -/
def writeBytes : List Byte → Word → Memory → Except Refusal Memory
  | [], _, m => .ok m
  | b :: bs, d, m => do
    let m' ← memWrite m d 1 b.toNat
    writeBytes bs (d + 1) m'

/-- LZ77's effect: the decoded bytes committed, or a LOG event and nothing written (R190, R201, R205). -/
def lzCall (src dst : Word) (s : State) : Except Refusal State := do
  let r ← lzDecode s.cfg.scratchCap s.host.allocOk s.mem src
  match r with
  | .abort code => return emit (.log code) s
  | .done out => do
    let m' ← writeBytes out dst s.mem
    return { s with mem := m' }

/-- LZ77 (R201). -/
def execLz77 (src dst : Word) (s : State) : Host.Outcome State Fault Refusal :=
  standalone s <|
    match lzCall src dst (beginCommand s) with
    | .ok s' => .ok (0, s')
    | .error e => .error e

/-! ### Delta unfilters (R208, R209) -/

/-- `k` elements of `w` bytes: each output is the running sum modulo 2^(8 w), written as soon as it is computed;
`s` and `d` are the next input and output addresses. -/
def unfilter (w : Nat) : Nat → Nat → Word → Word → Memory → Except Refusal Memory
  | 0, _, _, _, m => .ok m
  | k + 1, acc, s, d, m => do
    let x ← memRead m s w
    let acc' := (acc + x) % 256 ^ w
    let m' ← memWrite m d w acc'
    unfilter w k acc' (s + BitVec.ofNat 32 w) (d + BitVec.ofNat 32 w) m'

/-- The unfilter of the data at `src`: the header's type is not examined, and a trailing byte that fills no
element is neither read nor written (R208, R209). -/
def unfilterCall (w : Nat) (src dst : Word) (m : Memory) : Except Refusal Memory := do
  let h ← readHeader m src
  unfilter w (headerSize h / w) 0 (src + 4) dst m

/-- DIFF8 (R208). -/
def execDiff8 (src dst : Word) (s : State) : Host.Outcome State Fault Refusal :=
  standalone s <| memoryCall (beginCommand s) <| unfilterCall 1 src dst s.mem

/-- DIFF16 (R209). -/
def execDiff16 (src dst : Word) (s : State) : Host.Outcome State Fault Refusal :=
  standalone s <| memoryCall (beginCommand s) <| unfilterCall 2 src dst s.mem

end Sys2Proof.Machine
end

