-- ==== Sys2Proof/Machine/Interrupts.lean ====
section
/-! DEFINITION. Handler registration (spec/60_exceptions.md R238). The occurrence of an interrupt, the entry of
its handler and the return are in Machine/Ops.lean. -/

namespace Sys2Proof.Machine

/-- A handler reference operand: 0 is none (R238). -/
def handlerOf (ref : Word) : Option Word := if ref = 0 then none else some ref

/-- VEC[source] replaced; an index of 14 or more is ignored (R238). -/
def registerHandler (source ref : Word) (s : State) : State :=
  if h : source.toNat < 14 then { s with vec := s.vec.set source.toNat (handlerOf ref) } else s

/-- IRQ_SET_HANDLER (R238). -/
def execIrqSetHandler (source ref : Word) (s : State) : Host.Outcome State Fault Refusal :=
  standalone s (.ok (0, registerHandler source ref (beginCommand s)))

end Sys2Proof.Machine
end

