-- ==== Sys2Proof/Machine/Dma.lean ====
section
/-! DEFINITION. The DMA engine (spec/42_dma.md): the block transfer, trigger evaluation, the immediate transfer,
and the supplier side of FIFO-demand channels. It has no activity of its own: a register write, a line step or a
mixer refill calls it, and it runs to completion. -/

namespace Sys2Proof.Machine

/-- The unit width of a channel in bytes (R142). -/
def dmaWidth (c : DmaChannel) : Nat := unitBytes c.w32

/-- The channel after one unit: each latch stepped by the unit width unless its operand is fixed (R142, R143). -/
def dmaAdvance (c : DmaChannel) : DmaChannel :=
  { c with
    isrc := if c.srcFixed then c.isrc else c.isrc + BitVec.ofNat 32 (dmaWidth c)
    idst := if c.dstFixed then c.idst else c.idst + BitVec.ofNat 32 (dmaWidth c) }

/-- `k` units, each read and written before the next one is read (R143). -/
def dmaUnits : Nat → DmaChannel → Memory → Except Refusal (DmaChannel × Memory)
  | 0, c, m => .ok (c, m)
  | k + 1, c, m => do
    let v ← memRead m (alignDown c.isrc (dmaWidth c)) (dmaWidth c)
    let m' ← memWrite m (alignDown c.idst (dmaWidth c)) (dmaWidth c) v
    dmaUnits k (dmaAdvance c) m'

/-- `dma_block(n)`: CNT[n] units, the count read once (R143). -/
def dmaBlock (n : DmaIndex) (s : State) : Except Refusal State := do
  let r ← dmaUnits s.dma[n].cnt.toNat s.dma[n] s.mem
  return setDma n r.1 { s with mem := r.2 }

/-- "self-disables unless repeat is set" (R141, R150). -/
def disableUnlessRepeat (c : DmaChannel) : DmaChannel := { c with en := c.en && c.rep }

/-- The channel is armed and waits for this trigger (R140, R141). -/
def armedFor (ev : Trigger) (c : DmaChannel) : Bool := c.en && decide (c.trig = ev)

/-- Channel `n`'s turn in the evaluation of a trigger (R141). -/
def dmaTurn (ev : Trigger) (n : DmaIndex) (s : State) : Except Refusal State :=
  if armedFor ev s.dma[n] then do
    let s' ← dmaBlock n s
    return setDma n (disableUnlessRepeat s'.dma[n]) s'
  else .ok s

/-- `dma_trigger(ev)`: the channels in ascending index (R141). -/
def dmaTrigger (ev : Trigger) (s : State) : Except Refusal State := do
  let s0 ← dmaTurn ev 0 s
  let s1 ← dmaTurn ev 1 s0
  let s2 ← dmaTurn ev 2 s1
  dmaTurn ev 3 s2

/-- `dma_run(n)`: the immediate transfer; the channel self-disables whatever REPEAT holds (R146). -/
def dmaRun (n : DmaIndex) (s : State) : Except Refusal State := do
  let s' ← dmaBlock n s
  return setDma n { s'.dma[n] with en := false } s'

/-! ### FIFO-demand channels, the supplier side (R150) -/

/-- FIFOADDR of an audio channel. -/
def fifoAddr (c : Audio) : Word := if c = 0 then 0x040000A0#32 else 0x040000A4#32

/-- The channel is armed for FIFO demand and its destination register names this audio channel. -/
def feeds (c : Audio) (ch : DmaChannel) : Bool := armedFor .fifo ch && decide (ch.dad = fifoAddr c)

/-- The channel that supplies audio channel `c`: the lowest index wins. -/
def supplier (c : Audio) (dma : Vector DmaChannel 4) : Option DmaIndex :=
  ([0, 1, 2, 3] : List DmaIndex).find? fun n => feeds c dma[n]

/-- The supplying channel after one demand. -/
def afterSupply (ch : DmaChannel) : DmaChannel :=
  disableUnlessRepeat { ch with isrc := if ch.srcFixed then ch.isrc else ch.isrc + 4 }

/-- The four bytes a channel supplies: single-byte reads from ISRC rounded down to 4, ascending. -/
def supplyBytes (m : Memory) (ch : DmaChannel) : Except Refusal Cache := do
  let base := alignDown ch.isrc 4
  let b0 ← memRead m base 1
  let b1 ← memRead m (base + 1) 1
  let b2 ← memRead m (base + 2) 1
  let b3 ← memRead m (base + 3) 1
  return ⟨BitVec.ofNat 8 b0, BitVec.ofNat 8 b1, BitVec.ofNat 8 b2, BitVec.ofNat 8 b3⟩

/-- `fifo_supply(c)`: the bytes, if a channel supplies any, and the DMA channels afterwards. -/
def fifoSupply (c : Audio) (m : Memory) (dma : Vector DmaChannel 4) :
    Except Refusal (Option Cache × Vector DmaChannel 4) :=
  match supplier c dma with
  | none => .ok (none, dma)
  | some n => do
    let bytes ← supplyBytes m dma[n]
    return (some bytes, dma.set n (afterSupply dma[n]))

end Sys2Proof.Machine
end

