-- ==== Sys2Proof/Machine/Mixer.lean ====
section
/-! DEFINITION. The sound mixer (spec/43_sound_mixer.md): the synthesis of one frame of each audio channel, the
mix, and its submission. It runs once a frame, as phase P7 of the line-160 step. -/

namespace Sys2Proof.Machine

/-- What a tick of one audio channel changes: its SoundDmaState and, through the FIFO demand, the DMA channels. -/
abbrev Feed := SoundDma × Vector DmaChannel 4

/-- Take the next byte of the cache, lowest address first (R165). -/
def takeByte (d : SoundDma) : SoundDma :=
  if 0 < d.rem then { d with cur := cacheByte d.cache (4 - d.rem), rem := d.rem - 1 } else d

/-- Refill an empty cache from the FIFO-demand channel, if one supplies (R165, R166). -/
def refill (c : Audio) (m : Memory) (f : Feed) : Except Refusal Feed :=
  if f.1.rem = 0 then do
    let r ← fifoSupply c m f.2
    match r.1 with
    | none => return (f.1, r.2)
    | some bytes => return ({ f.1 with cache := bytes, rem := 4 }, r.2)
  else .ok f

/-- `pop(c)` (R165). -/
def pop (c : Audio) (m : Memory) (f : Feed) : Except Refusal Feed := do
  let r ← refill c m f
  return (takeByte r.1, r.2)

/-- The source side of a tick: the counter fires where it is at most 1, reloads and pops (R164). -/
def sourceSide (c : Audio) (m : Memory) (per : Nat) (f : Feed) : Except Refusal Feed :=
  if f.1.srcclk ≤ 1 then pop c m ({ f.1 with srcclk := per }, f.2)
  else .ok ({ f.1 with srcclk := f.1.srcclk - 1 }, f.2)

/-- Append the held byte to the frame's buffer, within its capacity (R164). -/
def appendSample (cap : Nat) (d : SoundDma) : SoundDma :=
  if d.bufn < cap then { d with buf := d.buf.set d.bufn d.cur, bufn := d.bufn + 1 } else d

/-- The output side of a tick (R164). -/
def outputSide (cfg : Config) (d : SoundDma) : SoundDma :=
  if d.outclk ≤ 1 then appendSample cfg.bufCap { d with outclk := cfg.clocksPerSample }
  else { d with outclk := d.outclk - 1 }

/-- `tick(c, t)`: the source side, then the output side (R164). -/
def tick (c : Audio) (cfg : Config) (m : Memory) (per : Nat) (f : Feed) : Except Refusal Feed := do
  let r ← sourceSide c m per f
  return (outputSide cfg r.1, r.2)

/-- `k` simulated clocks. -/
def ticks (c : Audio) (cfg : Config) (m : Memory) (per : Nat) : Nat → Feed → Except Refusal Feed
  | 0, f => .ok f
  | k + 1, f => do
    let f' ← tick c cfg m per f
    ticks c cfg m per k f'

/-- A stopped timer yields silence: SAMPLES_PER_FRAME zeros, nothing else changed (R163). -/
def silentFrame (cfg : Config) (d : SoundDma) : SoundDma :=
  { d with
    buf := List.replicate cfg.samplesPerFrame 0 ++ d.buf.drop cfg.samplesPerFrame
    bufn := cfg.samplesPerFrame }

/-- The timer that clocks audio channel `c`, read at mix time (R162). -/
def timerOf (c : Audio) (s : State) : Timer := s.timer[s.ctl[c].tsel]

/-- `synth(c)`: one frame of channel `c` (R163). -/
def synth (c : Audio) (s : State) : Except Refusal State :=
  let d := { s.snd[c] with bufn := 0 }
  if (timerOf c s).start then do
    let f ← ticks c s.cfg s.mem (period (timerOf c s)) s.cfg.clocksPerFrame (d, s.dma)
    return { setSnd c f.1 s with dma := f.2 }
  else .ok (setSnd c (silentFrame s.cfg d) s)

/-- The sample of a channel at an output index, 0 past its end (R170). -/
def sampleAt (d : SoundDma) (i : Nat) : Int := if i < d.bufn then s8 (d.buf.getD i 0) else 0

/-- One mixed pair: `a * LV(A) + b * LV(B)` and `a * RV(A) + b * RV(B)`, scaled (R170). -/
def mixedPair (ctlA ctlB : SoundCtl) (a b : Int) : Pcm × Pcm :=
  (BitVec.ofInt 16 ((a * leftVolume ctlA + b * leftVolume ctlB) * Config.mixScale),
   BitVec.ofInt 16 ((a * rightVolume ctlA + b * rightVolume ctlB) * Config.mixScale))

/-- The number of pairs of a mix: the longer channel's, within MIX_CAP (R170). -/
def mixLength (s : State) : Nat := min (max s.snd[0].bufn s.snd[1].bufn) s.cfg.mixCap

/-- `mix()` (R170). -/
def mixChannels (s : State) : State :=
  let n := mixLength s
  { s with
    mix := (List.range n).map
        (fun i => mixedPair s.ctl[0] s.ctl[1] (sampleAt s.snd[0] i) (sampleAt s.snd[1] i))
      ++ s.mix.drop n
    mixn := n }

/-- `silent_mix()`: the empty-mix path, the channels not simulated at all (R161). -/
def silentMix (s : State) : State :=
  { s with
    mix := List.replicate s.cfg.samplesPerFrame (0, 0) ++ s.mix.drop s.cfg.samplesPerFrame
    mixn := s.cfg.samplesPerFrame }

/-- The number of pairs the host gets: under backpressure the final pair is dropped (R175). -/
def submittedLength (s : State) : Nat :=
  if s.host.queueOver && decide (0 < s.mixn) then s.mixn - 1 else s.mixn

/-- `submit()`: the capture sink gets the full buffer, then the host its copy (R175). -/
def submit (s : State) : State :=
  emit (.audio (s.mix.take (submittedLength s)))
    { emit (.capture (s.mix.take s.mixn)) s with mixn := submittedLength s }

/-- The mixed buffer of the frame, not yet submitted (R160). -/
def mixFrame (s : State) : Except Refusal State :=
  let s0 := { s with mixn := 0 }
  if s0.master then do
    let s1 ← synth 0 s0
    let s2 ← synth 1 s1
    return mixChannels s2
  else .ok (silentMix s0)

/-- `sound_mix_frame()` (R160). -/
def soundMixFrame (s : State) : Except Refusal State := do
  let s' ← mixFrame s
  return submit s'

/-- `fifo_reset(c)`: REM, CACHE and CUR are cleared, nothing else (R168). -/
def fifoReset (c : Audio) (s : State) : State :=
  setSnd c { s.snd[c] with rem := 0, cache := Cache.initial, cur := 0 } s

end Sys2Proof.Machine
end

