-- ==== Sys2Proof/Machine/Registers.lean ====
section
/-! DEFINITION. Register access operations (spec/40_register_access.md): what a read of each register returns,
what a write of each register does, the general procedure of a bus access (R90), and the 31 register rows. -/

namespace Sys2Proof.Machine

/-! ### Display timing -/

/-- DISPSTAT reads `(VCMP << 8) OR VBLANK_FLAG` (R91). -/
def readDispstat (s : State) : Half := (s.vcmp.setWidth 16 <<< 8) ||| flagAt (vblankFlag s.line) 0

/-- A write of DISPSTAT sets VCMP; bits 7:0 are ignored (R91). -/
def writeDispstat (v : Half) (s : State) : State := { s with vcmp := v.extractLsb' 8 8 }

/-- VCOUNT reads LINE (R92). -/
def readVcount (s : State) : Half := s.line.setWidth 16

/-! ### Sound control -/

/-- SOUNDCNT_H reads its stored fields; bits 11 and 15 read 0 (R93). -/
def readSoundcntH (s : State) : Half :=
  let a := s.ctl[0]
  let b := s.ctl[1]
  flagAt (decide (b.tsel = 1)) 14 ||| flagAt b.left 13 ||| flagAt b.right 12
    ||| flagAt (decide (a.tsel = 1)) 10 ||| flagAt a.left 9 ||| flagAt a.right 8
    ||| flagAt b.amp 3 ||| flagAt a.amp 2

/-- The timer a TSEL bit selects (spec/10_state.md R24). -/
def timerSelect (b : Bool) : TimerIndex := if b then 1 else 0

/-- The fields a write of SOUNDCNT_H stores for channel A (R93). -/
def ctlOfA (v : Half) : SoundCtl :=
  { amp := v.getLsbD 2, right := v.getLsbD 8, left := v.getLsbD 9, tsel := timerSelect (v.getLsbD 10) }

/-- The fields a write of SOUNDCNT_H stores for channel B (R93). -/
def ctlOfB (v : Half) : SoundCtl :=
  { amp := v.getLsbD 3, right := v.getLsbD 12, left := v.getLsbD 13, tsel := timerSelect (v.getLsbD 14) }

/-- A write of SOUNDCNT_H stores the fields, then bits 11 and 15 reset the FIFOs (R93). -/
def writeSoundcntH (v : Half) (s : State) : State :=
  let s1 := setCtl 1 (ctlOfB v) (setCtl 0 (ctlOfA v) s)
  let s2 := if v.getLsbD 11 then fifoReset 0 s1 else s1
  if v.getLsbD 15 then fifoReset 1 s2 else s2

/-- SOUNDCNT_X reads `MASTER << 7` (R94). -/
def readSoundcntX (s : State) : Half := flagAt s.master 7

/-- A write of SOUNDCNT_X sets MASTER (R94). -/
def writeSoundcntX (v : Half) (s : State) : State := { s with master := v.getLsbD 7 }

/-! ### DMA -/

/-- DMAnSAD reads SAD[n], half by half (R97). -/
def readSad (n : DmaIndex) (hi : Bool) (s : State) : Half := getHalf hi s.dma[n].sad

/-- A write replaces a half of SAD[n]; the latch is not touched (R97). -/
def writeSad (n : DmaIndex) (hi : Bool) (v : Half) (s : State) : State :=
  setDma n { s.dma[n] with sad := setHalf hi s.dma[n].sad v } s

/-- DMAnDAD reads DAD[n], half by half (R98). -/
def readDad (n : DmaIndex) (hi : Bool) (s : State) : Half := getHalf hi s.dma[n].dad

/-- A write replaces a half of DAD[n]; the latch is not touched (R98). -/
def writeDad (n : DmaIndex) (hi : Bool) (v : Half) (s : State) : State :=
  setDma n { s.dma[n] with dad := setHalf hi s.dma[n].dad v } s

/-- DMAnCNT_L reads CNT[n] (R99). -/
def readCntL (n : DmaIndex) (s : State) : Half := s.dma[n].cnt

/-- A write of DMAnCNT_L sets CNT[n] (R99). -/
def writeCntL (n : DmaIndex) (v : Half) (s : State) : State := setDma n { s.dma[n] with cnt := v } s

/-- DMAnCNT_H reads the control fields (R100). -/
def readCntH (n : DmaIndex) (s : State) : Half :=
  let c := s.dma[n]
  flagAt c.en 15 ||| ((triggerCode c.trig).setWidth 16 <<< 12) ||| flagAt c.w32 10 ||| flagAt c.rep 9
    ||| flagAt c.srcFixed 8 ||| flagAt c.dstFixed 6

/-- The channel with the fields a write of DMAnCNT_H stores (R100). -/
def withControl (v : Half) (c : DmaChannel) : DmaChannel :=
  { c with
    dstFixed := v.getLsbD 6
    srcFixed := v.getLsbD 8
    rep := v.getLsbD 9
    w32 := v.getLsbD 10
    trig := triggerOf (v.extractLsb' 12 2)
    en := v.getLsbD 15 }

/-- The channel with its latches loaded, as the enable edge does (R100). -/
def loadLatches (c : DmaChannel) : DmaChannel := { c with isrc := c.sad, idst := c.dad }

/-- A write of DMAnCNT_H: the fields are stored; at the enable edge the latches are loaded and an immediate
transfer runs to completion. Bits 5 and 7 must be 0 (R100). -/
def writeCntH (n : DmaIndex) (v : Half) (s : State) : Except Refusal State :=
  if v.getLsbD 5 || v.getLsbD 7 then .error .dmaModeNotInSource
  else
    let c := withControl v s.dma[n]
    if !s.dma[n].en && c.en then
      let s1 := setDma n (loadLatches c) s
      if c.trig = .immediate then dmaRun n s1 else .ok s1
    else .ok (setDma n c s)

/-! ### Timers -/

/-- TMtCNT_L reads RELOAD[t]: there is no running counter (R101, R103). -/
def readTmL (t : TimerIndex) (s : State) : Half := s.timer[t].reload

/-- A write of TMtCNT_L sets RELOAD[t] (R101, R103). -/
def writeTmL (t : TimerIndex) (v : Half) (s : State) : State := setTimer t { s.timer[t] with reload := v } s

/-- TMtCNT_H reads `(START << 7) OR PSEL` (R102, R104). -/
def readTmH (t : TimerIndex) (s : State) : Half :=
  flagAt s.timer[t].start 7 ||| s.timer[t].psel.setWidth 16

/-- A write of TMtCNT_H sets PSEL[t] and START[t]; no counter is touched (R102, R104). -/
def writeTmH (t : TimerIndex) (v : Half) (s : State) : State :=
  setTimer t { s.timer[t] with psel := v.extractLsb' 0 2, start := v.getLsbD 7 } s

/-! ### Keypad -/

/-- KEYINPUT reads `(NOT KEYSNAP) AND 0x03FF` (R105). -/
def readKeyinput (s : State) : Half := (~~~s.keysnap).setWidth 16

/-- KEYCNT reads `(KAND << 15) OR (KIRQ_EN << 14) OR KWATCH` (R106). -/
def readKeycnt (s : State) : Half := flagAt s.kand 15 ||| flagAt s.kirqEn 14 ||| s.kwatch.setWidth 16

/-- A write of KEYCNT sets KWATCH, KIRQ_EN and KAND; the condition is not evaluated (R106). -/
def writeKeycnt (v : Half) (s : State) : State :=
  { s with kwatch := v.extractLsb' 0 10, kirqEn := v.getLsbD 14, kand := v.getLsbD 15 }

/-! ### Interrupt control -/

/-- IE reads its 14 bits (R108). -/
def readIe (s : State) : Half := s.ie.setWidth 16

/-- A write of IE replaces its 14 bits; nothing is delivered (R108). -/
def writeIe (v : Half) (s : State) : State := { s with ie := v.extractLsb' 0 14 }

/-- IF reads its 14 bits (R107). -/
def readIf (s : State) : Half := s.ifReg.setWidth 16

/-- A write of IF clears the bits written 1 (R107). -/
def writeIf (v : Half) (s : State) : State := { s with ifReg := s.ifReg &&& ~~~(v.extractLsb' 0 14) }

/-- IME reads its bit (R109). -/
def readIme (s : State) : Half := flagAt s.ime 0

/-- A write of IME sets its bit; nothing is delivered (R109). -/
def writeIme (v : Half) (s : State) : State := { s with ime := v.getLsbD 0 }

/-! ### The cells of the register window -/

/-- A 16-bit cell: a 16-bit register, or the low (`hi = false`) or high half of a 32-bit one (R90). -/
inductive Cell where
  | dispstat
  | vcount
  | soundcntH
  | soundcntX
  | fifo (c : Audio) (hi : Bool)
  | sad (n : DmaIndex) (hi : Bool)
  | dad (n : DmaIndex) (hi : Bool)
  | cntL (n : DmaIndex)
  | cntH (n : DmaIndex)
  | tmL (t : TimerIndex)
  | tmH (t : TimerIndex)
  | keyinput
  | keycnt
  | ie
  | iF
  | ime
deriving DecidableEq, Repr

/-- The cells of the display timing and sound control registers and of the FIFO addresses, by offset
(spec/10_state.md R34). -/
def displaySoundCells : List (Nat × Cell) :=
  [ (0x004, .dispstat), (0x006, .vcount), (0x082, .soundcntH), (0x084, .soundcntX),
    (0x0A0, .fifo 0 false), (0x0A2, .fifo 0 true), (0x0A4, .fifo 1 false), (0x0A6, .fifo 1 true) ]

/-- The cells of DMA channel `n`, by offset: CB(n) = 0x0B0 + 12 n (spec/10_state.md R21). -/
def dmaCells (n : DmaIndex) : List (Nat × Cell) :=
  let cb := 0x0B0 + 12 * n.val
  [ (cb, .sad n false), (cb + 2, .sad n true), (cb + 4, .dad n false), (cb + 6, .dad n true),
    (cb + 8, .cntL n), (cb + 10, .cntH n) ]

/-- The cells of the timer, keypad and interrupt control registers, by offset (spec/10_state.md R34). -/
def timerKeyIrqCells : List (Nat × Cell) :=
  [ (0x100, .tmL 0), (0x102, .tmH 0), (0x104, .tmL 1), (0x106, .tmH 1), (0x130, .keyinput), (0x132, .keycnt),
    (0x200, .ie), (0x202, .iF), (0x208, .ime) ]

/-- All cells (spec/10_state.md R34). -/
def cells : List (Nat × Cell) :=
  displaySoundCells ++ dmaCells 0 ++ dmaCells 1 ++ dmaCells 2 ++ dmaCells 3 ++ timerKeyIrqCells

/-- The cell at a bus address, if one starts there. -/
def cellAt (addr : Word) : Option Cell :=
  (cells.find? fun r => decide (Config.ioBase.toNat + r.1 = addr.toNat)).map (·.2)

/-- What a 16-bit read of a cell returns; it changes no state. -/
def readCell (c : Cell) (s : State) : Half :=
  match c with
  | .dispstat => readDispstat s
  | .vcount => readVcount s
  | .soundcntH => readSoundcntH s
  | .soundcntX => readSoundcntX s
  | .fifo _ _ => 0
  | .sad n hi => readSad n hi s
  | .dad n hi => readDad n hi s
  | .cntL n => readCntL n s
  | .cntH n => readCntH n s
  | .tmL t => readTmL t s
  | .tmH t => readTmH t s
  | .keyinput => readKeyinput s
  | .keycnt => readKeycnt s
  | .ie => readIe s
  | .iF => readIf s
  | .ime => readIme s

/-- What a 16-bit write of a cell does; VCOUNT, KEYINPUT and the FIFO addresses ignore it (R92, R95, R96,
R105). -/
def writeCell (c : Cell) (v : Half) (s : State) : Except Refusal State :=
  match c with
  | .dispstat => .ok (writeDispstat v s)
  | .vcount => .ok s
  | .soundcntH => .ok (writeSoundcntH v s)
  | .soundcntX => .ok (writeSoundcntX v s)
  | .fifo _ _ => .ok s
  | .sad n hi => .ok (writeSad n hi v s)
  | .dad n hi => .ok (writeDad n hi v s)
  | .cntL n => .ok (writeCntL n v s)
  | .cntH n => writeCntH n v s
  | .tmL t => .ok (writeTmL t v s)
  | .tmH t => .ok (writeTmH t v s)
  | .keyinput => .ok s
  | .keycnt => .ok (writeKeycnt v s)
  | .ie => .ok (writeIe v s)
  | .iF => .ok (writeIf v s)
  | .ime => .ok (writeIme v s)

/-! ### The general procedure (R90) -/

/-- The address of an access to the register at `base`. -/
def accessAddr (base : Word) (a : BusAccess) : Word := base + a.off.setWidth 32

/-- An access is 16-bit at an even address or 32-bit at a multiple of 4, and wholly inside REGSET (R90,
spec/20_memory.md R55). -/
def accessOk (addr : Word) (size : AccessSize) : Bool :=
  decide (size ≠ .byte) && decide (addr.toNat % sizeBytes size = 0) && allInRegset (sizeBytes size) addr

/-- `access16` for a read. -/
def read16 (addr : Word) (s : State) : Except Refusal Half :=
  match cellAt addr with
  | some c => .ok (readCell c s)
  | none => .error .badRegisterAccess

/-- `access16` for a write. -/
def write16 (addr : Word) (v : Half) (s : State) : Except Refusal State :=
  match cellAt addr with
  | some c => writeCell c v s
  | none => .error .badRegisterAccess

/-- A read: `rdata` is the value, of 16 or 32 bits; a 32-bit read is the low half, then the high half (R90). -/
def busRead (size : AccessSize) (addr : Word) (s : State) : Except Refusal State :=
  match size with
  | .word => do
    let lo ← read16 addr s
    let hi ← read16 (addr + 2) s
    return { s with rdata := hi ++ lo }
  | _ => do
    let v ← read16 addr s
    return { s with rdata := v.setWidth 32 }

/-- A write: a 32-bit write is the low half, then the high half, each with its own side effects (R90,
spec/20_memory.md R55). -/
def busWrite (size : AccessSize) (addr wdata : Word) (s : State) : Except Refusal State :=
  match size with
  | .word => do
    let s1 ← write16 addr (lowHalf wdata) s
    write16 (addr + 2) (highHalf wdata) s1
  | _ => write16 addr (lowHalf wdata) s

/-- A guest bus access to the register at `base` (R90); accepted inside a handler too (spec/30_encoding.md
R82). A malformed access while a command is in progress is refused for the latter (DESIGN CHOICE, log 23). -/
def registerAccess (base : Word) (a : BusAccess) (s : State) : Host.Outcome State Fault Refusal :=
  let addr := accessAddr base a
  if !portFree s then .refused .operationWhileBusy
  else if !accessOk addr a.size then .refused .badRegisterAccess
  else
    match a.dir with
    | .read => outcomeOf (busRead a.size addr s)
    | .write => outcomeOf (busWrite a.size addr a.wdata s)

/-! ### The register rows -/

/-- REG.DISPSTAT (R91). -/
def execRegDispstat (a : BusAccess) (s : State) : Host.Outcome State Fault Refusal :=
  registerAccess 0x04000004#32 a s

/-- REG.VCOUNT (R92). -/
def execRegVcount (a : BusAccess) (s : State) : Host.Outcome State Fault Refusal :=
  registerAccess 0x04000006#32 a s

/-- REG.SOUNDCNT_H (R93). -/
def execRegSoundcntH (a : BusAccess) (s : State) : Host.Outcome State Fault Refusal :=
  registerAccess 0x04000082#32 a s

/-- REG.SOUNDCNT_X (R94). -/
def execRegSoundcntX (a : BusAccess) (s : State) : Host.Outcome State Fault Refusal :=
  registerAccess 0x04000084#32 a s

/-- REG.FIFO_A (R95). -/
def execRegFifoA (a : BusAccess) (s : State) : Host.Outcome State Fault Refusal :=
  registerAccess 0x040000A0#32 a s

/-- REG.FIFO_B (R96). -/
def execRegFifoB (a : BusAccess) (s : State) : Host.Outcome State Fault Refusal :=
  registerAccess 0x040000A4#32 a s

/-- REG.DMA0SAD (R97). -/
def execRegDma0Sad (a : BusAccess) (s : State) : Host.Outcome State Fault Refusal :=
  registerAccess 0x040000B0#32 a s

/-- REG.DMA0DAD (R98). -/
def execRegDma0Dad (a : BusAccess) (s : State) : Host.Outcome State Fault Refusal :=
  registerAccess 0x040000B4#32 a s

/-- REG.DMA0CNT_L (R99). -/
def execRegDma0CntL (a : BusAccess) (s : State) : Host.Outcome State Fault Refusal :=
  registerAccess 0x040000B8#32 a s

/-- REG.DMA0CNT_H (R100). -/
def execRegDma0CntH (a : BusAccess) (s : State) : Host.Outcome State Fault Refusal :=
  registerAccess 0x040000BA#32 a s

/-- REG.DMA1SAD (R97). -/
def execRegDma1Sad (a : BusAccess) (s : State) : Host.Outcome State Fault Refusal :=
  registerAccess 0x040000BC#32 a s

/-- REG.DMA1DAD (R98). -/
def execRegDma1Dad (a : BusAccess) (s : State) : Host.Outcome State Fault Refusal :=
  registerAccess 0x040000C0#32 a s

/-- REG.DMA1CNT_L (R99). -/
def execRegDma1CntL (a : BusAccess) (s : State) : Host.Outcome State Fault Refusal :=
  registerAccess 0x040000C4#32 a s

/-- REG.DMA1CNT_H (R100). -/
def execRegDma1CntH (a : BusAccess) (s : State) : Host.Outcome State Fault Refusal :=
  registerAccess 0x040000C6#32 a s

/-- REG.DMA2SAD (R97). -/
def execRegDma2Sad (a : BusAccess) (s : State) : Host.Outcome State Fault Refusal :=
  registerAccess 0x040000C8#32 a s

/-- REG.DMA2DAD (R98). -/
def execRegDma2Dad (a : BusAccess) (s : State) : Host.Outcome State Fault Refusal :=
  registerAccess 0x040000CC#32 a s

/-- REG.DMA2CNT_L (R99). -/
def execRegDma2CntL (a : BusAccess) (s : State) : Host.Outcome State Fault Refusal :=
  registerAccess 0x040000D0#32 a s

/-- REG.DMA2CNT_H (R100). -/
def execRegDma2CntH (a : BusAccess) (s : State) : Host.Outcome State Fault Refusal :=
  registerAccess 0x040000D2#32 a s

/-- REG.DMA3SAD (R97). -/
def execRegDma3Sad (a : BusAccess) (s : State) : Host.Outcome State Fault Refusal :=
  registerAccess 0x040000D4#32 a s

/-- REG.DMA3DAD (R98). -/
def execRegDma3Dad (a : BusAccess) (s : State) : Host.Outcome State Fault Refusal :=
  registerAccess 0x040000D8#32 a s

/-- REG.DMA3CNT_L (R99). -/
def execRegDma3CntL (a : BusAccess) (s : State) : Host.Outcome State Fault Refusal :=
  registerAccess 0x040000DC#32 a s

/-- REG.DMA3CNT_H (R100). -/
def execRegDma3CntH (a : BusAccess) (s : State) : Host.Outcome State Fault Refusal :=
  registerAccess 0x040000DE#32 a s

/-- REG.TM0CNT_L (R101). -/
def execRegTm0CntL (a : BusAccess) (s : State) : Host.Outcome State Fault Refusal :=
  registerAccess 0x04000100#32 a s

/-- REG.TM0CNT_H (R102). -/
def execRegTm0CntH (a : BusAccess) (s : State) : Host.Outcome State Fault Refusal :=
  registerAccess 0x04000102#32 a s

/-- REG.TM1CNT_L (R103). -/
def execRegTm1CntL (a : BusAccess) (s : State) : Host.Outcome State Fault Refusal :=
  registerAccess 0x04000104#32 a s

/-- REG.TM1CNT_H (R104). -/
def execRegTm1CntH (a : BusAccess) (s : State) : Host.Outcome State Fault Refusal :=
  registerAccess 0x04000106#32 a s

/-- REG.KEYINPUT (R105). -/
def execRegKeyinput (a : BusAccess) (s : State) : Host.Outcome State Fault Refusal :=
  registerAccess 0x04000130#32 a s

/-- REG.KEYCNT (R106). -/
def execRegKeycnt (a : BusAccess) (s : State) : Host.Outcome State Fault Refusal :=
  registerAccess 0x04000132#32 a s

/-- REG.IE (R108). -/
def execRegIe (a : BusAccess) (s : State) : Host.Outcome State Fault Refusal :=
  registerAccess 0x04000200#32 a s

/-- REG.IF (R107). -/
def execRegIf (a : BusAccess) (s : State) : Host.Outcome State Fault Refusal :=
  registerAccess 0x04000202#32 a s

/-- REG.IME (R109). -/
def execRegIme (a : BusAccess) (s : State) : Host.Outcome State Fault Refusal :=
  registerAccess 0x04000208#32 a s

end Sys2Proof.Machine
end

