-- ==== Sys2Proof/Machine/Storage.lean ====
section
/-! DEFINITION. The persistent storage accessor (spec/45_storage.md): the bounds-checked SRAM_READ and
SRAM_WRITE. -/

namespace Sys2Proof.Machine

/-- `k` bytes of STORE from offset `off` written to MEM from `d`, ascending (R222). -/
def storeToMem (store : Memory) : Nat → Nat → Word → Memory → Except Refusal Memory
  | 0, _, _, m => .ok m
  | k + 1, off, d, m => do
    let m' ← memWrite m d 1 (store.read off).toNat
    storeToMem store k (off + 1) (d + 1) m'

/-- `k` bytes of MEM from `src` written to STORE from offset `off`, ascending (R223). -/
def memToStore (m : Memory) : Nat → Nat → Word → Memory → Except Refusal Memory
  | 0, _, _, store => .ok store
  | k + 1, off, src, store => do
    let b ← memRead m src 1
    memToStore m k (off + 1) (src + 1) (store.write off (BitVec.ofNat 8 b))

/-- The status of a request on this machine's region (R221). -/
def storageStatus (offset length : Word) (s : State) : StorageStatus :=
  storageCheck s.cfg.storageSize (storageOffset offset) length.toNat

/-- A storage command: where the check says ok, `transfer` with the region offset; `res` is the status code and
nothing else changes where it says anything but ok (R221, R225). -/
def storageCall (offset length : Word) (s : State) (transfer : Nat → Except Refusal State) :
    Except Refusal (Word × State) :=
  if storageStatus offset length s = .ok then
    match transfer (storageOffset offset).toNat with
    | .ok s' => .ok (StorageStatus.ok.code, s')
    | .error e => .error e
  else .ok ((storageStatus offset length s).code, s)

/-- SRAM_READ (R222). -/
def execSramRead (dest offset length : Word) (s : State) : Host.Outcome State Fault Refusal :=
  standalone s <| storageCall offset length (beginCommand s) fun off => do
    let m ← storeToMem s.store length.toNat off dest s.mem
    return { beginCommand s with mem := m }

/-- SRAM_WRITE (R223). -/
def execSramWrite (offset src length : Word) (s : State) : Host.Outcome State Fault Refusal :=
  standalone s <| storageCall offset length (beginCommand s) fun off => do
    let store ← memToStore s.mem length.toNat off src s.store
    return { beginCommand s with store := store }

end Sys2Proof.Machine
end

