-- ==== Sys2Proof/Machine/Timing.lean ====
section
/-! DEFINITION. The scanline timing engine (spec/41_timing_engine.md): the phases of a line step, the commands
HALT and VSYNC, and how a suspended one goes on when its handler returns. -/

namespace Sys2Proof.Machine

/-- The argument of SLEEP: the time left to the deadline, at most one frame period (R127, spec/60_exceptions.md R251;
log 22). -/
def sleepTime (deadline now : Nat) : Nat := min (deadline - now) Config.framePeriod

/-- Phase P8: host pacing (R127); times in sixtieths of a millisecond (log 8). -/
def pacingWait (s : State) : State :=
  if s.host.fastForward then s
  else
    let d := s.deadline + Config.framePeriod
    if s.host.now < d then emit (.sleep (sleepTime d s.host.now)) { s with deadline := d }
    else if Config.framePeriod < s.host.now - d then { s with deadline := s.host.now }
    else { s with deadline := d }

/-- Phase P9's poll: KEYSNAP takes the host's keys (R128). -/
def pollKeys (s : State) : State := { s with keysnap := s.host.keys }

/-- A phase that can only go on or be refused. -/
def flowOf (r : Except Refusal State) : Flow :=
  match r with
  | .ok s => .go s
  | .error e => .stop e

/-- One phase of a line step of command `cmd` (R120 to R129). -/
def runPhase (cmd : TimingCmd) (p : Phase) (s : State) : Flow :=
  match p with
  | .p1 => if s.line = s.vcmp then raiseIrq cmd .p1 srcVcount s else .go s
  | .p2 => if visible s.line then .go (emit (.draw s.line) s) else .go s
  | .p3 => if visible s.line then flowOf (dmaTrigger .hblank s) else .go s
  | .p4 => if visible s.line then raiseIrq cmd .p4 srcHblank s else .go s
  | .p5 => if s.line.toNat = Config.vblankLine then flowOf (dmaTrigger .vblank s) else .go s
  | .p6 => if s.line.toNat = Config.vblankLine then raiseIrq cmd .p6 srcVblank s else .go s
  | .p7 => if s.line.toNat = Config.vblankLine then flowOf (soundMixFrame (emit .present s)) else .go s
  | .p8 => if s.line.toNat = Config.vblankLine then .go (pacingWait s) else .go s
  | .p9 =>
    if s.line.toNat = Config.vblankLine then
      let s1 := pollKeys s
      if s1.kirqEn && keypadCondition s1.kand s1.kwatch s1.keysnap then raiseIrq cmd .p9 srcKeypad s1
      else .go s1
    else .go s
  | .p10 => .go { s with line := nextLine s.line }

/-- Phases one after another, until control passes to a handler or the run is refused. -/
def runPhases (cmd : TimingCmd) : List Phase → State → Flow
  | [], s => .go s
  | p :: ps, s =>
    match runPhase cmd p s with
    | .go s' => runPhases cmd ps s'
    | .call s' => .call s'
    | .stop r => .stop r

/-- The phases of a whole line step, in order (R120). -/
def allPhases : List Phase := [.p1, .p2, .p3, .p4, .p5, .p6, .p7, .p8, .p9, .p10]

/-- The phases of a line step that come after this one. -/
def phasesAfter (p : Phase) : List Phase :=
  match p with
  | .p1 => [.p2, .p3, .p4, .p5, .p6, .p7, .p8, .p9, .p10]
  | .p2 => [.p3, .p4, .p5, .p6, .p7, .p8, .p9, .p10]
  | .p3 => [.p4, .p5, .p6, .p7, .p8, .p9, .p10]
  | .p4 => [.p5, .p6, .p7, .p8, .p9, .p10]
  | .p5 => [.p6, .p7, .p8, .p9, .p10]
  | .p6 => [.p7, .p8, .p9, .p10]
  | .p7 => [.p8, .p9, .p10]
  | .p8 => [.p9, .p10]
  | .p9 => [.p10]
  | .p10 => []

/-- Whether the command ends after a line step: HALT always (R130), VSYNC once LINE = 160 (R131). -/
def commandDone (cmd : TimingCmd) (s : State) : Bool :=
  match cmd with
  | .halt => true
  | .vsync => decide (s.line.toNat = Config.vblankLine)

/-- The end of HALT or VSYNC: BUSY <- 0, `res` = 0 (spec/30_encoding.md R77). -/
def endTiming (s : State) : State := endCommand 0 s

/-- The rest of a line step and the line steps after it, until the command ends or a handler is called. At most
`more` further lines are stepped: from every LINE, VSYNC reaches 160 within 228 steps (R131). -/
def lineSteps (cmd : TimingCmd) : Nat → List Phase → State → Host.Outcome State Fault Refusal
  | 0, ps, s =>
    match runPhases cmd ps s with
    | .go s' => .next (endTiming s')
    | .call s' => .next s'
    | .stop r => .refused r
  | more + 1, ps, s =>
    match runPhases cmd ps s with
    | .go s' => if commandDone cmd s' then .next (endTiming s') else lineSteps cmd more allPhases s'
    | .call s' => .next s'
    | .stop r => .refused r

/-- HALT and VSYNC: accepted in the main flow only (spec/30_encoding.md R82). The command ends in this step, or
is suspended in it at its first handler invocation. -/
def timingCommand (cmd : TimingCmd) (s : State) : Host.Outcome State Fault Refusal :=
  if s.hdepth then .refused .timingCommandInHandler
  else if s.busy then .refused .operationWhileBusy
  else lineSteps cmd (Config.linesPerFrame - 1) allPhases (beginCommand s)

/-- HALT: one line step (R130). -/
def execHalt (s : State) : Host.Outcome State Fault Refusal := timingCommand .halt s

/-- VSYNC: line steps until LINE = 160, at least one (R131). -/
def execVsync (s : State) : Host.Outcome State Fault Refusal := timingCommand .vsync s

/-- The handler in service returns: the suspended command goes on with the phases after the one that raised it
(spec/60_exceptions.md R236). -/
def handlerReturn (s : State) : Host.Outcome State Fault Refusal :=
  if s.hdepth then
    match s.susp with
    | some x => lineSteps x.cmd (Config.linesPerFrame - 1) (phasesAfter x.phase) (leaveHandler x s)
    | none => .fault .lostResumePoint
  else .refused .returnOutsideHandler

end Sys2Proof.Machine
end

