-- ==== Sys2Proof/Machine/Dispatch.lean ====
section
/-! DEFINITION. The meaning of every operation: one arm per constructor of Instr. -/

namespace Sys2Proof.Machine

def exec (i : Instr) (s : State) : Host.Outcome State Fault Refusal :=
  match i with
  | .halt => Sys2Proof.Machine.execHalt s
  | .vsync => Sys2Proof.Machine.execVsync s
  | .cpuset src dst control => Sys2Proof.Machine.execCpuset src dst control s
  | .cpufastset src dst control => Sys2Proof.Machine.execCpufastset src dst control s
  | .lz77 src dst => Sys2Proof.Machine.execLz77 src dst s
  | .diff8 src dst => Sys2Proof.Machine.execDiff8 src dst s
  | .diff16 src dst => Sys2Proof.Machine.execDiff16 src dst s
  | .sramRead dest offset length => Sys2Proof.Machine.execSramRead dest offset length s
  | .sramWrite offset src length => Sys2Proof.Machine.execSramWrite offset src length s
  | .irqSetHandler source ref => Sys2Proof.Machine.execIrqSetHandler source ref s
  | .regDispstat a => Sys2Proof.Machine.execRegDispstat a s
  | .regVcount a => Sys2Proof.Machine.execRegVcount a s
  | .regSoundcntH a => Sys2Proof.Machine.execRegSoundcntH a s
  | .regSoundcntX a => Sys2Proof.Machine.execRegSoundcntX a s
  | .regFifoA a => Sys2Proof.Machine.execRegFifoA a s
  | .regFifoB a => Sys2Proof.Machine.execRegFifoB a s
  | .regDma0Sad a => Sys2Proof.Machine.execRegDma0Sad a s
  | .regDma0Dad a => Sys2Proof.Machine.execRegDma0Dad a s
  | .regDma0CntL a => Sys2Proof.Machine.execRegDma0CntL a s
  | .regDma0CntH a => Sys2Proof.Machine.execRegDma0CntH a s
  | .regDma1Sad a => Sys2Proof.Machine.execRegDma1Sad a s
  | .regDma1Dad a => Sys2Proof.Machine.execRegDma1Dad a s
  | .regDma1CntL a => Sys2Proof.Machine.execRegDma1CntL a s
  | .regDma1CntH a => Sys2Proof.Machine.execRegDma1CntH a s
  | .regDma2Sad a => Sys2Proof.Machine.execRegDma2Sad a s
  | .regDma2Dad a => Sys2Proof.Machine.execRegDma2Dad a s
  | .regDma2CntL a => Sys2Proof.Machine.execRegDma2CntL a s
  | .regDma2CntH a => Sys2Proof.Machine.execRegDma2CntH a s
  | .regDma3Sad a => Sys2Proof.Machine.execRegDma3Sad a s
  | .regDma3Dad a => Sys2Proof.Machine.execRegDma3Dad a s
  | .regDma3CntL a => Sys2Proof.Machine.execRegDma3CntL a s
  | .regDma3CntH a => Sys2Proof.Machine.execRegDma3CntH a s
  | .regTm0CntL a => Sys2Proof.Machine.execRegTm0CntL a s
  | .regTm0CntH a => Sys2Proof.Machine.execRegTm0CntH a s
  | .regTm1CntL a => Sys2Proof.Machine.execRegTm1CntL a s
  | .regTm1CntH a => Sys2Proof.Machine.execRegTm1CntH a s
  | .regKeyinput a => Sys2Proof.Machine.execRegKeyinput a s
  | .regKeycnt a => Sys2Proof.Machine.execRegKeycnt a s
  | .regIe a => Sys2Proof.Machine.execRegIe a s
  | .regIf a => Sys2Proof.Machine.execRegIf a s
  | .regIme a => Sys2Proof.Machine.execRegIme a s

end Sys2Proof.Machine
end

