-- ==== Sys2Proof/Machine/Inputs.lean ====
section
/-! DEFINITION. What the block does with one item that the guest or the environment presents (spec/00_scope.md
R6; log 1). -/

namespace Sys2Proof.Machine

/-- An operation presented at a port: its operands are latched and it is executed to completion, or to its first
handler invocation (spec/30_encoding.md R77). A word that is no operation is refused as such, BUSY or not (DESIGN CHOICE,
log 23). -/
def presentOp (p : PortOp) (s : State) : Host.Outcome State Fault Refusal :=
  match decode p with
  | .error e => .refused (refusalOf e)
  | .ok i => exec i (latchPort p s)

/-- One item of the input list. -/
def takeInput (x : Input) (s : State) : Host.Outcome State Fault Refusal :=
  match x with
  | .op p => presentOp p s
  | .ret => handlerReturn s
  | .reset => resetEvent s
  | .host h => .next { s with host := h }
  | .store addr b => platformStore addr b s

end Sys2Proof.Machine
end

