-- ==== Sys2Proof/Machine/Step.lean ====
section
/-! DEFINITION. One step of the machine: the block takes the next item presented to it (spec/00_scope.md R6;
log 1, log 2). -/

namespace Sys2Proof.Machine

/-- The step: with nothing presented the block waits, and nothing of it changes by itself
(spec/70_reset_and_hazards.md R261, R264). -/
def step (s : State) : Host.Outcome State Fault Refusal :=
  match s.inputs with
  | [] => .next s
  | x :: rest => takeInput x { s with inputs := rest }

/-- The state in which the next step runs the operation with these opcode-table bits: the guest presents it
next. -/
def State.withFetchWord (s : State) (nbits w : Nat) : State :=
  { s with inputs := .op (tableOp nbits w) :: s.inputs }

end Sys2Proof.Machine
end

