-- ==== Sys2Proof/Safety.lean ====
section
/-! DEFINITION. What a legal state is (spec/10_state.md R41 and the bounds of R14, R27, R28), in the terms the
statements use, and when the engines' accesses stay clear of the register window (spec/20_memory.md R56). -/

namespace Sys2Proof.Machine

/-- The parameters fit together: a silent frame is within the capacity of the buffers it is written to
(spec/00_scope.md R5, spec/43_sound_mixer.md R161, R163; log 4). -/
def capacitiesHold (cfg : Config) : Prop := cfg.samplesPerFrame ≤ cfg.bufCap ∧ cfg.samplesPerFrame ≤ cfg.mixCap

/-- An audio channel within its bounds (spec/10_state.md R27). -/
def soundLegal (cfg : Config) (d : SoundDma) : Prop :=
  d.rem ≤ 4 ∧ d.bufn ≤ cfg.bufCap ∧ d.buf.length = cfg.bufCap ∧ d.srcclk ≤ 2 ^ 26 ∧
    d.outclk ≤ cfg.clocksPerSample

/-- The held byte is the one last taken from the cache: `CUR = CACHE[3 - REM]` (spec/10_state.md R27, an
inference the spec marks as derived). -/
def curFollowsCache (d : SoundDma) : Prop := d.rem ≤ 3 ∧ d.cur = cacheByte d.cache (3 - d.rem)

/-- A source and the phase that raises it (spec/60_exceptions.md R230). -/
def dispatchPoint (src : Source) (p : Phase) : Prop :=
  (src = srcVcount ∧ p = .p1) ∨ (src = srcHblank ∧ p = .p4) ∨ (src = srcVblank ∧ p = .p6) ∨
    (src = srcKeypad ∧ p = .p9)

/-- The sequencing state agrees with itself: a command is suspended iff control is inside a handler, and the source
in service is the one that was raised; outside a handler no command is left executing (spec/10_state.md R19, R31,
spec/60_exceptions.md R236, R240). -/
def handlerContext (s : State) : Prop :=
  match s.susp with
  | none => s.busy = false ∧ s.hdepth = false ∧ s.insvc = 0
  | some x => s.hdepth = true ∧ s.insvc = setFlag 0 x.src ∧ dispatchPoint x.src x.phase

/-- The mixed buffer within its capacity (spec/10_state.md R28). -/
def mixLegal (s : State) : Prop := s.mixn ≤ s.cfg.mixCap ∧ s.mix.length = s.cfg.mixCap

/-- The legal states: the line index in [0, 227], every buffer cursor within its capacity, the memories in
canonical form and STORE within its region, the sequencing state consistent (spec/10_state.md R41), and parameters under
which a silent frame fits the buffers (log 4). -/
structure State.Inv (s : State) : Prop where
  params : capacitiesHold s.cfg
  line_lt : s.line.toNat < Config.linesPerFrame
  sound : ∀ c : Audio, soundLegal s.cfg s.snd[c]
  mixed : mixLegal s
  mem_wf : s.mem.wf memBytes = true
  store_wf : s.store.wf s.cfg.storageSize = true
  handler : handlerContext s

/-- The main flow: no command in progress, control in no handler (spec/30_encoding.md R82). -/
def mainFlow (s : State) : Prop := s.busy = false ∧ s.hdepth = false

/-- An occurrence of the source reaches no handler: it is disabled, the gate is shut, or no handler is registered
(spec/60_exceptions.md R233). -/
def unserved (src : Source) (s : State) : Prop := flagOf s.ie src = false ∨ s.ime = false ∨ s.vec[src] = none

/-- An occurrence of the source enters this handler (spec/60_exceptions.md R233). -/
def served (src : Source) (ref : Word) (s : State) : Prop :=
  flagOf s.ie src = true ∧ s.ime = true ∧ s.vec[src] = some ref

/-- The poll of line 160 raises the KEYPAD occurrence (spec/41_timing_engine.md R128). -/
abbrev keypadHit (s : State) : Prop :=
  s.kirqEn = true ∧ (if s.kand then s.host.keys &&& s.kwatch = s.kwatch else s.host.keys &&& s.kwatch ≠ 0)

/-- No occurrence of the line step at hand reaches a handler (spec/41_timing_engine.md R121, R123, R124, R128,
spec/60_exceptions.md R233). -/
def lineUnserved (s : State) : Prop :=
  (s.line = s.vcmp → unserved srcVcount s) ∧ (s.line.toNat < 160 → unserved srcHblank s) ∧
    (s.line.toNat = 160 → unserved srcVblank s ∧ (keypadHit s → unserved srcKeypad s))

/-- IF after the VCOUNT occurrence of the line, where no handler takes it (spec/41_timing_engine.md R121,
spec/60_exceptions.md R233). -/
def vcountLatched (s : State) : BitVec 14 := s.ifReg ||| (if s.line = s.vcmp then s.ie &&& 0x0004#14 else 0)

/-- No DMA channel is armed (spec/42_dma.md R140). -/
def dmaIdle (s : State) : Prop := ∀ n : DmaIndex, s.dma[n].en = false

/-- The `k` bytes from an address are all outside REGSET (spec/20_memory.md R56). -/
def clearOf (addr : Word) (k : Nat) : Prop := ∀ i, i < k → inRegset (addr + BitVec.ofNat 32 i) = false

/-! ### Where an engine reads and writes -/

/-- The `k` bytes from one address and the `n` bytes from another share none. -/
def apart (x : Word) (k : Nat) (y : Word) (n : Nat) : Prop :=
  ∀ i j, i < k → j < n → x + BitVec.ofNat 32 i ≠ y + BitVec.ofNat 32 j

/-- The byte address is none of the `k` from `addr`. -/
def outside (a : Nat) (addr : Word) (k : Nat) : Prop := ∀ i, i < k → (addr + BitVec.ofNat 32 i).toNat ≠ a

/-- A latch after `k` units: stepped by the unit width unless its operand is fixed (spec/42_dma.md R142, R143). -/
def latchAfter (fixed : Bool) (w : Nat) (a : Word) (k : Nat) : Word :=
  if fixed then a else a + BitVec.ofNat 32 (k * w)

/-- The channel after `k` units: the latches stepped `k` times, every other field as it was (spec/42_dma.md
R143). -/
def channelAfter (c : DmaChannel) (k : Nat) : DmaChannel :=
  { c with
    isrc := latchAfter c.srcFixed (dmaWidth c) c.isrc k
    idst := latchAfter c.dstFixed (dmaWidth c) c.idst k }

/-- The address unit `k` of a transfer is read at (spec/42_dma.md R143). -/
def unitSource (c : DmaChannel) (k : Nat) : Word :=
  alignDown (latchAfter c.srcFixed (dmaWidth c) c.isrc k) (dmaWidth c)

/-- The address unit `k` of a transfer is stored to (spec/42_dma.md R143). -/
def unitDest (c : DmaChannel) (k : Nat) : Word :=
  alignDown (latchAfter c.dstFixed (dmaWidth c) c.idst k) (dmaWidth c)

/-- Every unit of a transfer of `k` units is read and stored outside REGSET (spec/20_memory.md R56). -/
def transferClear (c : DmaChannel) (k : Nat) : Prop :=
  ∀ j, j < k → clearOf (unitSource c j) (dmaWidth c) ∧ clearOf (unitDest c j) (dmaWidth c)

/-- Every unit of the channels armed for a trigger is read and stored outside REGSET (spec/20_memory.md R56). -/
def armedClear (ev : Trigger) (s : State) : Prop :=
  ∀ n : DmaIndex, s.dma[n].en = true → s.dma[n].trig = ev → transferClear s.dma[n] s.dma[n].cnt.toNat

/-- `m'` is `m` after `k` units of a transfer: unit by unit, the bytes at the unit's destination are those its source
holds by then, and every other byte is as it was (spec/42_dma.md R143). -/
def transfers (c : DmaChannel) : Nat → Memory → Memory → Prop
  | 0, m, m' => m' = m
  | k + 1, m, m' => ∃ m1, transfers c k m m1 ∧
      (∀ i, i < dmaWidth c →
        m'.read (unitDest c k + BitVec.ofNat 32 i).toNat = m1.read (unitSource c k + BitVec.ofNat 32 i).toNat) ∧
      ∀ a, outside a (unitDest c k) (dmaWidth c) → m'.read a = m1.read a

/-- Whatever a frame's audio demands of the armed FIFO channels is read outside REGSET: at most one demand a simulated
clock of either audio channel (spec/42_dma.md R150, spec/20_memory.md R56). -/
def feedsClear (s : State) : Prop :=
  ∀ (n : DmaIndex) (k : Nat), s.dma[n].en = true → s.dma[n].trig = .fifo → k < 2 * s.cfg.clocksPerFrame →
    clearOf (alignDown (latchAfter s.dma[n].srcFixed 4 s.dma[n].isrc k) 4) 4

/-- The accesses of the line step at hand are all clear of the register window (spec/20_memory.md R56). -/
def lineClear (s : State) : Prop :=
  (s.line.toNat < 160 → armedClear .hblank s) ∧ (s.line.toNat = 160 → armedClear .vblank s ∧ feedsClear s)

/-- No DMA channel waits for a blanking trigger (spec/42_dma.md R141). -/
def blankingIdle (s : State) : Prop :=
  ∀ n : DmaIndex, s.dma[n].en = true → s.dma[n].trig ≠ .hblank ∧ s.dma[n].trig ≠ .vblank

/-! ### Data in memory -/

/-- The address of unit `k` of a block of units of `w` bytes at an address that is rounded down to the unit width
(spec/44_firmware_calls.md R192). -/
def blockUnit (addr : Word) (w k : Nat) : Word := alignDown addr w + BitVec.ofNat 32 (k * w)

/-- `type` of the data header at an address: the high nibble of its first byte (spec/44_firmware_calls.md R200). -/
def declaredType (m : Memory) (src : Word) : Nat := (m.read src.toNat).toNat / 16

/-- `size` of the data header at an address: its second, third and fourth bytes, least significant first
(spec/44_firmware_calls.md R200). -/
def declaredSize (m : Memory) (src : Word) : Nat :=
  (m.read (src + 1).toNat).toNat + 256 * (m.read (src + 2).toNat).toNat + 65536 * (m.read (src + 3).toNat).toNat

/-! ### Operations by register number -/

/-- HALT and VSYNC. -/
def timingOp (cmd : TimingCmd) : Instr :=
  match cmd with
  | .halt => .halt
  | .vsync => .vsync

/-- REG.FIFO_A and REG.FIFO_B. -/
def fifoOp (c : Audio) (a : BusAccess) : Instr :=
  match c with
  | 0 => .regFifoA a
  | 1 => .regFifoB a

/-- REG.DMA0SAD to REG.DMA3SAD. -/
def sadOp (n : DmaIndex) (a : BusAccess) : Instr :=
  match n with
  | 0 => .regDma0Sad a
  | 1 => .regDma1Sad a
  | 2 => .regDma2Sad a
  | 3 => .regDma3Sad a

/-- REG.DMA0DAD to REG.DMA3DAD. -/
def dadOp (n : DmaIndex) (a : BusAccess) : Instr :=
  match n with
  | 0 => .regDma0Dad a
  | 1 => .regDma1Dad a
  | 2 => .regDma2Dad a
  | 3 => .regDma3Dad a

/-- REG.DMA0CNT_L to REG.DMA3CNT_L. -/
def cntLOp (n : DmaIndex) (a : BusAccess) : Instr :=
  match n with
  | 0 => .regDma0CntL a
  | 1 => .regDma1CntL a
  | 2 => .regDma2CntL a
  | 3 => .regDma3CntL a

/-- REG.DMA0CNT_H to REG.DMA3CNT_H. -/
def cntHOp (n : DmaIndex) (a : BusAccess) : Instr :=
  match n with
  | 0 => .regDma0CntH a
  | 1 => .regDma1CntH a
  | 2 => .regDma2CntH a
  | 3 => .regDma3CntH a

/-- REG.TM0CNT_L and REG.TM1CNT_L. -/
def tmLOp (t : TimerIndex) (a : BusAccess) : Instr :=
  match t with
  | 0 => .regTm0CntL a
  | 1 => .regTm1CntL a

/-- REG.TM0CNT_H and REG.TM1CNT_H. -/
def tmHOp (t : TimerIndex) (a : BusAccess) : Instr :=
  match t with
  | 0 => .regTm0CntH a
  | 1 => .regTm1CntH a

/-- The register access the operation is, none for a command. -/
def accessOf (i : Instr) : Option BusAccess :=
  match i with
  | .halt => none
  | .vsync => none
  | .cpuset _ _ _ => none
  | .cpufastset _ _ _ => none
  | .lz77 _ _ => none
  | .diff8 _ _ => none
  | .diff16 _ _ => none
  | .sramRead _ _ _ => none
  | .sramWrite _ _ _ => none
  | .irqSetHandler _ _ => none
  | .regDispstat a => some a
  | .regVcount a => some a
  | .regSoundcntH a => some a
  | .regSoundcntX a => some a
  | .regFifoA a => some a
  | .regFifoB a => some a
  | .regDma0Sad a => some a
  | .regDma0Dad a => some a
  | .regDma0CntL a => some a
  | .regDma0CntH a => some a
  | .regDma1Sad a => some a
  | .regDma1Dad a => some a
  | .regDma1CntL a => some a
  | .regDma1CntH a => some a
  | .regDma2Sad a => some a
  | .regDma2Dad a => some a
  | .regDma2CntL a => some a
  | .regDma2CntH a => some a
  | .regDma3Sad a => some a
  | .regDma3Dad a => some a
  | .regDma3CntL a => some a
  | .regDma3CntH a => some a
  | .regTm0CntL a => some a
  | .regTm0CntH a => some a
  | .regTm1CntL a => some a
  | .regTm1CntH a => some a
  | .regKeyinput a => some a
  | .regKeycnt a => some a
  | .regIe a => some a
  | .regIf a => some a
  | .regIme a => some a

/-! ### Runs of the timing commands -/

/-- `n` HALT commands one after another, each completed without a handler invocation. -/
def haltsReach : Nat → State → State → Prop
  | 0, s, t => t = s
  | n + 1, s, t => ∃ u, exec .halt s = .next u ∧ u.hdepth = false ∧ haltsReach n u t

/-- The place of a phase in the line step (spec/41_timing_engine.md R120). -/
def phaseNumber (p : Phase) : Nat :=
  match p with
  | .p1 => 1
  | .p2 => 2
  | .p3 => 3
  | .p4 => 4
  | .p5 => 5
  | .p6 => 6
  | .p7 => 7
  | .p8 => 8
  | .p9 => 9
  | .p10 => 10

/-- The state in which the step of line 160 ends once its frame is mixed to `v`, where the KEYPAD occurrence enters no
handler: pacing, the poll, the next line (spec/41_timing_engine.md R127 to R129). -/
def afterFlush (v : State) : State :=
  { pacingWait v with
    line := 161
    keysnap := v.host.keys
    ifReg := v.ifReg ||| (if keypadHit v then v.ie &&& 0x1000#14 else 0) }

/-- An event of the VBlank effects: presentation, the audio flush, the pacing (spec/41_timing_engine.md R125, R127). -/
def vblankEvent : Event → Bool
  | .call _ _ => false
  | .ret _ => false
  | .draw _ => false
  | .present => true
  | .capture _ => true
  | .audio _ => true
  | .sleep _ => true
  | .log _ => false

/-- The number of PRESENT events in a trace. -/
def presents (tr : List Event) : Nat := tr.count .present

end Sys2Proof.Machine
end

