-- ==== Sys2Proof/Certificates/Slice0/Obligations.lean ====
section
/-! DEFINITION. The statements for the provers, in the order of OBLIGATIONS.json. Each is stated over the machine of
Machine/Step.lean; a premise on a state is on the state and the operands alone. -/

open Sys2Proof Sys2Proof.Machine

/-! ### The machine as a whole -/

/-- At reset the invariant holds, and the held byte of each audio channel agrees with its cache, whatever the OPEN
parameters, where a silent frame fits the buffers (spec/10_state.md R41, R45, spec/00_scope.md R5; the last is log 4, the
blank memories are the model's choice, log 5 and log 6). -/
def Obligations.ResetMeetsInvariant : Prop :=
  State.reset.Inv ∧
    ∀ cfg : Config, (capacitiesHold cfg → (State.initial cfg).Inv) ∧ ∀ c : Audio, curFollowsCache (State.initial cfg).snd[c]

/-- Every step keeps the invariant: the line index in [0, 227], the unconsumed-byte count in [0, 4], every buffer
cursor within its capacity (spec/10_state.md R41). The other clauses are the model's own: that both memories are in
canonical form and STORE lists nothing beyond its region (log 5 and log 6), that the field `susp` agrees with HDEPTH and
INSVC (log 3), and that the parameters fit together (log 4). -/
def Obligations.StepKeepsInvariant : Prop :=
  ∀ s t : State, s.Inv → step s = .next t → t.Inv

/-- Every step keeps CUR = CACHE[3 - REM] for both audio channels (spec/10_state.md R27, an inference of the
spec). -/
def Obligations.StepKeepsHeldByte : Prop :=
  ∀ s t : State, (∀ c : Audio, curFollowsCache s.snd[c]) → step s = .next t → ∀ c : Audio, curFollowsCache t.snd[c]

/-- No step faults from a state whose sequencing state is consistent: the block raises no synchronous exception
(spec/60_exceptions.md R243; the one fault of the model is its own, log 12). -/
def Obligations.NoStepFaults : Prop :=
  ∀ (s : State) (f : Fault), handlerContext s → step s ≠ .fault f

/-- But for the reset event, a step only appends to the output trace (spec/10_state.md R40). -/
def Obligations.TraceOnlyGrows : Prop :=
  ∀ s t : State, s.inputs.head? ≠ some .reset → step s = .next t → s.trace <+: t.trace

/-- No operation but HALT and VSYNC moves the line, takes a keypad snapshot, sets a pending flag, enters or leaves
a handler, or mixes; no register access touches BUSY, and a command leaves it 0, inside a handler too
(spec/70_reset_and_hazards.md R264, spec/60_exceptions.md R240, spec/30_encoding.md R77). That BUSY is 1 again once
the handler has returned is the model's reading of spec/10_state.md R31 (log 9); `susp`, where the suspended command
stands, is the model's own field (log 3). -/
def Obligations.OnlyTimingCommandsAdvance : Prop :=
  ∀ (i : Instr) (s t : State), i ≠ .halt → i ≠ .vsync → exec i s = .next t →
    t.line = s.line ∧ t.keysnap = s.keysnap ∧ t.ifReg &&& s.ifReg = t.ifReg ∧ t.insvc = s.insvc ∧
      t.hdepth = s.hdepth ∧ t.susp = s.susp ∧ t.deadline = s.deadline ∧ t.mix = s.mix ∧ t.mixn = s.mixn ∧
      (accessOf i ≠ none → t.busy = s.busy) ∧ (accessOf i = none → t.busy = false)

/-- What whole classes of operations leave alone: STORE changes by SRAM_WRITE only, a handler reference by
IRQ_SET_HANDLER only, every configuration register, those of the DMA channels among them, by a register access only; of a
channel a command moves the latches and the enable bit (spec/10_state.md R30, spec/42_dma.md R140, R143,
spec/20_memory.md R50, spec/60_exceptions.md R238). The clauses on the model's own fields are its choices: `inputs`
(log 1), `cfg` (log 4), `host` (log 7), and that the command port's wires `port` and the last response `rdata` keep
their values, where spec/10_state.md R12 calls wires no storage (log 10). -/
def Obligations.OperationFrames : Prop :=
  ∀ (i : Instr) (s t : State), exec i s = .next t →
    t.cfg = s.cfg ∧ t.host = s.host ∧ t.inputs = s.inputs ∧
    ((∀ offset src length, i ≠ .sramWrite offset src length) → t.store = s.store) ∧
    ((∀ source ref, i ≠ .irqSetHandler source ref) → t.vec = s.vec) ∧
    (accessOf i = none →
      t.rdata = s.rdata ∧ t.vcmp = s.vcmp ∧ t.ie = s.ie ∧ t.ime = s.ime ∧ t.master = s.master ∧
      t.ctl = s.ctl ∧ t.timer = s.timer ∧ t.kwatch = s.kwatch ∧ t.kirqEn = s.kirqEn ∧ t.kand = s.kand ∧
      ∀ n : DmaIndex, t.dma[n] =
        { s.dma[n] with en := t.dma[n].en, isrc := t.dma[n].isrc, idst := t.dma[n].idst }) ∧
    (accessOf i ≠ none → t.port = s.port ∧ t.trace = s.trace)

/-! ### Encodings -/

/-- Decoding the encoding of a well-formed operation gives it back, with every operand (spec/30_encoding.md R71,
R72, R75, R76). -/
def Obligations.DecodeEncodeRoundTrip : Prop :=
  ∀ i : Instr, WellFormed i = true → decode (encode i) = .ok i

/-- A BUS word stands for one access and its encoding is that word. A CMD word stands for the command of its opcode with
its operands in the places of the opcode table, and its encoding has that opcode and the operands the command uses. What
is decoded is well formed (spec/30_encoding.md R70 to R76). -/
def Obligations.DecodedWordsEncodeBack : Prop :=
  (∀ (w : BitVec 67) (i : Instr), decode (.bus w) = .ok i →
    WellFormed i = true ∧ encode i = .bus w ∧ accessOf i ≠ none) ∧
  (∀ (w : BitVec 128) (i : Instr), decode (.cmd w) = .ok i →
    WellFormed i = true ∧ accessOf i = none ∧ cmdZero w = 0 ∧
      ∃ w' : BitVec 128, encode i = .cmd w' ∧ cmdOp w' = cmdOp w ∧
        (i ≠ .halt ∧ i ≠ .vsync → cmdA0 w' = cmdA0 w ∧ cmdA1 w' = cmdA1 w) ∧
        ((cmdOp w).toNat ∈ [0x0B, 0x0C, 0xE0, 0xE1] → cmdA2 w' = cmdA2 w)) ∧
  (∀ src dst control : Word,
    decode (.cmd (0#24 ++ 0x0B#8 ++ src ++ dst ++ control)) = .ok (.cpuset src dst control) ∧
    decode (.cmd (0#24 ++ 0x0C#8 ++ src ++ dst ++ control)) = .ok (.cpufastset src dst control)) ∧
  (∀ src dst unused : Word,
    decode (.cmd (0#24 ++ 0x11#8 ++ src ++ dst ++ unused)) = .ok (.lz77 src dst) ∧
    decode (.cmd (0#24 ++ 0x16#8 ++ src ++ dst ++ unused)) = .ok (.diff8 src dst) ∧
    decode (.cmd (0#24 ++ 0x18#8 ++ src ++ dst ++ unused)) = .ok (.diff16 src dst)) ∧
  (∀ dest offset length : Word,
    decode (.cmd (0#24 ++ 0xE0#8 ++ dest ++ offset ++ length)) = .ok (.sramRead dest offset length)) ∧
  (∀ offset src length : Word,
    decode (.cmd (0#24 ++ 0xE1#8 ++ offset ++ src ++ length)) = .ok (.sramWrite offset src length)) ∧
  (∀ source ref unused : Word,
    decode (.cmd (0#24 ++ 0xE2#8 ++ source ++ ref ++ unused)) = .ok (.irqSetHandler source ref)) ∧
  (∀ x y z : Word,
    decode (.cmd (0#24 ++ 0x02#8 ++ x ++ y ++ z)) = .ok .halt ∧
    decode (.cmd (0#24 ++ 0x05#8 ++ x ++ y ++ z)) = .ok .vsync)

/-- A BUS word is an operation iff its size code is not 3 and its address is one of the register window's
(spec/20_memory.md R51, spec/30_encoding.md R80). -/
def Obligations.BusDecodesExactlyRegset : Prop :=
  ∀ w : BitVec 67, (∃ i, decode (.bus w) = .ok i) ↔
    busSizeCode w ≠ 3 ∧
      let k := (busAddr w).toNat
      (0x04000004 ≤ k ∧ k ≤ 0x04000007) ∨ (0x04000082 ≤ k ∧ k ≤ 0x04000085) ∨
      (0x040000A0 ≤ k ∧ k ≤ 0x040000A7) ∨ (0x040000B0 ≤ k ∧ k ≤ 0x040000DF) ∨
      (0x04000100 ≤ k ∧ k ≤ 0x04000107) ∨ (0x04000130 ≤ k ∧ k ≤ 0x04000133) ∨
      (0x04000200 ≤ k ∧ k ≤ 0x04000203) ∨ (0x04000208 ≤ k ∧ k ≤ 0x04000209)

/-- Words written out from the spec's encodings decode to what they stand for (spec/95_test_vectors.md E1 to E8,
spec/30_encoding.md R75). -/
def Obligations.SpecWordsDecode : Prop :=
  decode (.cmd 0x00000002000000000000000000000000#128) = .ok .halt ∧
  decode (.cmd 0x00000005000000000000000000000000#128) = .ok .vsync ∧
  decode (.cmd 0x0000000B020000010200010301000004#128) =
    .ok (.cpuset 0x02000001#32 0x02000103#32 0x01000004#32) ∧
  decode (.cmd 0x0000000C02000010020000400000000B#128) =
    .ok (.cpufastset 0x02000010#32 0x02000040#32 0x0000000B#32) ∧
  decode (.cmd 0x00000016020000000200010000000000#128) = .ok (.diff8 0x02000000#32 0x02000100#32) ∧
  decode (.cmd 0x00000018020000000200010000000000#128) = .ok (.diff16 0x02000000#32 0x02000100#32) ∧
  decode (.cmd 0x000000E1000000040002000200000008#128) = .ok (.sramWrite 4#32 0x00020002#32 8#32) ∧
  decode (.cmd 0x000000110200000002000100FFFFFFFF#128) = .ok (.lz77 0x02000000#32 0x02000100#32) ∧
  decode (.cmd 0x000000E002000000FFFFFFFF00000004#128) = .ok (.sramRead 0x02000000#32 0xFFFFFFFF#32 4#32) ∧
  decode (.cmd 0x000000E2000000000800010100000000#128) = .ok (.irqSetHandler 0#32 0x08000101#32) ∧
  decode (.bus 0x50400020800000001#67) = .ok (.regIme ⟨.write, .half, 0, 1#32⟩) ∧
  decode (.bus 0x20400000400000000#67) = .ok (.regDispstat ⟨.read, .word, 0, 0#32⟩) ∧
  decode (.bus 0x50400020200000001#67) = .ok (.regIf ⟨.write, .half, 0, 1#32⟩) ∧
  decode (.bus 0x5040000BA00008400#67) = .ok (.regDma0CntH ⟨.write, .half, 0, 0x8400#32⟩)

/-- What is no operation of the block is refused by name: a non-zero `zero` field, an opcode outside the map,
size code 3, an address outside REGSET (spec/30_encoding.md R72, R80, R81; the refusal's name for a BUS word is the
model's reading, log 17; which refusal a word answers that gives grounds for two, a non-zero `zero` field and an
unassigned opcode, or either while BUSY = 1, is the model's choice, log 23). -/
def Obligations.NonOperationsRefused : Prop :=
  ∀ (s : State) (rest : List Input),
    (∀ w : BitVec 128, s.inputs = .op (.cmd w) :: rest →
      (cmdZero w ≠ 0 → step s = .refused .nonzeroZeroField) ∧
      (cmdZero w = 0 →
        (cmdOp w).toNat ∉ [0x02, 0x05, 0x0B, 0x0C, 0x11, 0x16, 0x18, 0xE0, 0xE1, 0xE2] →
        step s = .refused .unassignedOpcode)) ∧
    (∀ w : BitVec 67, s.inputs = .op (.bus w) :: rest →
      busSizeCode w = 3 ∨ inRegset (busAddr w) = false → step s = .refused .badRegisterAccess)

/-! ### Steps -/

/-- A step takes the next item presented. An operation that decodes is executed, a command's opcode and operands
first latched on the port's wires; a change of the host inputs and a store of the platform do what they say; with
nothing presented nothing changes (spec/00_scope.md R6, spec/30_encoding.md R77; the list of inputs is the model's,
log 1 and log 2). -/
def Obligations.StepRunsDecodedOperation : Prop :=
  (∀ (s : State) (rest : List Input) (w : BitVec 128) (i : Instr), s.inputs = .op (.cmd w) :: rest →
    decode (.cmd w) = .ok i →
    step s = exec i { s with
      inputs := rest
      port := { s.port with op := cmdOp w, a0 := cmdA0 w, a1 := cmdA1 w, a2 := cmdA2 w } }) ∧
  (∀ (s : State) (rest : List Input) (w : BitVec 67) (i : Instr), s.inputs = .op (.bus w) :: rest →
    decode (.bus w) = .ok i → step s = exec i { s with inputs := rest }) ∧
  (∀ (s : State) (rest : List Input) (h : HostInputs), s.inputs = .host h :: rest →
    step s = .next { s with inputs := rest, host := h }) ∧
  (∀ (s : State) (rest : List Input) (addr : Word) (b : Byte), s.inputs = .store addr b :: rest →
    inRegset addr = false → step s = .next { s with inputs := rest, mem := s.mem.write addr.toNat b }) ∧
  (∀ s : State, s.inputs = [] → step s = .next s)

/-- The reset event: every element at its reset value, DEADLINE the host clock, STORE and MEM untouched; while a
command is executing, or suspended at a handler, it cannot occur (spec/70_reset_and_hazards.md R260, R261, spec/10_state.md R45). The values of
the command port's wires and of the last response are the model's (log 10), and so is the refusal (log 13). -/
def Obligations.ResetEvent : Prop :=
  ∀ (s : State) (rest : List Input), s.inputs = .reset :: rest →
    (s.busy = true ∨ s.hdepth = true → step s = .refused .resetWhileBusy) ∧
    (s.busy = false → s.hdepth = false → ∃ t, step s = .next t ∧
      t.line = 0 ∧ t.vcmp = 0 ∧ t.ie = 0 ∧ t.ifReg = 0 ∧ t.insvc = 0 ∧ t.ime = false ∧
      (∀ src : Source, t.vec[src] = none) ∧
      (∀ n : DmaIndex, t.dma[n] =
        { sad := 0, dad := 0, cnt := 0, dstFixed := false, srcFixed := false, rep := false, w32 := false,
          trig := .immediate, en := false, isrc := 0, idst := 0 }) ∧
      (∀ c : Audio, t.ctl[c] = { amp := false, right := false, left := false, tsel := 0 }) ∧ t.master = false ∧
      (∀ u : TimerIndex, t.timer[u] = { reload := 0, psel := 0, start := false }) ∧
      (∀ c : Audio, t.snd[c] =
        { buf := List.replicate s.cfg.bufCap 0, bufn := 0, srcclk := 0, outclk := 0, cache := ⟨0, 0, 0, 0⟩,
          rem := 0, cur := 0 }) ∧
      t.mixn = 0 ∧ t.keysnap = 0 ∧ t.kwatch = 0 ∧ t.kirqEn = false ∧ t.kand = false ∧
      t.busy = false ∧ t.hdepth = false ∧ t.trace = [] ∧ t.deadline = s.host.now ∧
      t.store = s.store ∧ t.mem = s.mem ∧ t.cfg = s.cfg ∧ t.host = s.host ∧ t.inputs = rest)

/-! ### Register accesses -/

/-- 16-bit reads of DISPSTAT, VCOUNT, SOUNDCNT_H, SOUNDCNT_X and of both halves of FIFO_A and FIFO_B: each completes,
answers the value the rule gives and changes nothing else (spec/40_register_access.md R91 to R96). -/
def Obligations.ReadDisplayAndSound : Prop :=
  ∀ (s : State) (d : Word), portFree s = true →
    exec (.regDispstat ⟨.read, .half, 0, d⟩) s = .next { s with
      rdata := BitVec.ofNat 32 (s.vcmp.toNat * 256 + if 160 ≤ s.line.toNat then 1 else 0) } ∧
    exec (.regVcount ⟨.read, .half, 0, d⟩) s = .next { s with rdata := BitVec.ofNat 32 s.line.toNat } ∧
    exec (.regSoundcntH ⟨.read, .half, 0, d⟩) s = .next { s with
      rdata := BitVec.ofNat 32
        (s.ctl[1].tsel.val * 0x4000 + s.ctl[1].left.toNat * 0x2000 + s.ctl[1].right.toNat * 0x1000
          + s.ctl[0].tsel.val * 0x400 + s.ctl[0].left.toNat * 0x200 + s.ctl[0].right.toNat * 0x100
          + s.ctl[1].amp.toNat * 8 + s.ctl[0].amp.toNat * 4) } ∧
    exec (.regSoundcntX ⟨.read, .half, 0, d⟩) s = .next { s with
      rdata := BitVec.ofNat 32 (s.master.toNat * 0x80) } ∧
    (∀ (c : Audio) (off : BitVec 2), off.toNat % 2 = 0 →
      exec (fifoOp c ⟨.read, .half, off, d⟩) s = .next { s with rdata := 0 })

/-- 16-bit reads of the sixteen DMA registers: both halves of DMAnSAD and DMAnDAD, DMAnCNT_L and DMAnCNT_H, n = 0 .. 3
(spec/40_register_access.md R97 to R100). -/
def Obligations.ReadDma : Prop :=
  ∀ (s : State) (d : Word) (n : DmaIndex) (code : Trigger → Nat), portFree s = true →
    code .immediate = 0 → code .vblank = 1 → code .hblank = 2 → code .fifo = 3 →
    exec (sadOp n ⟨.read, .half, 0, d⟩) s = .next { s with
      rdata := BitVec.ofNat 32 (s.dma[n].sad.toNat % 65536) } ∧
    exec (sadOp n ⟨.read, .half, 2, d⟩) s = .next { s with
      rdata := BitVec.ofNat 32 (s.dma[n].sad.toNat / 65536) } ∧
    exec (dadOp n ⟨.read, .half, 0, d⟩) s = .next { s with
      rdata := BitVec.ofNat 32 (s.dma[n].dad.toNat % 65536) } ∧
    exec (dadOp n ⟨.read, .half, 2, d⟩) s = .next { s with
      rdata := BitVec.ofNat 32 (s.dma[n].dad.toNat / 65536) } ∧
    exec (cntLOp n ⟨.read, .half, 0, d⟩) s = .next { s with rdata := BitVec.ofNat 32 s.dma[n].cnt.toNat } ∧
    exec (cntHOp n ⟨.read, .half, 0, d⟩) s = .next { s with
      rdata := BitVec.ofNat 32
        (s.dma[n].en.toNat * 0x8000 + code s.dma[n].trig * 0x1000
          + s.dma[n].w32.toNat * 0x400 + s.dma[n].rep.toNat * 0x200 + s.dma[n].srcFixed.toNat * 0x100
          + s.dma[n].dstFixed.toNat * 0x40) }

/-- 16-bit reads of TM0CNT_L, TM1CNT_L, TM0CNT_H, TM1CNT_H, KEYINPUT, KEYCNT, IE, IF and IME
(spec/40_register_access.md R101 to R109). -/
def Obligations.ReadTimerKeypadInterrupt : Prop :=
  ∀ (s : State) (d : Word), portFree s = true →
    (∀ u : TimerIndex,
      exec (tmLOp u ⟨.read, .half, 0, d⟩) s = .next { s with rdata := BitVec.ofNat 32 s.timer[u].reload.toNat } ∧
      exec (tmHOp u ⟨.read, .half, 0, d⟩) s = .next { s with
        rdata := BitVec.ofNat 32 (s.timer[u].start.toNat * 0x80 + s.timer[u].psel.toNat) }) ∧
    exec (.regKeyinput ⟨.read, .half, 0, d⟩) s = .next { s with
      rdata := BitVec.ofNat 32 (0x3FF - s.keysnap.toNat) } ∧
    exec (.regKeycnt ⟨.read, .half, 0, d⟩) s = .next { s with
      rdata := BitVec.ofNat 32 (s.kand.toNat * 0x8000 + s.kirqEn.toNat * 0x4000 + s.kwatch.toNat) } ∧
    exec (.regIe ⟨.read, .half, 0, d⟩) s = .next { s with rdata := BitVec.ofNat 32 s.ie.toNat } ∧
    exec (.regIf ⟨.read, .half, 0, d⟩) s = .next { s with rdata := BitVec.ofNat 32 s.ifReg.toNat } ∧
    exec (.regIme ⟨.read, .half, 0, d⟩) s = .next { s with rdata := BitVec.ofNat 32 s.ime.toNat }

/-- 16-bit writes of DISPSTAT, VCOUNT, SOUNDCNT_X, FIFO_A and FIFO_B: each completes; VCOUNT and the FIFO addresses
discard the value; nothing but the fields named changes (spec/40_register_access.md R91, R92, R94, R95, R96). -/
def Obligations.WriteDisplayAndMaster : Prop :=
  ∀ (s : State) (v : Word), portFree s = true →
    exec (.regDispstat ⟨.write, .half, 0, v⟩) s = .next { s with vcmp := BitVec.ofNat 8 (v.toNat / 256) } ∧
    exec (.regVcount ⟨.write, .half, 0, v⟩) s = .next s ∧
    exec (.regSoundcntX ⟨.write, .half, 0, v⟩) s = .next { s with master := v.getLsbD 7 } ∧
    (∀ (c : Audio) (off : BitVec 2), off.toNat % 2 = 0 → exec (fifoOp c ⟨.write, .half, off, v⟩) s = .next s)

/-- A 16-bit write of SOUNDCNT_H completes: it stores the eight fields, and each of bits 11 and 15 that is 1 clears
REM, CACHE and CUR of its channel and nothing else of it (spec/40_register_access.md R93,
spec/43_sound_mixer.md R168). -/
def Obligations.WriteSoundcntH : Prop :=
  ∀ (s : State) (v : Word), portFree s = true →
    ∃ t, exec (.regSoundcntH ⟨.write, .half, 0, v⟩) s = .next t ∧
      t = { s with ctl := t.ctl, snd := t.snd } ∧
      t.ctl[0] = { amp := v.getLsbD 2, right := v.getLsbD 8, left := v.getLsbD 9,
                   tsel := if v.getLsbD 10 then 1 else 0 } ∧
      t.ctl[1] = { amp := v.getLsbD 3, right := v.getLsbD 12, left := v.getLsbD 13,
                   tsel := if v.getLsbD 14 then 1 else 0 } ∧
      t.snd[0] = (if v.getLsbD 11 then { s.snd[0] with rem := 0, cache := ⟨0, 0, 0, 0⟩, cur := 0 } else s.snd[0]) ∧
      t.snd[1] = (if v.getLsbD 15 then { s.snd[1] with rem := 0, cache := ⟨0, 0, 0, 0⟩, cur := 0 } else s.snd[1])

/-- 16-bit writes of DMAnSAD, DMAnDAD (either half) and DMAnCNT_L, n = 0 .. 3: the field is replaced, the latches are
not touched, every other channel and everything else is as before (spec/40_register_access.md R97, R98, R99). -/
def Obligations.WriteDmaAddressesAndCount : Prop :=
  ∀ (s : State) (v : Word) (n : DmaIndex), portFree s = true →
    exec (sadOp n ⟨.write, .half, 0, v⟩) s = .next { s with dma := s.dma.set n { s.dma[n] with
      sad := BitVec.ofNat 32 (s.dma[n].sad.toNat / 65536 * 65536 + v.toNat % 65536) } } ∧
    exec (sadOp n ⟨.write, .half, 2, v⟩) s = .next { s with dma := s.dma.set n { s.dma[n] with
      sad := BitVec.ofNat 32 (v.toNat % 65536 * 65536 + s.dma[n].sad.toNat % 65536) } } ∧
    exec (dadOp n ⟨.write, .half, 0, v⟩) s = .next { s with dma := s.dma.set n { s.dma[n] with
      dad := BitVec.ofNat 32 (s.dma[n].dad.toNat / 65536 * 65536 + v.toNat % 65536) } } ∧
    exec (dadOp n ⟨.write, .half, 2, v⟩) s = .next { s with dma := s.dma.set n { s.dma[n] with
      dad := BitVec.ofNat 32 (v.toNat % 65536 * 65536 + s.dma[n].dad.toNat % 65536) } } ∧
    exec (cntLOp n ⟨.write, .half, 0, v⟩) s = .next { s with dma := s.dma.set n { s.dma[n] with
      cnt := BitVec.ofNat 16 v.toNat } }

/-- 16-bit writes of DMAnCNT_H, n = 0 .. 3, that start no transfer: bit 5 or bit 7 is refused; without an enable edge
the fields are stored; at an enable edge with a trigger other than immediate the latches are loaded too
(spec/40_register_access.md R100). -/
def Obligations.WriteDmaControl : Prop :=
  ∀ (s : State) (v : Word) (n : DmaIndex) (code : Trigger → Nat), portFree s = true →
    code .immediate = 0 → code .vblank = 1 → code .hblank = 2 → code .fifo = 3 →
    (v.getLsbD 5 = true ∨ v.getLsbD 7 = true →
      exec (cntHOp n ⟨.write, .half, 0, v⟩) s = .refused .dmaModeNotInSource) ∧
    (v.getLsbD 5 = false → v.getLsbD 7 = false → ∀ trig : Trigger, code trig = v.toNat / 0x1000 % 4 →
      (s.dma[n].en = true ∨ v.getLsbD 15 = false →
        exec (cntHOp n ⟨.write, .half, 0, v⟩) s = .next { s with dma := s.dma.set n { s.dma[n] with
          dstFixed := v.getLsbD 6, srcFixed := v.getLsbD 8, rep := v.getLsbD 9, w32 := v.getLsbD 10,
          trig := trig, en := v.getLsbD 15 } }) ∧
      (s.dma[n].en = false → v.getLsbD 15 = true → trig ≠ .immediate →
        exec (cntHOp n ⟨.write, .half, 0, v⟩) s = .next { s with dma := s.dma.set n { s.dma[n] with
          dstFixed := v.getLsbD 6, srcFixed := v.getLsbD 8, rep := v.getLsbD 9, w32 := v.getLsbD 10,
          trig := trig, en := true, isrc := s.dma[n].sad, idst := s.dma[n].dad } }))

/-- An immediate transfer runs in the write of DMAnCNT_H that enables the channel: the write completes, the channel
has disabled itself whatever REPEAT holds, the latches stand where the last unit left them, and MEM is as the units
stored one after another leave it; where a unit meets REGSET the write is refused (spec/40_register_access.md R100,
spec/42_dma.md R142, R143, R146, spec/20_memory.md R56). -/
def Obligations.EnableEdgeRunsImmediateTransfer : Prop :=
  ∀ (s : State) (v : Word) (n : DmaIndex) (c : DmaChannel), portFree s = true → s.dma[n].en = false →
    v.getLsbD 5 = false → v.getLsbD 7 = false → v.getLsbD 12 = false → v.getLsbD 13 = false →
    v.getLsbD 15 = true →
    c = { s.dma[n] with
      dstFixed := v.getLsbD 6, srcFixed := v.getLsbD 8, rep := v.getLsbD 9, w32 := v.getLsbD 10,
      trig := .immediate, en := true, isrc := s.dma[n].sad, idst := s.dma[n].dad } →
    (transferClear c c.cnt.toNat →
      ∃ m : Memory, exec (cntHOp n ⟨.write, .half, 0, v⟩) s = .next { s with
          mem := m
          dma := s.dma.set n { channelAfter c c.cnt.toNat with en := false } } ∧
        (s.mem.wf memBytes = true → transfers c c.cnt.toNat s.mem m) ∧
        ∀ a : Nat, (∀ j, j < c.cnt.toNat → outside a (unitDest c j) (dmaWidth c)) → m.read a = s.mem.read a) ∧
    (¬ transferClear c c.cnt.toNat →
      exec (cntHOp n ⟨.write, .half, 0, v⟩) s = .refused .engineAccessToRegisters)

/-- 16-bit writes of TM0CNT_L, TM1CNT_L, TM0CNT_H, TM1CNT_H, KEYINPUT, KEYCNT, IE and IME: each completes; KEYINPUT
discards the value; nothing is delivered and nothing but the fields named changes (spec/40_register_access.md R101 to
R106, R108, R109). -/
def Obligations.WriteTimerKeypadInterrupt : Prop :=
  ∀ (s : State) (v : Word), portFree s = true →
    (∀ u : TimerIndex,
      exec (tmLOp u ⟨.write, .half, 0, v⟩) s = .next { s with timer := s.timer.set u { s.timer[u] with
        reload := BitVec.ofNat 16 v.toNat } } ∧
      exec (tmHOp u ⟨.write, .half, 0, v⟩) s = .next { s with timer := s.timer.set u { s.timer[u] with
        psel := BitVec.ofNat 2 v.toNat, start := v.getLsbD 7 } }) ∧
    exec (.regKeyinput ⟨.write, .half, 0, v⟩) s = .next s ∧
    exec (.regKeycnt ⟨.write, .half, 0, v⟩) s = .next { s with
      kwatch := BitVec.ofNat 10 v.toNat, kirqEn := v.getLsbD 14, kand := v.getLsbD 15 } ∧
    exec (.regIe ⟨.write, .half, 0, v⟩) s = .next { s with ie := BitVec.ofNat 14 v.toNat } ∧
    exec (.regIme ⟨.write, .half, 0, v⟩) s = .next { s with ime := v.getLsbD 0 }

/-- REG.IF: a 16-bit write completes, clears exactly the pending flags whose bit is written 1, sets none, and changes
nothing else; a read answers the 14 flags (spec/40_register_access.md R107). -/
def Obligations.AcknowledgeInterrupts : Prop :=
  ∀ (s : State) (v : Word), portFree s = true →
    (∃ t, exec (.regIf ⟨.write, .half, 0, v⟩) s = .next t ∧ t = { s with ifReg := t.ifReg } ∧
      ∀ src : Source, flagOf t.ifReg src = (flagOf s.ifReg src && !v.getLsbD src.val)) ∧
    ∃ t, exec (.regIf ⟨.read, .half, 0, v⟩) s = .next t ∧ t = { s with rdata := t.rdata } ∧
      t.rdata = s.ifReg.setWidth 32

/-- A 32-bit access is two 16-bit accesses, the lower address first, each with its own effect; a 32-bit read answers
the high half above the low half (spec/30_encoding.md R85, spec/20_memory.md R55). -/
def Obligations.WordAccessIsTwoHalves : Prop :=
  ∀ (addr : Word), addr.toNat % 4 = 0 →
    (∀ (v : Word) (iw ilo ihi : Instr),
      decode (.bus (1#1 ++ 2#2 ++ addr ++ v)) = .ok iw →
      decode (.bus (1#1 ++ 1#2 ++ addr ++ BitVec.ofNat 32 (v.toNat % 65536))) = .ok ilo →
      decode (.bus (1#1 ++ 1#2 ++ (addr + 2) ++ BitVec.ofNat 32 (v.toNat / 65536))) = .ok ihi →
      ∀ s t : State, exec iw s = .next t ↔ ∃ u, exec ilo s = .next u ∧ exec ihi u = .next t) ∧
    (∀ (iw ilo ihi : Instr),
      decode (.bus (0#1 ++ 2#2 ++ addr ++ 0#32)) = .ok iw →
      decode (.bus (0#1 ++ 1#2 ++ addr ++ 0#32)) = .ok ilo →
      decode (.bus (0#1 ++ 1#2 ++ (addr + 2) ++ 0#32)) = .ok ihi →
      ∀ s t : State, exec iw s = .next t ↔
        ∃ u1 u2, exec ilo s = .next u1 ∧ exec ihi s = .next u2 ∧
          t = { s with rdata := BitVec.ofNat 32 (u2.rdata.toNat * 65536 + u1.rdata.toNat) })

/-- An 8-bit access, a misaligned one and one partly outside REGSET are refused; every other read completes and changes
nothing but the response (spec/20_memory.md R55, R57, spec/40_register_access.md R90). -/
def Obligations.AccessesAcceptedOrRefused : Prop :=
  ∀ (w : BitVec 67) (i : Instr) (s : State), decode (.bus w) = .ok i → portFree s = true →
    (busSizeCode w = 0 ∨ (busAddr w).toNat % 2 ^ (busSizeCode w).toNat ≠ 0 ∨
        (∃ k, k < 2 ^ (busSizeCode w).toNat ∧ inRegset (busAddr w + BitVec.ofNat 32 k) = false) →
      exec i s = .refused .badRegisterAccess) ∧
    (busSizeCode w ≠ 0 → (busAddr w).toNat % 2 ^ (busSizeCode w).toNat = 0 →
      (∀ k, k < 2 ^ (busSizeCode w).toNat → inRegset (busAddr w + BitVec.ofNat 32 k) = true) →
      busDir w = .read → ∃ v, exec i s = .next { s with rdata := v })

/-! ### The timing engine -/

/-- HALT on a visible line none of whose occurrences reaches a handler: it completes, draws the line, runs the HBLANK
trigger, latches the VCOUNT and HBLANK occurrences of enabled sources, moves to the next line and changes nothing else;
where an access of an armed HBLANK channel meets REGSET it is refused, whoever serves HBLANK (spec/41_timing_engine.md
R120 to R123, R129, R130, spec/60_exceptions.md R233, spec/20_memory.md R56). -/
def Obligations.HaltOnVisibleLine : Prop :=
  ∀ s : State, mainFlow s → (s.line = s.vcmp → unserved srcVcount s) → s.line.toNat < 160 →
    (armedClear .hblank s → unserved srcHblank s → ∃ u, dmaTrigger .hblank s = .ok u ∧
      exec .halt s = .next { s with
        mem := u.mem
        dma := u.dma
        line := BitVec.ofNat 8 (s.line.toNat + 1)
        ifReg := s.ifReg ||| (if s.line = s.vcmp then s.ie &&& 0x0004#14 else 0) ||| (s.ie &&& 0x0002#14)
        trace := s.trace ++ [.draw s.line]
        port := { s.port with res := 0 } }) ∧
    (¬ armedClear .hblank s → exec .halt s = .refused .engineAccessToRegisters)

/-- HALT on lines 161 to 227, no VCOUNT occurrence reaching a handler: only the VCount match is tested and the line
counted, 227 going to 0, whatever the DMA channels, the mixer and the keypad hold; and on every line the line a completed
HALT leaves, and VCOUNT with it, is one more modulo 228 (spec/41_timing_engine.md R129). -/
def Obligations.LineAdvance : Prop :=
  (∀ s : State, mainFlow s → (s.line = s.vcmp → unserved srcVcount s) → 160 < s.line.toNat → s.line.toNat < 228 →
    exec .halt s = .next { s with
      line := BitVec.ofNat 8 ((s.line.toNat + 1) % 228)
      ifReg := s.ifReg ||| (if s.line = s.vcmp then s.ie &&& 0x0004#14 else 0)
      port := { s.port with res := 0 } }) ∧
  (∀ s t : State, exec .halt s = .next t → t.hdepth = false →
    t.line.toNat = (s.line.toNat + 1) % 228 ∧ readVcount t = t.line.setWidth 16)

/-- HALT on line 160 none of whose occurrences reaches a handler: the VBLANK trigger runs, PRESENT is emitted, the frame
is mixed and submitted, then pacing, the poll and the keypad condition, and the line is 161; where an access of an armed
VBLANK channel meets REGSET, or the mix is refused, so is the command. With the master sound enable off and fast-forward
on it completes, and the frame is a silent buffer, submitted short of its last pair under backpressure
(spec/41_timing_engine.md R120, R124, R125, R127, R128, spec/43_sound_mixer.md R160, R161, R175, spec/20_memory.md R56). -/
def Obligations.HaltOnLine160 : Prop :=
  ∀ (s : State) (latched : BitVec 14), mainFlow s → (s.line = s.vcmp → unserved srcVcount s) → s.line.toNat = 160 →
    latched = s.ifReg ||| (if s.line = s.vcmp then s.ie &&& 0x0004#14 else 0) ||| (s.ie &&& 0x0001#14) →
    (¬ armedClear .vblank s → exec .halt s = .refused .engineAccessToRegisters) ∧
    (armedClear .vblank s → unserved srcVblank s → ∃ u, dmaTrigger .vblank s = .ok u ∧
      (∀ frame, frame = { s with
          mem := u.mem, dma := u.dma, ifReg := latched, trace := s.trace ++ [.present] } →
        (∀ v, soundMixFrame frame = .ok v → (keypadHit s → unserved srcKeypad s) →
          exec .halt s = .next { afterFlush v with port := { s.port with res := 0 } }) ∧
        (∀ e, soundMixFrame frame = .error e → exec .halt s = .refused e)) ∧
      (∀ n n' : Nat, (keypadHit s → unserved srcKeypad s) → s.master = false → s.host.fastForward = true → n = s.cfg.samplesPerFrame →
        n' = (if s.host.queueOver then n - 1 else n) →
        exec .halt s = .next { s with
          mem := u.mem
          dma := u.dma
          line := 161
          ifReg := latched ||| (if keypadHit s then s.ie &&& 0x1000#14 else 0)
          keysnap := s.host.keys
          mix := List.replicate n (0, 0) ++ s.mix.drop n
          mixn := n'
          trace := s.trace ++
            [.present, .capture (List.replicate n (0, 0)), .audio (List.replicate n' (0, 0))]
          port := { s.port with res := 0 } }))

/-- Host pacing by HALT on line 160, no occurrence reaching a handler, the master sound enable off and fast-forward off:
the deadline moves on by one frame period of 1000 units (1/60 ms each, log 8); the wait, if any, is emitted after the
flush and is at most one frame period (log 22); a deadline missed by more than one period is dropped
(spec/41_timing_engine.md R127, spec/60_exceptions.md R251; the middle of the algorithm is the spec's reading, decision
D33). -/
def Obligations.HaltPacesTheHost : Prop :=
  ∀ (s : State) (n n' : Nat), mainFlow s → (s.line = s.vcmp → unserved srcVcount s) → unserved srcVblank s →
    (keypadHit s → unserved srcKeypad s) → armedClear .vblank s → s.line.toNat = 160 → s.master = false →
    s.host.fastForward = false → n = s.cfg.samplesPerFrame → n' = (if s.host.queueOver then n - 1 else n) →
    ∃ t, exec .halt s = .next t ∧ t.line = 161 ∧ t.keysnap = s.host.keys ∧
      (s.host.now < s.deadline + 1000 → t.deadline = s.deadline + 1000 ∧
        t.trace = s.trace ++ [.present, .capture (List.replicate n (0, 0)), .audio (List.replicate n' (0, 0)),
          .sleep (min 1000 (s.deadline + 1000 - s.host.now))]) ∧
      (s.deadline + 1000 ≤ s.host.now → s.host.now ≤ s.deadline + 2000 → t.deadline = s.deadline + 1000) ∧
      (s.deadline + 2000 < s.host.now → t.deadline = s.host.now) ∧
      (s.deadline + 1000 ≤ s.host.now →
        t.trace = s.trace ++ [.present, .capture (List.replicate n (0, 0)), .audio (List.replicate n' (0, 0))])

/-- HALT and VSYNC complete where no occurrence of the lines they step reaches a handler and the engines' accesses stay
outside REGSET, whatever the sound and keypad registers hold: HALT one line further, with any channels armed; VSYNC at
line 160, with FIFO channels armed but none that waits for a blanking trigger; both with BUSY = 0 and `res` = 0. VSYNC
steps line 160 only where it starts there, so elsewhere VBLANK and KEYPAD may have handlers; it steps the line VCMP names
where that lies among the lines up to 160 (spec/41_timing_engine.md R130, R131, spec/30_encoding.md R77). -/
def Obligations.TimingCommandsComplete : Prop :=
  ∀ s : State, mainFlow s → s.line.toNat < 228 →
    (lineUnserved s → lineClear s →
      ∃ t, exec .halt s = .next t ∧ t.line.toNat = (s.line.toNat + 1) % 228 ∧ t.busy = false ∧
        t.hdepth = false ∧ t.port.res = 0) ∧
    ((∀ k, k ≤ (387 - s.line.toNat) % 228 → (s.line.toNat + k) % 228 = s.vcmp.toNat → unserved srcVcount s) →
      unserved srcHblank s →
      (s.line.toNat = 160 → unserved srcVblank s ∧ (keypadHit s → unserved srcKeypad s) ∧ feedsClear s) →
      blankingIdle s →
      ∃ t, exec .vsync s = .next t ∧ t.line.toNat = 160 ∧ t.busy = false ∧ t.hdepth = false ∧ t.port.res = 0)

/-- VSYNC entered at line e is ((160 - e - 1) mod 228) + 1 HALTs. It completes iff all of them complete in a row, in the
state the last one leaves. It is suspended at a handler iff one of them is, after those before it have completed: in the
state that HALT leaves, but that VSYNC is the suspended command and its `res` is not written yet. It is refused iff one of
them is, with the same refusal (spec/41_timing_engine.md R131; where the suspended command stands is log 3). -/
def Obligations.VsyncIsRepeatedHalt : Prop :=
  ∀ (s : State) (n : Nat), mainFlow s → s.line.toNat < 228 → n = (387 - s.line.toNat) % 228 →
    (∀ t, exec .vsync s = .next t ∧ t.hdepth = false ↔ haltsReach (n + 1) s t) ∧
    (∀ t, exec .vsync s = .next t ∧ t.hdepth = true ↔
      ∃ k u v, k ≤ n ∧ haltsReach k s u ∧ exec .halt u = .next v ∧ v.hdepth = true ∧
        t = { v with port := s.port, susp := v.susp.map fun x => { x with cmd := .vsync } }) ∧
    (∀ e, exec .vsync s = .refused e ↔ ∃ k u, k ≤ n ∧ haltsReach k s u ∧ exec .halt u = .refused e)

/-- The VCOUNT occurrence reaches its handler first on the line, before anything of the line has happened: HALT and
VSYNC are suspended with IF[2] clear, INSVC[2] and HDEPTH set, CALL emitted, and nothing else changed but BUSY
(spec/41_timing_engine.md R121, spec/60_exceptions.md R233, R234, R236). -/
def Obligations.VcountHandlerEntry : Prop :=
  ∀ (s : State) (ref : Word) (cmd : TimingCmd), mainFlow s → s.ime = true → s.ie.getLsbD 2 = true →
    s.vec[srcVcount] = some ref → s.line = s.vcmp →
    exec (timingOp cmd) s = .next { s with
      busy := true
      hdepth := true
      ifReg := s.ifReg &&& 0x3FFB#14
      insvc := s.insvc ||| 0x0004#14
      susp := some { src := srcVcount, phase := .p1, cmd := cmd }
      trace := s.trace ++ [.call srcVcount ref] }

/-- On the line HALT or VSYNC starts on, the HBLANK occurrence of a visible line reaches its handler after the line is
drawn and the HBLANK transfers are complete; the VBLANK occurrence of line 160 after the VBLANK transfers, so that every
store of them precedes CALL, and before the flush; the KEYPAD occurrence after the flush, the pacing and the poll
(spec/41_timing_engine.md R120, R123, R124, R125, R128, R133, spec/60_exceptions.md R236). The lines a VSYNC steps after
its first are those of VsyncIsRepeatedHalt. -/
def Obligations.BlankingHandlerEntry : Prop :=
  ∀ (s : State) (cmd : TimingCmd) (ref : Word) (latched : BitVec 14), mainFlow s →
    (s.line = s.vcmp → unserved srcVcount s) →
    latched = s.ifReg ||| (if s.line = s.vcmp then s.ie &&& 0x0004#14 else 0) →
    (s.line.toNat < 160 → armedClear .hblank s → served srcHblank ref s → ∃ u, dmaTrigger .hblank s = .ok u ∧
      exec (timingOp cmd) s = .next { s with
        busy := true
        hdepth := true
        mem := u.mem
        dma := u.dma
        ifReg := latched &&& 0x3FFD#14
        insvc := s.insvc ||| 0x0002#14
        susp := some { src := srcHblank, phase := .p4, cmd := cmd }
        trace := s.trace ++ [.draw s.line, .call srcHblank ref] }) ∧
    (s.line.toNat = 160 → armedClear .vblank s → ∃ u, dmaTrigger .vblank s = .ok u ∧
      (served srcVblank ref s →
        exec (timingOp cmd) s = .next { s with
          busy := true
          hdepth := true
          mem := u.mem
          dma := u.dma
          ifReg := latched &&& 0x3FFE#14
          insvc := s.insvc ||| 0x0001#14
          susp := some { src := srcVblank, phase := .p6, cmd := cmd }
          trace := s.trace ++ [.call srcVblank ref] }) ∧
      (unserved srcVblank s → keypadHit s → served srcKeypad ref s → ∀ v, soundMixFrame { s with
          busy := true
          mem := u.mem
          dma := u.dma
          ifReg := latched ||| (s.ie &&& 0x0001#14)
          trace := s.trace ++ [.present] } = .ok v →
        exec (timingOp cmd) s = .next { pacingWait v with
          hdepth := true
          keysnap := s.host.keys
          ifReg := v.ifReg &&& 0x2FFF#14
          insvc := s.insvc ||| 0x1000#14
          susp := some { src := srcKeypad, phase := .p9, cmd := cmd }
          trace := (pacingWait v).trace ++ [.call srcKeypad ref] }))

/-- One occurrence of a source: dropped where it is disabled; latched where the gate is shut or no handler is
registered; delivered, its flag cleared at entry, otherwise (spec/60_exceptions.md R233, R234). -/
def Obligations.OccurrenceOfASource : Prop :=
  ∀ (cmd : TimingCmd) (p : Phase) (src : Source) (s : State),
    (flagOf s.ie src = false → raiseIrq cmd p src s = .go s) ∧
    (flagOf s.ie src = true → s.ime = false ∨ s.vec[src] = none →
      ∃ t, raiseIrq cmd p src s = .go t ∧ t = { s with ifReg := t.ifReg } ∧
        ∀ k : Source, flagOf t.ifReg k = (flagOf s.ifReg k || decide (k = src))) ∧
    (∀ ref, flagOf s.ie src = true → s.ime = true → s.vec[src] = some ref →
      ∃ t, raiseIrq cmd p src s = .call t ∧
        t = { s with
          ifReg := t.ifReg
          insvc := t.insvc
          hdepth := true
          susp := t.susp
          trace := s.trace ++ [.call src ref] } ∧
        (∀ k : Source, flagOf t.ifReg k = (flagOf s.ifReg k && decide (k ≠ src))) ∧
        (∀ k : Source, flagOf t.insvc k = (flagOf s.insvc k || decide (k = src))))

/-- The return of a handler: RET is emitted, INSVC and HDEPTH are cleared, and the suspended command goes on with the
phases left of its step. After the KEYPAD handler, after the HBLANK handler of a line other than 160 and after the VCOUNT
handler of lines 161 to 227 a HALT only advances the line. After the VCOUNT handler of a visible line it draws, runs the
HBLANK trigger and raises HBLANK; after that of line 160 it runs the VBLANK trigger and raises VBLANK; then, or after the
VBLANK handler, it flushes, paces, polls and raises KEYPAD. A trigger or a frame that meets REGSET is refused. A suspended
VSYNC finishes its step as a HALT does and then, unless LINE is 160 or a handler was entered, is a VSYNC from there. Outside
a handler there is nothing to return from (spec/60_exceptions.md R236, spec/41_timing_engine.md R120, R123 to R125, R128,
R131, spec/20_memory.md R56; BUSY = 1 on the return is log 9, where the command stands is kept in a field of the model,
log 3, the refusal of a return outside a handler is the model's, log 12). -/
def Obligations.HandlerReturnGoesOn : Prop :=
  ∀ (s : State) (rest : List Input), s.inputs = .ret :: rest →
    (s.hdepth = false → step s = .refused .returnOutsideHandler) ∧
    (∀ (src : Source) (p : Phase) (r : State), s.hdepth = true →
      r = { s with
        inputs := rest
        trace := s.trace ++ [.ret src]
        insvc := clearFlag s.insvc src
        hdepth := false
        susp := none
        busy := true } →
      (s.susp = some { src := src, phase := p, cmd := .halt } →
        (p = .p9 ∨ (p = .p4 ∧ s.line.toNat ≠ 160) ∨ (p = .p1 ∧ 160 < s.line.toNat) →
          step s = .next { r with
            busy := false
            line := BitVec.ofNat 8 ((s.line.toNat + 1) % 228)
            port := { s.port with res := 0 } }) ∧
        (p = .p1 → s.line.toNat < 160 → armedClear .hblank s → ∃ u, dmaTrigger .hblank s = .ok u ∧
          (unserved srcHblank s → step s = .next { r with
            busy := false
            mem := u.mem
            dma := u.dma
            line := BitVec.ofNat 8 (s.line.toNat + 1)
            ifReg := s.ifReg ||| (s.ie &&& 0x0002#14)
            trace := r.trace ++ [.draw s.line]
            port := { s.port with res := 0 } }) ∧
          (∀ ref, served srcHblank ref s → step s = .next { r with
            mem := u.mem
            dma := u.dma
            hdepth := true
            ifReg := s.ifReg &&& 0x3FFD#14
            insvc := r.insvc ||| 0x0002#14
            susp := some { src := srcHblank, phase := .p4, cmd := .halt }
            trace := r.trace ++ [.draw s.line, .call srcHblank ref] })) ∧
        (p = .p1 → s.line.toNat < 160 → ¬ armedClear .hblank s → step s = .refused .engineAccessToRegisters) ∧
        (p = .p1 → s.line.toNat = 160 → ¬ armedClear .vblank s → step s = .refused .engineAccessToRegisters) ∧
        (p = .p1 → s.line.toNat = 160 → armedClear .vblank s → ∃ u, dmaTrigger .vblank s = .ok u ∧
          ∀ ref, served srcVblank ref s → step s = .next { r with
            mem := u.mem
            dma := u.dma
            hdepth := true
            ifReg := s.ifReg &&& 0x3FFE#14
            insvc := r.insvc ||| 0x0001#14
            susp := some { src := srcVblank, phase := .p6, cmd := .halt }
            trace := r.trace ++ [.call srcVblank ref] }) ∧
        (∀ frame : State, s.line.toNat = 160 →
          (p = .p6 ∧ frame = { r with trace := r.trace ++ [.present] }) ∨
          (p = .p1 ∧ unserved srcVblank s ∧ ∃ u, dmaTrigger .vblank s = .ok u ∧ frame = { r with
            mem := u.mem
            dma := u.dma
            ifReg := s.ifReg ||| (s.ie &&& 0x0001#14)
            trace := r.trace ++ [.present] }) →
          (∀ e, soundMixFrame frame = .error e → step s = .refused e) ∧
          (∀ v, soundMixFrame frame = .ok v →
            ((keypadHit s → unserved srcKeypad s) →
              step s = .next { afterFlush v with busy := false, port := { s.port with res := 0 } }) ∧
            (∀ ref, keypadHit s → served srcKeypad ref s → step s = .next { pacingWait v with
              hdepth := true
              keysnap := s.host.keys
              ifReg := frame.ifReg &&& 0x2FFF#14
              insvc := r.insvc ||| 0x1000#14
              susp := some { src := srcKeypad, phase := .p9, cmd := .halt }
              trace := (pacingWait v).trace ++ [.call srcKeypad ref] })))) ∧
      (s.susp = some { src := src, phase := p, cmd := .vsync } →
        ∀ asHalt, asHalt = step { s with susp := some { src := src, phase := p, cmd := .halt } } →
          (∀ e, asHalt = .refused e → step s = .refused e) ∧
          (∀ u, asHalt = .next u →
            (∀ y, u.susp = some y → step s = .next { u with susp := some { y with cmd := .vsync } }) ∧
            (u.susp = none → u.line.toNat = 160 → step s = .next u) ∧
            (u.susp = none → u.line.toNat ≠ 160 → step s = exec .vsync { u with port := s.port }))))

/-- Within one HALT the handlers are invoked in the order of their phases, all on the same line: the one invoked after
a return belongs to a later phase (spec/41_timing_engine.md R133, spec/60_exceptions.md R239). -/
def Obligations.DispatchOrderWithinALine : Prop :=
  ∀ (s t : State) (x y : Suspension), s.susp = some x → x.cmd = .halt → handlerReturn s = .next t →
    t.susp = some y →
    phaseNumber x.phase < phaseNumber y.phase ∧ y.cmd = .halt ∧ t.line = s.line ∧ dispatchPoint y.src y.phase

/-- Presentation, the audio flush, the pacing and the poll happen only where a command starts or goes on at line 160: from
any other line neither HALT, nor the whole of a VSYNC, nor what is left of one after a handler emits PRESENT, CAPTURE,
AUDIO or SLEEP, polls the keys, mixes, or moves the deadline (spec/41_timing_engine.md R131, R132). -/
def Obligations.VblankEffectsOnlyAtLine160 : Prop :=
  ∀ s t : State, s.line.toNat ≠ 160 →
    exec .halt s = .next t ∨ exec .vsync s = .next t ∨ handlerReturn s = .next t →
    (∃ evs : List Event, t.trace = s.trace ++ evs ∧
      ∀ e ∈ evs, e ≠ .present ∧ (∀ b, e ≠ .capture b) ∧ (∀ b, e ≠ .audio b) ∧ ∀ n, e ≠ .sleep n) ∧
      t.keysnap = s.keysnap ∧ t.mix = s.mix ∧ t.mixn = s.mixn ∧ t.snd = s.snd ∧ t.deadline = s.deadline

/-- 228 completed HALTs return the line to where it was and present exactly one frame (spec/41_timing_engine.md R130,
R132). -/
def Obligations.FrameOfHalts : Prop :=
  ∀ s t : State, s.line.toNat < 228 → haltsReach 228 s t →
    t.line = s.line ∧ presents t.trace = presents s.trace + 1

/-- Acceptance: inside a handler HALT and VSYNC are refused; while a command is in progress and control is in no
handler every operation is refused (spec/30_encoding.md R82, spec/60_exceptions.md R240, R244; that a malformed register access is
then refused as an operation while busy is the model's choice, log 23). -/
def Obligations.Acceptance : Prop :=
  ∀ s : State,
    (s.hdepth = true → exec .halt s = .refused .timingCommandInHandler ∧
      exec .vsync s = .refused .timingCommandInHandler) ∧
    (s.busy = true → s.hdepth = false → ∀ i : Instr, exec i s = .refused .operationWhileBusy)

/-! ### DMA -/

/-- A trigger completes iff no unit of the channels armed for it meets REGSET, and is refused otherwise. It runs exactly
the armed channels that wait for it, in ascending index: each stores its units one after another, each of its latches
steps by the count, it disables itself unless it repeats; the other channels are as before, and only bytes of the units'
destinations can have changed (spec/42_dma.md R140, R141, R143, R151, spec/20_memory.md R56). -/
def Obligations.TriggerRunsMatchingChannels : Prop :=
  ∀ (ev : Trigger) (s : State),
    (armedClear ev s → ∃ t, dmaTrigger ev s = .ok t) ∧
    (¬ armedClear ev s → dmaTrigger ev s = .error .engineAccessToRegisters) ∧
    (∀ t : State, dmaTrigger ev s = .ok t →
      t = { s with mem := t.mem, dma := t.dma } ∧
      (∀ n : DmaIndex, t.dma[n] =
        if s.dma[n].en = true ∧ s.dma[n].trig = ev
        then { channelAfter s.dma[n] s.dma[n].cnt.toNat with en := s.dma[n].rep }
        else s.dma[n]) ∧
      (s.mem.wf memBytes = true → ∃ m : Nat → Memory, m 0 = s.mem ∧ m 4 = t.mem ∧
        ∀ n : DmaIndex,
          if s.dma[n].en = true ∧ s.dma[n].trig = ev
          then transfers s.dma[n] s.dma[n].cnt.toNat (m n) (m (n + 1))
          else m (n + 1) = m n) ∧
      (∀ a : Nat,
        (∀ (n : DmaIndex) (j : Nat), s.dma[n].en = true → s.dma[n].trig = ev → j < s.dma[n].cnt.toNat →
          outside a (unitDest s.dma[n] j) (dmaWidth s.dma[n])) →
        t.mem.read a = s.mem.read a))

/-- A zero-length transfer makes no access and leaves the latches; the channel still disables itself unless it
repeats, and always where it is immediate (spec/42_dma.md R144). -/
def Obligations.ZeroLengthTransfer : Prop :=
  ∀ (n : DmaIndex) (s : State), s.dma[n].cnt = 0 →
    dmaBlock n s = .ok s ∧
    (∀ ev : Trigger, s.dma[n].en = true → s.dma[n].trig = ev →
      dmaTurn ev n s = .ok { s with dma := s.dma.set n { s.dma[n] with en := s.dma[n].rep } }) ∧
    dmaRun n s = .ok { s with dma := s.dma.set n { s.dma[n] with en := false } }

/-- What an immediate transfer stores, by its operand modes. Both incrementing: between ranges that share no byte it is a
copy; one unit upwards it replicates the first unit; one unit downwards it still moves every unit. A fixed source fills
the destination with its unit; a fixed destination ends with the last unit the source held; both fixed, one unit is
copied. Every byte outside the destination is as before (spec/42_dma.md R143, R146, R149, spec/20_memory.md R53). -/
def Obligations.ImmediateTransferCopies : Prop :=
  ∀ (s : State) (v : Word) (n : DmaIndex) (w k ks kd : Nat) (src dst : Word), portFree s = true →
    s.mem.wf memBytes = true →
    s.dma[n].en = false → v.getLsbD 5 = false → v.getLsbD 7 = false → v.getLsbD 12 = false →
    v.getLsbD 13 = false → v.getLsbD 15 = true →
    w = (if v.getLsbD 10 then 4 else 2) → k = s.dma[n].cnt.toNat →
    ks = (if v.getLsbD 8 then min 1 k else k) → kd = (if v.getLsbD 6 then min 1 k else k) →
    src = alignDown s.dma[n].sad w → dst = alignDown s.dma[n].dad w →
    clearOf src (ks * w) → clearOf dst (kd * w) →
    ∃ t, exec (cntHOp n ⟨.write, .half, 0, v⟩) s = .next t ∧
      (v.getLsbD 8 = false → v.getLsbD 6 = false → apart src (k * w) dst (k * w) →
        ∀ i, i < k * w → t.mem.read (dst + BitVec.ofNat 32 i).toNat = s.mem.read (src + BitVec.ofNat 32 i).toNat) ∧
      (v.getLsbD 8 = false → v.getLsbD 6 = false → dst = src + BitVec.ofNat 32 w →
        ∀ j i, j < k → i < w → t.mem.read (dst + BitVec.ofNat 32 (j * w + i)).toNat =
          s.mem.read (src + BitVec.ofNat 32 i).toNat) ∧
      (v.getLsbD 8 = false → v.getLsbD 6 = false → src = dst + BitVec.ofNat 32 w →
        ∀ i, i < k * w → t.mem.read (dst + BitVec.ofNat 32 i).toNat = s.mem.read (src + BitVec.ofNat 32 i).toNat) ∧
      (v.getLsbD 8 = true → v.getLsbD 6 = false →
        ∀ j i, j < k → i < w → t.mem.read (dst + BitVec.ofNat 32 (j * w + i)).toNat =
          s.mem.read (src + BitVec.ofNat 32 i).toNat) ∧
      (v.getLsbD 8 = false → v.getLsbD 6 = true → 0 < k → dst ≠ src + BitVec.ofNat 32 ((k - 1) * w) →
        ∀ i, i < w → t.mem.read (dst + BitVec.ofNat 32 i).toNat =
          s.mem.read (src + BitVec.ofNat 32 ((k - 1) * w + i)).toNat) ∧
      (v.getLsbD 8 = true → v.getLsbD 6 = true → 0 < k →
        ∀ i, i < w → t.mem.read (dst + BitVec.ofNat 32 i).toNat = s.mem.read (src + BitVec.ofNat 32 i).toNat) ∧
      (∀ a, outside a dst (kd * w) → t.mem.read a = s.mem.read a)

/-- The demand of an audio channel: the armed FIFO channel of lowest index whose DAD names it supplies the four bytes at
its latch rounded down to 4 and steps its latch by 4 unless fixed; with none, nothing is supplied; nothing is written.
Where one of the four bytes lies in REGSET the demand is refused (spec/42_dma.md R150, spec/20_memory.md R56). -/
def Obligations.FifoDemand : Prop :=
  ∀ (c : Audio) (m : Memory) (dma : Vector DmaChannel 4) (named : DmaIndex → Prop),
    (∀ n, named n ↔ (dma[n].en = true ∧ dma[n].trig = .fifo ∧
      dma[n].dad = if c = 0 then 0x040000A0#32 else 0x040000A4#32)) →
    ((∀ n, ¬ named n) → fifoSupply c m dma = .ok (none, dma)) ∧
    (∀ (n : DmaIndex) (base : Word), named n → (∀ k, k < n → ¬ named k) → base = dma[n].isrc &&& 0xFFFFFFFC#32 →
      (clearOf base 4 →
        fifoSupply c m dma = .ok
          (some ⟨m.read base.toNat, m.read (base + 1).toNat, m.read (base + 2).toNat, m.read (base + 3).toNat⟩,
           dma.set n { dma[n] with
             isrc := if dma[n].srcFixed then dma[n].isrc else dma[n].isrc + 4
             en := dma[n].rep })) ∧
      (¬ clearOf base 4 → fifoSupply c m dma = .error .engineAccessToRegisters))

/-! ### The mixer -/

/-- The mix: as many pairs as the longer channel buffer holds, within the capacity; each output is the exact weighted sum
of the two signed samples, a missing one counting 0, times 64, and fits the 16-bit sample
(spec/43_sound_mixer.md R162, R170). -/
def Obligations.MixesEachIndex : Prop :=
  ∀ (s t : State) (level : Bool → Bool → Int) (a b : Nat → Int), t = mixChannels s →
    (∀ on amp, level on amp = if on then (if amp then 2 else 1) else 0) →
    (∀ i, a i = if i < s.snd[0].bufn then (s.snd[0].buf.getD i 0).toInt else 0) →
    (∀ i, b i = if i < s.snd[1].bufn then (s.snd[1].buf.getD i 0).toInt else 0) →
    t = { s with mix := t.mix, mixn := t.mixn } ∧
    t.mixn = min (max s.snd[0].bufn s.snd[1].bufn) s.cfg.mixCap ∧
    ∀ i, i < t.mixn → ∃ l r : Pcm, t.mix[i]? = some (l, r) ∧
      l.toInt = (a i * level s.ctl[0].left s.ctl[0].amp + b i * level s.ctl[1].left s.ctl[1].amp) * 64 ∧
      r.toInt = (a i * level s.ctl[0].right s.ctl[0].amp + b i * level s.ctl[1].right s.ctl[1].amp) * 64

/-- One frame. A channel whose timer is stopped gets SAMPLES_PER_FRAME zeros and nothing else of it changes; one whose
timer is started, the timer that TSEL selects, is run for CLOCKS_PER_FRAME clocks at the period (65536 - RELOAD) times the
prescaler 1, 64, 256 or 1024 that PSEL selects. With MASTER = 1 channel A and then channel B are synthesised, mixed, and the
mix is captured and submitted, short of its last pair under backpressure; with both timers stopped, or MASTER = 0, the frame
is all zero and no DMA channel is consumed. The frame completes where what its demands fetch is outside REGSET
(spec/43_sound_mixer.md R160 to R163, R175, spec/20_memory.md R56). -/
def Obligations.FrameSynthesis : Prop :=
  (∀ (c : Audio) (s : State), s.timer[s.ctl[c].tsel].start = false →
    synth c s = .ok { s with snd := s.snd.set c { s.snd[c] with
      buf := List.replicate s.cfg.samplesPerFrame 0 ++ s.snd[c].buf.drop s.cfg.samplesPerFrame
      bufn := s.cfg.samplesPerFrame } }) ∧
  (∀ (c : Audio) (s t : State) (timer : Timer) (per : Nat), timer = s.timer[s.ctl[c].tsel] → timer.start = true →
    per = (65536 - timer.reload.toNat) *
      (if timer.psel = 0 then 1 else if timer.psel = 1 then 64 else if timer.psel = 2 then 256 else 1024) →
    (synth c s = .ok t ↔ ∃ run : Nat → Feed, run 0 = ({ s.snd[c] with bufn := 0 }, s.dma) ∧
      (∀ k, k < s.cfg.clocksPerFrame → tick c s.cfg s.mem per (run k) = .ok (run (k + 1))) ∧
      t = { s with
        snd := s.snd.set c (run s.cfg.clocksPerFrame).1
        dma := (run s.cfg.clocksPerFrame).2 })) ∧
  (∀ s t : State, s.master = true →
    (soundMixFrame s = .ok t ↔ ∃ a b u n, synth 0 { s with mixn := 0 } = .ok a ∧ synth 1 a = .ok b ∧
      u = mixChannels b ∧ n = (if s.host.queueOver then u.mixn - 1 else u.mixn) ∧
      t = { u with
        mixn := n
        trace := s.trace ++ [.capture (u.mix.take u.mixn), .audio (u.mix.take n)] })) ∧
  (∀ (s : State) (n n' : Nat), s.master = false ∨ (∀ c : Audio, s.timer[s.ctl[c].tsel].start = false) →
    n = (if s.master then min s.cfg.samplesPerFrame s.cfg.mixCap else s.cfg.samplesPerFrame) →
    n' = (if s.host.queueOver then n - 1 else n) →
    ∃ t, soundMixFrame s = .ok t ∧ t.dma = s.dma ∧ t.mem = s.mem ∧
      t.trace = s.trace ++ [.capture (List.replicate n (0, 0)), .audio (List.replicate n' (0, 0))]) ∧
  (∀ s : State, feedsClear s → ∃ t, soundMixFrame s = .ok t)

/-- The pop: a byte left in the cache is taken, lowest address first; an empty cache is refilled first where a channel
supplies it, with no supplier nothing changes, and where the refill is refused so is the pop (spec/43_sound_mixer.md R165,
spec/20_memory.md R56). -/
def Obligations.PopTakesNextByte : Prop :=
  ∀ (c : Audio) (m : Memory) (d : SoundDma) (dma dma' : Vector DmaChannel 4),
    (0 < d.rem → d.rem ≤ 4 → ∃ b : Byte, some b = [d.cache.b0, d.cache.b1, d.cache.b2, d.cache.b3][4 - d.rem]? ∧
      pop c m (d, dma) = .ok ({ d with cur := b, rem := d.rem - 1 }, dma)) ∧
    (d.rem = 0 → fifoSupply c m dma = .ok (none, dma') → pop c m (d, dma) = .ok (d, dma')) ∧
    (∀ r : Cache, d.rem = 0 → fifoSupply c m dma = .ok (some r, dma') →
      pop c m (d, dma) = .ok ({ d with cache := r, cur := r.b0, rem := 3 }, dma')) ∧
    (∀ e, d.rem = 0 → fifoSupply c m dma = .error e → pop c m (d, dma) = .error e)

/-- One simulated clock: each of the two counters fires where it is at most 1 and reloads, else counts down; the byte
popped in a tick is the one appended in it; the buffer grows only where the output counter fires, by one byte and
within its capacity. A tick is refused exactly where the pop it takes is (spec/43_sound_mixer.md R164,
spec/20_memory.md R56). -/
def Obligations.TickOfAChannel : Prop :=
  (∀ (c : Audio) (cfg : Config) (m : Memory) (per : Nat) (f g : Feed), tick c cfg m per f = .ok g →
    g.1.srcclk = (if f.1.srcclk ≤ 1 then per else f.1.srcclk - 1) ∧
    g.1.outclk = (if f.1.outclk ≤ 1 then cfg.clocksPerSample else f.1.outclk - 1) ∧
    (1 < f.1.srcclk → g.1.cur = f.1.cur ∧ g.1.cache = f.1.cache ∧ g.1.rem = f.1.rem ∧ g.2 = f.2) ∧
    (f.1.srcclk ≤ 1 → ∃ p : Feed, pop c m f = .ok p ∧ g.1.cur = p.1.cur ∧ g.1.cache = p.1.cache ∧
      g.1.rem = p.1.rem ∧ g.2 = p.2) ∧
    (f.1.outclk ≤ 1 ∧ f.1.bufn < cfg.bufCap →
      g.1.bufn = f.1.bufn + 1 ∧ g.1.buf = f.1.buf.set f.1.bufn g.1.cur) ∧
    (¬ (f.1.outclk ≤ 1 ∧ f.1.bufn < cfg.bufCap) → g.1.bufn = f.1.bufn ∧ g.1.buf = f.1.buf)) ∧
  (∀ (c : Audio) (cfg : Config) (m : Memory) (per : Nat) (f : Feed) (e : Refusal),
    tick c cfg m per f = .error e ↔ f.1.srcclk ≤ 1 ∧ pop c m f = .error e)

/-! ### Firmware calls -/

/-- CPUSET as a fill completes: every unit of the destination holds the unit at the source, read once before any write,
and every other byte is as before; a fill or copy of no units touches nothing; a fill that reads or writes a byte of REGSET
is refused (spec/44_firmware_calls.md R192, spec/20_memory.md R54, R56). -/
def Obligations.CpusetFills : Prop :=
  ∀ (s : State) (src dst control : Word) (w n : Nat), portFree s = true →
    w = (if control.getLsbD 26 then 4 else 2) → n = control.toNat % 2 ^ 21 →
    (n = 0 → exec (.cpuset src dst control) s = .next { s with busy := false, port := { s.port with res := 0 } }) ∧
    (0 < n → control.getLsbD 24 = true → s.mem.wf memBytes = true → clearOf (alignDown src w) w →
      clearOf (alignDown dst w) (n * w) →
      ∃ m : Memory,
        exec (.cpuset src dst control) s = .next { s with busy := false, mem := m, port := { s.port with res := 0 } } ∧
        (∀ k i, k < n → i < w → m.read (blockUnit dst w k + BitVec.ofNat 32 i).toNat =
          s.mem.read (alignDown src w + BitVec.ofNat 32 i).toNat) ∧
        (∀ a, outside a (alignDown dst w) (n * w) → m.read a = s.mem.read a)) ∧
    (0 < n → control.getLsbD 24 = true →
      ¬ (clearOf (alignDown src w) w ∧ clearOf (alignDown dst w) (n * w)) →
      exec (.cpuset src dst control) s = .refused .engineAccessToRegisters)

/-- CPUSET as a copy completes: between ranges that share no byte the destination holds what the source held; with the
destination one unit above the source the first unit is replicated; every byte outside the destination is as before; a copy
that reads or writes a byte of REGSET is refused (spec/44_firmware_calls.md R192, spec/42_dma.md R149,
spec/20_memory.md R56). -/
def Obligations.CpusetCopies : Prop :=
  ∀ (s : State) (src dst control : Word) (w n : Nat), portFree s = true →
    w = (if control.getLsbD 26 then 4 else 2) → n = control.toNat % 2 ^ 21 → control.getLsbD 24 = false →
    (s.mem.wf memBytes = true → clearOf (alignDown src w) (n * w) → clearOf (alignDown dst w) (n * w) →
      ∃ m : Memory,
        exec (.cpuset src dst control) s = .next { s with busy := false, mem := m, port := { s.port with res := 0 } } ∧
        (apart (alignDown src w) (n * w) (alignDown dst w) (n * w) →
          ∀ i, i < n * w → m.read (alignDown dst w + BitVec.ofNat 32 i).toNat =
            s.mem.read (alignDown src w + BitVec.ofNat 32 i).toNat) ∧
        (alignDown dst w = alignDown src w + BitVec.ofNat 32 w →
          ∀ k i, k < n → i < w → m.read (blockUnit dst w k + BitVec.ofNat 32 i).toNat =
            s.mem.read (alignDown src w + BitVec.ofNat 32 i).toNat) ∧
        (∀ a, outside a (alignDown dst w) (n * w) → m.read a = s.mem.read a)) ∧
    (¬ (clearOf (alignDown src w) (n * w) ∧ clearOf (alignDown dst w) (n * w)) →
      exec (.cpuset src dst control) s = .refused .engineAccessToRegisters)

/-- CPUFASTSET is CPUSET at 32-bit width with the count truncated down to a multiple of 8; so it completes where that
CPUSET does, a count of 1 to 7 touches nothing, and it is refused where a byte it reads or writes lies in REGSET
(spec/44_firmware_calls.md R195, spec/20_memory.md R56). -/
def Obligations.CpufastsetTruncates : Prop :=
  ∀ (s : State) (src dst control control' : Word) (n read : Nat), n = control.toNat % 2 ^ 21 / 8 * 8 →
    read = (if control.getLsbD 24 then min 1 n else n) → control'.toNat % 2 ^ 21 = n →
    control'.getLsbD 24 = control.getLsbD 24 → control'.getLsbD 26 = true →
    exec (.cpufastset src dst control) s = exec (.cpuset src dst control') s ∧
    (portFree s = true → n = 0 →
      exec (.cpufastset src dst control) s = .next { s with busy := false, port := { s.port with res := 0 } }) ∧
    (portFree s = true → clearOf (alignDown src 4) (read * 4) → clearOf (alignDown dst 4) (n * 4) →
      ∃ m, exec (.cpufastset src dst control) s =
        .next { s with busy := false, mem := m, port := { s.port with res := 0 } }) ∧
    (portFree s = true → ¬ (clearOf (alignDown src 4) (read * 4) ∧ clearOf (alignDown dst 4) (n * 4)) →
      exec (.cpufastset src dst control) s = .refused .engineAccessToRegisters)

/-- Fill then copy with matching width reproduces the exact byte pattern: after a fill of n units at X and a copy of n
units from X to Y, ranges apart, Y holds the fill unit n times (spec/44_firmware_calls.md R196). -/
def Obligations.FillThenCopy : Prop :=
  ∀ (s t u : State) (src x y fill copy : Word) (w n : Nat), s.mem.wf memBytes = true →
    fill.getLsbD 24 = true → copy.getLsbD 24 = false →
    w = (if fill.getLsbD 26 then 4 else 2) → w = (if copy.getLsbD 26 then 4 else 2) →
    n = fill.toNat % 2 ^ 21 → n = copy.toNat % 2 ^ 21 →
    apart (alignDown x w) (n * w) (alignDown y w) (n * w) →
    exec (.cpuset src x fill) s = .next t → exec (.cpuset x y copy) t = .next u →
    ∀ k i, k < n → i < w → u.mem.read (blockUnit y w k + BitVec.ofNat 32 i).toNat =
      s.mem.read (alignDown src w + BitVec.ofNat 32 i).toNat

/-- LZ77 completes whatever the stream holds, where the bytes it can read and write are outside REGSET; it is refused where
a byte of the header lies in REGSET, and for no other reason than an access to REGSET. A header type other than 1 aborts
with LOG 1, a size beyond the scratch buffer or a refused allocation with LOG 3, both completing with MEM untouched;
whatever happens, the call either logs one code and leaves MEM alone or logs nothing and changes only the declared bytes of
the destination (spec/44_firmware_calls.md R190, R200, R201, R205, spec/70_reset_and_hazards.md R276,
spec/20_memory.md R56). -/
def Obligations.Lz77CompletesOrAborts : Prop :=
  ∀ (s : State) (src dst : Word), portFree s = true →
    (clearOf src (4 + 3 * declaredSize s.mem src) → clearOf dst (declaredSize s.mem src) →
      ∃ t, exec (.lz77 src dst) s = .next t) ∧
    (¬ clearOf src 4 → exec (.lz77 src dst) s = .refused .engineAccessToRegisters) ∧
    (∀ e, exec (.lz77 src dst) s = .refused e → e = .engineAccessToRegisters) ∧
    (clearOf src 4 → declaredType s.mem src ≠ 1 →
      exec (.lz77 src dst) s = .next { s with
        busy := false, trace := s.trace ++ [.log .badType], port := { s.port with res := 0 } }) ∧
    (clearOf src 4 → declaredType s.mem src = 1 →
      s.cfg.scratchCap < declaredSize s.mem src ∨ s.host.allocOk = false →
      exec (.lz77 src dst) s = .next { s with
        busy := false, trace := s.trace ++ [.log .scratchAlloc], port := { s.port with res := 0 } }) ∧
    (∀ t, exec (.lz77 src dst) s = .next t →
      t = { s with busy := false, mem := t.mem, trace := t.trace, port := { s.port with res := 0 } } ∧
      ((t.mem = s.mem ∧ ∃ code, t.trace = s.trace ++ [.log code]) ∨
       (t.trace = s.trace ∧ ∀ a, outside a dst (declaredSize s.mem src) → t.mem.read a = s.mem.read a)))

/-- LZ77 on a stream of literals only: control bytes 0, one before every eight literals; the destination receives the
literals byte for byte, the call completes and logs nothing; where a byte of the stream or of the destination lies in
REGSET it is refused (spec/44_firmware_calls.md R201, R202, R206, spec/20_memory.md R56). -/
def Obligations.Lz77Literals : Prop :=
  ∀ (s : State) (src dst : Word) (n : Nat), portFree s = true →
    declaredType s.mem src = 1 → n = declaredSize s.mem src → n ≤ s.cfg.scratchCap → s.host.allocOk = true →
    (∀ j, 8 * j < n → s.mem.read (src + BitVec.ofNat 32 (4 + 9 * j)).toNat = 0) →
    (s.mem.wf memBytes = true → clearOf src (4 + n + (n + 7) / 8) → clearOf dst n →
      ∃ m : Memory, exec (.lz77 src dst) s = .next { s with busy := false, mem := m, port := { s.port with res := 0 } } ∧
        (∀ i, i < n → m.read (dst + BitVec.ofNat 32 i).toNat =
          s.mem.read (src + BitVec.ofNat 32 (5 + i + i / 8)).toNat) ∧
        (∀ a, outside a dst n → m.read a = s.mem.read a)) ∧
    (¬ (clearOf src (4 + n + (n + 7) / 8) ∧ clearOf dst n) →
      exec (.lz77 src dst) s = .refused .engineAccessToRegisters)

/-- LZ77 on a stream of up to seven literals and then one back-reference, by the bits of the control byte from the
highest down: one that would reach before the output aborts with LOG 2, MEM untouched; any other is copied byte by byte
from `dist` bytes back in the output, its own bytes among them, and cut at the declared size; where a byte of the stream, or
of the destination of a decode that does not abort, lies in REGSET the call is refused
(spec/44_firmware_calls.md R201 to R204, R206, spec/20_memory.md R56). -/
def Obligations.Lz77BackReference : Prop :=
  ∀ (s : State) (src dst : Word) (n q len dist : Nat), portFree s = true → s.mem.wf memBytes = true →
    declaredType s.mem src = 1 → n = declaredSize s.mem src → n ≤ s.cfg.scratchCap → s.host.allocOk = true →
    q ≤ 7 → (s.mem.read (src + 4).toNat).toNat / 2 ^ (7 - q) = 1 →
    len = (s.mem.read (src + BitVec.ofNat 32 (5 + q)).toNat).toNat / 16 + 3 →
    dist = (s.mem.read (src + BitVec.ofNat 32 (5 + q)).toNat).toNat % 16 * 256
      + (s.mem.read (src + BitVec.ofNat 32 (6 + q)).toNat).toNat + 1 →
    q < n → n ≤ q + len →
    (¬ clearOf src (7 + q) → exec (.lz77 src dst) s = .refused .engineAccessToRegisters) ∧
    (clearOf src (7 + q) → q < dist → exec (.lz77 src dst) s = .next { s with
      busy := false, trace := s.trace ++ [.log .backref], port := { s.port with res := 0 } }) ∧
    (dist ≤ q → ¬ clearOf dst n → exec (.lz77 src dst) s = .refused .engineAccessToRegisters) ∧
    (clearOf src (7 + q) → dist ≤ q → clearOf dst n → ∃ m : Memory,
      exec (.lz77 src dst) s = .next { s with busy := false, mem := m, port := { s.port with res := 0 } } ∧
      (∀ i, i < q → m.read (dst + BitVec.ofNat 32 i).toNat =
        s.mem.read (src + BitVec.ofNat 32 (5 + i)).toNat) ∧
      (∀ i, q ≤ i → i < n → m.read (dst + BitVec.ofNat 32 i).toNat =
        m.read (dst + BitVec.ofNat 32 (i - dist)).toNat) ∧
      (∀ a, outside a dst n → m.read a = s.mem.read a))

/-- DIFF8 and DIFF16 complete and write the running sums modulo 256 and 65536, where destination and input share no byte;
a trailing odd byte of DIFF16 is neither read nor written, and every byte outside the elements written is as before; where
a byte read or written lies in REGSET they are refused (spec/44_firmware_calls.md R200, R208, R209,
spec/20_memory.md R56). -/
def Obligations.DeltaUnfilters : Prop :=
  ∀ (s : State) (src dst : Word) (n n' : Nat), portFree s = true → n = declaredSize s.mem src → n' = 2 * (n / 2) →
    (s.mem.wf memBytes = true → clearOf src (4 + n) → clearOf dst n → apart (src + 4) n dst n →
      ∃ m : Memory, exec (.diff8 src dst) s = .next { s with busy := false, mem := m, port := { s.port with res := 0 } } ∧
        (∀ k, k < n → m.read (dst + BitVec.ofNat 32 k).toNat =
          BitVec.ofNat 8 (∑ j ∈ Finset.range (k + 1), (s.mem.read (src + BitVec.ofNat 32 (4 + j)).toNat).toNat)) ∧
        (∀ a, outside a dst n → m.read a = s.mem.read a)) ∧
    (s.mem.wf memBytes = true → clearOf src (4 + n') → clearOf dst n' → apart (src + 4) n' dst n' →
      ∀ sum : Nat → Nat,
        (∀ k, sum k = ∑ j ∈ Finset.range (k + 1),
          ((s.mem.read (src + BitVec.ofNat 32 (4 + 2 * j)).toNat).toNat
            + 256 * (s.mem.read (src + BitVec.ofNat 32 (5 + 2 * j)).toNat).toNat)) →
        ∃ m : Memory,
          exec (.diff16 src dst) s = .next { s with busy := false, mem := m, port := { s.port with res := 0 } } ∧
          (∀ k, k < n / 2 →
            m.read (dst + BitVec.ofNat 32 (2 * k)).toNat = BitVec.ofNat 8 (sum k) ∧
            m.read (dst + BitVec.ofNat 32 (2 * k + 1)).toNat = BitVec.ofNat 8 (sum k / 256)) ∧
          (∀ a, outside a dst n' → m.read a = s.mem.read a)) ∧
    (¬ (clearOf src (4 + n) ∧ clearOf dst n) → exec (.diff8 src dst) s = .refused .engineAccessToRegisters) ∧
    (¬ (clearOf src (4 + n') ∧ clearOf dst n') → exec (.diff16 src dst) s = .refused .engineAccessToRegisters)

/-! ### Storage -/

/-- The bounds check of both storage commands, in its order of priority, on mathematical integers: a request it turns
away completes with its status and changes nothing else; where it answers ok, the bytes lie in the region
(spec/45_storage.md R221). -/
def Obligations.StorageBoundsCheck : Prop :=
  ∀ (s : State) (buffer offset length : Word) (code : Word),
    portFree s = true →
    (code = if s.cfg.storageSize < length.toNat then 1
      else if offset.toInt < 0 then 2
      else if (s.cfg.storageSize : Int) < offset.toInt + length.toNat then 3
      else 0) →
    (code ≠ 0 →
      exec (.sramRead buffer offset length) s = .next { s with busy := false, port := { s.port with res := code } } ∧
      exec (.sramWrite offset buffer length) s = .next { s with busy := false, port := { s.port with res := code } }) ∧
    (code = 0 → storageStatus offset length s = .ok ∧ 0 ≤ offset.toInt ∧
      offset.toNat + length.toNat ≤ s.cfg.storageSize) ∧
    (∀ t, exec (.sramRead buffer offset length) s = .next t ∨ exec (.sramWrite offset buffer length) s = .next t →
      t.port.res = code)

/-- SRAM_READ within the region: it completes with status 0, the bytes of STORE from the offset at the destination, every
other byte of MEM as before and STORE not changed; where a destination byte lies in REGSET it is refused
(spec/45_storage.md R222, spec/20_memory.md R56). -/
def Obligations.SramReadCopies : Prop :=
  ∀ (s : State) (dest offset length : Word), portFree s = true → s.mem.wf memBytes = true → 0 ≤ offset.toInt →
    offset.toNat + length.toNat ≤ s.cfg.storageSize →
    (clearOf dest length.toNat → ∃ m : Memory,
      exec (.sramRead dest offset length) s = .next { s with busy := false, mem := m, port := { s.port with res := 0 } } ∧
      (∀ i, i < length.toNat → m.read (dest + BitVec.ofNat 32 i).toNat = s.store.read (offset.toNat + i)) ∧
      (∀ a, outside a dest length.toNat → m.read a = s.mem.read a)) ∧
    (¬ clearOf dest length.toNat → exec (.sramRead dest offset length) s = .refused .engineAccessToRegisters)

/-- SRAM_WRITE within the region: it completes with status 0, STORE holding the source bytes from the offset, every other
byte of STORE as before and MEM not changed; where a source byte lies in REGSET it is refused
(spec/45_storage.md R223, spec/20_memory.md R56). -/
def Obligations.SramWriteStores : Prop :=
  ∀ (s : State) (offset src length : Word), portFree s = true → s.store.wf s.cfg.storageSize = true →
    0 ≤ offset.toInt → offset.toNat + length.toNat ≤ s.cfg.storageSize →
    (clearOf src length.toNat → ∃ store : Memory,
      exec (.sramWrite offset src length) s = .next { s with busy := false, store := store, port := { s.port with res := 0 } } ∧
      (∀ i, i < length.toNat → store.read (offset.toNat + i) = s.mem.read (src + BitVec.ofNat 32 i).toNat) ∧
      (∀ a, a < offset.toNat ∨ offset.toNat + length.toNat ≤ a → store.read a = s.store.read a)) ∧
    (¬ clearOf src length.toNat → exec (.sramWrite offset src length) s = .refused .engineAccessToRegisters)

/-! ### Interrupts -/

/-- IRQ_SET_HANDLER completes: it registers the reference for a source below 14, 0 removing it, and ignores any other
index; nothing is delivered (spec/60_exceptions.md R235, R238). -/
def Obligations.IrqSetHandlerRegisters : Prop :=
  ∀ (s : State) (source ref : Word), portFree s = true →
    (14 ≤ source.toNat →
      exec (.irqSetHandler source ref) s = .next { s with busy := false, port := { s.port with res := 0 } }) ∧
    (∀ src : Source, source.toNat = src.val →
      exec (.irqSetHandler source ref) s = .next { s with
        busy := false
        vec := s.vec.set src (if ref = 0 then none else some ref)
        port := { s.port with res := 0 } })
end

