-- ==== Sys2Proof/Laws/Memory.lean ====
section
/-! SUPPORT. Laws of byte memories: a read after a write, the canonical form and that a write keeps it, and that
canonical memories that read alike are equal. -/

namespace Sys2Proof.Machine

@[simp] theorem Memory.read_nil (a : Nat) : Memory.read [] a = blankByte := rfl

theorem Memory.read_cons (k : Nat) (v : Byte) (m : Memory) (a : Nat) :
    Memory.read ((k, v) :: m) a = if k = a then v else Memory.read m a := rfl

/-- Below its lower bound a canonical memory lists nothing. -/
theorem Memory.read_below {bound : Nat} (m : Memory) {low a : Nat} (h : Memory.wfFrom bound low m = true)
    (ha : a < low) : m.read a = blankByte := by
  induction m generalizing low with
  | nil => rfl
  | cons c rest ih =>
    obtain ⟨k, v⟩ := c
    simp only [Memory.wfFrom, Bool.and_eq_true, decide_eq_true_eq] at h
    rw [Memory.read_cons, if_neg (by omega)]
    exact ih h.2 (by omega)

theorem Memory.wfFrom_mono {bound : Nat} {m : Memory} {low low' : Nat} (hl : low' ≤ low)
    (h : Memory.wfFrom bound low m = true) : Memory.wfFrom bound low' m = true := by
  cases m with
  | nil => rfl
  | cons c rest =>
    obtain ⟨k, v⟩ := c
    simp only [Memory.wfFrom, Bool.and_eq_true, decide_eq_true_eq] at h ⊢
    exact ⟨⟨⟨by omega, h.1.1.2⟩, h.1.2⟩, h.2⟩

/-- A write at or above the lower bound keeps the canonical form. -/
theorem Memory.write_wfFrom {bound : Nat} (m : Memory) {low a : Nat} (b : Byte)
    (h : Memory.wfFrom bound low m = true) (hl : low ≤ a) (ha : a < bound) :
    Memory.wfFrom bound low (m.write a b) = true := by
  induction m generalizing low with
  | nil =>
    by_cases hb : b = blankByte
    · simp [Memory.write, hb, Memory.wfFrom]
    · simp [Memory.write, hb, Memory.wfFrom, hl, ha]
  | cons c rest ih =>
    obtain ⟨k, v⟩ := c
    simp only [Memory.wfFrom, Bool.and_eq_true, decide_eq_true_eq] at h
    obtain ⟨⟨⟨hk, hkb⟩, hv⟩, hr⟩ := h
    unfold Memory.write
    split
    · split
      · simp [Memory.wfFrom, hk, hkb, hv, hr]
      · have : Memory.wfFrom bound (k + 1) rest = true := hr
        simp [Memory.wfFrom, *]
    · split
      · split
        · exact Memory.wfFrom_mono (by omega) hr
        · subst_vars
          simp [Memory.wfFrom, *]
      · simp [Memory.wfFrom, hk, hkb, hv]
        exact ih hr (by omega)

/-- Every write below the bound keeps the canonical form. -/
theorem Memory.write_wf {bound : Nat} {m : Memory} {a : Nat} (b : Byte) (h : m.wf bound = true)
    (ha : a < bound) : (m.write a b).wf bound = true :=
  Memory.write_wfFrom m b h (Nat.zero_le a) ha

@[simp] theorem Memory.wf_nil (bound : Nat) : Memory.wf bound [] = true := rfl

/-- The byte just written is read back. -/
@[simp] theorem Memory.read_write_same {bound : Nat} {m : Memory} {low : Nat}
    (h : Memory.wfFrom bound low m = true) (a : Nat) (b : Byte) : (m.write a b).read a = b := by
  induction m generalizing low with
  | nil => by_cases hb : b = blankByte <;> simp [Memory.write, hb, Memory.read_cons]
  | cons c rest ih =>
    obtain ⟨k, v⟩ := c
    simp only [Memory.wfFrom, Bool.and_eq_true, decide_eq_true_eq] at h
    unfold Memory.write
    split
    · split
      · rw [Memory.read_cons, if_neg (by omega), Memory.read_below rest h.2 (by omega)]
        exact Eq.symm ‹_›
      · simp [Memory.read_cons]
    · split
      · split
        · subst_vars
          exact Memory.read_below rest h.2 (by omega)
        · simp [Memory.read_cons]
      · rw [Memory.read_cons, if_neg (by omega)]
        exact ih h.2

/-- A write leaves every other byte alone. -/
theorem Memory.read_write_other (m : Memory) {a a' : Nat} (b : Byte) (hne : a' ≠ a) :
    (m.write a b).read a' = m.read a' := by
  induction m with
  | nil => by_cases hb : b = blankByte <;> simp [Memory.write, hb, Memory.read_cons, Ne.symm hne]
  | cons c rest ih =>
    obtain ⟨k, v⟩ := c
    unfold Memory.write
    split
    · split
      · rfl
      · rw [Memory.read_cons, if_neg (Ne.symm hne)]
    · split
      · subst_vars
        split
        · rw [Memory.read_cons, if_neg (Ne.symm hne)]
        · simp [Memory.read_cons, Ne.symm hne]
      · simp only [Memory.read_cons, ih]

/-- A read after a write, in one equation. -/
theorem Memory.read_write {bound : Nat} {m : Memory} (h : m.wf bound = true) (a a' : Nat) (b : Byte) :
    (m.write a b).read a' = if a' = a then b else m.read a' := by
  by_cases e : a' = a
  · subst e
    rw [if_pos rfl]
    exact Memory.read_write_same h a' b
  · rw [if_neg e, Memory.read_write_other m b e]

/-- Canonical memories that read alike are equal data. -/
theorem Memory.ext_of_read {bound : Nat} {m m' : Memory} {low low' : Nat}
    (h : Memory.wfFrom bound low m = true) (h' : Memory.wfFrom bound low' m' = true)
    (hr : ∀ a, m.read a = m'.read a) : m = m' := by
  induction m generalizing low low' m' with
  | nil =>
    cases m' with
    | nil => rfl
    | cons c rest =>
      obtain ⟨k, v⟩ := c
      simp only [Memory.wfFrom, Bool.and_eq_true, decide_eq_true_eq] at h'
      exact absurd (by simpa [Memory.read_cons] using (hr k).symm) h'.1.2
  | cons c rest ih =>
    obtain ⟨k, v⟩ := c
    cases m' with
    | nil =>
      simp only [Memory.wfFrom, Bool.and_eq_true, decide_eq_true_eq] at h
      exact absurd (by simpa [Memory.read_cons] using hr k) h.1.2
    | cons c' rest' =>
      obtain ⟨k', v'⟩ := c'
      simp only [Memory.wfFrom, Bool.and_eq_true, decide_eq_true_eq] at h h'
      have hk : k = k' := by
        rcases Nat.lt_trichotomy k k' with lt | eq | gt
        · have := hr k
          rw [Memory.read_cons, if_pos rfl, Memory.read_cons, if_neg (by omega),
            Memory.read_below rest' h'.2 (by omega)] at this
          exact absurd this h.1.2
        · exact eq
        · have := hr k'
          rw [Memory.read_cons, if_neg (by omega), Memory.read_cons, if_pos rfl,
            Memory.read_below rest h.2 (by omega)] at this
          exact absurd this.symm h'.1.2
      subst hk
      have hv : v = v' := by simpa [Memory.read_cons] using hr k
      subst hv
      congr 1
      refine ih h.2 h'.2 fun a => ?_
      by_cases e : k = a
      · subst e
        rw [Memory.read_below rest h.2 (by omega), Memory.read_below rest' h'.2 (by omega)]
      · simpa [Memory.read_cons, e] using hr a

/-! ### Units -/

/-- A unit's write keeps MEM's canonical form. -/
theorem writeLE_wf (n : Nat) (m : Memory) (addr : Word) (v : Nat) (h : m.wf memBytes = true) :
    (writeLE n m addr v).wf memBytes = true := by
  induction n generalizing m addr v with
  | zero => exact h
  | succ n ih => exact ih _ _ _ (Memory.write_wf _ h addr.isLt)

/-- A byte that is none of the unit's bytes reads as before. -/
theorem read_writeLE_other (n : Nat) (m : Memory) (addr : Word) (v : Nat) (a : Nat)
    (h : ∀ i, i < n → (addr + BitVec.ofNat 32 i).toNat ≠ a) : (writeLE n m addr v).read a = m.read a := by
  induction n generalizing m addr v with
  | zero => rfl
  | succ n ih =>
    rw [writeLE, ih]
    · exact Memory.read_write_other m _ (Ne.symm (by simpa using h 0 (by omega)))
    · intro i hi
      have := h (i + 1) (by omega)
      rwa [show addr + 1 + BitVec.ofNat 32 i = addr + BitVec.ofNat 32 (i + 1) by
        rw [BitVec.add_assoc]; congr 1; rw [BitVec.ofNat_add, BitVec.add_comm]; rfl]

/-- Byte `i` of a stored unit is `(v >> 8 i) mod 256` (spec/20_memory.md R53). -/
theorem read_writeLE_same (n : Nat) (hn : n ≤ 2 ^ 32) (m : Memory) (h : m.wf memBytes = true) (addr : Word)
    (v : Nat) (i : Nat) (hi : i < n) :
    (writeLE n m addr v).read (addr + BitVec.ofNat 32 i).toNat = BitVec.ofNat 8 (v / 256 ^ i) := by
  induction n generalizing m addr v i with
  | zero => omega
  | succ n ih =>
    rw [writeLE]
    cases i with
    | zero =>
      rw [read_writeLE_other]
      · simpa using Memory.read_write_same h addr.toNat (BitVec.ofNat 8 v)
      · intro j hj e
        have := congrArg (fun x : Nat => BitVec.ofNat 32 x) e
        simp only [BitVec.ofNat_toNat, BitVec.setWidth_eq] at this
        bv_omega
    | succ i =>
      have := ih (by omega) (m.write addr.toNat (BitVec.ofNat 8 v)) (Memory.write_wf _ h addr.isLt) (addr + 1)
        (v / 256) i (by omega)
      rw [show addr + 1 + BitVec.ofNat 32 i = addr + BitVec.ofNat 32 (i + 1) by
        rw [BitVec.add_assoc]; congr 1; rw [BitVec.ofNat_add, BitVec.add_comm]; rfl] at this
      rw [this, Nat.div_div_eq_div_mul, Nat.pow_succ, Nat.mul_comm]

/-- A unit's value is below 256 to its width. -/
theorem readLE_lt (m : Memory) (n : Nat) (addr : Word) : readLE m n addr < 256 ^ n := by
  induction n generalizing addr with
  | zero => simp [readLE]
  | succ n ih =>
    have h1 := ih (addr + 1)
    have h2 := (m.read addr.toNat).isLt
    rw [readLE, Nat.pow_succ]
    omega

/-- A unit's value depends on its bytes alone. -/
theorem readLE_congr (m m' : Memory) (n : Nat) (addr : Word)
    (h : ∀ i, i < n → m.read (addr + BitVec.ofNat 32 i).toNat = m'.read (addr + BitVec.ofNat 32 i).toNat) :
    readLE m n addr = readLE m' n addr := by
  induction n generalizing addr with
  | zero => rfl
  | succ n ih =>
    have h0 := h 0 (by omega)
    simp only [BitVec.add_zero] at h0
    rw [readLE, readLE, h0, ih]
    intro i hi
    have := h (i + 1) (by omega)
    rwa [show addr + 1 + BitVec.ofNat 32 i = addr + BitVec.ofNat 32 (i + 1) by
      rw [BitVec.add_assoc]; congr 1; rw [BitVec.ofNat_add, BitVec.add_comm]; rfl]

/-- A stored unit is read back, as far as it fits. -/
theorem readLE_writeLE_same (n : Nat) (hn : n ≤ 2 ^ 32) (m : Memory) (h : m.wf memBytes = true) (addr : Word)
    (v : Nat) : readLE (writeLE n m addr v) n addr = v % 256 ^ n := by
  suffices ∀ k (a : Word) (w : Nat) (M : Memory),
      (∀ i, i < k → M.read (a + BitVec.ofNat 32 i).toNat = BitVec.ofNat 8 (w / 256 ^ i)) →
      readLE M k a = w % 256 ^ k from
    this n addr v _ fun i hi => read_writeLE_same n hn m h addr v i hi
  intro k
  induction k with
  | zero => intro a w M _; simp [readLE, Nat.mod_one]
  | succ k ih =>
    intro a w M hM
    have h0 := hM 0 (by omega)
    simp only [BitVec.add_zero, Nat.pow_zero, Nat.div_one] at h0
    rw [readLE, h0, ih (a + 1) (w / 256) M]
    · rw [BitVec.toNat_ofNat, Nat.pow_succ (n := 256), Nat.mul_comm (256 ^ k) 256, Nat.mod_mul]
    · intro i hi
      have := hM (i + 1) (by omega)
      rw [show a + 1 + BitVec.ofNat 32 i = a + BitVec.ofNat 32 (i + 1) by
        rw [BitVec.add_assoc]; congr 1; rw [BitVec.ofNat_add, BitVec.add_comm]; rfl, this,
        Nat.div_div_eq_div_mul, Nat.pow_succ, Nat.mul_comm]

end Sys2Proof.Machine
end

