-- ==== Sys2Proof/Laws/State.lean ====
section
/-! SUPPORT. For each update of the state, what it makes of each field: true by definition, so that no later proof
unfolds a record update. -/

namespace Sys2Proof.Machine

/-! ### emit -/

@[simp] theorem emit_cfg (e : Event) (s : State) : (emit e s).cfg = s.cfg := rfl
@[simp] theorem emit_line (e : Event) (s : State) : (emit e s).line = s.line := rfl
@[simp] theorem emit_vcmp (e : Event) (s : State) : (emit e s).vcmp = s.vcmp := rfl
@[simp] theorem emit_deadline (e : Event) (s : State) : (emit e s).deadline = s.deadline := rfl
@[simp] theorem emit_ie (e : Event) (s : State) : (emit e s).ie = s.ie := rfl
@[simp] theorem emit_ifReg (e : Event) (s : State) : (emit e s).ifReg = s.ifReg := rfl
@[simp] theorem emit_insvc (e : Event) (s : State) : (emit e s).insvc = s.insvc := rfl
@[simp] theorem emit_ime (e : Event) (s : State) : (emit e s).ime = s.ime := rfl
@[simp] theorem emit_vec (e : Event) (s : State) : (emit e s).vec = s.vec := rfl
@[simp] theorem emit_dma (e : Event) (s : State) : (emit e s).dma = s.dma := rfl
@[simp] theorem emit_master (e : Event) (s : State) : (emit e s).master = s.master := rfl
@[simp] theorem emit_ctl (e : Event) (s : State) : (emit e s).ctl = s.ctl := rfl
@[simp] theorem emit_timer (e : Event) (s : State) : (emit e s).timer = s.timer := rfl
@[simp] theorem emit_snd (e : Event) (s : State) : (emit e s).snd = s.snd := rfl
@[simp] theorem emit_mix (e : Event) (s : State) : (emit e s).mix = s.mix := rfl
@[simp] theorem emit_mixn (e : Event) (s : State) : (emit e s).mixn = s.mixn := rfl
@[simp] theorem emit_keysnap (e : Event) (s : State) : (emit e s).keysnap = s.keysnap := rfl
@[simp] theorem emit_kwatch (e : Event) (s : State) : (emit e s).kwatch = s.kwatch := rfl
@[simp] theorem emit_kirqEn (e : Event) (s : State) : (emit e s).kirqEn = s.kirqEn := rfl
@[simp] theorem emit_kand (e : Event) (s : State) : (emit e s).kand = s.kand := rfl
@[simp] theorem emit_store (e : Event) (s : State) : (emit e s).store = s.store := rfl
@[simp] theorem emit_busy (e : Event) (s : State) : (emit e s).busy = s.busy := rfl
@[simp] theorem emit_hdepth (e : Event) (s : State) : (emit e s).hdepth = s.hdepth := rfl
@[simp] theorem emit_susp (e : Event) (s : State) : (emit e s).susp = s.susp := rfl
@[simp] theorem emit_port (e : Event) (s : State) : (emit e s).port = s.port := rfl
@[simp] theorem emit_rdata (e : Event) (s : State) : (emit e s).rdata = s.rdata := rfl
@[simp] theorem emit_mem (e : Event) (s : State) : (emit e s).mem = s.mem := rfl
@[simp] theorem emit_host (e : Event) (s : State) : (emit e s).host = s.host := rfl
@[simp] theorem emit_inputs (e : Event) (s : State) : (emit e s).inputs = s.inputs := rfl
@[simp] theorem emit_trace (e : Event) (s : State) : (emit e s).trace = s.trace ++ [e] := rfl

/-! ### setDma -/

@[simp] theorem setDma_cfg (n : DmaIndex) (c : DmaChannel) (s : State) : (setDma n c s).cfg = s.cfg := rfl
@[simp] theorem setDma_line (n : DmaIndex) (c : DmaChannel) (s : State) : (setDma n c s).line = s.line := rfl
@[simp] theorem setDma_vcmp (n : DmaIndex) (c : DmaChannel) (s : State) : (setDma n c s).vcmp = s.vcmp := rfl
@[simp] theorem setDma_deadline (n : DmaIndex) (c : DmaChannel) (s : State) : (setDma n c s).deadline = s.deadline := rfl
@[simp] theorem setDma_ie (n : DmaIndex) (c : DmaChannel) (s : State) : (setDma n c s).ie = s.ie := rfl
@[simp] theorem setDma_ifReg (n : DmaIndex) (c : DmaChannel) (s : State) : (setDma n c s).ifReg = s.ifReg := rfl
@[simp] theorem setDma_insvc (n : DmaIndex) (c : DmaChannel) (s : State) : (setDma n c s).insvc = s.insvc := rfl
@[simp] theorem setDma_ime (n : DmaIndex) (c : DmaChannel) (s : State) : (setDma n c s).ime = s.ime := rfl
@[simp] theorem setDma_vec (n : DmaIndex) (c : DmaChannel) (s : State) : (setDma n c s).vec = s.vec := rfl
@[simp] theorem setDma_dma (n : DmaIndex) (c : DmaChannel) (s : State) : (setDma n c s).dma = s.dma.set n c := rfl
@[simp] theorem setDma_master (n : DmaIndex) (c : DmaChannel) (s : State) : (setDma n c s).master = s.master := rfl
@[simp] theorem setDma_ctl (n : DmaIndex) (c : DmaChannel) (s : State) : (setDma n c s).ctl = s.ctl := rfl
@[simp] theorem setDma_timer (n : DmaIndex) (c : DmaChannel) (s : State) : (setDma n c s).timer = s.timer := rfl
@[simp] theorem setDma_snd (n : DmaIndex) (c : DmaChannel) (s : State) : (setDma n c s).snd = s.snd := rfl
@[simp] theorem setDma_mix (n : DmaIndex) (c : DmaChannel) (s : State) : (setDma n c s).mix = s.mix := rfl
@[simp] theorem setDma_mixn (n : DmaIndex) (c : DmaChannel) (s : State) : (setDma n c s).mixn = s.mixn := rfl
@[simp] theorem setDma_keysnap (n : DmaIndex) (c : DmaChannel) (s : State) : (setDma n c s).keysnap = s.keysnap := rfl
@[simp] theorem setDma_kwatch (n : DmaIndex) (c : DmaChannel) (s : State) : (setDma n c s).kwatch = s.kwatch := rfl
@[simp] theorem setDma_kirqEn (n : DmaIndex) (c : DmaChannel) (s : State) : (setDma n c s).kirqEn = s.kirqEn := rfl
@[simp] theorem setDma_kand (n : DmaIndex) (c : DmaChannel) (s : State) : (setDma n c s).kand = s.kand := rfl
@[simp] theorem setDma_store (n : DmaIndex) (c : DmaChannel) (s : State) : (setDma n c s).store = s.store := rfl
@[simp] theorem setDma_busy (n : DmaIndex) (c : DmaChannel) (s : State) : (setDma n c s).busy = s.busy := rfl
@[simp] theorem setDma_hdepth (n : DmaIndex) (c : DmaChannel) (s : State) : (setDma n c s).hdepth = s.hdepth := rfl
@[simp] theorem setDma_susp (n : DmaIndex) (c : DmaChannel) (s : State) : (setDma n c s).susp = s.susp := rfl
@[simp] theorem setDma_port (n : DmaIndex) (c : DmaChannel) (s : State) : (setDma n c s).port = s.port := rfl
@[simp] theorem setDma_rdata (n : DmaIndex) (c : DmaChannel) (s : State) : (setDma n c s).rdata = s.rdata := rfl
@[simp] theorem setDma_mem (n : DmaIndex) (c : DmaChannel) (s : State) : (setDma n c s).mem = s.mem := rfl
@[simp] theorem setDma_host (n : DmaIndex) (c : DmaChannel) (s : State) : (setDma n c s).host = s.host := rfl
@[simp] theorem setDma_inputs (n : DmaIndex) (c : DmaChannel) (s : State) : (setDma n c s).inputs = s.inputs := rfl
@[simp] theorem setDma_trace (n : DmaIndex) (c : DmaChannel) (s : State) : (setDma n c s).trace = s.trace := rfl

/-! ### setCtl -/

@[simp] theorem setCtl_cfg (c : Audio) (x : SoundCtl) (s : State) : (setCtl c x s).cfg = s.cfg := rfl
@[simp] theorem setCtl_line (c : Audio) (x : SoundCtl) (s : State) : (setCtl c x s).line = s.line := rfl
@[simp] theorem setCtl_vcmp (c : Audio) (x : SoundCtl) (s : State) : (setCtl c x s).vcmp = s.vcmp := rfl
@[simp] theorem setCtl_deadline (c : Audio) (x : SoundCtl) (s : State) : (setCtl c x s).deadline = s.deadline := rfl
@[simp] theorem setCtl_ie (c : Audio) (x : SoundCtl) (s : State) : (setCtl c x s).ie = s.ie := rfl
@[simp] theorem setCtl_ifReg (c : Audio) (x : SoundCtl) (s : State) : (setCtl c x s).ifReg = s.ifReg := rfl
@[simp] theorem setCtl_insvc (c : Audio) (x : SoundCtl) (s : State) : (setCtl c x s).insvc = s.insvc := rfl
@[simp] theorem setCtl_ime (c : Audio) (x : SoundCtl) (s : State) : (setCtl c x s).ime = s.ime := rfl
@[simp] theorem setCtl_vec (c : Audio) (x : SoundCtl) (s : State) : (setCtl c x s).vec = s.vec := rfl
@[simp] theorem setCtl_dma (c : Audio) (x : SoundCtl) (s : State) : (setCtl c x s).dma = s.dma := rfl
@[simp] theorem setCtl_master (c : Audio) (x : SoundCtl) (s : State) : (setCtl c x s).master = s.master := rfl
@[simp] theorem setCtl_ctl (c : Audio) (x : SoundCtl) (s : State) : (setCtl c x s).ctl = s.ctl.set c x := rfl
@[simp] theorem setCtl_timer (c : Audio) (x : SoundCtl) (s : State) : (setCtl c x s).timer = s.timer := rfl
@[simp] theorem setCtl_snd (c : Audio) (x : SoundCtl) (s : State) : (setCtl c x s).snd = s.snd := rfl
@[simp] theorem setCtl_mix (c : Audio) (x : SoundCtl) (s : State) : (setCtl c x s).mix = s.mix := rfl
@[simp] theorem setCtl_mixn (c : Audio) (x : SoundCtl) (s : State) : (setCtl c x s).mixn = s.mixn := rfl
@[simp] theorem setCtl_keysnap (c : Audio) (x : SoundCtl) (s : State) : (setCtl c x s).keysnap = s.keysnap := rfl
@[simp] theorem setCtl_kwatch (c : Audio) (x : SoundCtl) (s : State) : (setCtl c x s).kwatch = s.kwatch := rfl
@[simp] theorem setCtl_kirqEn (c : Audio) (x : SoundCtl) (s : State) : (setCtl c x s).kirqEn = s.kirqEn := rfl
@[simp] theorem setCtl_kand (c : Audio) (x : SoundCtl) (s : State) : (setCtl c x s).kand = s.kand := rfl
@[simp] theorem setCtl_store (c : Audio) (x : SoundCtl) (s : State) : (setCtl c x s).store = s.store := rfl
@[simp] theorem setCtl_busy (c : Audio) (x : SoundCtl) (s : State) : (setCtl c x s).busy = s.busy := rfl
@[simp] theorem setCtl_hdepth (c : Audio) (x : SoundCtl) (s : State) : (setCtl c x s).hdepth = s.hdepth := rfl
@[simp] theorem setCtl_susp (c : Audio) (x : SoundCtl) (s : State) : (setCtl c x s).susp = s.susp := rfl
@[simp] theorem setCtl_port (c : Audio) (x : SoundCtl) (s : State) : (setCtl c x s).port = s.port := rfl
@[simp] theorem setCtl_rdata (c : Audio) (x : SoundCtl) (s : State) : (setCtl c x s).rdata = s.rdata := rfl
@[simp] theorem setCtl_mem (c : Audio) (x : SoundCtl) (s : State) : (setCtl c x s).mem = s.mem := rfl
@[simp] theorem setCtl_host (c : Audio) (x : SoundCtl) (s : State) : (setCtl c x s).host = s.host := rfl
@[simp] theorem setCtl_inputs (c : Audio) (x : SoundCtl) (s : State) : (setCtl c x s).inputs = s.inputs := rfl
@[simp] theorem setCtl_trace (c : Audio) (x : SoundCtl) (s : State) : (setCtl c x s).trace = s.trace := rfl

/-! ### setTimer -/

@[simp] theorem setTimer_cfg (t : TimerIndex) (x : Timer) (s : State) : (setTimer t x s).cfg = s.cfg := rfl
@[simp] theorem setTimer_line (t : TimerIndex) (x : Timer) (s : State) : (setTimer t x s).line = s.line := rfl
@[simp] theorem setTimer_vcmp (t : TimerIndex) (x : Timer) (s : State) : (setTimer t x s).vcmp = s.vcmp := rfl
@[simp] theorem setTimer_deadline (t : TimerIndex) (x : Timer) (s : State) : (setTimer t x s).deadline = s.deadline := rfl
@[simp] theorem setTimer_ie (t : TimerIndex) (x : Timer) (s : State) : (setTimer t x s).ie = s.ie := rfl
@[simp] theorem setTimer_ifReg (t : TimerIndex) (x : Timer) (s : State) : (setTimer t x s).ifReg = s.ifReg := rfl
@[simp] theorem setTimer_insvc (t : TimerIndex) (x : Timer) (s : State) : (setTimer t x s).insvc = s.insvc := rfl
@[simp] theorem setTimer_ime (t : TimerIndex) (x : Timer) (s : State) : (setTimer t x s).ime = s.ime := rfl
@[simp] theorem setTimer_vec (t : TimerIndex) (x : Timer) (s : State) : (setTimer t x s).vec = s.vec := rfl
@[simp] theorem setTimer_dma (t : TimerIndex) (x : Timer) (s : State) : (setTimer t x s).dma = s.dma := rfl
@[simp] theorem setTimer_master (t : TimerIndex) (x : Timer) (s : State) : (setTimer t x s).master = s.master := rfl
@[simp] theorem setTimer_ctl (t : TimerIndex) (x : Timer) (s : State) : (setTimer t x s).ctl = s.ctl := rfl
@[simp] theorem setTimer_timer (t : TimerIndex) (x : Timer) (s : State) : (setTimer t x s).timer = s.timer.set t x := rfl
@[simp] theorem setTimer_snd (t : TimerIndex) (x : Timer) (s : State) : (setTimer t x s).snd = s.snd := rfl
@[simp] theorem setTimer_mix (t : TimerIndex) (x : Timer) (s : State) : (setTimer t x s).mix = s.mix := rfl
@[simp] theorem setTimer_mixn (t : TimerIndex) (x : Timer) (s : State) : (setTimer t x s).mixn = s.mixn := rfl
@[simp] theorem setTimer_keysnap (t : TimerIndex) (x : Timer) (s : State) : (setTimer t x s).keysnap = s.keysnap := rfl
@[simp] theorem setTimer_kwatch (t : TimerIndex) (x : Timer) (s : State) : (setTimer t x s).kwatch = s.kwatch := rfl
@[simp] theorem setTimer_kirqEn (t : TimerIndex) (x : Timer) (s : State) : (setTimer t x s).kirqEn = s.kirqEn := rfl
@[simp] theorem setTimer_kand (t : TimerIndex) (x : Timer) (s : State) : (setTimer t x s).kand = s.kand := rfl
@[simp] theorem setTimer_store (t : TimerIndex) (x : Timer) (s : State) : (setTimer t x s).store = s.store := rfl
@[simp] theorem setTimer_busy (t : TimerIndex) (x : Timer) (s : State) : (setTimer t x s).busy = s.busy := rfl
@[simp] theorem setTimer_hdepth (t : TimerIndex) (x : Timer) (s : State) : (setTimer t x s).hdepth = s.hdepth := rfl
@[simp] theorem setTimer_susp (t : TimerIndex) (x : Timer) (s : State) : (setTimer t x s).susp = s.susp := rfl
@[simp] theorem setTimer_port (t : TimerIndex) (x : Timer) (s : State) : (setTimer t x s).port = s.port := rfl
@[simp] theorem setTimer_rdata (t : TimerIndex) (x : Timer) (s : State) : (setTimer t x s).rdata = s.rdata := rfl
@[simp] theorem setTimer_mem (t : TimerIndex) (x : Timer) (s : State) : (setTimer t x s).mem = s.mem := rfl
@[simp] theorem setTimer_host (t : TimerIndex) (x : Timer) (s : State) : (setTimer t x s).host = s.host := rfl
@[simp] theorem setTimer_inputs (t : TimerIndex) (x : Timer) (s : State) : (setTimer t x s).inputs = s.inputs := rfl
@[simp] theorem setTimer_trace (t : TimerIndex) (x : Timer) (s : State) : (setTimer t x s).trace = s.trace := rfl

/-! ### setSnd -/

@[simp] theorem setSnd_cfg (c : Audio) (x : SoundDma) (s : State) : (setSnd c x s).cfg = s.cfg := rfl
@[simp] theorem setSnd_line (c : Audio) (x : SoundDma) (s : State) : (setSnd c x s).line = s.line := rfl
@[simp] theorem setSnd_vcmp (c : Audio) (x : SoundDma) (s : State) : (setSnd c x s).vcmp = s.vcmp := rfl
@[simp] theorem setSnd_deadline (c : Audio) (x : SoundDma) (s : State) : (setSnd c x s).deadline = s.deadline := rfl
@[simp] theorem setSnd_ie (c : Audio) (x : SoundDma) (s : State) : (setSnd c x s).ie = s.ie := rfl
@[simp] theorem setSnd_ifReg (c : Audio) (x : SoundDma) (s : State) : (setSnd c x s).ifReg = s.ifReg := rfl
@[simp] theorem setSnd_insvc (c : Audio) (x : SoundDma) (s : State) : (setSnd c x s).insvc = s.insvc := rfl
@[simp] theorem setSnd_ime (c : Audio) (x : SoundDma) (s : State) : (setSnd c x s).ime = s.ime := rfl
@[simp] theorem setSnd_vec (c : Audio) (x : SoundDma) (s : State) : (setSnd c x s).vec = s.vec := rfl
@[simp] theorem setSnd_dma (c : Audio) (x : SoundDma) (s : State) : (setSnd c x s).dma = s.dma := rfl
@[simp] theorem setSnd_master (c : Audio) (x : SoundDma) (s : State) : (setSnd c x s).master = s.master := rfl
@[simp] theorem setSnd_ctl (c : Audio) (x : SoundDma) (s : State) : (setSnd c x s).ctl = s.ctl := rfl
@[simp] theorem setSnd_timer (c : Audio) (x : SoundDma) (s : State) : (setSnd c x s).timer = s.timer := rfl
@[simp] theorem setSnd_snd (c : Audio) (x : SoundDma) (s : State) : (setSnd c x s).snd = s.snd.set c x := rfl
@[simp] theorem setSnd_mix (c : Audio) (x : SoundDma) (s : State) : (setSnd c x s).mix = s.mix := rfl
@[simp] theorem setSnd_mixn (c : Audio) (x : SoundDma) (s : State) : (setSnd c x s).mixn = s.mixn := rfl
@[simp] theorem setSnd_keysnap (c : Audio) (x : SoundDma) (s : State) : (setSnd c x s).keysnap = s.keysnap := rfl
@[simp] theorem setSnd_kwatch (c : Audio) (x : SoundDma) (s : State) : (setSnd c x s).kwatch = s.kwatch := rfl
@[simp] theorem setSnd_kirqEn (c : Audio) (x : SoundDma) (s : State) : (setSnd c x s).kirqEn = s.kirqEn := rfl
@[simp] theorem setSnd_kand (c : Audio) (x : SoundDma) (s : State) : (setSnd c x s).kand = s.kand := rfl
@[simp] theorem setSnd_store (c : Audio) (x : SoundDma) (s : State) : (setSnd c x s).store = s.store := rfl
@[simp] theorem setSnd_busy (c : Audio) (x : SoundDma) (s : State) : (setSnd c x s).busy = s.busy := rfl
@[simp] theorem setSnd_hdepth (c : Audio) (x : SoundDma) (s : State) : (setSnd c x s).hdepth = s.hdepth := rfl
@[simp] theorem setSnd_susp (c : Audio) (x : SoundDma) (s : State) : (setSnd c x s).susp = s.susp := rfl
@[simp] theorem setSnd_port (c : Audio) (x : SoundDma) (s : State) : (setSnd c x s).port = s.port := rfl
@[simp] theorem setSnd_rdata (c : Audio) (x : SoundDma) (s : State) : (setSnd c x s).rdata = s.rdata := rfl
@[simp] theorem setSnd_mem (c : Audio) (x : SoundDma) (s : State) : (setSnd c x s).mem = s.mem := rfl
@[simp] theorem setSnd_host (c : Audio) (x : SoundDma) (s : State) : (setSnd c x s).host = s.host := rfl
@[simp] theorem setSnd_inputs (c : Audio) (x : SoundDma) (s : State) : (setSnd c x s).inputs = s.inputs := rfl
@[simp] theorem setSnd_trace (c : Audio) (x : SoundDma) (s : State) : (setSnd c x s).trace = s.trace := rfl

/-! ### beginCommand -/

@[simp] theorem beginCommand_cfg (s : State) : (beginCommand s).cfg = s.cfg := rfl
@[simp] theorem beginCommand_line (s : State) : (beginCommand s).line = s.line := rfl
@[simp] theorem beginCommand_vcmp (s : State) : (beginCommand s).vcmp = s.vcmp := rfl
@[simp] theorem beginCommand_deadline (s : State) : (beginCommand s).deadline = s.deadline := rfl
@[simp] theorem beginCommand_ie (s : State) : (beginCommand s).ie = s.ie := rfl
@[simp] theorem beginCommand_ifReg (s : State) : (beginCommand s).ifReg = s.ifReg := rfl
@[simp] theorem beginCommand_insvc (s : State) : (beginCommand s).insvc = s.insvc := rfl
@[simp] theorem beginCommand_ime (s : State) : (beginCommand s).ime = s.ime := rfl
@[simp] theorem beginCommand_vec (s : State) : (beginCommand s).vec = s.vec := rfl
@[simp] theorem beginCommand_dma (s : State) : (beginCommand s).dma = s.dma := rfl
@[simp] theorem beginCommand_master (s : State) : (beginCommand s).master = s.master := rfl
@[simp] theorem beginCommand_ctl (s : State) : (beginCommand s).ctl = s.ctl := rfl
@[simp] theorem beginCommand_timer (s : State) : (beginCommand s).timer = s.timer := rfl
@[simp] theorem beginCommand_snd (s : State) : (beginCommand s).snd = s.snd := rfl
@[simp] theorem beginCommand_mix (s : State) : (beginCommand s).mix = s.mix := rfl
@[simp] theorem beginCommand_mixn (s : State) : (beginCommand s).mixn = s.mixn := rfl
@[simp] theorem beginCommand_keysnap (s : State) : (beginCommand s).keysnap = s.keysnap := rfl
@[simp] theorem beginCommand_kwatch (s : State) : (beginCommand s).kwatch = s.kwatch := rfl
@[simp] theorem beginCommand_kirqEn (s : State) : (beginCommand s).kirqEn = s.kirqEn := rfl
@[simp] theorem beginCommand_kand (s : State) : (beginCommand s).kand = s.kand := rfl
@[simp] theorem beginCommand_store (s : State) : (beginCommand s).store = s.store := rfl
@[simp] theorem beginCommand_busy (s : State) : (beginCommand s).busy = true := rfl
@[simp] theorem beginCommand_hdepth (s : State) : (beginCommand s).hdepth = s.hdepth := rfl
@[simp] theorem beginCommand_susp (s : State) : (beginCommand s).susp = s.susp := rfl
@[simp] theorem beginCommand_port (s : State) : (beginCommand s).port = s.port := rfl
@[simp] theorem beginCommand_rdata (s : State) : (beginCommand s).rdata = s.rdata := rfl
@[simp] theorem beginCommand_mem (s : State) : (beginCommand s).mem = s.mem := rfl
@[simp] theorem beginCommand_host (s : State) : (beginCommand s).host = s.host := rfl
@[simp] theorem beginCommand_inputs (s : State) : (beginCommand s).inputs = s.inputs := rfl
@[simp] theorem beginCommand_trace (s : State) : (beginCommand s).trace = s.trace := rfl

/-! ### endCommand -/

@[simp] theorem endCommand_cfg (r : Word) (s : State) : (endCommand r s).cfg = s.cfg := rfl
@[simp] theorem endCommand_line (r : Word) (s : State) : (endCommand r s).line = s.line := rfl
@[simp] theorem endCommand_vcmp (r : Word) (s : State) : (endCommand r s).vcmp = s.vcmp := rfl
@[simp] theorem endCommand_deadline (r : Word) (s : State) : (endCommand r s).deadline = s.deadline := rfl
@[simp] theorem endCommand_ie (r : Word) (s : State) : (endCommand r s).ie = s.ie := rfl
@[simp] theorem endCommand_ifReg (r : Word) (s : State) : (endCommand r s).ifReg = s.ifReg := rfl
@[simp] theorem endCommand_insvc (r : Word) (s : State) : (endCommand r s).insvc = s.insvc := rfl
@[simp] theorem endCommand_ime (r : Word) (s : State) : (endCommand r s).ime = s.ime := rfl
@[simp] theorem endCommand_vec (r : Word) (s : State) : (endCommand r s).vec = s.vec := rfl
@[simp] theorem endCommand_dma (r : Word) (s : State) : (endCommand r s).dma = s.dma := rfl
@[simp] theorem endCommand_master (r : Word) (s : State) : (endCommand r s).master = s.master := rfl
@[simp] theorem endCommand_ctl (r : Word) (s : State) : (endCommand r s).ctl = s.ctl := rfl
@[simp] theorem endCommand_timer (r : Word) (s : State) : (endCommand r s).timer = s.timer := rfl
@[simp] theorem endCommand_snd (r : Word) (s : State) : (endCommand r s).snd = s.snd := rfl
@[simp] theorem endCommand_mix (r : Word) (s : State) : (endCommand r s).mix = s.mix := rfl
@[simp] theorem endCommand_mixn (r : Word) (s : State) : (endCommand r s).mixn = s.mixn := rfl
@[simp] theorem endCommand_keysnap (r : Word) (s : State) : (endCommand r s).keysnap = s.keysnap := rfl
@[simp] theorem endCommand_kwatch (r : Word) (s : State) : (endCommand r s).kwatch = s.kwatch := rfl
@[simp] theorem endCommand_kirqEn (r : Word) (s : State) : (endCommand r s).kirqEn = s.kirqEn := rfl
@[simp] theorem endCommand_kand (r : Word) (s : State) : (endCommand r s).kand = s.kand := rfl
@[simp] theorem endCommand_store (r : Word) (s : State) : (endCommand r s).store = s.store := rfl
@[simp] theorem endCommand_busy (r : Word) (s : State) : (endCommand r s).busy = false := rfl
@[simp] theorem endCommand_hdepth (r : Word) (s : State) : (endCommand r s).hdepth = s.hdepth := rfl
@[simp] theorem endCommand_susp (r : Word) (s : State) : (endCommand r s).susp = s.susp := rfl
@[simp] theorem endCommand_port (r : Word) (s : State) : (endCommand r s).port = { s.port with res := r } := rfl
@[simp] theorem endCommand_rdata (r : Word) (s : State) : (endCommand r s).rdata = s.rdata := rfl
@[simp] theorem endCommand_mem (r : Word) (s : State) : (endCommand r s).mem = s.mem := rfl
@[simp] theorem endCommand_host (r : Word) (s : State) : (endCommand r s).host = s.host := rfl
@[simp] theorem endCommand_inputs (r : Word) (s : State) : (endCommand r s).inputs = s.inputs := rfl
@[simp] theorem endCommand_trace (r : Word) (s : State) : (endCommand r s).trace = s.trace := rfl

/-! ### latchOperands -/

@[simp] theorem latchOperands_cfg (w : BitVec 128) (s : State) : (latchOperands w s).cfg = s.cfg := rfl
@[simp] theorem latchOperands_line (w : BitVec 128) (s : State) : (latchOperands w s).line = s.line := rfl
@[simp] theorem latchOperands_vcmp (w : BitVec 128) (s : State) : (latchOperands w s).vcmp = s.vcmp := rfl
@[simp] theorem latchOperands_deadline (w : BitVec 128) (s : State) : (latchOperands w s).deadline = s.deadline := rfl
@[simp] theorem latchOperands_ie (w : BitVec 128) (s : State) : (latchOperands w s).ie = s.ie := rfl
@[simp] theorem latchOperands_ifReg (w : BitVec 128) (s : State) : (latchOperands w s).ifReg = s.ifReg := rfl
@[simp] theorem latchOperands_insvc (w : BitVec 128) (s : State) : (latchOperands w s).insvc = s.insvc := rfl
@[simp] theorem latchOperands_ime (w : BitVec 128) (s : State) : (latchOperands w s).ime = s.ime := rfl
@[simp] theorem latchOperands_vec (w : BitVec 128) (s : State) : (latchOperands w s).vec = s.vec := rfl
@[simp] theorem latchOperands_dma (w : BitVec 128) (s : State) : (latchOperands w s).dma = s.dma := rfl
@[simp] theorem latchOperands_master (w : BitVec 128) (s : State) : (latchOperands w s).master = s.master := rfl
@[simp] theorem latchOperands_ctl (w : BitVec 128) (s : State) : (latchOperands w s).ctl = s.ctl := rfl
@[simp] theorem latchOperands_timer (w : BitVec 128) (s : State) : (latchOperands w s).timer = s.timer := rfl
@[simp] theorem latchOperands_snd (w : BitVec 128) (s : State) : (latchOperands w s).snd = s.snd := rfl
@[simp] theorem latchOperands_mix (w : BitVec 128) (s : State) : (latchOperands w s).mix = s.mix := rfl
@[simp] theorem latchOperands_mixn (w : BitVec 128) (s : State) : (latchOperands w s).mixn = s.mixn := rfl
@[simp] theorem latchOperands_keysnap (w : BitVec 128) (s : State) : (latchOperands w s).keysnap = s.keysnap := rfl
@[simp] theorem latchOperands_kwatch (w : BitVec 128) (s : State) : (latchOperands w s).kwatch = s.kwatch := rfl
@[simp] theorem latchOperands_kirqEn (w : BitVec 128) (s : State) : (latchOperands w s).kirqEn = s.kirqEn := rfl
@[simp] theorem latchOperands_kand (w : BitVec 128) (s : State) : (latchOperands w s).kand = s.kand := rfl
@[simp] theorem latchOperands_store (w : BitVec 128) (s : State) : (latchOperands w s).store = s.store := rfl
@[simp] theorem latchOperands_busy (w : BitVec 128) (s : State) : (latchOperands w s).busy = s.busy := rfl
@[simp] theorem latchOperands_hdepth (w : BitVec 128) (s : State) : (latchOperands w s).hdepth = s.hdepth := rfl
@[simp] theorem latchOperands_susp (w : BitVec 128) (s : State) : (latchOperands w s).susp = s.susp := rfl
@[simp] theorem latchOperands_port (w : BitVec 128) (s : State) : (latchOperands w s).port = { s.port with op := cmdOp w, a0 := cmdA0 w, a1 := cmdA1 w, a2 := cmdA2 w } := rfl
@[simp] theorem latchOperands_rdata (w : BitVec 128) (s : State) : (latchOperands w s).rdata = s.rdata := rfl
@[simp] theorem latchOperands_mem (w : BitVec 128) (s : State) : (latchOperands w s).mem = s.mem := rfl
@[simp] theorem latchOperands_host (w : BitVec 128) (s : State) : (latchOperands w s).host = s.host := rfl
@[simp] theorem latchOperands_inputs (w : BitVec 128) (s : State) : (latchOperands w s).inputs = s.inputs := rfl
@[simp] theorem latchOperands_trace (w : BitVec 128) (s : State) : (latchOperands w s).trace = s.trace := rfl

/-! ### invoke -/

@[simp] theorem invoke_cfg (cmd : TimingCmd) (p : Phase) (src : Source) (ref : Word) (s : State) : (invoke cmd p src ref s).cfg = s.cfg := rfl
@[simp] theorem invoke_line (cmd : TimingCmd) (p : Phase) (src : Source) (ref : Word) (s : State) : (invoke cmd p src ref s).line = s.line := rfl
@[simp] theorem invoke_vcmp (cmd : TimingCmd) (p : Phase) (src : Source) (ref : Word) (s : State) : (invoke cmd p src ref s).vcmp = s.vcmp := rfl
@[simp] theorem invoke_deadline (cmd : TimingCmd) (p : Phase) (src : Source) (ref : Word) (s : State) : (invoke cmd p src ref s).deadline = s.deadline := rfl
@[simp] theorem invoke_ie (cmd : TimingCmd) (p : Phase) (src : Source) (ref : Word) (s : State) : (invoke cmd p src ref s).ie = s.ie := rfl
@[simp] theorem invoke_ifReg (cmd : TimingCmd) (p : Phase) (src : Source) (ref : Word) (s : State) : (invoke cmd p src ref s).ifReg = clearFlag s.ifReg src := rfl
@[simp] theorem invoke_insvc (cmd : TimingCmd) (p : Phase) (src : Source) (ref : Word) (s : State) : (invoke cmd p src ref s).insvc = setFlag s.insvc src := rfl
@[simp] theorem invoke_ime (cmd : TimingCmd) (p : Phase) (src : Source) (ref : Word) (s : State) : (invoke cmd p src ref s).ime = s.ime := rfl
@[simp] theorem invoke_vec (cmd : TimingCmd) (p : Phase) (src : Source) (ref : Word) (s : State) : (invoke cmd p src ref s).vec = s.vec := rfl
@[simp] theorem invoke_dma (cmd : TimingCmd) (p : Phase) (src : Source) (ref : Word) (s : State) : (invoke cmd p src ref s).dma = s.dma := rfl
@[simp] theorem invoke_master (cmd : TimingCmd) (p : Phase) (src : Source) (ref : Word) (s : State) : (invoke cmd p src ref s).master = s.master := rfl
@[simp] theorem invoke_ctl (cmd : TimingCmd) (p : Phase) (src : Source) (ref : Word) (s : State) : (invoke cmd p src ref s).ctl = s.ctl := rfl
@[simp] theorem invoke_timer (cmd : TimingCmd) (p : Phase) (src : Source) (ref : Word) (s : State) : (invoke cmd p src ref s).timer = s.timer := rfl
@[simp] theorem invoke_snd (cmd : TimingCmd) (p : Phase) (src : Source) (ref : Word) (s : State) : (invoke cmd p src ref s).snd = s.snd := rfl
@[simp] theorem invoke_mix (cmd : TimingCmd) (p : Phase) (src : Source) (ref : Word) (s : State) : (invoke cmd p src ref s).mix = s.mix := rfl
@[simp] theorem invoke_mixn (cmd : TimingCmd) (p : Phase) (src : Source) (ref : Word) (s : State) : (invoke cmd p src ref s).mixn = s.mixn := rfl
@[simp] theorem invoke_keysnap (cmd : TimingCmd) (p : Phase) (src : Source) (ref : Word) (s : State) : (invoke cmd p src ref s).keysnap = s.keysnap := rfl
@[simp] theorem invoke_kwatch (cmd : TimingCmd) (p : Phase) (src : Source) (ref : Word) (s : State) : (invoke cmd p src ref s).kwatch = s.kwatch := rfl
@[simp] theorem invoke_kirqEn (cmd : TimingCmd) (p : Phase) (src : Source) (ref : Word) (s : State) : (invoke cmd p src ref s).kirqEn = s.kirqEn := rfl
@[simp] theorem invoke_kand (cmd : TimingCmd) (p : Phase) (src : Source) (ref : Word) (s : State) : (invoke cmd p src ref s).kand = s.kand := rfl
@[simp] theorem invoke_store (cmd : TimingCmd) (p : Phase) (src : Source) (ref : Word) (s : State) : (invoke cmd p src ref s).store = s.store := rfl
@[simp] theorem invoke_busy (cmd : TimingCmd) (p : Phase) (src : Source) (ref : Word) (s : State) : (invoke cmd p src ref s).busy = s.busy := rfl
@[simp] theorem invoke_hdepth (cmd : TimingCmd) (p : Phase) (src : Source) (ref : Word) (s : State) : (invoke cmd p src ref s).hdepth = true := rfl
@[simp] theorem invoke_susp (cmd : TimingCmd) (p : Phase) (src : Source) (ref : Word) (s : State) : (invoke cmd p src ref s).susp = some { src := src, phase := p, cmd := cmd } := rfl
@[simp] theorem invoke_port (cmd : TimingCmd) (p : Phase) (src : Source) (ref : Word) (s : State) : (invoke cmd p src ref s).port = s.port := rfl
@[simp] theorem invoke_rdata (cmd : TimingCmd) (p : Phase) (src : Source) (ref : Word) (s : State) : (invoke cmd p src ref s).rdata = s.rdata := rfl
@[simp] theorem invoke_mem (cmd : TimingCmd) (p : Phase) (src : Source) (ref : Word) (s : State) : (invoke cmd p src ref s).mem = s.mem := rfl
@[simp] theorem invoke_host (cmd : TimingCmd) (p : Phase) (src : Source) (ref : Word) (s : State) : (invoke cmd p src ref s).host = s.host := rfl
@[simp] theorem invoke_inputs (cmd : TimingCmd) (p : Phase) (src : Source) (ref : Word) (s : State) : (invoke cmd p src ref s).inputs = s.inputs := rfl
@[simp] theorem invoke_trace (cmd : TimingCmd) (p : Phase) (src : Source) (ref : Word) (s : State) : (invoke cmd p src ref s).trace = s.trace ++ [.call src ref] := rfl

/-! ### leaveHandler -/

@[simp] theorem leaveHandler_cfg (x : Suspension) (s : State) : (leaveHandler x s).cfg = s.cfg := rfl
@[simp] theorem leaveHandler_line (x : Suspension) (s : State) : (leaveHandler x s).line = s.line := rfl
@[simp] theorem leaveHandler_vcmp (x : Suspension) (s : State) : (leaveHandler x s).vcmp = s.vcmp := rfl
@[simp] theorem leaveHandler_deadline (x : Suspension) (s : State) : (leaveHandler x s).deadline = s.deadline := rfl
@[simp] theorem leaveHandler_ie (x : Suspension) (s : State) : (leaveHandler x s).ie = s.ie := rfl
@[simp] theorem leaveHandler_ifReg (x : Suspension) (s : State) : (leaveHandler x s).ifReg = s.ifReg := rfl
@[simp] theorem leaveHandler_insvc (x : Suspension) (s : State) : (leaveHandler x s).insvc = clearFlag s.insvc x.src := rfl
@[simp] theorem leaveHandler_ime (x : Suspension) (s : State) : (leaveHandler x s).ime = s.ime := rfl
@[simp] theorem leaveHandler_vec (x : Suspension) (s : State) : (leaveHandler x s).vec = s.vec := rfl
@[simp] theorem leaveHandler_dma (x : Suspension) (s : State) : (leaveHandler x s).dma = s.dma := rfl
@[simp] theorem leaveHandler_master (x : Suspension) (s : State) : (leaveHandler x s).master = s.master := rfl
@[simp] theorem leaveHandler_ctl (x : Suspension) (s : State) : (leaveHandler x s).ctl = s.ctl := rfl
@[simp] theorem leaveHandler_timer (x : Suspension) (s : State) : (leaveHandler x s).timer = s.timer := rfl
@[simp] theorem leaveHandler_snd (x : Suspension) (s : State) : (leaveHandler x s).snd = s.snd := rfl
@[simp] theorem leaveHandler_mix (x : Suspension) (s : State) : (leaveHandler x s).mix = s.mix := rfl
@[simp] theorem leaveHandler_mixn (x : Suspension) (s : State) : (leaveHandler x s).mixn = s.mixn := rfl
@[simp] theorem leaveHandler_keysnap (x : Suspension) (s : State) : (leaveHandler x s).keysnap = s.keysnap := rfl
@[simp] theorem leaveHandler_kwatch (x : Suspension) (s : State) : (leaveHandler x s).kwatch = s.kwatch := rfl
@[simp] theorem leaveHandler_kirqEn (x : Suspension) (s : State) : (leaveHandler x s).kirqEn = s.kirqEn := rfl
@[simp] theorem leaveHandler_kand (x : Suspension) (s : State) : (leaveHandler x s).kand = s.kand := rfl
@[simp] theorem leaveHandler_store (x : Suspension) (s : State) : (leaveHandler x s).store = s.store := rfl
@[simp] theorem leaveHandler_busy (x : Suspension) (s : State) : (leaveHandler x s).busy = true := rfl
@[simp] theorem leaveHandler_hdepth (x : Suspension) (s : State) : (leaveHandler x s).hdepth = false := rfl
@[simp] theorem leaveHandler_susp (x : Suspension) (s : State) : (leaveHandler x s).susp = none := rfl
@[simp] theorem leaveHandler_port (x : Suspension) (s : State) : (leaveHandler x s).port = s.port := rfl
@[simp] theorem leaveHandler_rdata (x : Suspension) (s : State) : (leaveHandler x s).rdata = s.rdata := rfl
@[simp] theorem leaveHandler_mem (x : Suspension) (s : State) : (leaveHandler x s).mem = s.mem := rfl
@[simp] theorem leaveHandler_host (x : Suspension) (s : State) : (leaveHandler x s).host = s.host := rfl
@[simp] theorem leaveHandler_inputs (x : Suspension) (s : State) : (leaveHandler x s).inputs = s.inputs := rfl
@[simp] theorem leaveHandler_trace (x : Suspension) (s : State) : (leaveHandler x s).trace = s.trace ++ [.ret x.src] := rfl

/-! ### The DMA channels -/

@[simp] theorem setDma_get_same (n : DmaIndex) (c : DmaChannel) (s : State) : (setDma n c s).dma[n] = c := by
  simp [setDma]

theorem setDma_get_other {n m : DmaIndex} (h : m ≠ n) (c : DmaChannel) (s : State) :
    (setDma n c s).dma[m] = s.dma[m] := by
  have : n.val ≠ m.val := fun e => h (Fin.ext e.symm)
  simp [setDma, Vector.getElem_set, this]

@[simp] theorem setSnd_get_same (c : Audio) (x : SoundDma) (s : State) : (setSnd c x s).snd[c] = x := by
  simp [setSnd]

theorem setSnd_get_other {c c' : Audio} (h : c' ≠ c) (x : SoundDma) (s : State) :
    (setSnd c x s).snd[c'] = s.snd[c'] := by
  have : c.val ≠ c'.val := fun e => h (Fin.ext e.symm)
  simp [setSnd, Vector.getElem_set, this]

/-! ### Interrupt flags -/

theorem flagOf_setFlag (v : BitVec 14) (i j : Source) : flagOf (setFlag v i) j = (decide (j = i) || flagOf v j) := by
  have hi := i.isLt
  have hj := j.isLt
  simp only [flagOf, setFlag, BitVec.getLsbD_or, BitVec.getLsbD_shiftLeft, BitVec.getLsbD_one]
  rcases Nat.lt_trichotomy j.val i.val with h | h | h
  · have : j ≠ i := fun e => by subst e; omega
    simp [h, this]
  · have : j = i := Fin.ext h
    subst this
    simp
  · have : j ≠ i := fun e => by subst e; omega
    have h2 : ¬ (j.val - i.val = 0) := by omega
    simp [this, h2]

theorem flagOf_clearFlag (v : BitVec 14) (i j : Source) :
    flagOf (clearFlag v i) j = (!decide (j = i) && flagOf v j) := by
  have hi := i.isLt
  have hj := j.isLt
  simp only [flagOf, clearFlag, BitVec.getLsbD_and, BitVec.getLsbD_not, BitVec.getLsbD_shiftLeft,
    BitVec.getLsbD_one]
  rcases Nat.lt_trichotomy j.val i.val with h | h | h
  · have : j ≠ i := fun e => by subst e; omega
    simp [h, this]
  · have : j = i := Fin.ext h
    subst this
    simp
  · have : j ≠ i := fun e => by subst e; omega
    have h2 : ¬ (j.val - i.val = 0) := by omega
    simp [this, h2]

/-- Interrupt registers with the same flags are equal. -/
theorem flags_ext {v w : BitVec 14} (h : ∀ i : Source, flagOf v i = flagOf w i) : v = w :=
  BitVec.eq_of_getLsbD_eq fun i hi => h ⟨i, hi⟩

@[simp] theorem clearFlag_setFlag_zero (i : Source) : clearFlag (setFlag 0 i) i = 0 :=
  flags_ext fun j => by
    rw [flagOf_clearFlag, flagOf_setFlag]
    by_cases h : j = i <;> simp [flagOf, h]

end Sys2Proof.Machine
end

