-- ==== Sys2Proof/Laws/Engine.lean ====
section
/-! SUPPORT. Laws of the engines' memory accesses and of operations that may be refused. -/

namespace Sys2Proof.Machine

/-! ### Operations that may be refused -/

/-- Peel one operation off a sequence that was not refused. -/
theorem bind_eq_ok {α β : Type} {x : Except Refusal α} {f : α → Except Refusal β} {b : β} :
    (x >>= f) = .ok b ↔ ∃ a, x = .ok a ∧ f a = .ok b := by
  cases x with
  | error e => simp [bind, Except.bind]
  | ok a => simp [bind, Except.bind]

@[simp] theorem ok_bind {α β : Type} (a : α) (f : α → Except Refusal β) :
    ((Except.ok a : Except Refusal α) >>= f) = f a := rfl

@[simp] theorem error_bind {α β : Type} (e : Refusal) (f : α → Except Refusal β) :
    ((Except.error e : Except Refusal α) >>= f) = .error e := rfl

@[simp] theorem pure_eq_ok {α : Type} (a : α) : (pure a : Except Refusal α) = .ok a := rfl

@[simp] theorem outcomeOf_eq_next {r : Except Refusal State} {t : State} : outcomeOf r = .next t ↔ r = .ok t := by
  cases r <;> simp [outcomeOf]

@[simp] theorem outcomeOf_ne_fault {r : Except Refusal State} {f : Fault} : outcomeOf r ≠ .fault f := by
  cases r <;> simp [outcomeOf]

/-- A standalone command that answers a next state was accepted and ran to its end. -/
theorem standalone_eq_next {s t : State} {body : Except Refusal (Word × State)} :
    standalone s body = .next t ↔
      portFree s = true ∧ ∃ r s', body = .ok (r, s') ∧ t = endCommand r s' := by
  unfold standalone
  split
  · rename_i h
    cases body with
    | error e => simp
    | ok p =>
      obtain ⟨r, s'⟩ := p
      simp [h, eq_comm]
  · rename_i h
    simp [h]

/-- Where the port is free, a standalone command is refused exactly where its body is. -/
theorem standalone_refused {s : State} {body : Except Refusal (Word × State)} {e : Refusal} (hp : portFree s = true) :
    standalone s body = .refused e ↔ body = .error e := by
  unfold standalone
  rw [if_pos hp]
  cases body <;> simp

theorem standalone_ne_fault {s : State} {body : Except Refusal (Word × State)} {f : Fault} :
    standalone s body ≠ .fault f := by
  unfold standalone
  split
  · split <;> simp
  · simp

/-! ### EngineCheck -/

theorem engineOk_iff (n : Nat) (addr : Word) : engineOk n addr = true ↔ clearOf addr n := by
  induction n generalizing addr with
  | zero => simp [engineOk, clearOf]
  | succ n ih =>
    simp only [engineOk, Bool.and_eq_true, Bool.not_eq_true', ih, clearOf]
    constructor
    · rintro ⟨h0, h⟩ i hi
      cases i with
      | zero => simpa using h0
      | succ i =>
        have := h i (by omega)
        rwa [show addr + 1 + BitVec.ofNat 32 i = addr + BitVec.ofNat 32 (i + 1) by
          rw [BitVec.add_assoc]; congr 1; rw [BitVec.ofNat_add, BitVec.add_comm]; rfl] at this
    · intro h
      refine ⟨by simpa using h 0 (by omega), fun i hi => ?_⟩
      rw [show addr + 1 + BitVec.ofNat 32 i = addr + BitVec.ofNat 32 (i + 1) by
        rw [BitVec.add_assoc]; congr 1; rw [BitVec.ofNat_add, BitVec.add_comm]; rfl]
      exact h (i + 1) (by omega)

theorem allInRegset_iff (n : Nat) (addr : Word) :
    allInRegset n addr = true ↔ ∀ i, i < n → inRegset (addr + BitVec.ofNat 32 i) = true := by
  induction n generalizing addr with
  | zero => simp [allInRegset]
  | succ n ih =>
    simp only [allInRegset, Bool.and_eq_true, ih]
    constructor
    · rintro ⟨h0, h⟩ i hi
      cases i with
      | zero => simpa using h0
      | succ i =>
        have := h i (by omega)
        rwa [show addr + 1 + BitVec.ofNat 32 i = addr + BitVec.ofNat 32 (i + 1) by
          rw [BitVec.add_assoc]; congr 1; rw [BitVec.ofNat_add, BitVec.add_comm]; rfl] at this
    · intro h
      refine ⟨by simpa using h 0 (by omega), fun i hi => ?_⟩
      rw [show addr + 1 + BitVec.ofNat 32 i = addr + BitVec.ofNat 32 (i + 1) by
        rw [BitVec.add_assoc]; congr 1; rw [BitVec.ofNat_add, BitVec.add_comm]; rfl]
      exact h (i + 1) (by omega)

/-- An engine read that is not refused returns the unit's value. -/
theorem memRead_eq_ok {m : Memory} {addr : Word} {n v : Nat} :
    memRead m addr n = .ok v ↔ engineOk n addr = true ∧ v = readLE m n addr := by
  unfold memRead
  cases h : engineOk n addr with
  | false => simp
  | true => simp [eq_comm (a := v)]

/-- An engine write that is not refused stores the unit. -/
theorem memWrite_eq_ok {m m' : Memory} {addr : Word} {n v : Nat} :
    memWrite m addr n v = .ok m' ↔ engineOk n addr = true ∧ m' = writeLE n m addr v := by
  unfold memWrite
  cases h : engineOk n addr with
  | false => simp
  | true => simp [eq_comm (a := m')]

theorem memRead_refused {m : Memory} {addr : Word} {n : Nat} (h : engineOk n addr = false) :
    memRead m addr n = .error .engineAccessToRegisters := by
  rw [memRead, h]
  rfl

theorem memWrite_refused {m : Memory} {addr : Word} {n v : Nat} (h : engineOk n addr = false) :
    memWrite m addr n v = .error .engineAccessToRegisters := by
  rw [memWrite, h]
  rfl

theorem memRead_ok {m : Memory} {addr : Word} {n : Nat} (h : engineOk n addr = true) :
    memRead m addr n = .ok (readLE m n addr) := memRead_eq_ok.mpr ⟨h, rfl⟩

theorem memWrite_ok {m : Memory} {addr : Word} {n v : Nat} (h : engineOk n addr = true) :
    memWrite m addr n v = .ok (writeLE n m addr v) := memWrite_eq_ok.mpr ⟨h, rfl⟩

theorem memWrite_wf {m m' : Memory} {addr : Word} {n v : Nat} (h : memWrite m addr n v = .ok m')
    (hm : m.wf memBytes = true) : m'.wf memBytes = true := by
  obtain ⟨-, rfl⟩ := memWrite_eq_ok.mp h
  exact writeLE_wf n m addr v hm

/-- The only refusal among an operation's errors is that of an engine access. -/
def onlyEngine {α : Type} (r : Except Refusal α) : Prop := ∀ e, r = .error e → e = .engineAccessToRegisters

theorem onlyEngine_ok {α : Type} (a : α) : onlyEngine (.ok a) := fun e h => by cases h

theorem onlyEngine_bind {α β : Type} {r : Except Refusal α} {f : α → Except Refusal β} (hr : onlyEngine r)
    (hf : ∀ a, onlyEngine (f a)) : onlyEngine (r >>= f) := by
  cases r with
  | error e => intro e' h; obtain rfl := Except.error.inj h; exact hr _ rfl
  | ok a => exact hf a

theorem onlyEngine_memRead (m : Memory) (addr : Word) (n : Nat) : onlyEngine (memRead m addr n) := by
  intro e h
  unfold memRead at h
  split at h
  · cases h
  · exact (Except.error.inj h).symm

theorem onlyEngine_memWrite (m : Memory) (addr : Word) (n v : Nat) : onlyEngine (memWrite m addr n v) := by
  intro e h
  unfold memWrite at h
  split at h
  · cases h
  · exact (Except.error.inj h).symm

/-! ### The occurrence of an interrupt -/

/-- Everything an occurrence can do (spec/60_exceptions.md R233): it is dropped, it latches pending, or it enters
the handler. -/
theorem raiseIrq_cases (cmd : TimingCmd) (p : Phase) (src : Source) (s : State) :
    (flagOf s.ie src = false ∧ raiseIrq cmd p src s = .go s) ∨
    (flagOf s.ie src = true ∧ (s.ime = false ∨ s.vec[src] = none) ∧
      raiseIrq cmd p src s = .go { s with ifReg := setFlag s.ifReg src }) ∨
    (∃ ref, flagOf s.ie src = true ∧ s.ime = true ∧ s.vec[src] = some ref ∧
      raiseIrq cmd p src s = .call (invoke cmd p src ref { s with ifReg := setFlag s.ifReg src })) := by
  unfold raiseIrq
  cases hie : flagOf s.ie src with
  | false => simp
  | true =>
    cases hime : s.ime with
    | false => simp [hime]
    | true =>
      cases hv : s.vec[src] with
      | none => simp [hime, hv]
      | some ref => simp [hime, hv]

end Sys2Proof.Machine
end

