-- ==== Sys2Proof/Laws/Dma.lean ====
section
/-! SUPPORT. Laws of the DMA engine: where the latches end, which bytes a transfer can change, and what a trigger
leaves alone. -/

namespace Sys2Proof.Machine

theorem latchAfter_zero (fixed : Bool) (w : Nat) (a : Word) : latchAfter fixed w a 0 = a := by
  cases fixed <;> simp [latchAfter]

theorem latchAfter_succ (fixed : Bool) (w : Nat) (a : Word) (k : Nat) :
    latchAfter fixed w (latchAfter fixed w a 1) k = latchAfter fixed w a (k + 1) := by
  cases fixed
  · simp only [latchAfter, Bool.false_eq_true, if_false]
    rw [BitVec.add_assoc, ← BitVec.ofNat_add]
    congr 2
    ring
  · simp [latchAfter]

theorem dmaAdvance_eq (c : DmaChannel) :
    dmaAdvance c = { c with
      isrc := latchAfter c.srcFixed (dmaWidth c) c.isrc 1
      idst := latchAfter c.dstFixed (dmaWidth c) c.idst 1 } := by
  simp [dmaAdvance, latchAfter]

theorem channelAfter_zero (c : DmaChannel) : channelAfter c 0 = c := by
  simp [channelAfter, latchAfter_zero]

theorem channelAfter_advance (c : DmaChannel) (k : Nat) :
    channelAfter (dmaAdvance c) k = channelAfter c (k + 1) := by
  rw [dmaAdvance_eq]
  unfold channelAfter
  congr 1 <;> exact latchAfter_succ _ _ _ _

theorem unitDest_advance (c : DmaChannel) (k : Nat) : unitDest (dmaAdvance c) k = unitDest c (k + 1) := by
  rw [dmaAdvance_eq]
  unfold unitDest
  congr 1
  exact latchAfter_succ _ _ _ _

theorem unitSource_advance (c : DmaChannel) (k : Nat) : unitSource (dmaAdvance c) k = unitSource c (k + 1) := by
  rw [dmaAdvance_eq]
  unfold unitSource
  congr 1
  exact latchAfter_succ _ _ _ _

/-- Everything a transfer that is not refused does to the channel and to MEM's form. -/
theorem dmaUnits_ok {k : Nat} {c c' : DmaChannel} {m m' : Memory} (h : dmaUnits k c m = .ok (c', m')) :
    c' = channelAfter c k ∧ (m.wf memBytes = true → m'.wf memBytes = true) := by
  induction k generalizing c m with
  | zero =>
    simp only [dmaUnits, Except.ok.injEq, Prod.mk.injEq] at h
    obtain ⟨rfl, rfl⟩ := h
    exact ⟨(channelAfter_zero _).symm, id⟩
  | succ k ih =>
    simp only [dmaUnits, bind_eq_ok] at h
    obtain ⟨v, -, m1, hw, hr⟩ := h
    obtain ⟨h1, h2⟩ := ih hr
    exact ⟨h1.trans (channelAfter_advance c k), fun hm => h2 (memWrite_wf hw hm)⟩

/-- A byte outside every destination unit of a transfer reads as before. -/
theorem dmaUnits_read_other {k : Nat} {c c' : DmaChannel} {m m' : Memory} (h : dmaUnits k c m = .ok (c', m'))
    (a : Nat)
    (ha : ∀ j i, j < k → i < dmaWidth c → (unitDest c j + BitVec.ofNat 32 i).toNat ≠ a) :
    m'.read a = m.read a := by
  induction k generalizing c m with
  | zero =>
    simp only [dmaUnits, Except.ok.injEq, Prod.mk.injEq] at h
    rw [h.2]
  | succ k ih =>
    simp only [dmaUnits, bind_eq_ok] at h
    obtain ⟨v, -, m1, hw, hr⟩ := h
    rw [ih hr]
    · obtain ⟨-, rfl⟩ := memWrite_eq_ok.mp hw
      refine read_writeLE_other _ _ _ _ _ fun i hi => ?_
      have := ha 0 i (by omega) hi
      rwa [unitDest, latchAfter_zero] at this
    · intro j i hj hi
      rw [unitDest_advance]
      exact ha (j + 1) i (by omega) hi

/-- A transfer whose units all stay clear of the register window is not refused. -/
theorem dmaUnits_completes {k : Nat} {c : DmaChannel} (m : Memory)
    (h : ∀ j, j < k → clearOf (unitSource c j) (dmaWidth c) ∧ clearOf (unitDest c j) (dmaWidth c)) :
    ∃ c' m', dmaUnits k c m = .ok (c', m') := by
  induction k generalizing c m with
  | zero => exact ⟨c, m, rfl⟩
  | succ k ih =>
    obtain ⟨h0, h1⟩ := h 0 (by omega)
    rw [unitSource, latchAfter_zero] at h0
    rw [unitDest, latchAfter_zero] at h1
    have hr := (memRead_eq_ok (m := m)).mpr ⟨(engineOk_iff _ _).mpr h0, rfl⟩
    obtain ⟨c', m', e⟩ := ih (c := dmaAdvance c)
      (writeLE (dmaWidth c) m (alignDown c.idst (dmaWidth c))
        (readLE m (dmaWidth c) (alignDown c.isrc (dmaWidth c))))
      (fun j hj => by
        rw [unitSource_advance, unitDest_advance]
        exact h (j + 1) (by omega))
    refine ⟨c', m', ?_⟩
    simp only [dmaUnits, bind_eq_ok]
    exact ⟨_, hr, _, memWrite_eq_ok.mpr ⟨(engineOk_iff _ _).mpr h1, rfl⟩, e⟩

/-- Everything a block transfer does: MEM, and the latches of its own channel. -/
theorem dmaBlock_ok {n : DmaIndex} {s t : State} (h : dmaBlock n s = .ok t) :
    ∃ m', dmaUnits s.dma[n].cnt.toNat s.dma[n] s.mem = .ok (channelAfter s.dma[n] s.dma[n].cnt.toNat, m') ∧
      t = setDma n (channelAfter s.dma[n] s.dma[n].cnt.toNat) { s with mem := m' } := by
  simp only [dmaBlock, bind_eq_ok, pure_eq_ok, Except.ok.injEq] at h
  obtain ⟨⟨c', m'⟩, hu, rfl⟩ := h
  obtain ⟨rfl, -⟩ := dmaUnits_ok hu
  exact ⟨m', hu, rfl⟩

/-- A channel's turn changes at most MEM and its own channel, and keeps MEM's form. -/
theorem dmaTurn_ok {ev : Trigger} {n : DmaIndex} {s t : State} (h : dmaTurn ev n s = .ok t) :
    (armedFor ev s.dma[n] = false ∧ t = s) ∨
    (armedFor ev s.dma[n] = true ∧ ∃ m',
      dmaUnits s.dma[n].cnt.toNat s.dma[n] s.mem = .ok (channelAfter s.dma[n] s.dma[n].cnt.toNat, m') ∧
      t = setDma n (disableUnlessRepeat (channelAfter s.dma[n] s.dma[n].cnt.toNat)) { s with mem := m' }) := by
  unfold dmaTurn at h
  split at h
  · rename_i ha
    simp only [bind_eq_ok, pure_eq_ok, Except.ok.injEq] at h
    obtain ⟨s', hb, rfl⟩ := h
    obtain ⟨m', hu, rfl⟩ := dmaBlock_ok hb
    refine .inr ⟨ha, m', hu, ?_⟩
    rw [setDma_get_same]
    simp [setDma]
  · rename_i ha
    simp only [Except.ok.injEq] at h
    exact .inl ⟨by simpa using ha, h.symm⟩

theorem dmaTurn_frame {ev : Trigger} {n : DmaIndex} {s t : State} (h : dmaTurn ev n s = .ok t) :
    t = { s with mem := t.mem, dma := t.dma } ∧ (s.mem.wf memBytes = true → t.mem.wf memBytes = true) := by
  rcases dmaTurn_ok h with ⟨-, rfl⟩ | ⟨-, m', hu, rfl⟩
  · exact ⟨rfl, id⟩
  · exact ⟨rfl, (dmaUnits_ok hu).2⟩

/-- A turn leaves every other channel alone. -/
theorem dmaTurn_other {ev : Trigger} {n k : DmaIndex} {s t : State} (h : dmaTurn ev n s = .ok t) (hk : k ≠ n) :
    t.dma[k] = s.dma[k] := by
  rcases dmaTurn_ok h with ⟨-, rfl⟩ | ⟨-, m', hu, rfl⟩
  · rfl
  · rw [setDma_get_other hk]

/-- A trigger changes at most MEM and the DMA channels, and keeps MEM's form. -/
theorem dmaTrigger_frame {ev : Trigger} {s t : State} (h : dmaTrigger ev s = .ok t) :
    t = { s with mem := t.mem, dma := t.dma } ∧ (s.mem.wf memBytes = true → t.mem.wf memBytes = true) := by
  simp only [dmaTrigger, bind_eq_ok] at h
  obtain ⟨s0, h0, s1, h1, s2, h2, h3⟩ := h
  have f0 := dmaTurn_frame h0
  have f1 := dmaTurn_frame h1
  have f2 := dmaTurn_frame h2
  have f3 := dmaTurn_frame h3
  refine ⟨?_, fun hm => f3.2 (f2.2 (f1.2 (f0.2 hm)))⟩
  rw [f3.1, f2.1, f1.1, f0.1]

/-- With no channel armed for it, a trigger does nothing. -/
theorem dmaTrigger_idle {ev : Trigger} {s : State} (h : ∀ n : DmaIndex, armedFor ev s.dma[n] = false) :
    dmaTrigger ev s = .ok s := by
  have e : ∀ n : DmaIndex, dmaTurn ev n s = .ok s := fun n => by
    unfold dmaTurn
    rw [h n]
    rfl
  simp [dmaTrigger, e]

theorem armedFor_idle {ev : Trigger} {s : State} (h : dmaIdle s) (n : DmaIndex) :
    armedFor ev s.dma[n] = false := by
  have := h n
  simp only [armedFor, this, Bool.false_and]

/-! ### A trigger reads MEM and the channels only -/

/-- A state's MEM and DMA channels in another. -/
def withDma (r s : State) : State := { r with mem := s.mem, dma := s.dma }

theorem dmaBlock_withDma (r : State) (n : DmaIndex) (s : State) :
    dmaBlock n (withDma r s) = (dmaBlock n s).map (withDma r) := by
  unfold dmaBlock
  show (do let x ← dmaUnits s.dma[n].cnt.toNat s.dma[n] s.mem; _) = _
  cases dmaUnits s.dma[n].cnt.toNat s.dma[n] s.mem <;> rfl

theorem dmaTurn_withDma (r : State) (ev : Trigger) (n : DmaIndex) (s : State) :
    dmaTurn ev n (withDma r s) = (dmaTurn ev n s).map (withDma r) := by
  unfold dmaTurn
  rw [dmaBlock_withDma]
  show (if armedFor ev s.dma[n] = true then _ else _) = _
  split
  · cases dmaBlock n s <;> rfl
  · rfl

theorem dmaTrigger_withDma (r : State) (ev : Trigger) (s : State) :
    dmaTrigger ev (withDma r s) = (dmaTrigger ev s).map (withDma r) := by
  unfold dmaTrigger
  rw [dmaTurn_withDma]
  cases dmaTurn ev 0 s with
  | error e => rfl
  | ok s0 =>
    simp only [Except.map, ok_bind]
    rw [dmaTurn_withDma]
    cases dmaTurn ev 1 s0 with
    | error e => rfl
    | ok s1 =>
      simp only [Except.map, ok_bind]
      rw [dmaTurn_withDma]
      cases dmaTurn ev 2 s1 with
      | error e => rfl
      | ok s2 =>
        simp only [Except.map, ok_bind]
        rw [dmaTurn_withDma]
        rfl

/-- The same trigger on the same MEM and channels does the same to them. -/
theorem dmaTrigger_same {ev : Trigger} {r s : State} (hm : r.mem = s.mem) (hd : r.dma = s.dma) :
    dmaTrigger ev r = (dmaTrigger ev s).map (withDma r) := by
  have e : withDma r s = r := by unfold withDma; rw [← hm, ← hd]
  rw [← dmaTrigger_withDma, e]

/-! ### When a trigger completes -/

/-- A transfer one of whose units meets the register window is refused. -/
theorem dmaUnits_refused {k : Nat} {c : DmaChannel} {m : Memory} (h : ¬ transferClear c k) :
    dmaUnits k c m = .error .engineAccessToRegisters := by
  induction k generalizing c m with
  | zero => exact absurd (fun j hj => absurd hj (by omega)) h
  | succ k ih =>
    rw [dmaUnits, memRead]
    by_cases h0 : engineOk (dmaWidth c) (alignDown c.isrc (dmaWidth c)) = true
    · rw [if_pos h0, ok_bind, memWrite]
      by_cases h1 : engineOk (dmaWidth c) (alignDown c.idst (dmaWidth c)) = true
      · rw [if_pos h1, ok_bind]
        refine ih fun hc => h fun j hj => ?_
        cases j with
        | zero =>
          rw [unitSource, unitDest, latchAfter_zero, latchAfter_zero]
          exact ⟨(engineOk_iff _ _).mp h0, (engineOk_iff _ _).mp h1⟩
        | succ j =>
          rw [← unitSource_advance, ← unitDest_advance]
          exact hc j (by omega)
      · rw [if_neg h1]
        rfl
    · rw [if_neg h0]
      rfl

/-- A channel's turn: refused where a unit of it meets the register window, else it ends. -/
theorem dmaTurn_cases (ev : Trigger) (n : DmaIndex) (s : State) :
    ((armedFor ev s.dma[n] = true → transferClear s.dma[n] s.dma[n].cnt.toNat) ∧ ∃ t, dmaTurn ev n s = .ok t) ∨
    (armedFor ev s.dma[n] = true ∧ ¬ transferClear s.dma[n] s.dma[n].cnt.toNat ∧
      dmaTurn ev n s = .error .engineAccessToRegisters) := by
  unfold dmaTurn dmaBlock
  split
  · rename_i ha
    by_cases hc : transferClear s.dma[n] s.dma[n].cnt.toNat
    · obtain ⟨c', m', e⟩ := dmaUnits_completes s.mem hc
      rw [e]
      exact .inl ⟨fun _ => hc, _, rfl⟩
    · rw [dmaUnits_refused hc]
      exact .inr ⟨ha, hc, rfl⟩
  · rename_i ha
    exact .inl ⟨fun h => absurd h ha, _, rfl⟩

theorem armedFor_iff {ev : Trigger} {c : DmaChannel} : armedFor ev c = true ↔ c.en = true ∧ c.trig = ev := by
  unfold armedFor
  rw [Bool.and_eq_true, decide_eq_true_iff]

/-- A trigger ends iff the units of all the channels armed for it are clear of the register window, and is refused
otherwise. -/
theorem dmaTrigger_cases (ev : Trigger) (s : State) :
    (armedClear ev s ∧ ∃ t, dmaTrigger ev s = .ok t) ∨
      (¬ armedClear ev s ∧ dmaTrigger ev s = .error .engineAccessToRegisters) := by
  have no : ∀ n : DmaIndex, armedFor ev s.dma[n] = true → ¬ transferClear s.dma[n] s.dma[n].cnt.toNat →
      ¬ armedClear ev s := fun n ha hc h => hc (h n (armedFor_iff.mp ha).1 (armedFor_iff.mp ha).2)
  unfold dmaTrigger
  rcases dmaTurn_cases ev 0 s with ⟨c0, s0, h0⟩ | ⟨a, b, h0⟩
  · have e0 : ∀ n : DmaIndex, n ≠ 0 → s0.dma[n] = s.dma[n] := fun n hn => dmaTurn_other h0 hn
    rcases dmaTurn_cases ev 1 s0 with ⟨c1, s1, h1⟩ | ⟨a, b, h1⟩
    · have e1 : ∀ n : DmaIndex, n ≠ 0 → n ≠ 1 → s1.dma[n] = s.dma[n] :=
        fun n hn hn' => (dmaTurn_other h1 hn').trans (e0 n hn)
      rcases dmaTurn_cases ev 2 s1 with ⟨c2, s2, h2⟩ | ⟨a, b, h2⟩
      · have e2 : s2.dma[(3 : DmaIndex)] = s.dma[(3 : DmaIndex)] :=
          (dmaTurn_other h2 (by decide)).trans (e1 3 (by decide) (by decide))
        rw [h0, ok_bind, h1, ok_bind, h2, ok_bind]
        rcases dmaTurn_cases ev 3 s2 with ⟨c3, s3, h3⟩ | ⟨a, b, h3⟩
        · refine .inl ⟨fun n ha ht => ?_, s3, h3⟩
          have ha' := armedFor_iff.mpr ⟨ha, ht⟩
          match n with
          | 0 => exact c0 ha'
          | 1 => rw [e0 1 (by decide)] at c1; exact c1 ha'
          | 2 => rw [e1 2 (by decide) (by decide)] at c2; exact c2 ha'
          | 3 => rw [e2] at c3; exact c3 ha'
        · rw [e2] at a b
          exact .inr ⟨no 3 a b, h3⟩
      · rw [e1 2 (by decide) (by decide)] at a b
        rw [h0, ok_bind, h1, ok_bind, h2]
        exact .inr ⟨no 2 a b, rfl⟩
    · rw [e0 1 (by decide)] at a b
      rw [h0, ok_bind, h1]
      exact .inr ⟨no 1 a b, rfl⟩
  · rw [h0]
    exact .inr ⟨no 0 a b, rfl⟩

theorem dmaTrigger_completes {ev : Trigger} {s : State} (h : armedClear ev s) : ∃ t, dmaTrigger ev s = .ok t := by
  rcases dmaTrigger_cases ev s with ⟨-, h'⟩ | ⟨h', -⟩
  · exact h'
  · exact absurd h h'

theorem dmaTrigger_refused {ev : Trigger} {s : State} (h : ¬ armedClear ev s) :
    dmaTrigger ev s = .error .engineAccessToRegisters := by
  rcases dmaTrigger_cases ev s with ⟨h', -⟩ | ⟨-, h'⟩
  · exact absurd h' h
  · exact h'

/-- At most the latches and the enable bit of a channel differ, and it is armed only where it was
(spec/42_dma.md R140, R143). -/
def sameSetup (c c' : DmaChannel) : Prop :=
  c' = { c with en := c'.en, isrc := c'.isrc, idst := c'.idst } ∧ (c'.en = true → c.en = true)

theorem sameSetup_refl (c : DmaChannel) : sameSetup c c := ⟨rfl, id⟩

theorem sameSetup_trans {a b c : DmaChannel} (h : sameSetup a b) (h' : sameSetup b c) : sameSetup a c :=
  ⟨by rw [h'.1, h.1], fun hc => h.2 (h'.2 hc)⟩

theorem sameSetup_trig {c c' : DmaChannel} (h : sameSetup c c') : c'.trig = c.trig := by rw [h.1]

theorem sameSetup_after (c : DmaChannel) (k : Nat) : sameSetup c (disableUnlessRepeat (channelAfter c k)) := by
  refine ⟨rfl, fun h => ?_⟩
  simp only [disableUnlessRepeat, Bool.and_eq_true] at h
  exact h.1

/-- What a trigger does to a channel: nothing where it is not armed for it; its setup stays, and it is not armed. -/
theorem dmaTurn_channel {ev : Trigger} {n k : DmaIndex} {s t : State} (h : dmaTurn ev k s = .ok t) :
    (armedFor ev s.dma[n] = false → t.dma[n] = s.dma[n]) ∧ sameSetup s.dma[n] t.dma[n] := by
  by_cases e : n = k
  · subst e
    rcases dmaTurn_ok h with ⟨-, rfl⟩ | ⟨ha, m', -, rfl⟩
    · exact ⟨fun _ => rfl, sameSetup_refl _⟩
    · rw [setDma_get_same]
      exact ⟨fun h => (by rw [ha] at h; cases h), sameSetup_after _ _⟩
  · rw [dmaTurn_other h e]
    exact ⟨fun _ => rfl, sameSetup_refl _⟩

theorem dmaTrigger_channel {ev : Trigger} {s t : State} (h : dmaTrigger ev s = .ok t) (n : DmaIndex) :
    (armedFor ev s.dma[n] = false → t.dma[n] = s.dma[n]) ∧ sameSetup s.dma[n] t.dma[n] := by
  simp only [dmaTrigger, bind_eq_ok] at h
  obtain ⟨s0, h0, s1, h1, s2, h2, h3⟩ := h
  obtain ⟨a0, b0⟩ := dmaTurn_channel (n := n) h0
  obtain ⟨a1, b1⟩ := dmaTurn_channel (n := n) h1
  obtain ⟨a2, b2⟩ := dmaTurn_channel (n := n) h2
  obtain ⟨a3, b3⟩ := dmaTurn_channel (n := n) h3
  refine ⟨fun hn => ?_, sameSetup_trans (sameSetup_trans (sameSetup_trans b0 b1) b2) b3⟩
  have e0 := a0 hn
  have e1 := a1 (by rw [e0]; exact hn)
  have e2 := a2 (by rw [e1, e0]; exact hn)
  have e3 := a3 (by rw [e2, e1, e0]; exact hn)
  rw [e3, e2, e1, e0]

/-! ### The immediate transfer and the demand -/

/-- The immediate transfer. -/
theorem dmaRun_ok {n : DmaIndex} {s t : State} (h : dmaRun n s = .ok t) :
    ∃ m', dmaUnits s.dma[n].cnt.toNat s.dma[n] s.mem = .ok (channelAfter s.dma[n] s.dma[n].cnt.toNat, m') ∧
      t = setDma n { channelAfter s.dma[n] s.dma[n].cnt.toNat with en := false } { s with mem := m' } := by
  simp only [dmaRun, bind_eq_ok, pure_eq_ok, Except.ok.injEq] at h
  obtain ⟨s', hb, rfl⟩ := h
  obtain ⟨m', hu, rfl⟩ := dmaBlock_ok hb
  refine ⟨m', hu, ?_⟩
  rw [setDma_get_same]
  simp [setDma]

theorem dmaRun_frame {n : DmaIndex} {s t : State} (h : dmaRun n s = .ok t) :
    t = { s with mem := t.mem, dma := t.dma } ∧ (s.mem.wf memBytes = true → t.mem.wf memBytes = true) := by
  obtain ⟨m', hu, rfl⟩ := dmaRun_ok h
  exact ⟨rfl, (dmaUnits_ok hu).2⟩

/-- What a FIFO demand that is not refused gives: bytes from the supplying channel, or none. -/
theorem fifoSupply_ok {c : Audio} {m : Memory} {d d' : Vector DmaChannel 4} {b : Option Cache}
    (h : fifoSupply c m d = .ok (b, d')) :
    (supplier c d = none ∧ b = none ∧ d' = d) ∨
    (∃ n bytes, supplier c d = some n ∧ supplyBytes m d[n] = .ok bytes ∧ b = some bytes ∧
      d' = d.set n (afterSupply d[n])) := by
  unfold fifoSupply at h
  split at h
  · simp only [Except.ok.injEq, Prod.mk.injEq] at h
    exact .inl ⟨‹_›, h.1.symm, h.2.symm⟩
  · simp only [bind_eq_ok, pure_eq_ok, Except.ok.injEq, Prod.mk.injEq] at h
    obtain ⟨bytes, hb, rfl, rfl⟩ := h
    exact .inr ⟨_, bytes, ‹_›, hb, rfl, rfl⟩

end Sys2Proof.Machine
end

