-- ==== Sys2Proof/Laws/Mixer.lean ====
section
/-! SUPPORT. Laws of the sound mixer: the bounds its counters and buffers keep, and what a frame's mix leaves
alone. -/

namespace Sys2Proof.Machine

theorem prescaler_le (p : BitVec 2) : 1 ≤ prescaler p ∧ prescaler p ≤ 1024 := by
  unfold prescaler
  split_ifs <;> omega

/-- A timer's period is at least 1 and at most 2^26 (spec/43_sound_mixer.md R162). -/
theorem period_le (t : Timer) : period t ≤ 2 ^ 26 := by
  have h := t.reload.isLt
  have hp := (prescaler_le t.psel).2
  unfold period
  calc (65536 - t.reload.toNat) * prescaler t.psel ≤ 65536 * 1024 := Nat.mul_le_mul (by omega) hp
    _ = 2 ^ 26 := by norm_num

/-! ### One tick -/

theorem takeByte_legal {cfg : Config} {d : SoundDma} (h : soundLegal cfg d) : soundLegal cfg (takeByte d) := by
  obtain ⟨h1, h2, h3, h4, h5⟩ := h
  unfold takeByte
  split
  · exact ⟨by show d.rem - 1 ≤ 4; omega, h2, h3, h4, h5⟩
  · exact ⟨h1, h2, h3, h4, h5⟩

theorem refill_legal {c : Audio} {m : Memory} {cfg : Config} {f f' : Feed} (h : refill c m f = .ok f')
    (hl : soundLegal cfg f.1) : soundLegal cfg f'.1 := by
  unfold refill at h
  split at h
  · simp only [bind_eq_ok] at h
    obtain ⟨⟨b, d'⟩, -, h⟩ := h
    cases b with
    | none =>
      simp only [pure_eq_ok, Except.ok.injEq] at h
      subst h
      exact hl
    | some bytes =>
      simp only [pure_eq_ok, Except.ok.injEq] at h
      subst h
      exact ⟨Nat.le_refl 4, hl.2⟩
  · simp only [Except.ok.injEq] at h
    subst h
    exact hl

theorem sourceSide_legal {c : Audio} {m : Memory} {per : Nat} {cfg : Config} {f f' : Feed} (hp : per ≤ 2 ^ 26)
    (h : sourceSide c m per f = .ok f') (hl : soundLegal cfg f.1) : soundLegal cfg f'.1 := by
  unfold sourceSide pop at h
  split at h
  · simp only [bind_eq_ok, pure_eq_ok, Except.ok.injEq] at h
    obtain ⟨r, hr, rfl⟩ := h
    exact takeByte_legal (refill_legal hr ⟨hl.1, hl.2.1, hl.2.2.1, hp, hl.2.2.2.2⟩)
  · simp only [Except.ok.injEq] at h
    subst h
    obtain ⟨h1, h2, h3, h4, h5⟩ := hl
    exact ⟨h1, h2, h3, by show f.1.srcclk - 1 ≤ 2 ^ 26; omega, h5⟩

theorem outputSide_legal {cfg : Config} {d : SoundDma} (h : soundLegal cfg d) :
    soundLegal cfg (outputSide cfg d) := by
  obtain ⟨h1, h2, h3, h4, h5⟩ := h
  unfold outputSide appendSample
  split
  · split
    · rename_i hb
      exact ⟨h1, hb, by simpa using h3, h4, Nat.le_refl _⟩
    · exact ⟨h1, h2, h3, h4, Nat.le_refl _⟩
  · exact ⟨h1, h2, h3, h4, by show d.outclk - 1 ≤ _; omega⟩

/-- Simulated clocks keep a channel within its bounds. -/
theorem ticks_legal {c : Audio} {cfg : Config} {m : Memory} {per k : Nat} {f f' : Feed} (hp : per ≤ 2 ^ 26)
    (h : ticks c cfg m per k f = .ok f') (hl : soundLegal cfg f.1) : soundLegal cfg f'.1 := by
  induction k generalizing f with
  | zero =>
    simp only [ticks, Except.ok.injEq] at h
    subst h
    exact hl
  | succ k ih =>
    simp only [ticks, tick, bind_eq_ok, pure_eq_ok, Except.ok.injEq] at h
    obtain ⟨f1, ⟨r, hr, rfl⟩, h⟩ := h
    exact ih h (outputSide_legal (sourceSide_legal hp hr hl))

/-! ### The held byte follows the cache -/

theorem takeByte_cur {d : SoundDma} (h : d.rem ≤ 4) (h0 : 0 < d.rem) : curFollowsCache (takeByte d) := by
  unfold takeByte
  rw [if_pos h0]
  refine ⟨by show d.rem - 1 ≤ 3; omega, ?_⟩
  show cacheByte d.cache (4 - d.rem) = cacheByte d.cache (3 - (d.rem - 1))
  congr 1
  omega

theorem pop_cur {c : Audio} {m : Memory} {f f' : Feed} (h : pop c m f = .ok f') (hc : curFollowsCache f.1) :
    curFollowsCache f'.1 := by
  unfold pop refill at h
  simp only [bind_eq_ok, pure_eq_ok, Except.ok.injEq] at h
  obtain ⟨r, hr, rfl⟩ := h
  split at hr
  · rename_i h0
    simp only [bind_eq_ok] at hr
    obtain ⟨⟨b, d'⟩, -, hr⟩ := hr
    cases b with
    | none =>
      simp only [pure_eq_ok, Except.ok.injEq] at hr
      subst hr
      show curFollowsCache (takeByte f.1)
      unfold takeByte
      rw [if_neg (by omega)]
      exact hc
    | some bytes =>
      simp only [pure_eq_ok, Except.ok.injEq] at hr
      subst hr
      exact takeByte_cur (Nat.le_refl 4) (by show 0 < 4; omega)
  · rename_i h0
    simp only [Except.ok.injEq] at hr
    subst hr
    exact takeByte_cur (by have := hc.1; omega) (by omega)

theorem outputSide_cur {cfg : Config} {d : SoundDma} (h : curFollowsCache d) :
    curFollowsCache (outputSide cfg d) := by
  unfold outputSide appendSample
  split
  · split <;> exact h
  · exact h

theorem ticks_cur {c : Audio} {cfg : Config} {m : Memory} {per k : Nat} {f f' : Feed}
    (h : ticks c cfg m per k f = .ok f') (hc : curFollowsCache f.1) : curFollowsCache f'.1 := by
  induction k generalizing f with
  | zero =>
    simp only [ticks, Except.ok.injEq] at h
    subst h
    exact hc
  | succ k ih =>
    simp only [ticks, tick, bind_eq_ok, pure_eq_ok, Except.ok.injEq] at h
    obtain ⟨f1, ⟨r, hr, rfl⟩, h⟩ := h
    refine ih h (outputSide_cur ?_)
    unfold sourceSide at hr
    split at hr
    · exact pop_cur hr hc
    · simp only [Except.ok.injEq] at hr
      subst hr
      exact hc

/-! ### A frame -/

/-- A channel's frame changes its own SoundDmaState and, through the demands, the DMA channels. -/
theorem synth_frame {c : Audio} {s t : State} (h : synth c s = .ok t) :
    t = { s with snd := t.snd, dma := t.dma } := by
  unfold synth at h
  split at h
  · simp only [bind_eq_ok, pure_eq_ok, Except.ok.injEq] at h
    obtain ⟨f, -, rfl⟩ := h
    rfl
  · simp only [Except.ok.injEq] at h
    subst h
    rfl

theorem synth_other {c c' : Audio} {s t : State} (h : synth c s = .ok t) (hne : c' ≠ c) :
    t.snd[c'] = s.snd[c'] := by
  unfold synth at h
  split at h
  · simp only [bind_eq_ok, pure_eq_ok, Except.ok.injEq] at h
    obtain ⟨f, -, rfl⟩ := h
    exact setSnd_get_other hne _ _
  · simp only [Except.ok.injEq] at h
    subst h
    exact setSnd_get_other hne _ _

theorem silentFrame_legal {cfg : Config} {d : SoundDma} (hp : capacitiesHold cfg) (h : soundLegal cfg d) :
    soundLegal cfg (silentFrame cfg d) := by
  obtain ⟨h1, -, h3, h4, h5⟩ := h
  have := hp.1
  refine ⟨h1, this, ?_, h4, h5⟩
  simp only [silentFrame, List.length_append, List.length_replicate, List.length_drop, h3]
  omega

theorem synth_legal {c : Audio} {s t : State} (hp : capacitiesHold s.cfg) (h : synth c s = .ok t)
    (hl : ∀ c : Audio, soundLegal s.cfg s.snd[c]) : ∀ c : Audio, soundLegal s.cfg t.snd[c] := by
  intro c'
  by_cases e : c' = c
  · subst e
    have h0 : soundLegal s.cfg { s.snd[c'] with bufn := 0 } :=
      ⟨(hl c').1, Nat.zero_le _, (hl c').2.2⟩
    unfold synth at h
    split at h
    · simp only [bind_eq_ok, pure_eq_ok, Except.ok.injEq] at h
      obtain ⟨f, hf, rfl⟩ := h
      show soundLegal s.cfg (setSnd c' f.1 s).snd[c']
      rw [setSnd_get_same]
      exact ticks_legal (period_le _) hf h0
    · simp only [Except.ok.injEq] at h
      subst h
      rw [setSnd_get_same]
      exact silentFrame_legal hp h0
  · rw [synth_other h e]
    exact hl c'

theorem synth_cur {c : Audio} {s t : State} (h : synth c s = .ok t)
    (hl : ∀ c : Audio, curFollowsCache s.snd[c]) : ∀ c : Audio, curFollowsCache t.snd[c] := by
  intro c'
  by_cases e : c' = c
  · subst e
    have h0 : curFollowsCache { s.snd[c'] with bufn := 0 } := hl c'
    unfold synth at h
    split at h
    · simp only [bind_eq_ok, pure_eq_ok, Except.ok.injEq] at h
      obtain ⟨f, hf, rfl⟩ := h
      show curFollowsCache (setSnd c' f.1 s).snd[c']
      rw [setSnd_get_same]
      exact ticks_cur hf h0
    · simp only [Except.ok.injEq] at h
      subst h
      rw [setSnd_get_same]
      exact h0
  · rw [synth_other h e]
    exact hl c'

/-- A frame's mix, before it is submitted, changes the audio state and the DMA channels only. -/
theorem mixFrame_frame {s t : State} (h : mixFrame s = .ok t) :
    t = { s with snd := t.snd, dma := t.dma, mix := t.mix, mixn := t.mixn } := by
  unfold mixFrame at h
  dsimp only at h
  split at h
  · simp only [bind_eq_ok, pure_eq_ok, Except.ok.injEq] at h
    obtain ⟨s1, h1, s2, h2, rfl⟩ := h
    have f1 := synth_frame h1
    have f2 := synth_frame h2
    rw [f1] at f2
    rw [f2]
    rfl
  · simp only [Except.ok.injEq] at h
    subst h
    rfl

theorem mixFrame_legal {s t : State} (hp : capacitiesHold s.cfg) (h : mixFrame s = .ok t) (hl : ∀ c : Audio, soundLegal s.cfg s.snd[c])
    (hm : mixLegal s) : (∀ c : Audio, soundLegal s.cfg t.snd[c]) ∧ mixLegal t := by
  unfold mixFrame at h
  dsimp only at h
  split at h
  · simp only [bind_eq_ok, pure_eq_ok, Except.ok.injEq] at h
    obtain ⟨s1, h1, s2, h2, rfl⟩ := h
    have l1 := synth_legal (by exact hp) h1 hl
    have f1 := synth_frame h1
    have c1 : s1.cfg = s.cfg := by rw [f1]
    have l2 := synth_legal (by rw [c1]; exact hp) h2 (by rw [c1]; exact l1)
    have f2 := synth_frame h2
    have c2 : s2.cfg = s.cfg := by rw [f2]; exact c1
    have m2 : s2.mix = s.mix := by rw [f2]; show s1.mix = _; rw [f1]
    refine ⟨by rw [← c1]; exact l2, ?_⟩
    have hle : mixLength s2 ≤ s.cfg.mixCap := by rw [← c2]; exact Nat.min_le_right _ _
    refine ⟨by show mixLength s2 ≤ s2.cfg.mixCap; rw [c2]; exact hle, ?_⟩
    show (List.map _ (List.range (mixLength s2)) ++ s2.mix.drop (mixLength s2)).length = s2.cfg.mixCap
    simp only [List.length_append, List.length_map, List.length_range, List.length_drop, m2, hm.2, c2]
    omega
  · simp only [Except.ok.injEq] at h
    subst h
    have := hp.2
    refine ⟨hl, this, ?_⟩
    have hm2 := hm.2
    simp only [silentMix, List.length_append, List.length_replicate, List.length_drop, hm2]
    show _ + (s.cfg.mixCap - _) = s.cfg.mixCap
    omega

theorem mixFrame_cur {s t : State} (h : mixFrame s = .ok t) (hl : ∀ c : Audio, curFollowsCache s.snd[c]) :
    ∀ c : Audio, curFollowsCache t.snd[c] := by
  unfold mixFrame at h
  dsimp only at h
  split at h
  · simp only [bind_eq_ok, pure_eq_ok, Except.ok.injEq] at h
    obtain ⟨s1, h1, s2, h2, rfl⟩ := h
    have hc := synth_cur h2 (synth_cur h1 hl)
    exact hc
  · simp only [Except.ok.injEq] at h
    subst h
    exact hl

/-- Submission changes the cursor and the trace only; the cursor does not grow. -/
theorem submit_frame (s : State) :
    submit s = { s with mixn := (submit s).mixn, trace := (submit s).trace } ∧ (submit s).mixn ≤ s.mixn ∧
      s.trace <+: (submit s).trace := by
  refine ⟨rfl, ?_, (List.prefix_append _ _).trans (List.prefix_append _ _)⟩
  show submittedLength s ≤ s.mixn
  unfold submittedLength
  split <;> omega

/-- The frame's audio changes the audio state, the DMA channels and the trace only. -/
theorem soundMixFrame_frame {s t : State} (h : soundMixFrame s = .ok t) :
    t = { s with snd := t.snd, dma := t.dma, mix := t.mix, mixn := t.mixn, trace := t.trace } ∧
      s.trace <+: t.trace := by
  simp only [soundMixFrame, bind_eq_ok, pure_eq_ok, Except.ok.injEq] at h
  obtain ⟨s', h', rfl⟩ := h
  have f := mixFrame_frame h'
  have g := submit_frame s'
  have ht : s'.trace = s.trace := by rw [f]
  refine ⟨?_, by rw [← ht]; exact g.2.2⟩
  have g1 := g.1
  generalize submit s' = u at g1 ⊢
  rw [g1, f]

theorem soundMixFrame_legal {s t : State} (hp : capacitiesHold s.cfg) (h : soundMixFrame s = .ok t)
    (hl : ∀ c : Audio, soundLegal s.cfg s.snd[c]) (hm : mixLegal s) :
    (∀ c : Audio, soundLegal s.cfg t.snd[c]) ∧ mixLegal t := by
  simp only [soundMixFrame, bind_eq_ok, pure_eq_ok, Except.ok.injEq] at h
  obtain ⟨s', h', rfl⟩ := h
  obtain ⟨l, m⟩ := mixFrame_legal hp h' hl hm
  have g := submit_frame s'
  have gs : (submit s').snd = s'.snd := by rw [g.1]
  have gm : (submit s').mix = s'.mix := by rw [g.1]
  have gc : (submit s').cfg = s'.cfg := by rw [g.1]
  refine ⟨by rw [gs]; exact l, ?_⟩
  unfold mixLegal
  rw [gm, gc]
  exact ⟨Nat.le_trans g.2.1 m.1, m.2⟩

theorem soundMixFrame_cur {s t : State} (h : soundMixFrame s = .ok t)
    (hl : ∀ c : Audio, curFollowsCache s.snd[c]) : ∀ c : Audio, curFollowsCache t.snd[c] := by
  simp only [soundMixFrame, bind_eq_ok, pure_eq_ok, Except.ok.injEq] at h
  obtain ⟨s', h', rfl⟩ := h
  have gs : (submit s').snd = s'.snd := by rw [(submit_frame s').1]
  rw [gs]
  exact mixFrame_cur h' hl

/-! ### What a frame is made of -/

/-- A channel whose timer is stopped (spec/43_sound_mixer.md R163). -/
theorem synth_stopped {c : Audio} {s : State} (h : (timerOf c s).start = false) :
    synth c s = .ok (setSnd c (silentFrame s.cfg { s.snd[c] with bufn := 0 }) s) := by
  unfold synth
  dsimp only
  rw [if_neg (by rw [h]; decide)]

theorem mixFrame_off {s : State} (h : s.master = false) : mixFrame s = .ok (silentMix { s with mixn := 0 }) := by
  unfold mixFrame
  dsimp only
  rw [if_neg (by rw [h]; decide)]

theorem mixFrame_on {s s1 s2 : State} (h : s.master = true) (h1 : synth 0 { s with mixn := 0 } = .ok s1)
    (h2 : synth 1 s1 = .ok s2) : mixFrame s = .ok (mixChannels s2) := by
  unfold mixFrame
  dsimp only
  rw [if_pos h, h1, ok_bind, h2]
  rfl

theorem soundMixFrame_of {s t : State} (h : mixFrame s = .ok t) : soundMixFrame s = .ok (submit t) := by
  unfold soundMixFrame
  rw [h]
  rfl

/-- The frame with the master sound enable off (spec/43_sound_mixer.md R161, R175). -/
theorem soundMixFrame_silent {s : State} {n n' : Nat} (hma : s.master = false) (hn : n = s.cfg.samplesPerFrame)
    (hn' : n' = if s.host.queueOver then n - 1 else n) :
    soundMixFrame s = .ok { s with
      mix := List.replicate n (0, 0) ++ s.mix.drop n
      mixn := n'
      trace := s.trace ++ [.capture (List.replicate n (0, 0)), .audio (List.replicate n' (0, 0))] } := by
  rw [soundMixFrame_of (mixFrame_off hma)]
  congr 1
  unfold submit submittedLength silentMix
  simp only [emit, ← hn]
  cases hq : s.host.queueOver with
  | false =>
    obtain rfl : n' = n := by rw [hn', hq]; rfl
    simp
  | true =>
    have hk : n' = n - 1 := by rw [hn', hq]; rfl
    by_cases h0 : 0 < n
    · simp [h0, hk]
      rw [List.take_append_of_le_length (by simp)]
      simp
    · obtain rfl : n = 0 := by omega
      subst hk
      simp

/-! ### What a frame reads -/

/-- A state with everything that a frame's audio reads or changes taken from another. -/
def withSound (r s : State) : State :=
  { r with cfg := s.cfg, dma := s.dma, master := s.master, ctl := s.ctl, timer := s.timer, snd := s.snd, mix := s.mix,
           mixn := s.mixn, mem := s.mem, host := s.host, trace := s.trace }

theorem synth_withSound (r : State) (c : Audio) (s : State) :
    synth c (withSound r s) = (synth c s).map (withSound r) := by
  unfold synth
  show (if (timerOf c s).start = true then _ else _) = _
  split
  · show (do
      let f ← ticks c s.cfg s.mem (period (timerOf c s)) s.cfg.clocksPerFrame ({ s.snd[c] with bufn := 0 }, s.dma)
      _) = _
    dsimp only
    cases ticks c s.cfg s.mem (period (timerOf c s)) s.cfg.clocksPerFrame ({ s.snd[c] with bufn := 0 }, s.dma) <;> rfl
  · rfl

theorem mixFrame_withSound (r s : State) : mixFrame (withSound r s) = (mixFrame s).map (withSound r) := by
  unfold mixFrame
  show (if s.master = true then (do let s1 ← synth 0 (withSound r { s with mixn := 0 }); _) else _) = _
  dsimp only
  split
  · rw [synth_withSound]
    cases synth 0 { s with mixn := 0 } with
    | error e => rfl
    | ok s1 =>
      simp only [Except.map, ok_bind]
      rw [synth_withSound]
      cases synth 1 s1 <;> rfl
  · rfl

/-- A frame's audio does the same whatever the sequencing, the interrupt and the keypad registers hold. -/
theorem soundMixFrame_withSound (r s : State) :
    soundMixFrame (withSound r s) = (soundMixFrame s).map (withSound r) := by
  unfold soundMixFrame
  rw [mixFrame_withSound]
  cases mixFrame s <;> rfl

/-! ### A frame with armed FIFO channels -/

/-- The armed FIFO channels can serve `k` demands outside the register window. -/
def demandsClear (d : Vector DmaChannel 4) (k : Nat) : Prop :=
  ∀ (n : DmaIndex) (j : Nat), d[n].en = true → d[n].trig = .fifo → j < k →
    clearOf (alignDown (latchAfter d[n].srcFixed 4 d[n].isrc j) 4) 4

theorem demandsClear_mono {d : Vector DmaChannel 4} {k k' : Nat} (h : demandsClear d k) (hk : k' ≤ k) :
    demandsClear d k' := fun n j a b c => h n j a b (by omega)

theorem supplyBytes_completes {m : Memory} {ch : DmaChannel} (h : clearOf (alignDown ch.isrc 4) 4) :
    ∃ b, supplyBytes m ch = .ok b := by
  have one : ∀ i : Nat, i < 4 → ∃ v, memRead m (alignDown ch.isrc 4 + BitVec.ofNat 32 i) 1 = .ok v := fun i hi =>
    ⟨_, memRead_eq_ok.mpr ⟨(engineOk_iff _ _).mpr fun j hj => by
      obtain rfl : j = 0 := by omega
      simpa using h i hi, rfl⟩⟩
  obtain ⟨v0, h0⟩ := one 0 (by omega)
  obtain ⟨v1, h1⟩ := one 1 (by omega)
  obtain ⟨v2, h2⟩ := one 2 (by omega)
  obtain ⟨v3, h3⟩ := one 3 (by omega)
  simp only [BitVec.ofNat_eq_ofNat, BitVec.add_zero] at h0 h1 h2 h3
  refine ⟨⟨BitVec.ofNat 8 v0, BitVec.ofNat 8 v1, BitVec.ofNat 8 v2, BitVec.ofNat 8 v3⟩, ?_⟩
  unfold supplyBytes
  simp only [bind_eq_ok]
  exact ⟨v0, h0, v1, h1, v2, h2, v3, h3, rfl⟩

theorem supplier_feeds {c : Audio} {d : Vector DmaChannel 4} {n : DmaIndex} (h : supplier c d = some n) :
    d[n].en = true ∧ d[n].trig = .fifo := by
  have hf := List.find?_some h
  simp only [feeds, armedFor, Bool.and_eq_true, decide_eq_true_eq] at hf
  exact hf.1

/-- A demand that is clear of the register window is served, and uses up one of the demands to come. -/
theorem fifoSupply_completes {c : Audio} {m : Memory} {d : Vector DmaChannel 4} {k : Nat}
    (h : demandsClear d (k + 1)) : ∃ b d', fifoSupply c m d = .ok (b, d') ∧ demandsClear d' k := by
  unfold fifoSupply
  split
  · exact ⟨_, _, rfl, demandsClear_mono h (by omega)⟩
  · rename_i n hn
    obtain ⟨he, ht⟩ := supplier_feeds hn
    have h0 := h n 0 he ht (by omega)
    rw [latchAfter_zero] at h0
    obtain ⟨b, hb⟩ := supplyBytes_completes (m := m) h0
    refine ⟨some b, d.set n (afterSupply d[n]), by rw [hb]; rfl, fun i j hi hi' hj => ?_⟩
    by_cases e : i = n
    · subst e
      have hg : (d.set i (afterSupply d[i]))[i] = afterSupply d[i] := by simp
      have hj' := h i (j + 1) he ht (by omega)
      rw [hg]
      rw [← latchAfter_succ] at hj'
      have hl : (afterSupply d[i]).isrc = latchAfter d[i].srcFixed 4 d[i].isrc 1 := by
        simp [afterSupply, disableUnlessRepeat, latchAfter]
      rw [hl]
      exact hj'
    · have hg : (d.set n (afterSupply d[n]))[i] = d[i] := by
        have : (n : Nat) ≠ i := fun h => e (Fin.ext h.symm)
        simp [Vector.getElem_set, this]
      rw [hg] at hi hi' ⊢
      exact h i j hi hi' (by omega)

/-- A tick makes at most one demand. -/
theorem tick_completes {c : Audio} {cfg : Config} {m : Memory} {per k : Nat} {f : Feed}
    (h : demandsClear f.2 (k + 1)) : ∃ g, tick c cfg m per f = .ok g ∧ demandsClear g.2 k := by
  unfold tick sourceSide pop refill
  split
  · split
    · obtain ⟨b, d', e, hd⟩ := fifoSupply_completes (c := c) (m := m) h
      dsimp only
      rw [e]
      cases b <;> exact ⟨_, rfl, hd⟩
    · exact ⟨_, rfl, demandsClear_mono h (by omega)⟩
  · exact ⟨_, rfl, demandsClear_mono h (by omega)⟩

theorem ticks_completes {c : Audio} {cfg : Config} {m : Memory} {per j k : Nat} {f : Feed}
    (h : demandsClear f.2 (k + j)) : ∃ g, ticks c cfg m per j f = .ok g ∧ demandsClear g.2 k := by
  induction j generalizing f with
  | zero => exact ⟨f, rfl, h⟩
  | succ j ih =>
    obtain ⟨g, hg, hd⟩ := tick_completes (c := c) (cfg := cfg) (m := m) (per := per) (k := k + j) h
    obtain ⟨g', hg', hd'⟩ := ih hd
    exact ⟨g', by rw [ticks, hg, ok_bind, hg'], hd'⟩

theorem synth_completes {c : Audio} {s : State} {k : Nat} (h : demandsClear s.dma (k + s.cfg.clocksPerFrame)) :
    ∃ t, synth c s = .ok t ∧ demandsClear t.dma k := by
  cases ht : (timerOf c s).start with
  | false => exact ⟨_, synth_stopped ht, demandsClear_mono h (by omega)⟩
  | true =>
    obtain ⟨g, hg, hd⟩ := ticks_completes (c := c) (cfg := s.cfg) (m := s.mem) (per := period (timerOf c s))
      (f := ({ s.snd[c] with bufn := 0 }, s.dma)) h
    unfold synth
    dsimp only
    rw [if_pos ht, hg]
    exact ⟨_, rfl, hd⟩

/-- A frame whose demands are all clear of the register window is mixed and submitted. -/
theorem soundMixFrame_completes {s : State} (h : feedsClear s) : ∃ t, soundMixFrame s = .ok t := by
  have h' : demandsClear s.dma (0 + s.cfg.clocksPerFrame + s.cfg.clocksPerFrame) :=
    fun n k a b c => h n k a b (by omega)
  cases hm : s.master with
  | false => exact ⟨_, soundMixFrame_of (mixFrame_off hm)⟩
  | true =>
    obtain ⟨s1, h1, d1⟩ := synth_completes (c := 0) (s := { s with mixn := 0 }) h'
    have ec : s1.cfg = s.cfg := by rw [synth_frame h1]
    obtain ⟨s2, h2, -⟩ := synth_completes (c := 1) (s := s1) (k := 0) (by rw [ec]; exact d1)
    exact ⟨_, soundMixFrame_of (mixFrame_on hm h1 h2)⟩

/-- Each channel waits for the trigger it waited for, and none is newly armed. -/
def noneArmed (d d' : Vector DmaChannel 4) : Prop :=
  ∀ n : DmaIndex, sameSetup d[n] d'[n]

theorem noneArmed_refl (d : Vector DmaChannel 4) : noneArmed d d := fun _ => sameSetup_refl _

theorem noneArmed_trans {d d' d'' : Vector DmaChannel 4} (a : noneArmed d d') (b : noneArmed d' d'') :
    noneArmed d d'' := fun n => sameSetup_trans (a n) (b n)

theorem fifoSupply_armed {c : Audio} {m : Memory} {d d' : Vector DmaChannel 4} {b : Option Cache}
    (h : fifoSupply c m d = .ok (b, d')) : noneArmed d d' := by
  intro n
  rcases fifoSupply_ok h with ⟨-, -, rfl⟩ | ⟨k, -, -, -, -, rfl⟩
  · exact sameSetup_refl _
  · by_cases e : n = k
    · subst e
      have hg : (d.set n (afterSupply d[n]))[n] = afterSupply d[n] := by simp
      rw [hg]
      refine ⟨rfl, fun he => ?_⟩
      simp only [afterSupply, disableUnlessRepeat, Bool.and_eq_true] at he
      exact he.1
    · have hg : (d.set k (afterSupply d[k]))[n] = d[n] := by
        have : (k : Nat) ≠ n := fun h => e (Fin.ext h.symm)
        simp [Vector.getElem_set, this]
      rw [hg]
      exact sameSetup_refl _

theorem tick_armed {c : Audio} {cfg : Config} {m : Memory} {per : Nat} {f g : Feed} (h : tick c cfg m per f = .ok g) :
    noneArmed f.2 g.2 := by
  unfold tick sourceSide pop refill at h
  simp only [bind_eq_ok, pure_eq_ok, Except.ok.injEq] at h
  obtain ⟨r, hr, rfl⟩ := h
  split at hr
  · simp only [bind_eq_ok, pure_eq_ok, Except.ok.injEq] at hr
    obtain ⟨q, hq, rfl⟩ := hr
    split at hq
    · simp only [bind_eq_ok] at hq
      obtain ⟨⟨b, d'⟩, hs, hq⟩ := hq
      have := fifoSupply_armed hs
      cases b <;> (simp only [pure_eq_ok, Except.ok.injEq] at hq; subst hq; exact this)
    · obtain rfl := Except.ok.inj hq
      exact noneArmed_refl _
  · obtain rfl := Except.ok.inj hr
    exact noneArmed_refl _

theorem ticks_armed {c : Audio} {cfg : Config} {m : Memory} {per k : Nat} {f g : Feed}
    (h : ticks c cfg m per k f = .ok g) : noneArmed f.2 g.2 := by
  induction k generalizing f with
  | zero =>
    obtain rfl := Except.ok.inj h
    exact noneArmed_refl _
  | succ k ih =>
    simp only [ticks, bind_eq_ok] at h
    obtain ⟨f1, h1, h2⟩ := h
    exact noneArmed_trans (tick_armed h1) (ih h2)

theorem synth_armed {c : Audio} {s t : State} (h : synth c s = .ok t) : noneArmed s.dma t.dma := by
  unfold synth at h
  split at h
  · simp only [bind_eq_ok, pure_eq_ok, Except.ok.injEq] at h
    obtain ⟨f, hf, rfl⟩ := h
    exact ticks_armed hf
  · obtain rfl := Except.ok.inj h
    exact noneArmed_refl _

/-- A frame's audio arms no channel and changes no trigger. -/
theorem soundMixFrame_armed {s t : State} (h : soundMixFrame s = .ok t) : noneArmed s.dma t.dma := by
  simp only [soundMixFrame, bind_eq_ok, pure_eq_ok, Except.ok.injEq] at h
  obtain ⟨u, hu, rfl⟩ := h
  show noneArmed s.dma u.dma
  unfold mixFrame at hu
  dsimp only at hu
  split at hu
  · simp only [bind_eq_ok, pure_eq_ok, Except.ok.injEq] at hu
    obtain ⟨s1, h1, s2, h2, rfl⟩ := hu
    have a := synth_armed h1
    have b := synth_armed h2
    exact noneArmed_trans a b
  · obtain rfl := Except.ok.inj hu
    exact noneArmed_refl _

/-! ### A started timer -/

/-- Clocks as a sequence of feeds. -/
theorem ticks_iff {c : Audio} {cfg : Config} {m : Memory} {per k : Nat} {f g : Feed} :
    ticks c cfg m per k f = .ok g ↔
      ∃ fs : Nat → Feed, fs 0 = f ∧ (∀ j, j < k → tick c cfg m per (fs j) = .ok (fs (j + 1))) ∧ fs k = g := by
  induction k generalizing f with
  | zero =>
    constructor
    · intro h
      obtain rfl := Except.ok.inj h
      exact ⟨fun _ => f, rfl, fun j hj => absurd hj (by omega), rfl⟩
    · rintro ⟨fs, rfl, -, rfl⟩
      rfl
  | succ k ih =>
    rw [ticks, bind_eq_ok]
    constructor
    · rintro ⟨f1, h1, h2⟩
      obtain ⟨fs, rfl, hs, rfl⟩ := ih.mp h2
      refine ⟨fun j => match j with
        | 0 => f
        | j + 1 => fs j, rfl, fun j hj => ?_, rfl⟩
      cases j with
      | zero => exact h1
      | succ j => exact hs j (by omega)
    · rintro ⟨fs, rfl, hs, rfl⟩
      exact ⟨fs 1, hs 0 (by omega), ih.mpr ⟨fun j => fs (j + 1), rfl, fun j hj => hs (j + 1) (by omega), rfl⟩⟩

end Sys2Proof.Machine
end

