-- ==== Sys2Proof/Laws/Access.lean ====
section
/-! SUPPORT. Laws of register accesses: when one answers a next state, and what it can change. -/

namespace Sys2Proof.Machine

/-! ### Halves -/

theorem getHalf_setHalf_same (hi : Bool) (v : Word) (h : Half) : getHalf hi (setHalf hi v h) = h := by
  refine BitVec.eq_of_getLsbD_eq fun i hi' => ?_
  cases hi
  · exact (BitVec.getLsbD_extractLsb' ..).trans (by
      erw [BitVec.getLsbD_append]
      simp [hi'])
  · exact (BitVec.getLsbD_extractLsb' ..).trans (by
      erw [BitVec.getLsbD_append]
      simp [hi'])

/-! ### What the fields of a written half are -/

theorem lowHalf_bit (v : Word) (k : Nat) (h : k < 16) : (lowHalf v).getLsbD k = v.getLsbD k := by
  simp [lowHalf, h]

theorem setHalf_lo (x v : Word) : setHalf false x (lowHalf v) = BitVec.ofNat 32 (x.toNat / 65536 * 65536 + v.toNat % 65536) := by
  unfold setHalf lowHalf highHalf
  have h1 : x = BitVec.ofNat 32 x.toNat := by simp
  apply BitVec.eq_of_toNat_eq
  simp [Nat.shiftRight_eq_div_pow]
  erw [BitVec.toNat_append]
  simp [Nat.shiftRight_eq_div_pow]
  rw [← Nat.shiftLeft_add_eq_or_of_lt (by omega)]
  rw [Nat.shiftLeft_eq]
  have := x.isLt
  omega

theorem setHalf_hi (x v : Word) : setHalf true x (lowHalf v) = BitVec.ofNat 32 (v.toNat % 65536 * 65536 + x.toNat % 65536) := by
  unfold setHalf lowHalf
  apply BitVec.eq_of_toNat_eq
  simp
  erw [BitVec.toNat_append]
  simp
  rw [← Nat.shiftLeft_add_eq_or_of_lt (by omega)]
  rw [Nat.shiftLeft_eq]
  omega

theorem ctlOfA_low (v : Word) : ctlOfA (lowHalf v) = { amp := v.getLsbD 2, right := v.getLsbD 8, left := v.getLsbD 9, tsel := if v.getLsbD 10 then 1 else 0 } := by
  simp only [ctlOfA, timerSelect, lowHalf_bit v 2 (by norm_num), lowHalf_bit v 8 (by norm_num), lowHalf_bit v 9 (by norm_num), lowHalf_bit v 10 (by norm_num)]

theorem ctlOfB_low (v : Word) : ctlOfB (lowHalf v) = { amp := v.getLsbD 3, right := v.getLsbD 12, left := v.getLsbD 13, tsel := if v.getLsbD 14 then 1 else 0 } := by
  simp only [ctlOfB, timerSelect, lowHalf_bit v 3 (by norm_num), lowHalf_bit v 12 (by norm_num), lowHalf_bit v 13 (by norm_num), lowHalf_bit v 14 (by norm_num)]

/-! ### What the packed registers read -/

theorem readDispstat_eq (s : State) :
    (readDispstat s).setWidth 32 = BitVec.ofNat 32 (s.vcmp.toNat * 256 + if 160 ≤ s.line.toNat then 1 else 0) := by
  unfold readDispstat flagAt vblankFlag Config.vblankLine
  have : ∀ (v : BitVec 8) (b : Bool), ((v.setWidth 16 <<< 8 ||| (BitVec.ofBool b).setWidth 16 <<< 0 : Half)).setWidth 32
      = BitVec.ofNat 32 (v.toNat * 256 + if b then 1 else 0) := by decide
  simpa using this s.vcmp (decide (160 ≤ s.line.toNat))

theorem readSoundcntH_eq (s : State) :
    (readSoundcntH s).setWidth 32 = BitVec.ofNat 32
        (s.ctl[1].tsel.val * 0x4000 + s.ctl[1].left.toNat * 0x2000 + s.ctl[1].right.toNat * 0x1000
          + s.ctl[0].tsel.val * 0x400 + s.ctl[0].left.toNat * 0x200 + s.ctl[0].right.toNat * 0x100
          + s.ctl[1].amp.toNat * 8 + s.ctl[0].amp.toNat * 4) := by
  unfold readSoundcntH
  generalize s.ctl[0] = x
  generalize s.ctl[1] = y
  rcases x with ⟨a0, b0, c0, d0⟩
  rcases y with ⟨a1, b1, c1, d1⟩
  revert a0 b0 c0 d0 a1 b1 c1 d1
  decide

theorem readCntH_eq (n : DmaIndex) (s : State) :
    (readCntH n s).setWidth 32 = BitVec.ofNat 32
        (s.dma[n].en.toNat * 0x8000 + (triggerCode s.dma[n].trig).toNat * 0x1000
          + s.dma[n].w32.toNat * 0x400 + s.dma[n].rep.toNat * 0x200 + s.dma[n].srcFixed.toNat * 0x100
          + s.dma[n].dstFixed.toNat * 0x40) := by
  unfold readCntH
  generalize s.dma[n] = x
  rcases x with ⟨sad, dad, cnt, a, b, c, d, t, e, i, j⟩
  show _ = BitVec.ofNat 32 (e.toNat * 0x8000 + (triggerCode t).toNat * 0x1000 + d.toNat * 0x400 + c.toNat * 0x200 + b.toNat * 0x100 + a.toNat * 0x40)
  dsimp only
  clear sad dad cnt i j
  cases a <;> cases b <;> cases c <;> cases d <;> cases t <;> cases e <;> rfl

theorem readTmH_eq (t : TimerIndex) (s : State) :
    (readTmH t s).setWidth 32 = BitVec.ofNat 32 (s.timer[t].start.toNat * 0x80 + s.timer[t].psel.toNat) := by
  unfold readTmH
  generalize s.timer[t] = x
  rcases x with ⟨a, b, c⟩
  show _ = BitVec.ofNat 32 (c.toNat * 0x80 + b.toNat)
  dsimp only
  clear a
  revert b c
  decide

theorem readKeyinput_eq (s : State) : (readKeyinput s).setWidth 32 = BitVec.ofNat 32 (0x3FF - s.keysnap.toNat) := by
  apply BitVec.eq_of_toNat_eq
  have := s.keysnap.isLt
  simp [readKeyinput]

theorem readKeycnt_eq (s : State) : (readKeycnt s).setWidth 32 =
    BitVec.ofNat 32 (s.kand.toNat * 0x8000 + s.kirqEn.toNat * 0x4000 + s.kwatch.toNat) := by
  unfold readKeycnt
  generalize s.kand = a
  generalize s.kirqEn = b
  generalize s.kwatch = w
  revert w
  cases a <;> cases b <;> decide

/-! ### The FIFO reset -/

theorem fifoReset_frame (c : Audio) (s : State) : fifoReset c s = { s with snd := (fifoReset c s).snd } := rfl

theorem fifoReset_legal {c : Audio} {s : State} (h : ∀ c : Audio, soundLegal s.cfg s.snd[c]) :
    ∀ c' : Audio, soundLegal s.cfg (fifoReset c s).snd[c'] := by
  intro c'
  by_cases e : c' = c
  · subst e
    unfold fifoReset
    rw [setSnd_get_same]
    exact ⟨Nat.zero_le _, (h c').2⟩
  · unfold fifoReset
    rw [setSnd_get_other e]
    exact h c'

theorem fifoReset_cur {c : Audio} {s : State} (h : ∀ c : Audio, curFollowsCache s.snd[c]) :
    ∀ c' : Audio, curFollowsCache (fifoReset c s).snd[c'] := by
  intro c'
  by_cases e : c' = c
  · subst e
    unfold fifoReset
    rw [setSnd_get_same]
    exact ⟨Nat.zero_le _, rfl⟩
  · unfold fifoReset
    rw [setSnd_get_other e]
    exact h c'

theorem writeSoundcntH_frame (v : Half) (s : State) :
    writeSoundcntH v s = { s with ctl := (writeSoundcntH v s).ctl, snd := (writeSoundcntH v s).snd } := by
  unfold writeSoundcntH
  dsimp only
  split_ifs <;> rfl

theorem writeSoundcntH_ctl (v : Half) (s : State) :
    (writeSoundcntH v s).ctl = (s.ctl.set 0 (ctlOfA v)).set 1 (ctlOfB v) := by
  unfold writeSoundcntH
  dsimp only
  split_ifs <;> rfl

theorem writeSoundcntH_snd (v : Half) (s : State) :
    (writeSoundcntH v s).snd =
      let clear (d : SoundDma) : SoundDma := { d with rem := 0, cache := Cache.initial, cur := 0 }
      let x := if v.getLsbD 11 then s.snd.set 0 (clear s.snd[0]) else s.snd
      if v.getLsbD 15 then x.set 1 (clear x[1]) else x := by
  unfold writeSoundcntH
  dsimp only
  split_ifs <;> rfl

/-! ### Writes -/

/-- What a register write can change. -/
def writeFrame (s t : State) : Prop :=
  t = { s with
    vcmp := t.vcmp
    ie := t.ie
    ifReg := t.ifReg
    ime := t.ime
    dma := t.dma
    master := t.master
    ctl := t.ctl
    timer := t.timer
    snd := t.snd
    kwatch := t.kwatch
    kirqEn := t.kirqEn
    kand := t.kand
    mem := t.mem }

theorem writeFrame_refl (s : State) : writeFrame s s := rfl

theorem writeFrame_trans {s t u : State} (h1 : writeFrame s t) (h2 : writeFrame t u) : writeFrame s u := by
  unfold writeFrame at *
  rw [h1] at h2
  rw [h2]

/-- Everything a write of DMAnCNT_H that is not refused does. -/
theorem writeCntH_ok {n : DmaIndex} {v : Half} {s t : State} (h : writeCntH n v s = .ok t) :
    v.getLsbD 5 = false ∧ v.getLsbD 7 = false ∧
    ((¬ (s.dma[n].en = false ∧ v.getLsbD 15 = true) ∧ t = setDma n (withControl v s.dma[n]) s) ∨
     (s.dma[n].en = false ∧ v.getLsbD 15 = true ∧ (withControl v s.dma[n]).trig ≠ .immediate ∧
        t = setDma n (loadLatches (withControl v s.dma[n])) s) ∨
     (s.dma[n].en = false ∧ v.getLsbD 15 = true ∧ (withControl v s.dma[n]).trig = .immediate ∧
        dmaRun n (setDma n (loadLatches (withControl v s.dma[n])) s) = .ok t)) := by
  unfold writeCntH at h
  split at h
  · cases h
  · rename_i hb
    simp only [Bool.or_eq_true, not_or, Bool.not_eq_true] at hb
    refine ⟨hb.1, hb.2, ?_⟩
    dsimp only at h
    have hen : (withControl v s.dma[n]).en = v.getLsbD 15 := rfl
    rw [hen] at h
    split at h
    · rename_i he
      simp only [Bool.and_eq_true, Bool.not_eq_true'] at he
      split at h
      · exact .inr (.inr ⟨he.1, he.2, ‹_›, h⟩)
      · simp only [Except.ok.injEq] at h
        exact .inr (.inl ⟨he.1, he.2, ‹_›, h.symm⟩)
    · rename_i he
      simp only [Bool.and_eq_true, Bool.not_eq_true'] at he
      simp only [Except.ok.injEq] at h
      exact .inl ⟨he, h.symm⟩

theorem writeCntH_frame {n : DmaIndex} {v : Half} {s t : State} (h : writeCntH n v s = .ok t) :
    t = { s with dma := t.dma, mem := t.mem } ∧ (s.mem.wf memBytes = true → t.mem.wf memBytes = true) := by
  rcases (writeCntH_ok h).2.2 with ⟨-, rfl⟩ | ⟨-, -, -, rfl⟩ | ⟨-, -, -, hr⟩
  · exact ⟨rfl, id⟩
  · exact ⟨rfl, id⟩
  · obtain ⟨f, g⟩ := dmaRun_frame hr
    exact ⟨by rw [f]; rfl, g⟩

theorem writeCell_frame {c : Cell} {v : Half} {s t : State} (h : writeCell c v s = .ok t) :
    writeFrame s t ∧ (s.mem.wf memBytes = true → t.mem.wf memBytes = true) := by
  cases c <;> simp only [writeCell] at h
  case cntH n =>
    obtain ⟨f, g⟩ := writeCntH_frame h
    exact ⟨by unfold writeFrame; rw [f], g⟩
  case soundcntH =>
    simp only [Except.ok.injEq] at h
    subst h
    have f := writeSoundcntH_frame v s
    refine ⟨by unfold writeFrame; rw [f], fun hm => by rw [f]; exact hm⟩
  all_goals
    simp only [Except.ok.injEq] at h
    subst h
    exact ⟨rfl, id⟩

/-- A register write keeps the audio bounds. -/
theorem writeCell_sound (P : SoundDma → Prop) {c : Cell} {v : Half} {s t : State}
    (hP : ∀ d, P d → P { d with rem := 0, cache := Cache.initial, cur := 0 })
    (h : writeCell c v s = .ok t) (hs : ∀ c : Audio, P s.snd[c]) : ∀ c : Audio, P t.snd[c] := by
  cases c <;> simp only [writeCell] at h
  case cntH n =>
    rw [(writeCntH_frame h).1]
    exact hs
  case soundcntH =>
    simp only [Except.ok.injEq] at h
    subst h
    have reset : ∀ (a : Audio) (u : State), (∀ c : Audio, P u.snd[c]) → ∀ c : Audio, P (fifoReset a u).snd[c] := by
      intro a u hu c
      unfold fifoReset
      by_cases e : c = a
      · subst e
        rw [setSnd_get_same]
        exact hP _ (hu c)
      · rw [setSnd_get_other e]
        exact hu c
    unfold writeSoundcntH
    dsimp only
    split_ifs
    · exact reset 1 _ (reset 0 _ hs)
    · exact reset 1 _ hs
    · exact reset 0 _ hs
    · exact hs
  all_goals
    simp only [Except.ok.injEq] at h
    subst h
    exact hs

/-! ### Accesses -/

theorem read16_eq_ok {addr : Word} {s : State} {v : Half} (h : read16 addr s = .ok v) :
    ∃ c, cellAt addr = some c ∧ v = readCell c s := by
  unfold read16 at h
  split at h
  · simp only [Except.ok.injEq] at h
    exact ⟨_, ‹_›, h.symm⟩
  · cases h

theorem write16_eq_ok {addr : Word} {v : Half} {s t : State} (h : write16 addr v s = .ok t) :
    ∃ c, cellAt addr = some c ∧ writeCell c v s = .ok t := by
  unfold write16 at h
  split at h
  · exact ⟨_, ‹_›, h⟩
  · cases h

/-- A read changes the response alone. -/
theorem busRead_frame {size : AccessSize} {addr : Word} {s t : State} (h : busRead size addr s = .ok t) :
    t = { s with rdata := t.rdata } := by
  unfold busRead at h
  split at h <;> simp only [bind_eq_ok, pure_eq_ok, Except.ok.injEq] at h
  · obtain ⟨lo, -, hi, -, rfl⟩ := h
    rfl
  · obtain ⟨v, -, rfl⟩ := h
    rfl

/-- A write is one write of a cell, or two. -/
theorem busWrite_ok {size : AccessSize} {addr wdata : Word} {s t : State}
    (h : busWrite size addr wdata s = .ok t) :
    (∃ c, writeCell c (lowHalf wdata) s = .ok t) ∨
    (∃ c c' s1, writeCell c (lowHalf wdata) s = .ok s1 ∧ writeCell c' (highHalf wdata) s1 = .ok t) := by
  unfold busWrite at h
  split at h
  · simp only [bind_eq_ok] at h
    obtain ⟨s1, h1, h2⟩ := h
    obtain ⟨c, -, e1⟩ := write16_eq_ok h1
    obtain ⟨c', -, e2⟩ := write16_eq_ok h2
    exact .inr ⟨c, c', s1, e1, e2⟩
  · obtain ⟨c, -, e⟩ := write16_eq_ok h
    exact .inl ⟨c, e⟩

theorem busWrite_frame {size : AccessSize} {addr wdata : Word} {s t : State}
    (h : busWrite size addr wdata s = .ok t) :
    writeFrame s t ∧ (s.mem.wf memBytes = true → t.mem.wf memBytes = true) := by
  rcases busWrite_ok h with ⟨c, e⟩ | ⟨c, c', s1, e1, e2⟩
  · exact writeCell_frame e
  · obtain ⟨f1, g1⟩ := writeCell_frame e1
    obtain ⟨f2, g2⟩ := writeCell_frame e2
    exact ⟨writeFrame_trans f1 f2, fun hm => g2 (g1 hm)⟩

/-- A register access that answers a next state was accepted (spec/40_register_access.md R90). -/
theorem registerAccess_next {base : Word} {a : BusAccess} {s t : State}
    (h : registerAccess base a s = .next t) :
    portFree s = true ∧ accessOk (accessAddr base a) a.size = true ∧
      ((a.dir = .read ∧ busRead a.size (accessAddr base a) s = .ok t) ∨
       (a.dir = .write ∧ busWrite a.size (accessAddr base a) a.wdata s = .ok t)) := by
  unfold registerAccess at h
  dsimp only at h
  split at h
  · cases h
  · rename_i hp
    split at h
    · cases h
    · rename_i ha
      refine ⟨by simpa using hp, by simpa using ha, ?_⟩
      split at h
      · exact .inl ⟨‹_›, outcomeOf_eq_next.mp h⟩
      · exact .inr ⟨‹_›, outcomeOf_eq_next.mp h⟩

/-- A 16-bit read of an accepted address answers what its cell reads, and changes nothing else. -/
theorem registerAccess_read_half {base : Word} {off : BitVec 2} {d : Word} {s : State} {c : Cell}
    (hp : portFree s = true) (ha : accessOk (base + off.setWidth 32) .half = true)
    (hc : cellAt (base + off.setWidth 32) = some c) :
    registerAccess base ⟨.read, .half, off, d⟩ s = .next { s with rdata := (readCell c s).setWidth 32 } := by
  simp only [registerAccess, accessAddr, hp, ha, Bool.not_true, Bool.false_eq_true, if_false, busRead, read16, hc,
    ok_bind, pure_eq_ok, outcomeOf]

/-- A 16-bit write of an accepted address is the write of its cell. -/
theorem registerAccess_write_half {base : Word} {off : BitVec 2} {d : Word} {s : State} {c : Cell}
    (hp : portFree s = true) (ha : accessOk (base + off.setWidth 32) .half = true)
    (hc : cellAt (base + off.setWidth 32) = some c) :
    registerAccess base ⟨.write, .half, off, d⟩ s = outcomeOf (writeCell c (lowHalf d) s) := by
  simp only [registerAccess, accessAddr, hp, ha, Bool.not_true, Bool.false_eq_true, if_false, busWrite, write16, hc]

theorem registerAccess_ne_fault {base : Word} {a : BusAccess} {s : State} {f : Fault} :
    registerAccess base a s ≠ .fault f := by
  unfold registerAccess
  dsimp only
  split
  · simp
  · split
    · simp
    · split <;> exact outcomeOf_ne_fault

/-- Everything an accepted register access can change. -/
theorem registerAccess_frame {base : Word} {a : BusAccess} {s t : State}
    (h : registerAccess base a s = .next t) :
    writeFrame { s with rdata := t.rdata } t ∧ (s.mem.wf memBytes = true → t.mem.wf memBytes = true) := by
  rcases (registerAccess_next h).2.2 with ⟨-, hr⟩ | ⟨-, hw⟩
  · have f := busRead_frame hr
    rw [f]
    exact ⟨rfl, id⟩
  · obtain ⟨f, g⟩ := busWrite_frame hw
    have hd : t.rdata = s.rdata := by rw [f]
    rw [hd]
    exact ⟨f, g⟩

/-- A register access keeps a bound of the audio channels that the FIFO reset keeps. -/
theorem registerAccess_sound (P : SoundDma → Prop) {base : Word} {a : BusAccess} {s t : State}
    (hP : ∀ d, P d → P { d with rem := 0, cache := Cache.initial, cur := 0 })
    (h : registerAccess base a s = .next t) (hs : ∀ c : Audio, P s.snd[c]) : ∀ c : Audio, P t.snd[c] := by
  rcases (registerAccess_next h).2.2 with ⟨-, hr⟩ | ⟨-, hw⟩
  · rw [busRead_frame hr]
    exact hs
  · rcases busWrite_ok hw with ⟨c, e⟩ | ⟨c, c', s1, e1, e2⟩
    · exact writeCell_sound P hP e hs
    · exact writeCell_sound P hP e2 (writeCell_sound P hP e1 hs)

end Sys2Proof.Machine
end

