-- ==== Sys2Proof/Laws/Encoding.lean ====
section
/-! SUPPORT. Laws of the two formats: the fields of an encoded word, a word from its fields, and what a BUS word that
decodes says. -/

namespace Sys2Proof

theorem append_toNat {n m : Nat} (x : BitVec n) (y : BitVec m) : (x ++ y).toNat = x.toNat * 2 ^ m + y.toNat := by
  rw [BitVec.toNat_append, ← Nat.shiftLeft_add_eq_or_of_lt y.isLt, Nat.shiftLeft_eq]

theorem cmdWord_toNat (op : Byte) (a0 a1 a2 : Word) :
    (cmdWord op a0 a1 a2).toNat = op.toNat * 2 ^ 96 + a0.toNat * 2 ^ 64 + a1.toNat * 2 ^ 32 + a2.toNat := by
  show (0#24 ++ op ++ a0 ++ a1 ++ a2 : BitVec (24 + 8 + 32 + 32 + 32)).toNat = _
  simp only [append_toNat, BitVec.toNat_ofNat]
  omega

theorem busWord_toNat (base : Word) (a : BusAccess) :
    (busWord base a).toNat =
      a.dir.code.toNat * 2 ^ 66 + a.size.code.toNat * 2 ^ 64 + (base + a.off.setWidth 32).toNat * 2 ^ 32
        + a.wdata.toNat := by
  show (a.dir.code ++ a.size.code ++ (base + a.off.setWidth 32) ++ a.wdata : BitVec (1 + 2 + 32 + 32)).toNat = _
  simp only [append_toNat]
  omega

theorem extract_toNat {w : Nat} (x : BitVec w) (k n : Nat) : (x.extractLsb' k n).toNat = x.toNat / 2 ^ k % 2 ^ n := by
  rw [BitVec.extractLsb'_toNat, Nat.shiftRight_eq_div_pow]

@[simp] theorem cmdZero_cmdWord (op : Byte) (a0 a1 a2 : Word) : cmdZero (cmdWord op a0 a1 a2) = 0 := by
  apply BitVec.eq_of_toNat_eq
  have := op.isLt; have := a0.isLt; have := a1.isLt; have := a2.isLt
  rw [cmdZero, extract_toNat, cmdWord_toNat]
  show _ = 0
  omega

@[simp] theorem cmdOp_cmdWord (op : Byte) (a0 a1 a2 : Word) : cmdOp (cmdWord op a0 a1 a2) = op := by
  apply BitVec.eq_of_toNat_eq
  have := op.isLt; have := a0.isLt; have := a1.isLt; have := a2.isLt
  rw [cmdOp, extract_toNat, cmdWord_toNat]
  omega

@[simp] theorem cmdA0_cmdWord (op : Byte) (a0 a1 a2 : Word) : cmdA0 (cmdWord op a0 a1 a2) = a0 := by
  apply BitVec.eq_of_toNat_eq
  have := op.isLt; have := a0.isLt; have := a1.isLt; have := a2.isLt
  rw [cmdA0, extract_toNat, cmdWord_toNat]
  omega

@[simp] theorem cmdA1_cmdWord (op : Byte) (a0 a1 a2 : Word) : cmdA1 (cmdWord op a0 a1 a2) = a1 := by
  apply BitVec.eq_of_toNat_eq
  have := op.isLt; have := a0.isLt; have := a1.isLt; have := a2.isLt
  rw [cmdA1, extract_toNat, cmdWord_toNat]
  omega

@[simp] theorem cmdA2_cmdWord (op : Byte) (a0 a1 a2 : Word) : cmdA2 (cmdWord op a0 a1 a2) = a2 := by
  apply BitVec.eq_of_toNat_eq
  have := op.isLt; have := a0.isLt; have := a1.isLt; have := a2.isLt
  rw [cmdA2, extract_toNat, cmdWord_toNat]
  omega

theorem busDir_iff (w : BitVec 67) : busDir w = if w.toNat / 2 ^ 66 % 2 = 1 then .write else .read := by
  unfold busDir
  rw [BitVec.getLsbD, Nat.testBit_eq_decide_div_mod_eq]
  by_cases h : w.toNat / 2 ^ 66 % 2 = 1 <;> simp only [h, decide_true, decide_false, if_true, if_false, Bool.false_eq_true]

@[simp] theorem busDir_busWord (base : Word) (a : BusAccess) : busDir (busWord base a) = a.dir := by
  have h1 := a.size.code.isLt; have h2 := (base + a.off.setWidth 32).isLt; have h3 := a.wdata.isLt
  rw [busDir_iff, busWord_toNat]
  generalize (base + a.off.setWidth 32).toNat = x at *
  cases a.dir
  · rw [show Dir.read.code.toNat = 0 from rfl, if_neg (by omega)]
  · rw [show Dir.write.code.toNat = 1 from rfl, if_pos (by omega)]

@[simp] theorem busSizeCode_busWord (base : Word) (a : BusAccess) : busSizeCode (busWord base a) = a.size.code := by
  apply BitVec.eq_of_toNat_eq
  have h1 := a.size.code.isLt; have h2 := (base + a.off.setWidth 32).isLt; have h3 := a.wdata.isLt
  rw [busSizeCode, extract_toNat, busWord_toNat]
  generalize (base + a.off.setWidth 32).toNat = x at *
  omega

@[simp] theorem busAddr_busWord (base : Word) (a : BusAccess) :
    busAddr (busWord base a) = base + a.off.setWidth 32 := by
  apply BitVec.eq_of_toNat_eq
  have h1 := a.size.code.isLt; have h2 := (base + a.off.setWidth 32).isLt; have h3 := a.wdata.isLt
  rw [busAddr, extract_toNat, busWord_toNat]
  generalize (base + a.off.setWidth 32).toNat = x at *
  omega

@[simp] theorem busWdata_busWord (base : Word) (a : BusAccess) : busWdata (busWord base a) = a.wdata := by
  apply BitVec.eq_of_toNat_eq
  have h1 := a.size.code.isLt; have h2 := (base + a.off.setWidth 32).isLt; have h3 := a.wdata.isLt
  rw [busWdata, extract_toNat, busWord_toNat]
  generalize (base + a.off.setWidth 32).toNat = x at *
  omega

@[simp] theorem AccessSize.ofCode_code (x : AccessSize) : AccessSize.ofCode x.code = some x := by cases x <;> rfl

theorem AccessSize.code_of_ofCode {c : BitVec 2} {x : AccessSize} (h : AccessSize.ofCode c = some x) : x.code = c := by
  unfold AccessSize.ofCode at h
  split_ifs at h <;> cases h <;> exact Eq.symm ‹_›

theorem AccessSize.ofCode_eq_none {c : BitVec 2} : AccessSize.ofCode c = none ↔ c = 3 := by
  revert c
  decide

/-- A BUS word is what its four fields say. -/
theorem bus_ext {w w' : BitVec 67} (hd : busDir w = busDir w') (hs : busSizeCode w = busSizeCode w')
    (ha : busAddr w = busAddr w') (hv : busWdata w = busWdata w') : w = w' := by
  apply BitVec.eq_of_toNat_eq
  have l1 := w.isLt
  have l2 := w'.isLt
  have e2 := congrArg BitVec.toNat hs
  have e3 := congrArg BitVec.toNat ha
  have e4 := congrArg BitVec.toNat hv
  simp only [busSizeCode, busAddr, busWdata, extract_toNat] at e2 e3 e4
  rw [busDir_iff, busDir_iff] at hd
  split_ifs at hd <;> omega

/-- Everything a CMD word that decodes says: its zero field is 0 and its opcode is one of the map's. -/
theorem decodeCmd_ok {w : BitVec 128} {i : Instr} (h : decode (.cmd w) = .ok i) :
    cmdZero w = 0 ∧
      ((cmdOp w = 0x02 ∧ i = .halt) ∨ (cmdOp w = 0x05 ∧ i = .vsync) ∨
       (cmdOp w = 0x0B ∧ i = .cpuset (cmdA0 w) (cmdA1 w) (cmdA2 w)) ∨
       (cmdOp w = 0x0C ∧ i = .cpufastset (cmdA0 w) (cmdA1 w) (cmdA2 w)) ∨
       (cmdOp w = 0x11 ∧ i = .lz77 (cmdA0 w) (cmdA1 w)) ∨ (cmdOp w = 0x16 ∧ i = .diff8 (cmdA0 w) (cmdA1 w)) ∨
       (cmdOp w = 0x18 ∧ i = .diff16 (cmdA0 w) (cmdA1 w)) ∨
       (cmdOp w = 0xE0 ∧ i = .sramRead (cmdA0 w) (cmdA1 w) (cmdA2 w)) ∨
       (cmdOp w = 0xE1 ∧ i = .sramWrite (cmdA0 w) (cmdA1 w) (cmdA2 w)) ∨
       (cmdOp w = 0xE2 ∧ i = .irqSetHandler (cmdA0 w) (cmdA1 w))) := by
  have cut : ∀ {p : Prop} [Decidable p] {a b : Except DecodeError Instr} {x : Instr},
      (if p then a else b) = .ok x → (p ∧ a = .ok x) ∨ (¬ p ∧ b = .ok x) := by
    intro p _ a b x hx
    by_cases hp : p
    · exact .inl ⟨hp, by rwa [if_pos hp] at hx⟩
    · exact .inr ⟨hp, by rwa [if_neg hp] at hx⟩
  unfold decode decodeCmd at h
  dsimp only at h
  rcases cut h with ⟨-, e⟩ | ⟨hz, h⟩
  · cases e
  refine ⟨not_not.mp hz, ?_⟩
  rcases cut h with ⟨ho, e⟩ | ⟨-, h⟩
  · exact .inl ⟨ho, (Except.ok.inj e).symm⟩
  refine .inr ?_
  rcases cut h with ⟨ho, e⟩ | ⟨-, h⟩
  · exact .inl ⟨ho, (Except.ok.inj e).symm⟩
  refine .inr ?_
  rcases cut h with ⟨ho, e⟩ | ⟨-, h⟩
  · exact .inl ⟨ho, (Except.ok.inj e).symm⟩
  refine .inr ?_
  rcases cut h with ⟨ho, e⟩ | ⟨-, h⟩
  · exact .inl ⟨ho, (Except.ok.inj e).symm⟩
  refine .inr ?_
  rcases cut h with ⟨ho, e⟩ | ⟨-, h⟩
  · exact .inl ⟨ho, (Except.ok.inj e).symm⟩
  refine .inr ?_
  rcases cut h with ⟨ho, e⟩ | ⟨-, h⟩
  · exact .inl ⟨ho, (Except.ok.inj e).symm⟩
  refine .inr ?_
  rcases cut h with ⟨ho, e⟩ | ⟨-, h⟩
  · exact .inl ⟨ho, (Except.ok.inj e).symm⟩
  refine .inr ?_
  rcases cut h with ⟨ho, e⟩ | ⟨-, h⟩
  · exact .inl ⟨ho, (Except.ok.inj e).symm⟩
  refine .inr ?_
  rcases cut h with ⟨ho, e⟩ | ⟨-, h⟩
  · exact .inl ⟨ho, (Except.ok.inj e).symm⟩
  refine .inr ?_
  rcases cut h with ⟨ho, e⟩ | ⟨-, h⟩
  · exact ⟨ho, (Except.ok.inj e).symm⟩
  · cases h

/-- Everything a BUS word that decodes says: its size code is not the reserved one, its address lies in the cell of
one row, and the operation is that row's access. -/
theorem decodeBus_ok {w : BitVec 67} {i : Instr} (h : decode (.bus w) = .ok i) :
    ∃ size r, AccessSize.ofCode (busSizeCode w) = some size ∧ r ∈ busRows ∧ busAddr w &&& r.mask = r.base ∧
      i = r.make ⟨busDir w, size, (busAddr w - r.base).setWidth 2, busWdata w⟩ := by
  unfold decode decodeBus at h
  dsimp only at h
  split at h
  · cases h
  · rename_i size hs
    split at h
    · cases h
    · rename_i r hr
      have hh := List.find?_some hr
      simp only [BusRow.hits, decide_eq_true_eq] at hh
      exact ⟨size, r, hs, List.mem_of_find?_eq_some hr, hh, (Except.ok.inj h).symm⟩

theorem busRows_length : busRows.length = 31 := rfl

/-- Row `k` of the 31, in the order of the table. -/
abbrev rowAt (k : Fin 31) : BusRow := busRows[k.val]'(by rw [busRows_length]; exact k.isLt)

/-- The BUS rows do not overlap: an address hits its own row first. -/
theorem busRows_findIdx : ∀ (k : Fin 31) (off : BitVec 2),
    (rowAt k).hits
        ((rowAt k).base + off.setWidth 32) = true →
      busRows.findIdx? (fun r => r.hits
        ((rowAt k).base + off.setWidth 32)) = some k.val := by
  decide

/-- An encoded access decodes to the access of its row. -/
theorem decode_row (k : Fin 31) (a : BusAccess)
    (h : (rowAt k).hits
      ((rowAt k).base + a.off.setWidth 32) = true) :
    decode (.bus (busWord (rowAt k).base a)) =
      .ok ((rowAt k).make a) := by
  have hf := busRows_findIdx k a.off h
  have hg : busRows.find? (fun r => r.hits
      ((rowAt k).base + a.off.setWidth 32)) =
      some (rowAt k) := by
    rw [List.find?_eq_bind_findIdx?_getElem?, hf]
    simp
  generalize (rowAt k) = r at *
  have hs : ((r.base + a.off.setWidth 32 - r.base).setWidth 2 : BitVec 2) = a.off := by
    rw [BitVec.add_comm, BitVec.add_sub_cancel]
    simp
  simp only [decode, decodeBus, busSizeCode_busWord, AccessSize.ofCode_code, busAddr_busWord, hg, busDir_busWord,
    busWdata_busWord, BusRow.access, hs]

theorem clear_bit0 (x : Word) : (x &&& 0xFFFFFFFE#32).toNat = x.toNat / 2 * 2 := by
  have h : x &&& 0xFFFFFFFE#32 = x >>> 1 <<< 1 := by
    refine BitVec.eq_of_getLsbD_eq fun i hi => ?_
    interval_cases i <;> simp
  rw [h, BitVec.toNat_shiftLeft, BitVec.toNat_ushiftRight, Nat.shiftRight_eq_div_pow, Nat.shiftLeft_eq]
  have := x.isLt
  omega

theorem clear_bits10 (x : Word) : (x &&& 0xFFFFFFFC#32).toNat = x.toNat / 4 * 4 := by
  have h : x &&& 0xFFFFFFFC#32 = x >>> 2 <<< 2 := by
    refine BitVec.eq_of_getLsbD_eq fun i hi => ?_
    interval_cases i <;> simp
  rw [h, BitVec.toNat_shiftLeft, BitVec.toNat_ushiftRight, Nat.shiftRight_eq_div_pow, Nat.shiftLeft_eq]
  have := x.isLt
  omega

/-- An address that hits a 16-bit register's row is one of its two. -/
theorem hits_row16 {x base : Word} (h : x &&& 0xFFFFFFFE#32 = base) :
    base + ((x - base).setWidth 2 : BitVec 2).setWidth 32 = x ∧ ((x - base).setWidth 2 : BitVec 2).toNat < 2 ∧
      (x.toNat = base.toNat ∨ x.toNat = base.toNat + 1) := by
  have e := congrArg BitVec.toNat h
  rw [clear_bit0] at e
  have l := x.isLt
  have l' := base.isLt
  have hd : (x - base).toNat = x.toNat - base.toNat := by rw [BitVec.toNat_sub]; omega
  have hs : ((x - base).setWidth 2 : BitVec 2).toNat = x.toNat - base.toNat := by
    rw [BitVec.toNat_setWidth, hd]; omega
  refine ⟨?_, by omega, by omega⟩
  apply BitVec.eq_of_toNat_eq
  rw [BitVec.toNat_add, BitVec.toNat_setWidth, hs]
  omega

/-- An address that hits a 32-bit register's row is one of its four. -/
theorem hits_row32 {x base : Word} (h : x &&& 0xFFFFFFFC#32 = base) :
    base + ((x - base).setWidth 2 : BitVec 2).setWidth 32 = x ∧ base.toNat ≤ x.toNat ∧
      x.toNat ≤ base.toNat + 3 := by
  have e := congrArg BitVec.toNat h
  rw [clear_bits10] at e
  have l := x.isLt
  have l' := base.isLt
  have hd : (x - base).toNat = x.toNat - base.toNat := by rw [BitVec.toNat_sub]; omega
  have hs : ((x - base).setWidth 2 : BitVec 2).toNat = x.toNat - base.toNat := by
    rw [BitVec.toNat_setWidth, hd]; omega
  refine ⟨?_, by omega, by omega⟩
  apply BitVec.eq_of_toNat_eq
  rw [BitVec.toNat_add, BitVec.toNat_setWidth, hs]
  omega

theorem busRow_mask {r : BusRow} (h : r ∈ busRows) : r.mask = 0xFFFFFFFE#32 ∨ r.mask = 0xFFFFFFFC#32 := by
  have : ∀ k : Fin 31, (rowAt k).mask = 0xFFFFFFFE#32 ∨ (rowAt k).mask = 0xFFFFFFFC#32 := by decide
  obtain ⟨k, hk, rfl⟩ := List.mem_iff_getElem.mp h
  exact this ⟨k, hk⟩

/-- The BUS words of one access, from the access and the row's address. -/
theorem busWord_of_fields {w : BitVec 67} {r : BusRow} {size : AccessSize} (hr : r ∈ busRows)
    (ha : busAddr w &&& r.mask = r.base) (hs : AccessSize.ofCode (busSizeCode w) = some size) :
    busWord r.base ⟨busDir w, size, (busAddr w - r.base).setWidth 2, busWdata w⟩ = w := by
  have h1 : r.base + ((busAddr w - r.base).setWidth 2 : BitVec 2).setWidth 32 = busAddr w := by
    rcases busRow_mask hr with hm | hm <;> rw [hm] at ha
    · exact (hits_row16 ha).1
    · exact (hits_row32 ha).1
  refine bus_ext ?_ ?_ ?_ ?_
  · rw [busDir_busWord]
  · rw [busSizeCode_busWord, AccessSize.code_of_ofCode hs]
  · rw [busAddr_busWord, h1]
  · rw [busWdata_busWord]

open Sys2Proof.Machine in
/-- What the operation of a row is: its encoding, the access it carries, and when it is well formed. -/
theorem busRow_make {r : BusRow} (h : r ∈ busRows) (b : BusAccess) :
    encode (r.make b) = .bus (busWord r.base b) ∧ accessOf (r.make b) = some b ∧
      (r.mask = 0xFFFFFFFE#32 ∧ WellFormed (r.make b) = b.inCell 2 ∨
        r.mask = 0xFFFFFFFC#32 ∧ WellFormed (r.make b) = b.inCell 4) := by
  simp only [busRows, displaySoundRows, dma0Rows, dma1Rows, dma2Rows, dma3Rows, timerKeyIrqRows,
    List.cons_append, List.nil_append, List.mem_cons, List.not_mem_nil, or_false] at h
  rcases h with rfl | rfl | rfl | rfl | rfl | rfl | rfl | rfl | rfl | rfl | rfl | rfl | rfl | rfl | rfl | rfl | rfl |
    rfl | rfl | rfl | rfl | rfl | rfl | rfl | rfl | rfl | rfl | rfl | rfl | rfl | rfl
  all_goals
    refine ⟨rfl, rfl, ?_⟩
    first
      | exact .inl ⟨rfl, rfl⟩
      | exact .inr ⟨rfl, rfl⟩

end Sys2Proof

namespace Sys2Proof.Machine

/-! ### The register window -/

theorem inRegset_iff (a : Word) : inRegset a = true ↔
    (0x04000004 ≤ a.toNat ∧ a.toNat ≤ 0x04000007) ∨ (0x04000082 ≤ a.toNat ∧ a.toNat ≤ 0x04000085) ∨
    (0x040000A0 ≤ a.toNat ∧ a.toNat ≤ 0x040000A7) ∨ (0x040000B0 ≤ a.toNat ∧ a.toNat ≤ 0x040000DF) ∨
    (0x04000100 ≤ a.toNat ∧ a.toNat ≤ 0x04000107) ∨ (0x04000130 ≤ a.toNat ∧ a.toNat ≤ 0x04000133) ∨
    (0x04000200 ≤ a.toNat ∧ a.toNat ≤ 0x04000203) ∨ (0x04000208 ≤ a.toNat ∧ a.toNat ≤ 0x04000209) := by
  have e : Config.ioBase.toNat = 0x04000000 := rfl
  simp only [inRegset, regsetRanges, List.any_cons, List.any_nil, Bool.or_false, Bool.or_eq_true, Bool.and_eq_true,
    decide_eq_true_eq, e]

/-- Near IO_BASE the rows hit exactly REGSET. -/
theorem rows_hit_window : ∀ (i : Fin 33) (j : Fin 16),
    busRows.any (fun r => r.hits (BitVec.ofNat 32 (0x04000000 + 16 * i.val + j.val))) =
      inRegset (BitVec.ofNat 32 (0x04000000 + 16 * i.val + j.val)) := by
  decide

theorem busRow_base_bounds {r : BusRow} (h : r ∈ busRows) :
    0x04000004 ≤ r.base.toNat ∧ r.base.toNat ≤ 0x04000208 := by
  have : ∀ k : Fin 31, 0x04000004 ≤ (rowAt k).base.toNat ∧ (rowAt k).base.toNat ≤ 0x04000208 := by decide
  obtain ⟨k, hk, rfl⟩ := List.mem_iff_getElem.mp h
  exact this ⟨k, hk⟩

/-- An address lies in some register's cell iff it lies in REGSET. -/
theorem rows_hit_iff (a : Word) : busRows.any (fun r => r.hits a) = inRegset a := by
  by_cases h : 0x04000000 ≤ a.toNat ∧ a.toNat < 0x04000000 + 528
  · have := rows_hit_window ⟨(a.toNat - 0x04000000) / 16, by omega⟩ ⟨a.toNat % 16, by omega⟩
    dsimp only at this
    rw [show 0x04000000 + 16 * ((a.toNat - 0x04000000) / 16) + a.toNat % 16 = a.toNat by omega] at this
    simpa using this
  · have h1 : inRegset a = false := by
      rw [Bool.eq_false_iff, ne_eq, inRegset_iff]
      omega
    rw [h1, List.any_eq_false]
    intro r hr hit
    simp only [BusRow.hits, decide_eq_true_eq] at hit
    have b := busRow_base_bounds hr
    rcases busRow_mask hr with e | e <;> rw [e] at hit
    · have := (hits_row16 hit).2.2
      omega
    · have := (hits_row32 hit).2
      omega

/-- A BUS word decodes iff its size code is not the reserved one and its address lies in REGSET. -/
theorem decodeBus_cases (w : BitVec 67) :
    (busSizeCode w = 3 ∧ decode (.bus w) = .error .reservedSize) ∨
    (busSizeCode w ≠ 3 ∧ inRegset (busAddr w) = false ∧ decode (.bus w) = .error .notInRegset) ∨
    (busSizeCode w ≠ 3 ∧ inRegset (busAddr w) = true ∧ ∃ i, decode (.bus w) = .ok i) := by
  cases hs : AccessSize.ofCode (busSizeCode w) with
  | none => exact .inl ⟨AccessSize.ofCode_eq_none.mp hs, by simp only [decode, decodeBus, hs]⟩
  | some size =>
    have h3 : busSizeCode w ≠ 3 := fun e => by
      rw [AccessSize.ofCode_eq_none.mpr e] at hs
      cases hs
    have hr := rows_hit_iff (busAddr w)
    cases hf : busRows.find? (fun r => r.hits (busAddr w)) with
    | none =>
      refine .inr (.inl ⟨h3, ?_, by simp only [decode, decodeBus, hs, hf]⟩)
      rw [← hr, List.any_eq_false]
      exact List.find?_eq_none.mp hf
    | some r =>
      refine .inr (.inr ⟨h3, ?_, _, by simp only [decode, decodeBus, hs, hf]; rfl⟩)
      rw [← hr, List.any_eq_true]
      exact ⟨r, List.mem_of_find?_eq_some hf, by simpa using List.find?_some hf⟩
end Sys2Proof.Machine
end

