-- ==== Sys2Proof/Laws/Firmware.lean ====
section
/-! SUPPORT. Laws of the firmware calls: where a copy, a fill, an unfilter or a commit completes, what it writes and
what it leaves alone, and what the LZ77 decoder produces. -/

namespace Sys2Proof.Machine

/-! ### Addresses of a range -/

theorem add_ofNat_add (x : Word) (i j : Nat) :
    x + BitVec.ofNat 32 i + BitVec.ofNat 32 j = x + BitVec.ofNat 32 (i + j) := by
  rw [BitVec.add_assoc, ← BitVec.ofNat_add]

theorem add_ofNat_ne {x : Word} {i j : Nat} (hi : i < 2 ^ 32) (hj : j < 2 ^ 32) (h : i ≠ j) :
    (x + BitVec.ofNat 32 i).toNat ≠ (x + BitVec.ofNat 32 j).toNat := by
  rw [BitVec.toNat_add, BitVec.toNat_add, BitVec.toNat_ofNat, BitVec.toNat_ofNat, Nat.mod_eq_of_lt hi,
    Nat.mod_eq_of_lt hj]
  have := x.isLt
  omega

theorem apart_toNat {x y : Word} {k n i j : Nat} (h : apart x k y n) (hi : i < k) (hj : j < n) :
    (y + BitVec.ofNat 32 j).toNat ≠ (x + BitVec.ofNat 32 i).toNat := fun e =>
  h i j hi hj (BitVec.eq_of_toNat_eq e.symm)

theorem clearOf_sub {x : Word} {k i n : Nat} (h : clearOf x k) (hn : i + n ≤ k) :
    clearOf (x + BitVec.ofNat 32 i) n := by
  intro j hj
  rw [add_ofNat_add]
  exact h (i + j) (by omega)

theorem clearOf_mono {x : Word} {k n : Nat} (h : clearOf x k) (hn : n ≤ k) : clearOf x n :=
  fun i hi => h i (by omega)

theorem clearOf_next {x : Word} {w k : Nat} (h : clearOf x ((k + 1) * w)) :
    clearOf x w ∧ clearOf (x + BitVec.ofNat 32 w) (k * w) := by
  rw [Nat.succ_mul] at h
  exact ⟨clearOf_mono h (by omega), clearOf_sub h (by omega)⟩

theorem outside_next {a : Nat} {x : Word} {w k : Nat} (h : outside a x ((k + 1) * w)) :
    outside a x w ∧ outside a (x + BitVec.ofNat 32 w) (k * w) := by
  rw [Nat.succ_mul] at h
  refine ⟨fun i hi => h i (by omega), fun i hi => ?_⟩
  rw [add_ofNat_add]
  exact h (w + i) (by omega)

/-- Byte `i` of the little-endian value of `n` bytes. -/
theorem readLE_byte (m : Memory) (n : Nat) (addr : Word) (i : Nat) (hi : i < n) :
    BitVec.ofNat 8 (readLE m n addr / 256 ^ i) = m.read (addr + BitVec.ofNat 32 i).toNat := by
  induction n generalizing addr i with
  | zero => omega
  | succ n ih =>
    unfold readLE
    cases i with
    | zero =>
      apply BitVec.eq_of_toNat_eq
      have := (m.read addr.toNat).isLt
      simp only [pow_zero, Nat.div_one, BitVec.toNat_ofNat, BitVec.add_zero]
      omega
    | succ i =>
      have hb := (m.read addr.toNat).isLt
      rw [Nat.pow_succ, Nat.mul_comm (256 ^ i) 256, ← Nat.div_div_eq_div_mul,
        show ((m.read addr.toNat).toNat + 256 * readLE m n (addr + 1)) / 256 = readLE m n (addr + 1) by omega,
        ih (addr + 1) i (by omega)]
      congr 2
      show addr + BitVec.ofNat 32 1 + BitVec.ofNat 32 i = _
      rw [add_ofNat_add, Nat.add_comm]

/-- A unit moved: its bytes at the destination are its bytes at the source. -/
theorem read_moved {m : Memory} (hm : m.wf memBytes = true) (s d : Word) {w i : Nat} (hw : w ≤ 2 ^ 32) (hi : i < w) :
    (writeLE w m d (readLE m w s)).read (d + BitVec.ofNat 32 i).toNat =
      m.read (s + BitVec.ofNat 32 i).toNat := by
  rw [read_writeLE_same w hw m hm d _ i hi, readLE_byte m w s i hi]

/-! ### Copies -/

theorem copyUnits_completes {w k : Nat} {s d : Word} (m : Memory) (hs : clearOf s (k * w)) (hd : clearOf d (k * w)) :
    ∃ m', copyUnits w k s d m = .ok m' := by
  induction k generalizing s d m with
  | zero => exact ⟨m, rfl⟩
  | succ k ih =>
    obtain ⟨s1, s2⟩ := clearOf_next hs
    obtain ⟨d1, d2⟩ := clearOf_next hd
    obtain ⟨m', h⟩ := ih (writeLE w m d (readLE m w s)) s2 d2
    refine ⟨m', ?_⟩
    simp only [copyUnits, bind_eq_ok]
    exact ⟨_, memRead_eq_ok.mpr ⟨(engineOk_iff _ _).mpr s1, rfl⟩, _,
      memWrite_eq_ok.mpr ⟨(engineOk_iff _ _).mpr d1, rfl⟩, h⟩

theorem copyUnits_succ {w k : Nat} {s d : Word} {m m' : Memory} (h : copyUnits w (k + 1) s d m = .ok m') :
    copyUnits w k (s + BitVec.ofNat 32 w) (d + BitVec.ofNat 32 w) (writeLE w m d (readLE m w s)) = .ok m' := by
  simp only [copyUnits, bind_eq_ok] at h
  obtain ⟨v, hv, m1, h1, h2⟩ := h
  obtain ⟨-, rfl⟩ := memRead_eq_ok.mp hv
  obtain ⟨-, rfl⟩ := memWrite_eq_ok.mp h1
  exact h2

theorem copyUnits_frame {w k : Nat} {s d : Word} {m m' : Memory} (h : copyUnits w k s d m = .ok m') :
    (m.wf memBytes = true → m'.wf memBytes = true) ∧ ∀ a, outside a d (k * w) → m'.read a = m.read a := by
  induction k generalizing s d m with
  | zero =>
    obtain rfl := Except.ok.inj h
    exact ⟨id, fun _ _ => rfl⟩
  | succ k ih =>
    obtain ⟨h1, h2⟩ := ih (copyUnits_succ h)
    refine ⟨fun hm => h1 (writeLE_wf _ _ _ _ hm), fun a ha => ?_⟩
    obtain ⟨a1, a2⟩ := outside_next ha
    rw [h2 a a2, read_writeLE_other w m d _ a a1]

/-- The first unit of a copy or fill keeps what was written to it. -/
theorem first_outside_rest {d : Word} {w k i : Nat} (hk : (k + 1) * w ≤ 2 ^ 32) (hi : i < w) :
    outside (d + BitVec.ofNat 32 i).toNat (d + BitVec.ofNat 32 w) (k * w) := by
  rw [Nat.succ_mul] at hk
  intro j hj
  rw [add_ofNat_add]
  exact add_ofNat_ne (by omega) (by omega) (by omega)

/-- A copy between ranges that share no byte. -/
theorem copyUnits_copies {w k : Nat} {s d : Word} {m m' : Memory} (hm : m.wf memBytes = true)
    (hk : k * w ≤ 2 ^ 32) (ha : apart s (k * w) d (k * w)) (h : copyUnits w k s d m = .ok m') (n : Nat)
    (hn : n < k * w) : m'.read (d + BitVec.ofNat 32 n).toNat = m.read (s + BitVec.ofNat 32 n).toNat := by
  induction k generalizing s d m n with
  | zero => omega
  | succ k ih =>
    have h' := copyUnits_succ h
    have hk' := hk
    rw [Nat.succ_mul] at hk' hn ha
    by_cases hlt : n < w
    · rw [(copyUnits_frame h').2 _ (first_outside_rest hk hlt), read_moved hm s d (by omega) hlt]
    · have := ih (s := s + BitVec.ofNat 32 w) (d := d + BitVec.ofNat 32 w) (writeLE_wf _ _ _ _ hm) (by omega) (by
          intro i j hi hj
          rw [add_ofNat_add, add_ofNat_add]
          exact ha _ _ (by omega) (by omega)) h' (n - w) (by omega)
      rw [add_ofNat_add, add_ofNat_add, show w + (n - w) = n by omega] at this
      rw [this, read_writeLE_other w m d _ _ fun i hi => ?_]
      exact apart_toNat ha hn (by omega)

/-- A copy to one unit above its source replicates the first unit. -/
theorem copyUnits_replicates {w k : Nat} {s d : Word} {m m' : Memory} (hm : m.wf memBytes = true)
    (hk : k * w ≤ 2 ^ 32) (hd : d = s + BitVec.ofNat 32 w) (h : copyUnits w k s d m = .ok m') (j i : Nat)
    (hj : j < k) (hi : i < w) :
    m'.read (d + BitVec.ofNat 32 (j * w + i)).toNat = m.read (s + BitVec.ofNat 32 i).toNat := by
  induction k generalizing s d m j with
  | zero => omega
  | succ k ih =>
    have h' := copyUnits_succ h
    have hk' := hk
    rw [Nat.succ_mul] at hk'
    cases j with
    | zero =>
      rw [Nat.zero_mul, Nat.zero_add, (copyUnits_frame h').2 _ (first_outside_rest hk hi),
        read_moved hm s d (by omega) hi]
    | succ j =>
      have := ih (s := s + BitVec.ofNat 32 w) (d := d + BitVec.ofNat 32 w) (writeLE_wf _ _ _ _ hm) (by omega)
        (by rw [hd]) h' j (by omega)
      rw [add_ofNat_add] at this
      rw [show (j + 1) * w + i = w + (j * w + i) by ring, this, ← hd, read_moved hm s d (by omega) hi]

/-! ### Fills -/

theorem fillUnits_completes {w v k : Nat} {d : Word} (m : Memory) (hd : clearOf d (k * w)) :
    ∃ m', fillUnits w v k d m = .ok m' := by
  induction k generalizing d m with
  | zero => exact ⟨m, rfl⟩
  | succ k ih =>
    obtain ⟨d1, d2⟩ := clearOf_next hd
    obtain ⟨m', h⟩ := ih (writeLE w m d v) d2
    refine ⟨m', ?_⟩
    simp only [fillUnits, bind_eq_ok]
    exact ⟨_, memWrite_eq_ok.mpr ⟨(engineOk_iff _ _).mpr d1, rfl⟩, h⟩

theorem fillUnits_succ {w v k : Nat} {d : Word} {m m' : Memory} (h : fillUnits w v (k + 1) d m = .ok m') :
    fillUnits w v k (d + BitVec.ofNat 32 w) (writeLE w m d v) = .ok m' := by
  simp only [fillUnits, bind_eq_ok] at h
  obtain ⟨m1, h1, h2⟩ := h
  obtain ⟨-, rfl⟩ := memWrite_eq_ok.mp h1
  exact h2

theorem fillUnits_frame {w v k : Nat} {d : Word} {m m' : Memory} (h : fillUnits w v k d m = .ok m') :
    (m.wf memBytes = true → m'.wf memBytes = true) ∧ ∀ a, outside a d (k * w) → m'.read a = m.read a := by
  induction k generalizing d m with
  | zero =>
    obtain rfl := Except.ok.inj h
    exact ⟨id, fun _ _ => rfl⟩
  | succ k ih =>
    obtain ⟨h1, h2⟩ := ih (fillUnits_succ h)
    refine ⟨fun hm => h1 (writeLE_wf _ _ _ _ hm), fun a ha => ?_⟩
    obtain ⟨a1, a2⟩ := outside_next ha
    rw [h2 a a2, read_writeLE_other w m d _ a a1]

/-- Every unit of a fill holds the value. -/
theorem fillUnits_fills {w v k : Nat} {d : Word} {m m' : Memory} (hm : m.wf memBytes = true)
    (hk : k * w ≤ 2 ^ 32) (h : fillUnits w v k d m = .ok m') (j i : Nat) (hj : j < k) (hi : i < w) :
    m'.read (d + BitVec.ofNat 32 (j * w + i)).toNat = BitVec.ofNat 8 (v / 256 ^ i) := by
  induction k generalizing d m j with
  | zero => omega
  | succ k ih =>
    have h' := fillUnits_succ h
    have hk' := hk
    rw [Nat.succ_mul] at hk'
    cases j with
    | zero =>
      rw [Nat.zero_mul, Nat.zero_add, (fillUnits_frame h').2 _ (first_outside_rest hk hi),
        read_writeLE_same w (by omega) m hm d v i hi]
    | succ j =>
      have := ih (d := d + BitVec.ofNat 32 w) (writeLE_wf _ _ _ _ hm) (by omega) h' j (by omega)
      rw [add_ofNat_add] at this
      rw [show (j + 1) * w + i = w + (j * w + i) by ring, this]

/-! ### Block copy and fill -/

/-- What a block copy or fill can change, whatever its form. -/
theorem blockSet_frame {fill : Bool} {count w : Nat} {src dst : Word} {m m' : Memory}
    (h : blockSet fill count w src dst m = .ok m') :
    (m.wf memBytes = true → m'.wf memBytes = true) ∧
      ∀ a, outside a (alignDown dst w) (count * w) → m'.read a = m.read a := by
  unfold blockSet at h
  dsimp only at h
  split at h
  · split at h
    · simp only [bind_eq_ok] at h
      obtain ⟨v, -, h⟩ := h
      exact fillUnits_frame h
    · obtain rfl := Except.ok.inj h
      exact ⟨id, fun _ _ => rfl⟩
  · exact copyUnits_frame h

/-- A copy or fill of no units touches nothing. -/
theorem blockSet_zero (fill : Bool) (w : Nat) (src dst : Word) (m : Memory) :
    blockSet fill 0 w src dst m = .ok m := by
  unfold blockSet
  cases fill <;> rfl

theorem memoryCall_eq_ok {s s' : State} {r : Except Refusal Memory} {v : Word} :
    memoryCall s r = .ok (v, s') ↔ ∃ m, r = .ok m ∧ v = 0 ∧ s' = { s with mem := m } := by
  cases r with
  | error e => simp [memoryCall]
  | ok m =>
    simp only [memoryCall, Except.ok.injEq, Prod.mk.injEq, exists_eq_left', eq_comm]

/-- A firmware call that changes MEM alone, where it answers. -/
theorem standalone_memoryCall {s t : State} {r : Except Refusal Memory} :
    standalone s (memoryCall (beginCommand s) r) = .next t ↔
      portFree s = true ∧ ∃ m, r = .ok m ∧ t = { s with busy := false, mem := m, port := { s.port with res := 0 } } := by
  rw [standalone_eq_next]
  constructor
  · rintro ⟨hp, v, s', h, rfl⟩
    obtain ⟨m, hr, rfl, rfl⟩ := memoryCall_eq_ok.mp h
    exact ⟨hp, m, hr, rfl⟩
  · rintro ⟨hp, m, hr, rfl⟩
    exact ⟨hp, 0, _, memoryCall_eq_ok.mpr ⟨m, hr, rfl, rfl⟩, rfl⟩

/-! ### The data header -/

theorem readHeader_eq_ok {m : Memory} {src : Word} {h : Nat} :
    readHeader m src = .ok h ↔ clearOf src 4 ∧ h = readLE m 4 src := by
  unfold readHeader
  rw [memRead_eq_ok, engineOk_iff]

theorem readLE_four (m : Memory) (src : Word) :
    readLE m 4 src = (m.read src.toNat).toNat + 256 * declaredSize m src := by
  have e1 : src + 1 + 1 = src + 2 := by rw [BitVec.add_assoc]; rfl
  have e2 : src + 2 + 1 = src + 3 := by rw [BitVec.add_assoc]; rfl
  simp only [readLE, declaredSize, e1, e2]
  ring

theorem headerSize_eq (m : Memory) (src : Word) : headerSize (readLE m 4 src) = declaredSize m src := by
  have := (m.read src.toNat).isLt
  rw [readLE_four, headerSize]
  omega

theorem headerType_eq (m : Memory) (src : Word) : headerType (readLE m 4 src) = declaredType m src := by
  have := (m.read src.toNat).isLt
  rw [readLE_four, headerType, declaredType]
  omega

theorem declaredSize_lt (m : Memory) (src : Word) : declaredSize m src < 2 ^ 24 := by
  have := (m.read (src + 1).toNat).isLt
  have := (m.read (src + 2).toNat).isLt
  have := (m.read (src + 3).toNat).isLt
  unfold declaredSize
  omega

/-! ### Single bytes written out -/

theorem writeBytes_completes {bs : List Byte} {d : Word} (m : Memory) (hd : clearOf d bs.length) :
    ∃ m', writeBytes bs d m = .ok m' := by
  induction bs generalizing d m with
  | nil => exact ⟨m, rfl⟩
  | cons b bs ih =>
    rw [List.length_cons] at hd
    obtain ⟨m', h⟩ := ih (d := d + 1) (writeLE 1 m d b.toNat) (clearOf_sub (i := 1) hd (by omega))
    refine ⟨m', ?_⟩
    simp only [writeBytes, bind_eq_ok]
    exact ⟨_, memWrite_eq_ok.mpr ⟨(engineOk_iff _ _).mpr (clearOf_mono hd (by omega)), rfl⟩, h⟩

/-- The first byte of a range is in REGSET, or one of the others. -/
theorem not_clearOf_succ {x : Word} {k : Nat} (h : ¬ clearOf x (k + 1)) : engineOk 1 x = false ∨ ¬ clearOf (x + 1) k := by
  by_contra hc
  rw [not_or, not_not, Bool.not_eq_false] at hc
  refine h fun i hi => ?_
  cases i with
  | zero => exact (engineOk_iff 1 x).mp hc.1 0 (by omega)
  | succ i =>
    have := hc.2 i (by omega)
    rwa [show (x + 1 : Word) = x + BitVec.ofNat 32 1 from rfl, add_ofNat_add, Nat.add_comm] at this

theorem writeBytes_refused {bs : List Byte} {d : Word} (m : Memory) (hd : ¬ clearOf d bs.length) :
    writeBytes bs d m = .error .engineAccessToRegisters := by
  induction bs generalizing d m with
  | nil => exact absurd (fun i hi => absurd hi (Nat.not_lt_zero i)) hd
  | cons b bs ih =>
    rw [writeBytes, memWrite]
    cases he : engineOk 1 d with
    | false => rfl
    | true => exact ih _ ((not_clearOf_succ hd).resolve_left (by simp [he]))

theorem writeBytes_cons {b : Byte} {bs : List Byte} {d : Word} {m m' : Memory}
    (h : writeBytes (b :: bs) d m = .ok m') : writeBytes bs (d + 1) (m.write d.toNat b) = .ok m' := by
  simp only [writeBytes, bind_eq_ok] at h
  obtain ⟨m1, h1, h2⟩ := h
  obtain ⟨-, rfl⟩ := memWrite_eq_ok.mp h1
  simpa [writeLE] using h2

theorem writeBytes_frame {bs : List Byte} {d : Word} {m m' : Memory} (h : writeBytes bs d m = .ok m') :
    (m.wf memBytes = true → m'.wf memBytes = true) ∧ ∀ a, outside a d bs.length → m'.read a = m.read a := by
  induction bs generalizing d m with
  | nil =>
    obtain rfl := Except.ok.inj h
    exact ⟨id, fun _ _ => rfl⟩
  | cons b bs ih =>
    obtain ⟨h1, h2⟩ := ih (writeBytes_cons h)
    refine ⟨fun hm => h1 (Memory.write_wf _ hm d.isLt), fun a ha => ?_⟩
    rw [List.length_cons] at ha
    rw [h2 a fun i hi => by
      have := ha (i + 1) (by omega)
      rwa [show d + 1 + BitVec.ofNat 32 i = d + BitVec.ofNat 32 (i + 1) by
        rw [show (d + 1 : Word) = d + BitVec.ofNat 32 1 from rfl, add_ofNat_add, Nat.add_comm]]]
    have h0 := ha 0 (by omega)
    rw [show d + BitVec.ofNat 32 0 = d by simp] at h0
    exact Memory.read_write_other m b (Ne.symm h0)

theorem writeBytes_read {bs : List Byte} {d : Word} {m m' : Memory} (hm : m.wf memBytes = true)
    (hl : bs.length ≤ 2 ^ 32) (h : writeBytes bs d m = .ok m') (i : Nat) (hi : i < bs.length) :
    m'.read (d + BitVec.ofNat 32 i).toNat = bs[i] := by
  induction bs generalizing d m i with
  | nil => simp at hi
  | cons b bs ih =>
    have h' := writeBytes_cons h
    rw [List.length_cons] at hl hi
    have e : ∀ j, d + 1 + BitVec.ofNat 32 j = d + BitVec.ofNat 32 (j + 1) := fun j => by
      rw [show (d + 1 : Word) = d + BitVec.ofNat 32 1 from rfl, add_ofNat_add, Nat.add_comm]
    cases i with
    | zero =>
      rw [(writeBytes_frame h').2 _ fun j hj => by
        rw [e]
        exact add_ofNat_ne (by omega) (by omega) (by omega)]
      rw [show d + BitVec.ofNat 32 0 = d by simp, Memory.read_write hm]
      simp
    | succ i =>
      have := ih (Memory.write_wf _ hm d.isLt) (by omega) h' i (by omega)
      rw [e] at this
      simpa using this

/-! ### LZ77 -/

theorem copyBack_length (dist k : Nat) (out : List Byte) : (copyBack dist k out).length = out.length + k := by
  induction k generalizing out with
  | zero => rfl
  | succ k ih =>
    rw [copyBack, ih, List.length_append, List.length_singleton]
    omega

/-- A token that goes on produces at least one byte, within the declared size, from at most two. -/
theorem lzToken_some {m : Memory} {size : Nat} {br : Bool} {p p' : Word} {out out' : List Byte}
    (h : lzToken m size br p out = .ok (some (p', out'))) (hl : out.length < size) :
    out.length < out'.length ∧ out'.length ≤ size ∧ ∃ n, n ≤ 2 ∧ p' = p + BitVec.ofNat 32 n := by
  unfold lzToken at h
  split at h
  · simp only [bind_eq_ok] at h
    obtain ⟨b0, -, b1, -, h⟩ := h
    split at h
    · simp at h
    · simp only [pure_eq_ok, Except.ok.injEq, Option.some.injEq, Prod.mk.injEq] at h
      obtain ⟨rfl, rfl⟩ := h
      have hb : 3 ≤ backrefLength b0 := Nat.le_add_left 3 _
      rw [copyBack_length]
      exact ⟨by omega, by omega, 2, le_rfl, rfl⟩
  · simp only [bind_eq_ok] at h
    obtain ⟨b, -, h⟩ := h
    simp only [pure_eq_ok, Except.ok.injEq, Option.some.injEq, Prod.mk.injEq] at h
    obtain ⟨rfl, rfl⟩ := h
    rw [List.length_append, List.length_singleton]
    exact ⟨by omega, by omega, 1, by omega, rfl⟩

/-- A token whose two bytes are readable is read. -/
theorem lzToken_reads {m : Memory} {size : Nat} {br : Bool} {p : Word} {out : List Byte} (hp : clearOf p 2) :
    ∃ r, lzToken m size br p out = .ok r := by
  have h0 : engineOk 1 p = true := (engineOk_iff 1 p).mpr (clearOf_mono hp (by omega))
  have h1 : engineOk 1 (p + 1) = true := (engineOk_iff 1 _).mpr (clearOf_sub (i := 1) hp (by omega))
  unfold lzToken
  split
  · simp only [memRead, h0, h1, if_true, ok_bind]
    split <;> exact ⟨_, rfl⟩
  · simp only [memRead, h0, if_true, ok_bind]
    exact ⟨_, rfl⟩

/-- A decode that ends without an abort has produced the declared size. -/
theorem lzTokens_length {m : Memory} {size fuel k : Nat} {ctrl : Byte} {p : Word} {out out' : List Byte}
    (h : lzTokens m size fuel ctrl k p out = .ok (.done out')) (hl : out.length ≤ size)
    (hf : size - out.length ≤ fuel) : out'.length = size := by
  induction fuel generalizing ctrl k p out with
  | zero =>
    simp only [lzTokens, Except.ok.injEq, LzEnd.done.injEq] at h
    subst h
    omega
  | succ fuel ih =>
    unfold lzTokens at h
    split at h
    · simp only [Except.ok.injEq, LzEnd.done.injEq] at h
      subst h
      omega
    · rename_i hlt
      simp only [bind_eq_ok] at h
      obtain ⟨c, -, r, hr, h⟩ := h
      match r, hr, h with
      | none, _, h => simp at h
      | some (p2, out2), hr, h =>
        obtain ⟨h1, h2, -⟩ := lzToken_some hr (by omega)
        exact ih h h2 (by omega)

/-- The token loop ends, in the whole output or in an abort, where the bytes it can read are readable: at most
three for each byte still to be produced. -/
theorem lzTokens_completes {m : Memory} {size fuel k : Nat} {ctrl : Byte} {p : Word} {out : List Byte}
    (hp : clearOf p (3 * (size - out.length))) : ∃ r, lzTokens m size fuel ctrl k p out = .ok r := by
  induction fuel generalizing ctrl k p out with
  | zero => exact ⟨_, rfl⟩
  | succ fuel ih =>
    unfold lzTokens
    split
    · exact ⟨_, rfl⟩
    · rename_i hlt
      obtain ⟨c, j, hj, hc, hcp⟩ : ∃ c j, j ≤ 1 ∧ lzControl m ctrl k p = .ok c ∧ c.2.2 = p + BitVec.ofNat 32 j := by
        unfold lzControl
        cases k with
        | zero =>
          have h0 : engineOk 1 p = true := (engineOk_iff 1 p).mpr (clearOf_mono hp (by omega))
          simp only [memRead, h0, if_true, ok_bind]
          exact ⟨_, 1, le_rfl, rfl, rfl⟩
        | succ k => exact ⟨_, 0, by omega, rfl, by simp⟩
      obtain ⟨r, hr⟩ := lzToken_reads (m := m) (size := size) (br := c.1.getLsbD c.2.1) (out := out)
        (clearOf_sub (i := j) (n := 2) hp (by omega))
      rw [hc, ok_bind, hcp, hr, ok_bind]
      match r, hr with
      | none, _ => exact ⟨_, rfl⟩
      | some (p2, out2), hr =>
        obtain ⟨h1, h2, n, hn, rfl⟩ := lzToken_some hr (by omega)
        refine ih ?_
        rw [add_ofNat_add]
        exact clearOf_sub hp (by omega)

/-- The bytes of a stream of literals, in order: one control byte before every eight. -/
theorem lzTokens_literals {m : Memory} {src : Word} {n : Nat}
    (hc : ∀ j, 8 * j < n → m.read (src + BitVec.ofNat 32 (4 + 9 * j)).toNat = 0)
    (hp : clearOf src (4 + n + (n + 7) / 8)) (fuel L : Nat) (hL : L ≤ n) (hf : n - L ≤ fuel) (ctrl : Byte)
    (k : Nat) (hk : k = (8 - L % 8) % 8) (h0 : k ≠ 0 → ctrl = 0) :
    lzTokens m n fuel ctrl k (src + BitVec.ofNat 32 (4 + L + (L + 7) / 8))
        ((List.range L).map fun i => m.read (src + BitVec.ofNat 32 (5 + i + i / 8)).toNat)
      = .ok (.done ((List.range n).map fun i => m.read (src + BitVec.ofNat 32 (5 + i + i / 8)).toNat)) := by
  induction fuel generalizing L ctrl k with
  | zero =>
    obtain rfl : L = n := by omega
    rfl
  | succ fuel ih =>
    unfold lzTokens
    rw [List.length_map, List.length_range]
    by_cases hlt : n ≤ L
    · obtain rfl : L = n := by omega
      rw [if_pos le_rfl]
    · rw [if_neg hlt]
      obtain ⟨k', hk', hc'⟩ : ∃ k', k' = (8 - (L + 1) % 8) % 8 ∧
          lzControl m ctrl k (src + BitVec.ofNat 32 (4 + L + (L + 7) / 8)) =
            .ok (0, k', src + BitVec.ofNat 32 (5 + L + L / 8)) := by
        unfold lzControl
        cases k with
        | zero =>
          have hr : engineOk 1 (src + BitVec.ofNat 32 (4 + L + (L + 7) / 8)) = true :=
            (engineOk_iff 1 _).mpr (clearOf_sub hp (by omega))
          have hcz := hc (L / 8) (by omega)
          rw [show 4 + 9 * (L / 8) = 4 + L + (L + 7) / 8 by omega] at hcz
          have hz : BitVec.ofNat 8 (readLE m 1 (src + BitVec.ofNat 32 (4 + L + (L + 7) / 8))) = 0 := by
            simp only [readLE, hcz]
            rfl
          refine ⟨7, by omega, ?_⟩
          simp only [memRead, hr, if_true, ok_bind, pure_eq_ok, hz]
          rw [show src + BitVec.ofNat 32 (4 + L + (L + 7) / 8) + 1 =
            src + BitVec.ofNat 32 (4 + L + (L + 7) / 8) + BitVec.ofNat 32 1 from rfl, add_ofNat_add,
            show 4 + L + (L + 7) / 8 + 1 = 5 + L + L / 8 by omega]
        | succ k =>
          obtain rfl := h0 (by omega)
          exact ⟨k, by omega, by rw [show 4 + L + (L + 7) / 8 = 5 + L + L / 8 by omega]⟩
      have next := ih (L + 1) (by omega) (by omega) 0 k' hk' (fun _ => rfl)
      have hr : engineOk 1 (src + BitVec.ofNat 32 (5 + L + L / 8)) = true :=
        (engineOk_iff 1 _).mpr (clearOf_sub hp (by omega))
      have hb : (0 : Byte).getLsbD k' = false := by simp
      rw [hc', ok_bind, hb, ← next]
      simp only [lzToken, Bool.false_eq_true, if_false, memRead, hr, if_true, ok_bind, pure_eq_ok]
      congr 1
      · rw [show src + BitVec.ofNat 32 (5 + L + L / 8) + 1 =
          src + BitVec.ofNat 32 (5 + L + L / 8) + BitVec.ofNat 32 1 from rfl, add_ofNat_add]
        congr 2
        omega
      · rw [List.range_succ, List.map_append]
        congr 1
        have := (m.read (src + BitVec.ofNat 32 (5 + L + L / 8)).toNat).isLt
        simp [readLE]

/-- A back-reference's copy: what was there stays, and each new byte is the one `dist` back, new bytes among them. -/
theorem copyBack_getD {dist k : Nat} {out : List Byte} (h1 : 1 ≤ dist) (h2 : dist ≤ out.length) (i : Nat) :
    (i < out.length → (copyBack dist k out).getD i 0 = out.getD i 0) ∧
    (out.length ≤ i → i < out.length + k →
      (copyBack dist k out).getD i 0 = (copyBack dist k out).getD (i - dist) 0) := by
  induction k generalizing out i with
  | zero => exact ⟨fun _ => rfl, fun h h' => by omega⟩
  | succ k ih =>
    have hl : (out ++ [out.getD (out.length - dist) 0]).length = out.length + 1 := by simp
    have old : ∀ j, j < out.length → (copyBack dist (k + 1) out).getD j 0 = out.getD j 0 := fun j hj => by
      rw [copyBack, (ih (by omega) j).1 (by omega), List.getD_append _ _ _ _ hj]
    refine ⟨old i, fun h h' => ?_⟩
    rcases Nat.eq_or_lt_of_le h with rfl | hlt
    · rw [old (out.length - dist) (by omega), copyBack, (ih (by omega) _).1 (by omega), List.getD_append_right _ _ _ _ le_rfl]
      simp
    · rw [copyBack]
      exact (ih (by omega) i).2 (by omega) (by omega)

/-- A control byte is read where none is in use. -/
theorem lzTokens_control {m : Memory} {size fuel : Nat} {ctrl : Byte} {p : Word} {out : List Byte}
    (hl : out.length < size) (hp : clearOf p 1) :
    lzTokens m size (fuel + 1) ctrl 0 p out = lzTokens m size (fuel + 1) (m.read p.toNat) 8 (p + 1) out := by
  rw [lzTokens, lzTokens, if_neg (by omega), if_neg (by omega)]
  have h : BitVec.ofNat 8 (readLE m 1 p) = m.read p.toNat := by simp [readLE]
  simp only [lzControl, memRead, (engineOk_iff _ _).mpr hp, if_true, ok_bind, pure_eq_ok, h]

/-- A literal. -/
theorem lzTokens_literal {m : Memory} {size fuel k : Nat} {ctrl : Byte} {p : Word} {out : List Byte}
    (hl : out.length < size) (hb : ctrl.getLsbD k = false) (hp : clearOf p 1) :
    lzTokens m size (fuel + 1) ctrl (k + 1) p out
      = lzTokens m size fuel ctrl k (p + 1) (out ++ [m.read p.toNat]) := by
  rw [lzTokens, if_neg (by omega)]
  have h : BitVec.ofNat 8 (readLE m 1 p) = m.read p.toNat := by simp [readLE]
  simp only [lzControl, lzToken, hb, Bool.false_eq_true, if_false, memRead, (engineOk_iff _ _).mpr hp, if_true, ok_bind,
    pure_eq_ok, h]

/-- The literals that open a control byte's tokens. -/
theorem lzTokens_open {m : Memory} {src : Word} {n fuel q : Nat} {ctrl : Byte} (hq : q ≤ 7) (hn : q ≤ n)
    (hb : ∀ i, 7 - q < i → i ≤ 7 → ctrl.getLsbD i = false) (hp : clearOf src (5 + q)) (hf : q ≤ fuel) :
    lzTokens m n fuel ctrl 8 (src + 5) [] = lzTokens m n (fuel - q) ctrl (8 - q) (src + BitVec.ofNat 32 (5 + q))
      ((List.range q).map fun i => m.read (src + BitVec.ofNat 32 (5 + i)).toNat) := by
  induction q with
  | zero => rfl
  | succ q ih =>
    rw [ih (by omega) (by omega) (fun i h h' => hb i (by omega) h') (clearOf_mono hp (by omega)) (by omega),
      show fuel - q = fuel - (q + 1) + 1 by omega, show 8 - q = 7 - q + 1 by omega,
      lzTokens_literal (by simpa using (show q < n by omega)) (hb _ (by omega) (by omega)) (clearOf_sub hp (by omega)),
      show 8 - (q + 1) = 7 - q by omega, List.range_succ, List.map_append,
      show src + BitVec.ofNat 32 (5 + q) + 1 = src + BitVec.ofNat 32 (5 + q) + BitVec.ofNat 32 1 from rfl, add_ofNat_add]
    rfl

/-- How a decode ends, given the declared size it may need. -/
theorem lzDecode_length {cap : Nat} {alloc : Bool} {m : Memory} {src : Word} {out : List Byte}
    (h : lzDecode cap alloc m src = .ok (.done out)) : out.length = declaredSize m src := by
  unfold lzDecode at h
  simp only [bind_eq_ok] at h
  obtain ⟨hd, hh, h⟩ := h
  obtain ⟨-, rfl⟩ := readHeader_eq_ok.mp hh
  rw [headerSize_eq] at h
  split at h
  · simp at h
  · split at h
    · simp at h
    · exact lzTokens_length h (by simp) (by simp)

/-- What an LZ77 call can do: log one code, or commit the declared number of bytes. -/
theorem lzCall_ok {src dst : Word} {s t : State} (h : lzCall src dst s = .ok t) :
    (∃ code, t = emit (.log code) s) ∨
    (∃ out m, out.length = declaredSize s.mem src ∧ writeBytes out dst s.mem = .ok m ∧ t = { s with mem := m }) := by
  unfold lzCall at h
  simp only [bind_eq_ok] at h
  obtain ⟨r, hr, h⟩ := h
  match r, hr, h with
  | .abort code, _, h => exact .inl ⟨code, (Except.ok.inj h).symm⟩
  | .done out, hr, h =>
    simp only [bind_eq_ok] at h
    obtain ⟨m, hm, h⟩ := h
    exact .inr ⟨out, m, lzDecode_length hr, hm, (Except.ok.inj h).symm⟩

/-- LZ77 as a command. -/
theorem execLz77_eq_next {src dst : Word} {s t : State} :
    execLz77 src dst s = .next t ↔
      portFree s = true ∧ ∃ s', lzCall src dst (beginCommand s) = .ok s' ∧ t = endCommand 0 s' := by
  unfold execLz77
  rw [standalone_eq_next]
  cases h : lzCall src dst (beginCommand s) with
  | error e => simp
  | ok s' =>
    simp only [Except.ok.injEq, Prod.mk.injEq]
    constructor
    · rintro ⟨hp, r, s1, ⟨rfl, rfl⟩, rfl⟩
      exact ⟨hp, _, rfl, rfl⟩
    · rintro ⟨hp, s1, rfl, rfl⟩
      exact ⟨hp, 0, _, ⟨rfl, rfl⟩, rfl⟩

/-! ### Delta unfilters -/

theorem unfilter_completes {w k acc : Nat} {s d : Word} (m : Memory) (hs : clearOf s (k * w))
    (hd : clearOf d (k * w)) : ∃ m', unfilter w k acc s d m = .ok m' := by
  induction k generalizing acc s d m with
  | zero => exact ⟨m, rfl⟩
  | succ k ih =>
    obtain ⟨s1, s2⟩ := clearOf_next hs
    obtain ⟨d1, d2⟩ := clearOf_next hd
    obtain ⟨m', h⟩ := ih (acc := (acc + readLE m w s) % 256 ^ w)
      (writeLE w m d ((acc + readLE m w s) % 256 ^ w)) s2 d2
    refine ⟨m', ?_⟩
    simp only [unfilter, bind_eq_ok]
    exact ⟨_, memRead_eq_ok.mpr ⟨(engineOk_iff _ _).mpr s1, rfl⟩, _,
      memWrite_eq_ok.mpr ⟨(engineOk_iff _ _).mpr d1, rfl⟩, h⟩

theorem unfilter_succ {w k acc : Nat} {s d : Word} {m m' : Memory} (h : unfilter w (k + 1) acc s d m = .ok m') :
    unfilter w k ((acc + readLE m w s) % 256 ^ w) (s + BitVec.ofNat 32 w) (d + BitVec.ofNat 32 w)
      (writeLE w m d ((acc + readLE m w s) % 256 ^ w)) = .ok m' := by
  simp only [unfilter, bind_eq_ok] at h
  obtain ⟨v, hv, m1, h1, h2⟩ := h
  obtain ⟨-, rfl⟩ := memRead_eq_ok.mp hv
  obtain ⟨-, rfl⟩ := memWrite_eq_ok.mp h1
  exact h2

theorem unfilter_frame {w k acc : Nat} {s d : Word} {m m' : Memory} (h : unfilter w k acc s d m = .ok m') :
    (m.wf memBytes = true → m'.wf memBytes = true) ∧ ∀ a, outside a d (k * w) → m'.read a = m.read a := by
  induction k generalizing acc s d m with
  | zero =>
    obtain rfl := Except.ok.inj h
    exact ⟨id, fun _ _ => rfl⟩
  | succ k ih =>
    obtain ⟨h1, h2⟩ := ih (unfilter_succ h)
    refine ⟨fun hm => h1 (writeLE_wf _ _ _ _ hm), fun a ha => ?_⟩
    obtain ⟨a1, a2⟩ := outside_next ha
    rw [h2 a a2, read_writeLE_other w m d _ a a1]

/-- Byte `i` of an element is that of the sum before its reduction. -/
theorem byte_of_mod {w i : Nat} (v : Nat) (hi : i < w) :
    BitVec.ofNat 8 (v % 256 ^ w / 256 ^ i) = BitVec.ofNat 8 (v / 256 ^ i) := by
  apply BitVec.eq_of_toNat_eq
  rw [BitVec.toNat_ofNat, BitVec.toNat_ofNat]
  obtain ⟨j, rfl⟩ : ∃ j, w = i + (j + 1) := ⟨w - i - 1, by omega⟩
  rw [pow_add, Nat.mod_mul_right_div_self, pow_succ, Nat.mul_comm]
  exact Nat.mod_mul_right_mod _ 256 _

/-- The outputs of an unfilter are the running sums of its inputs, where it writes over none of them. -/
theorem unfilter_sums {w k acc : Nat} {s d : Word} {m m' : Memory} (hm : m.wf memBytes = true)
    (hk : k * w ≤ 2 ^ 32) (ha : apart s (k * w) d (k * w)) (h : unfilter w k acc s d m = .ok m') (j i : Nat)
    (hj : j < k) (hi : i < w) :
    m'.read (d + BitVec.ofNat 32 (j * w + i)).toNat =
      BitVec.ofNat 8 ((acc + ∑ l ∈ Finset.range (j + 1), readLE m w (s + BitVec.ofNat 32 (l * w))) / 256 ^ i) := by
  induction k generalizing acc s d m j with
  | zero => omega
  | succ k ih =>
    have h' := unfilter_succ h
    have hk' := hk
    rw [Nat.succ_mul] at hk' ha
    cases j with
    | zero =>
      rw [Nat.zero_mul, Nat.zero_add, (unfilter_frame h').2 _ (first_outside_rest hk hi),
        read_writeLE_same w (by omega) m hm d _ i hi, byte_of_mod _ hi]
      simp
    | succ j =>
      have := ih (s := s + BitVec.ofNat 32 w) (d := d + BitVec.ofNat 32 w) (writeLE_wf _ _ _ _ hm) (by omega) (by
          intro i j hi hj
          rw [add_ofNat_add, add_ofNat_add]
          exact ha _ _ (by omega) (by omega)) h' j (by omega)
      rw [add_ofNat_add] at this
      have he : ∀ l ∈ Finset.range (j + 1),
          readLE (writeLE w m d ((acc + readLE m w s) % 256 ^ w)) w
            (s + BitVec.ofNat 32 w + BitVec.ofNat 32 (l * w)) =
          readLE m w (s + BitVec.ofNat 32 ((l + 1) * w)) := by
        intro l hl
        have hl' : l + 1 ≤ k := by have := Finset.mem_range.mp hl; omega
        have hlw : (l + 1) * w ≤ k * w := Nat.mul_le_mul_right w hl'
        rw [add_ofNat_add, show w + l * w = (l + 1) * w by ring]
        refine readLE_congr _ _ _ _ fun i hi => ?_
        rw [add_ofNat_add]
        refine read_writeLE_other w m d _ _ fun i' hi' => ?_
        exact apart_toNat ha (by omega) (by omega)
      rw [Finset.sum_congr rfl he] at this
      rw [show (j + 1) * w + i = w + (j * w + i) by ring, this, Finset.sum_range_succ' _ (j + 1)]
      simp only [Nat.zero_mul]
      rw [show s + BitVec.ofNat 32 0 = s by simp]
      rw [← byte_of_mod _ hi, ← byte_of_mod (acc + _) hi, Nat.mod_add_mod]
      congr 3
      ring

/-! ### Accesses to the register window (spec/20_memory.md R56) -/

/-- The first unit of a range meets REGSET, or the rest of it does. -/
theorem not_clearOf_next {x : Word} {w k : Nat} (h : ¬ clearOf x ((k + 1) * w)) :
    engineOk w x = false ∨ ¬ clearOf (x + BitVec.ofNat 32 w) (k * w) := by
  by_contra hc
  rw [not_or, not_not, Bool.not_eq_false, engineOk_iff] at hc
  refine h fun i hi => ?_
  rw [Nat.succ_mul] at hi
  by_cases hw : i < w
  · exact hc.1 i hw
  · have := hc.2 (i - w) (by omega)
    rwa [add_ofNat_add, show w + (i - w) = i by omega] at this

theorem not_clearOf_zero {x : Word} {w : Nat} (h : ¬ clearOf x (0 * w)) : False := by
  rw [Nat.zero_mul] at h
  exact h fun i hi => absurd hi (Nat.not_lt_zero i)

theorem copyUnits_refused {w k : Nat} {s d : Word} (m : Memory) (h : ¬ (clearOf s (k * w) ∧ clearOf d (k * w))) :
    copyUnits w k s d m = .error .engineAccessToRegisters := by
  induction k generalizing s d m with
  | zero => exact absurd ⟨not_not.mp not_clearOf_zero, not_not.mp not_clearOf_zero⟩ h
  | succ k ih =>
    rw [copyUnits]
    cases hs : engineOk w s with
    | false => rw [memRead_refused hs, error_bind]
    | true =>
      rw [memRead_ok hs, ok_bind]
      cases hd : engineOk w d with
      | false => rw [memWrite_refused hd, error_bind]
      | true =>
        rw [memWrite_ok hd, ok_bind]
        refine ih _ fun hc => ?_
        rcases not_and_or.mp h with h | h
        · exact (not_clearOf_next h).elim (by simp [hs]) (fun hn => hn hc.1)
        · exact (not_clearOf_next h).elim (by simp [hd]) (fun hn => hn hc.2)

theorem fillUnits_refused {w v k : Nat} {d : Word} (m : Memory) (h : ¬ clearOf d (k * w)) :
    fillUnits w v k d m = .error .engineAccessToRegisters := by
  induction k generalizing d m with
  | zero => exact absurd (not_not.mp not_clearOf_zero) h
  | succ k ih =>
    rw [fillUnits]
    cases hd : engineOk w d with
    | false => rw [memWrite_refused hd, error_bind]
    | true =>
      rw [memWrite_ok hd, ok_bind]
      exact ih _ ((not_clearOf_next h).resolve_left (by simp [hd]))

theorem unfilter_refused {w k acc : Nat} {s d : Word} (m : Memory) (h : ¬ (clearOf s (k * w) ∧ clearOf d (k * w))) :
    unfilter w k acc s d m = .error .engineAccessToRegisters := by
  induction k generalizing acc s d m with
  | zero => exact absurd ⟨not_not.mp not_clearOf_zero, not_not.mp not_clearOf_zero⟩ h
  | succ k ih =>
    rw [unfilter]
    cases hs : engineOk w s with
    | false => rw [memRead_refused hs, error_bind]
    | true =>
      rw [memRead_ok hs, ok_bind]
      cases hd : engineOk w d with
      | false => dsimp only; rw [memWrite_refused hd, error_bind]
      | true =>
        dsimp only
        rw [memWrite_ok hd, ok_bind]
        refine ih _ fun hc => ?_
        rcases not_and_or.mp h with h | h
        · exact (not_clearOf_next h).elim (by simp [hs]) (fun hn => hn hc.1)
        · exact (not_clearOf_next h).elim (by simp [hd]) (fun hn => hn hc.2)

/-- A block copy or fill that reads or writes a byte of REGSET; a fill reads one unit, if any. -/
theorem blockSet_refused {fill : Bool} {count w : Nat} {src dst : Word} (m : Memory)
    (h : ¬ (clearOf (alignDown src w) ((if fill then min 1 count else count) * w) ∧
      clearOf (alignDown dst w) (count * w))) :
    blockSet fill count w src dst m = .error .engineAccessToRegisters := by
  unfold blockSet
  cases fill with
  | false => exact copyUnits_refused m h
  | true =>
    simp only [if_true] at h ⊢
    split
    · rw [Nat.min_eq_left (by omega), Nat.one_mul] at h
      cases hs : engineOk w (alignDown src w) with
      | false => rw [memRead_refused hs, error_bind]
      | true =>
        rw [memRead_ok hs, ok_bind]
        exact fillUnits_refused m fun hc => h ⟨(engineOk_iff _ _).mp hs, hc⟩
    · obtain rfl : count = 0 := by omega
      exact absurd ⟨not_not.mp not_clearOf_zero, not_not.mp not_clearOf_zero⟩ h

theorem memoryCall_refused {s : State} {r : Except Refusal Memory} {e : Refusal} :
    memoryCall s r = .error e ↔ r = .error e := by
  cases r <;> simp [memoryCall]

theorem readHeader_refused {m : Memory} {src : Word} (h : ¬ clearOf src 4) :
    readHeader m src = .error .engineAccessToRegisters :=
  memRead_refused (by rw [← engineOk_iff] at h; simpa using h)

theorem clearOf_append {x : Word} {i n : Nat} (h : clearOf x i) (h' : clearOf (x + BitVec.ofNat 32 i) n) :
    clearOf x (i + n) := by
  intro j hj
  by_cases hi : j < i
  · exact h j hi
  · have := h' (j - i) (by omega)
    rwa [add_ofNat_add, show i + (j - i) = j by omega] at this

theorem unfilterCall_refused {w : Nat} {src dst : Word} {m : Memory}
    (h : ¬ (clearOf src (4 + declaredSize m src / w * w) ∧ clearOf dst (declaredSize m src / w * w))) :
    unfilterCall w src dst m = .error .engineAccessToRegisters := by
  unfold unfilterCall
  by_cases h4 : clearOf src 4
  · rw [readHeader_eq_ok.mpr ⟨h4, rfl⟩, ok_bind, headerSize_eq]
    exact unfilter_refused m fun hc => h ⟨clearOf_append h4 hc.1, hc.2⟩
  · rw [readHeader_refused h4, error_bind]

theorem onlyEngine_lzTokens (m : Memory) (size fuel : Nat) (ctrl : Byte) (k : Nat) (p : Word) (out : List Byte) :
    onlyEngine (lzTokens m size fuel ctrl k p out) := by
  induction fuel generalizing ctrl k p out with
  | zero => exact onlyEngine_ok _
  | succ fuel ih =>
    unfold lzTokens
    split
    · exact onlyEngine_ok _
    · refine onlyEngine_bind ?_ fun c => onlyEngine_bind ?_ fun r => ?_
      · cases k with
        | zero => exact onlyEngine_bind (onlyEngine_memRead _ _ _) fun _ => onlyEngine_ok _
        | succ k => exact onlyEngine_ok _
      · unfold lzToken
        split
        · refine onlyEngine_bind (onlyEngine_memRead _ _ _) fun _ => onlyEngine_bind (onlyEngine_memRead _ _ _) fun _ => ?_
          dsimp only
          split <;> exact onlyEngine_ok _
        · exact onlyEngine_bind (onlyEngine_memRead _ _ _) fun _ => onlyEngine_ok _
      · cases r with
        | none => exact onlyEngine_ok _
        | some x => exact ih _ _ _ _

theorem onlyEngine_writeBytes (bs : List Byte) (d : Word) (m : Memory) : onlyEngine (writeBytes bs d m) := by
  induction bs generalizing d m with
  | nil => exact onlyEngine_ok _
  | cons b bs ih => exact onlyEngine_bind (onlyEngine_memWrite _ _ _ _) fun _ => ih _ _

theorem onlyEngine_lzCall (src dst : Word) (s : State) : onlyEngine (lzCall src dst s) := by
  unfold lzCall lzDecode readHeader
  refine onlyEngine_bind (onlyEngine_bind (onlyEngine_memRead _ _ _) fun h => ?_) fun r => ?_
  · split
    · exact onlyEngine_ok _
    · split
      · exact onlyEngine_ok _
      · exact onlyEngine_lzTokens _ _ _ _ _ _ _
  · cases r with
    | abort code => exact onlyEngine_ok _
    | done out => exact onlyEngine_bind (onlyEngine_writeBytes _ _ _) fun _ => onlyEngine_ok _

/-- A literal that lies in REGSET. -/
theorem lzTokens_literal_refused {m : Memory} {size fuel k : Nat} {ctrl : Byte} {p : Word} {out : List Byte}
    (hl : out.length < size) (hb : ctrl.getLsbD k = false) (hp : ¬ clearOf p 1) :
    lzTokens m size (fuel + 1) ctrl (k + 1) p out = .error .engineAccessToRegisters := by
  rw [lzTokens, if_neg (by omega)]
  rw [← engineOk_iff, Bool.not_eq_true] at hp
  simp only [lzControl, lzToken, hb, Bool.false_eq_true, if_false, memRead_refused hp, ok_bind, error_bind]

theorem lzTokens_control_refused {m : Memory} {size fuel : Nat} {ctrl : Byte} {p : Word} {out : List Byte}
    (hl : out.length < size) (hp : ¬ clearOf p 1) :
    lzTokens m size (fuel + 1) ctrl 0 p out = .error .engineAccessToRegisters := by
  rw [lzTokens, if_neg (by omega)]
  rw [← engineOk_iff, Bool.not_eq_true] at hp
  simp only [lzControl, memRead_refused hp, error_bind]

/-- The literals that open a control byte's tokens, one of them in REGSET. -/
theorem lzTokens_open_refused {m : Memory} {src : Word} {n fuel q : Nat} {ctrl : Byte} (hq : q ≤ 7) (hn : q ≤ n)
    (hb : ∀ i, 7 - q < i → i ≤ 7 → ctrl.getLsbD i = false) (h5 : clearOf src 5) (hp : ¬ clearOf src (5 + q))
    (hf : q ≤ fuel) :
    lzTokens m n fuel ctrl 8 (src + 5) [] = .error .engineAccessToRegisters := by
  induction q with
  | zero => exact absurd h5 hp
  | succ q ih =>
    by_cases hc : clearOf src (5 + q)
    · rw [lzTokens_open (q := q) (by omega) (by omega) (fun i h h' => hb i (by omega) h') hc (by omega),
        show fuel - q = fuel - (q + 1) + 1 by omega, show 8 - q = 7 - q + 1 by omega]
      exact lzTokens_literal_refused (by simpa using (show q < n by omega)) (hb _ (by omega) (by omega))
        fun h => hp (clearOf_append (i := 5 + q) (n := 1) hc h)
    · exact ih (by omega) (by omega) (fun i h h' => hb i (by omega) h') hc (by omega)

/-- A stream of literals of which a byte lies in REGSET. -/
theorem lzTokens_literals_refused {m : Memory} {src : Word} {n : Nat}
    (hc : ∀ j, 8 * j < n → m.read (src + BitVec.ofNat 32 (4 + 9 * j)).toNat = 0) (fuel L : Nat) (out : List Byte)
    (hp : ¬ clearOf src (4 + n + (n + 7) / 8)) (hL : L ≤ n) (ho : out.length = L) (hr : clearOf src (4 + L + (L + 7) / 8))
    (hf : n - L ≤ fuel) (ctrl : Byte) (k : Nat) (hk : k = (8 - L % 8) % 8) (h0 : k ≠ 0 → ctrl = 0) :
    lzTokens m n fuel ctrl k (src + BitVec.ofNat 32 (4 + L + (L + 7) / 8)) out = .error .engineAccessToRegisters := by
  induction fuel generalizing L out ctrl k with
  | zero =>
    obtain rfl : L = n := by omega
    exact absurd hr hp
  | succ fuel ih =>
    have hlt : L < n := by
      rcases Nat.lt_or_eq_of_le hL with h | rfl
      · exact h
      · exact absurd hr hp
    have lit : ∀ (k' : Nat), k' = (8 - (L + 1) % 8) % 8 → clearOf src (5 + L + L / 8) →
        lzTokens m n (fuel + 1) 0 (k' + 1) (src + BitVec.ofNat 32 (5 + L + L / 8)) out =
          .error .engineAccessToRegisters := fun k' hk' hr' => by
      by_cases hx : clearOf (src + BitVec.ofNat 32 (5 + L + L / 8)) 1
      · have e : 5 + L + L / 8 + 1 = 4 + (L + 1) + (L + 1 + 7) / 8 := by omega
        rw [lzTokens_literal (by omega) (by simp) hx,
          show src + BitVec.ofNat 32 (5 + L + L / 8) + 1 = src + BitVec.ofNat 32 (5 + L + L / 8) + BitVec.ofNat 32 1 from rfl,
          add_ofNat_add, e]
        exact ih (L + 1) _ (by omega) (by simp [ho]) (by rw [← e]; exact clearOf_append hr' hx) (by omega) 0 k' hk' fun _ => rfl
      · exact lzTokens_literal_refused (by omega) (by simp) hx
    cases k with
    | zero =>
      by_cases hx : clearOf (src + BitVec.ofNat 32 (4 + L + (L + 7) / 8)) 1
      · have e : 4 + L + (L + 7) / 8 + 1 = 5 + L + L / 8 := by omega
        have hcz := hc (L / 8) (by omega)
        rw [show 4 + 9 * (L / 8) = 4 + L + (L + 7) / 8 by omega] at hcz
        rw [lzTokens_control (by omega) hx, hcz,
          show src + BitVec.ofNat 32 (4 + L + (L + 7) / 8) + 1 =
            src + BitVec.ofNat 32 (4 + L + (L + 7) / 8) + BitVec.ofNat 32 1 from rfl, add_ofNat_add, e]
        exact lit 7 (by omega) (by rw [← e]; exact clearOf_append hr hx)
      · exact lzTokens_control_refused (by omega) hx
    | succ k =>
      obtain rfl := h0 (by omega)
      rw [show 4 + L + (L + 7) / 8 = 5 + L + L / 8 by omega] at hr ⊢
      exact lit k (by omega) hr

end Sys2Proof.Machine
end

