-- ==== Sys2Proof/Laws/Storage.lean ====
section
/-! SUPPORT. Laws of the storage accessor: where a transfer between STORE and MEM completes, what it writes, what it
leaves alone, and what a storage command answers. -/

namespace Sys2Proof.Machine

theorem add_one_ofNat (x : Word) (i : Nat) : x + 1 + BitVec.ofNat 32 i = x + BitVec.ofNat 32 (i + 1) := by
  rw [show (x + 1 : Word) = x + BitVec.ofNat 32 1 from rfl, add_ofNat_add, Nat.add_comm]

/-! ### From STORE to MEM -/

/-- The `k` bytes of STORE from an offset. -/
def storeBytes (store : Memory) (off k : Nat) : List Byte := (List.range k).map fun i => store.read (off + i)

/-- A read of STORE into MEM is a write of those bytes, one after another. -/
theorem storeToMem_eq (store : Memory) (k off : Nat) (d : Word) (m : Memory) :
    storeToMem store k off d m = writeBytes (storeBytes store off k) d m := by
  induction k generalizing off d m with
  | zero => rfl
  | succ k ih =>
    rw [storeBytes, List.range_succ_eq_map, List.map_cons, List.map_map, storeToMem, writeBytes]
    congr 1
    funext m'
    rw [ih, storeBytes]
    congr 1
    refine List.map_congr_left fun i _ => ?_
    show store.read (off + 1 + i) = store.read (off + (i + 1))
    congr 1
    omega

theorem storeBytes_length (store : Memory) (off k : Nat) : (storeBytes store off k).length = k := by
  simp [storeBytes]

/-! ### From MEM to STORE -/

theorem memToStore_completes {m : Memory} {k off : Nat} {src : Word} (store : Memory) (hs : clearOf src k) :
    ∃ store', memToStore m k off src store = .ok store' := by
  induction k generalizing off src store with
  | zero => exact ⟨store, rfl⟩
  | succ k ih =>
    obtain ⟨st, h⟩ := ih (off := off + 1) (src := src + 1)
      (store.write off (BitVec.ofNat 8 (readLE m 1 src))) (clearOf_sub (i := 1) hs (by omega))
    refine ⟨st, ?_⟩
    simp only [memToStore, bind_eq_ok]
    exact ⟨_, memRead_eq_ok.mpr ⟨(engineOk_iff _ _).mpr (clearOf_mono hs (by omega)), rfl⟩, h⟩

theorem memToStore_refused {m : Memory} {k off : Nat} {src : Word} (store : Memory) (hs : ¬ clearOf src k) :
    memToStore m k off src store = .error .engineAccessToRegisters := by
  induction k generalizing off src store with
  | zero => exact absurd (fun i hi => absurd hi (Nat.not_lt_zero i)) hs
  | succ k ih =>
    rw [memToStore, memRead]
    cases he : engineOk 1 src with
    | false => rfl
    | true => exact ih _ ((not_clearOf_succ hs).resolve_left (by simp [he]))

theorem memToStore_succ {m : Memory} {k off : Nat} {src : Word} {store store' : Memory}
    (h : memToStore m (k + 1) off src store = .ok store') :
    memToStore m k (off + 1) (src + 1) (store.write off (m.read src.toNat)) = .ok store' := by
  simp only [memToStore, bind_eq_ok] at h
  obtain ⟨v, hv, h⟩ := h
  obtain ⟨-, rfl⟩ := memRead_eq_ok.mp hv
  simpa [readLE] using h

theorem memToStore_frame {m : Memory} {k off bound : Nat} {src : Word} {store store' : Memory}
    (h : memToStore m k off src store = .ok store') :
    (store.wf bound = true → off + k ≤ bound → store'.wf bound = true) ∧
      ∀ a, a < off ∨ off + k ≤ a → store'.read a = store.read a := by
  induction k generalizing off src store with
  | zero =>
    obtain rfl := Except.ok.inj h
    exact ⟨fun hw _ => hw, fun _ _ => rfl⟩
  | succ k ih =>
    obtain ⟨h1, h2⟩ := ih (memToStore_succ h)
    refine ⟨fun hw hb => h1 (Memory.write_wf _ hw (by omega)) (by omega), fun a ha => ?_⟩
    rw [h2 a (by omega)]
    exact Memory.read_write_other store _ (by omega)

theorem memToStore_stores {m : Memory} {k off bound : Nat} {src : Word} {store store' : Memory}
    (hw : store.wf bound = true) (hb : off + k ≤ bound) (h : memToStore m k off src store = .ok store') (i : Nat)
    (hi : i < k) : store'.read (off + i) = m.read (src + BitVec.ofNat 32 i).toNat := by
  induction k generalizing off src store i with
  | zero => omega
  | succ k ih =>
    have h' := memToStore_succ h
    cases i with
    | zero =>
      rw [(memToStore_frame (bound := bound) h').2 _ (by omega), Nat.add_zero, Memory.read_write hw]
      simp
    | succ i =>
      have := ih (Memory.write_wf _ hw (by omega)) (by omega) h' i (by omega)
      rw [add_one_ofNat] at this
      rwa [show off + (i + 1) = off + 1 + i by omega]

/-! ### The commands -/

/-- The check says ok exactly where the range is inside the region, on mathematical integers. -/
theorem storageCheck_ok {size len : Nat} {off : Int} :
    storageCheck size off len = .ok ↔ len ≤ size ∧ 0 ≤ off ∧ off + len ≤ (size : Int) := by
  unfold storageCheck
  split_ifs <;> simp <;> omega

/-- A request turned away completes with its code and changes nothing else. -/
theorem storageCall_rejected {b : State} {offset length : Word} {transfer : Nat → Except Refusal State}
    (hc : storageStatus offset length b ≠ .ok) :
    storageCall offset length b transfer = .ok ((storageStatus offset length b).code, b) := by
  rw [storageCall, if_neg hc]

theorem storageCall_ok {b : State} {offset length : Word} {transfer : Nat → Except Refusal State}
    (hc : storageStatus offset length b = .ok) {s' : State}
    (h : transfer (storageOffset offset).toNat = .ok s') :
    storageCall offset length b transfer = .ok (0, s') := by
  rw [storageCall, if_pos hc, h]
  rfl

/-- How a storage command that answers has ended. -/
theorem storageCall_eq_ok {b : State} {offset length : Word} {transfer : Nat → Except Refusal State} {r : Word}
    {s' : State} (h : storageCall offset length b transfer = .ok (r, s')) :
    r = (storageStatus offset length b).code ∧
      ((storageStatus offset length b ≠ .ok ∧ s' = b) ∨
       (storageStatus offset length b = .ok ∧ transfer (storageOffset offset).toNat = .ok s')) := by
  unfold storageCall at h
  split at h
  · rename_i hc
    cases ht : transfer (storageOffset offset).toNat with
    | error e => rw [ht] at h; simp at h
    | ok s1 =>
      rw [ht] at h
      simp only [Except.ok.injEq, Prod.mk.injEq] at h
      exact ⟨by rw [hc]; exact h.1.symm, .inr ⟨hc, by rw [h.2]⟩⟩
  · rename_i hc
    simp only [Except.ok.injEq, Prod.mk.injEq] at h
    exact ⟨h.1.symm, .inl ⟨hc, h.2.symm⟩⟩

/-- A non-negative offset word is its own value. -/
theorem offset_toNat {v : Word} (h : 0 ≤ v.toInt) : v.toInt = v.toNat ∧ (storageOffset v).toNat = v.toNat := by
  have := v.isLt
  unfold storageOffset
  rw [BitVec.toInt_eq_toNat_cond] at *
  split at h <;> simp_all <;> omega

end Sys2Proof.Machine
end

