-- ==== Sys2Proof/Laws/Timing.lean ====
section
/-! SUPPORT. Laws of the timing engine: everything one phase can do, and an induction over the phases and line
steps of a command. -/

namespace Sys2Proof.Machine

/-! ### One phase -/

/-- What a phase that goes on can have changed. -/
def phaseFrame (s t : State) : Prop :=
  t = { s with
    line := t.line
    ifReg := t.ifReg
    deadline := t.deadline
    dma := t.dma
    snd := t.snd
    mix := t.mix
    mixn := t.mixn
    keysnap := t.keysnap
    mem := t.mem
    trace := t.trace } ∧ s.trace <+: t.trace

theorem phaseFrame_refl (s : State) : phaseFrame s s := ⟨rfl, List.prefix_refl _⟩

theorem phaseFrame_trans {s t u : State} (h1 : phaseFrame s t) (h2 : phaseFrame t u) : phaseFrame s u := by
  refine ⟨?_, h1.2.trans h2.2⟩
  have e1 := h1.1
  have e2 := h2.1
  rw [e1] at e2
  rw [e2]

theorem raiseIrq_go {cmd : TimingCmd} {p : Phase} {src : Source} {s t : State}
    (h : raiseIrq cmd p src s = .go t) : t = s ∨ t = { s with ifReg := setFlag s.ifReg src } := by
  rcases raiseIrq_cases cmd p src s with ⟨-, e⟩ | ⟨-, -, e⟩ | ⟨ref, -, -, -, e⟩ <;> rw [e] at h
  · exact .inl (Flow.go.inj h).symm
  · exact .inr (Flow.go.inj h).symm
  · cases h

theorem raiseIrq_call {cmd : TimingCmd} {p : Phase} {src : Source} {s t : State}
    (h : raiseIrq cmd p src s = .call t) :
    ∃ ref, flagOf s.ie src = true ∧ s.ime = true ∧ s.vec[src] = some ref ∧
      t = invoke cmd p src ref { s with ifReg := setFlag s.ifReg src } := by
  rcases raiseIrq_cases cmd p src s with ⟨-, e⟩ | ⟨-, -, e⟩ | ⟨ref, h1, h2, h3, e⟩ <;> rw [e] at h
  · cases h
  · cases h
  · exact ⟨ref, h1, h2, h3, (Flow.call.inj h).symm⟩

theorem raiseIrq_ne_stop {cmd : TimingCmd} {p : Phase} {src : Source} {s : State} {r : Refusal} :
    raiseIrq cmd p src s ≠ .stop r := by
  rcases raiseIrq_cases cmd p src s with ⟨-, e⟩ | ⟨-, -, e⟩ | ⟨ref, -, -, -, e⟩ <;> rw [e] <;> simp

theorem flowOf_go {r : Except Refusal State} {t : State} : flowOf r = .go t ↔ r = .ok t := by
  cases r <;> simp [flowOf]

theorem flowOf_ne_call {r : Except Refusal State} {t : State} : flowOf r ≠ .call t := by
  cases r <;> simp [flowOf]

theorem pacingWait_frame (s : State) :
    pacingWait s = { s with deadline := (pacingWait s).deadline, trace := (pacingWait s).trace } ∧
      s.trace <+: (pacingWait s).trace := by
  unfold pacingWait
  dsimp only
  split_ifs <;> exact ⟨rfl, by simp⟩

/-- Everything a phase that goes on does, whatever the phase. -/
theorem runPhase_go {cmd : TimingCmd} {p : Phase} {s t : State} (h : runPhase cmd p s = .go t) :
    phaseFrame s t := by
  cases p <;> simp only [runPhase] at h
  case p1 =>
    split at h
    · rcases raiseIrq_go h with rfl | rfl
      · exact phaseFrame_refl _
      · exact ⟨rfl, List.prefix_refl _⟩
    · obtain rfl := Flow.go.inj h
      exact phaseFrame_refl _
  case p2 =>
    split at h <;> obtain rfl := Flow.go.inj h
    · exact ⟨rfl, by simp⟩
    · exact phaseFrame_refl _
  case p3 =>
    split at h
    · have f := (dmaTrigger_frame (flowOf_go.mp h)).1
      refine ⟨by rw [f], ?_⟩
      have : t.trace = s.trace := by rw [f]
      rw [this]
    · obtain rfl := Flow.go.inj h
      exact phaseFrame_refl _
  case p4 =>
    split at h
    · rcases raiseIrq_go h with rfl | rfl
      · exact phaseFrame_refl _
      · exact ⟨rfl, List.prefix_refl _⟩
    · obtain rfl := Flow.go.inj h
      exact phaseFrame_refl _
  case p5 =>
    split at h
    · have f := (dmaTrigger_frame (flowOf_go.mp h)).1
      refine ⟨by rw [f], ?_⟩
      have : t.trace = s.trace := by rw [f]
      rw [this]
    · obtain rfl := Flow.go.inj h
      exact phaseFrame_refl _
  case p6 =>
    split at h
    · rcases raiseIrq_go h with rfl | rfl
      · exact phaseFrame_refl _
      · exact ⟨rfl, List.prefix_refl _⟩
    · obtain rfl := Flow.go.inj h
      exact phaseFrame_refl _
  case p7 =>
    split at h
    · obtain ⟨f, g⟩ := soundMixFrame_frame (flowOf_go.mp h)
      exact ⟨by rw [f]; rfl, List.IsPrefix.trans (by simp) g⟩
    · obtain rfl := Flow.go.inj h
      exact phaseFrame_refl _
  case p8 =>
    split at h <;> obtain rfl := Flow.go.inj h
    · obtain ⟨f, g⟩ := pacingWait_frame s
      exact ⟨by rw [f], g⟩
    · exact phaseFrame_refl _
  case p9 =>
    split at h
    · split at h
      · rcases raiseIrq_go h with rfl | rfl <;> exact ⟨rfl, List.prefix_refl _⟩
      · obtain rfl := Flow.go.inj h
        exact ⟨rfl, List.prefix_refl _⟩
    · obtain rfl := Flow.go.inj h
      exact phaseFrame_refl _
  case p10 =>
    obtain rfl := Flow.go.inj h
    exact ⟨rfl, List.prefix_refl _⟩

/-- Only the last phase moves LINE (spec/41_timing_engine.md R120, R129). -/
theorem runPhase_line {cmd : TimingCmd} {p : Phase} {s t : State} (h : runPhase cmd p s = .go t) :
    t.line = if p = .p10 then nextLine s.line else s.line := by
  cases p <;> simp only [runPhase] at h
  case p1 =>
    split at h
    · rcases raiseIrq_go h with rfl | rfl <;> rfl
    · obtain rfl := Flow.go.inj h; rfl
  case p2 => split at h <;> obtain rfl := Flow.go.inj h <;> rfl
  case p3 =>
    split at h
    · rw [(dmaTrigger_frame (flowOf_go.mp h)).1]; rfl
    · obtain rfl := Flow.go.inj h; rfl
  case p4 =>
    split at h
    · rcases raiseIrq_go h with rfl | rfl <;> rfl
    · obtain rfl := Flow.go.inj h; rfl
  case p5 =>
    split at h
    · rw [(dmaTrigger_frame (flowOf_go.mp h)).1]; rfl
    · obtain rfl := Flow.go.inj h; rfl
  case p6 =>
    split at h
    · rcases raiseIrq_go h with rfl | rfl <;> rfl
    · obtain rfl := Flow.go.inj h; rfl
  case p7 =>
    split at h
    · rw [(soundMixFrame_frame (flowOf_go.mp h)).1]; rfl
    · obtain rfl := Flow.go.inj h; rfl
  case p8 =>
    split at h <;> obtain rfl := Flow.go.inj h
    · rw [(pacingWait_frame s).1]; rfl
    · rfl
  case p9 =>
    split at h
    · split at h
      · rcases raiseIrq_go h with rfl | rfl <;> rfl
      · obtain rfl := Flow.go.inj h; rfl
    · obtain rfl := Flow.go.inj h; rfl
  case p10 => obtain rfl := Flow.go.inj h; rfl

/-- A phase passes control to a handler at its own dispatch point only, by the shared entry, LINE unmoved and
nothing else changed but the keys snapshot of the poll (spec/60_exceptions.md R230, R236). -/
theorem runPhase_call {cmd : TimingCmd} {p : Phase} {s t : State} (h : runPhase cmd p s = .call t) :
    ∃ src ref s0, dispatchPoint src p ∧ (s0 = s ∨ (p = .p9 ∧ s0 = pollKeys s)) ∧
      flagOf s.ie src = true ∧ s.ime = true ∧ s.vec[src] = some ref ∧
      t = invoke cmd p src ref { s0 with ifReg := setFlag s.ifReg src } := by
  cases p <;> simp only [runPhase] at h
  case p1 =>
    split at h
    · obtain ⟨ref, h1, h2, h3, rfl⟩ := raiseIrq_call h
      exact ⟨_, ref, s, .inl ⟨rfl, rfl⟩, .inl rfl, h1, h2, h3, rfl⟩
    · cases h
  case p2 => split at h <;> cases h
  case p3 =>
    split at h
    · exact absurd h flowOf_ne_call
    · cases h
  case p4 =>
    split at h
    · obtain ⟨ref, h1, h2, h3, rfl⟩ := raiseIrq_call h
      exact ⟨_, ref, s, .inr (.inl ⟨rfl, rfl⟩), .inl rfl, h1, h2, h3, rfl⟩
    · cases h
  case p5 =>
    split at h
    · exact absurd h flowOf_ne_call
    · cases h
  case p6 =>
    split at h
    · obtain ⟨ref, h1, h2, h3, rfl⟩ := raiseIrq_call h
      exact ⟨_, ref, s, .inr (.inr (.inl ⟨rfl, rfl⟩)), .inl rfl, h1, h2, h3, rfl⟩
    · cases h
  case p7 =>
    split at h
    · exact absurd h flowOf_ne_call
    · cases h
  case p8 => split at h <;> cases h
  case p9 =>
    split at h
    · split at h
      · obtain ⟨ref, h1, h2, h3, rfl⟩ := raiseIrq_call h
        exact ⟨_, ref, pollKeys s, .inr (.inr (.inr ⟨rfl, rfl⟩)), .inr ⟨rfl, rfl⟩, h1, h2, h3, rfl⟩
      · cases h
    · cases h
  case p10 => cases h

/-- A phase keeps the audio and memory bounds. -/
theorem runPhase_legal {cmd : TimingCmd} {p : Phase} {s t : State} (hp : capacitiesHold s.cfg)
    (h : runPhase cmd p s = .go t) (hs : ∀ c : Audio, soundLegal s.cfg s.snd[c]) (hm : mixLegal s) (hw : s.mem.wf memBytes = true) :
    (∀ c : Audio, soundLegal s.cfg t.snd[c]) ∧ mixLegal t ∧ t.mem.wf memBytes = true := by
  cases p <;> simp only [runPhase] at h
  case p1 =>
    split at h
    · rcases raiseIrq_go h with rfl | rfl <;> exact ⟨hs, hm, hw⟩
    · obtain rfl := Flow.go.inj h; exact ⟨hs, hm, hw⟩
  case p2 => split at h <;> obtain rfl := Flow.go.inj h <;> exact ⟨hs, hm, hw⟩
  case p3 =>
    split at h
    · obtain ⟨f, g⟩ := dmaTrigger_frame (flowOf_go.mp h)
      refine ⟨?_, ?_, g hw⟩
      · rw [f]; exact hs
      · rw [f]; exact hm
    · obtain rfl := Flow.go.inj h; exact ⟨hs, hm, hw⟩
  case p4 =>
    split at h
    · rcases raiseIrq_go h with rfl | rfl <;> exact ⟨hs, hm, hw⟩
    · obtain rfl := Flow.go.inj h; exact ⟨hs, hm, hw⟩
  case p5 =>
    split at h
    · obtain ⟨f, g⟩ := dmaTrigger_frame (flowOf_go.mp h)
      refine ⟨?_, ?_, g hw⟩
      · rw [f]; exact hs
      · rw [f]; exact hm
    · obtain rfl := Flow.go.inj h; exact ⟨hs, hm, hw⟩
  case p6 =>
    split at h
    · rcases raiseIrq_go h with rfl | rfl <;> exact ⟨hs, hm, hw⟩
    · obtain rfl := Flow.go.inj h; exact ⟨hs, hm, hw⟩
  case p7 =>
    split at h
    · obtain ⟨l, m⟩ := soundMixFrame_legal (by exact hp) (flowOf_go.mp h) hs hm
      refine ⟨l, m, ?_⟩
      rw [(soundMixFrame_frame (flowOf_go.mp h)).1]
      exact hw
    · obtain rfl := Flow.go.inj h; exact ⟨hs, hm, hw⟩
  case p8 =>
    split at h <;> obtain rfl := Flow.go.inj h
    · rw [(pacingWait_frame s).1]; exact ⟨hs, hm, hw⟩
    · exact ⟨hs, hm, hw⟩
  case p9 =>
    split at h
    · split at h
      · rcases raiseIrq_go h with rfl | rfl <;> exact ⟨hs, hm, hw⟩
      · obtain rfl := Flow.go.inj h; exact ⟨hs, hm, hw⟩
    · obtain rfl := Flow.go.inj h; exact ⟨hs, hm, hw⟩
  case p10 => obtain rfl := Flow.go.inj h; exact ⟨hs, hm, hw⟩

/-- A phase keeps the held bytes at their caches. -/
theorem runPhase_cur {cmd : TimingCmd} {p : Phase} {s t : State} (h : runPhase cmd p s = .go t)
    (hs : ∀ c : Audio, curFollowsCache s.snd[c]) : ∀ c : Audio, curFollowsCache t.snd[c] := by
  cases p <;> simp only [runPhase] at h
  case p7 =>
    split at h
    · exact soundMixFrame_cur (flowOf_go.mp h) hs
    · obtain rfl := Flow.go.inj h; exact hs
  case p1 =>
    split at h
    · rcases raiseIrq_go h with rfl | rfl <;> exact hs
    · obtain rfl := Flow.go.inj h; exact hs
  case p2 => split at h <;> obtain rfl := Flow.go.inj h <;> exact hs
  case p3 =>
    split at h
    · rw [(dmaTrigger_frame (flowOf_go.mp h)).1]; exact hs
    · obtain rfl := Flow.go.inj h; exact hs
  case p4 =>
    split at h
    · rcases raiseIrq_go h with rfl | rfl <;> exact hs
    · obtain rfl := Flow.go.inj h; exact hs
  case p5 =>
    split at h
    · rw [(dmaTrigger_frame (flowOf_go.mp h)).1]; exact hs
    · obtain rfl := Flow.go.inj h; exact hs
  case p6 =>
    split at h
    · rcases raiseIrq_go h with rfl | rfl <;> exact hs
    · obtain rfl := Flow.go.inj h; exact hs
  case p8 =>
    split at h <;> obtain rfl := Flow.go.inj h
    · rw [(pacingWait_frame s).1]; exact hs
    · exact hs
  case p9 =>
    split at h
    · split at h
      · rcases raiseIrq_go h with rfl | rfl <;> exact hs
      · obtain rfl := Flow.go.inj h; exact hs
    · obtain rfl := Flow.go.inj h; exact hs
  case p10 => obtain rfl := Flow.go.inj h; exact hs

/-! ### Inductions over a command -/

/-- A property that every phase keeps holds where the phases end; and where control passes to a handler, it held
at the phase that called it. -/
theorem runPhases_induct (P : State → Prop) (cmd : TimingCmd)
    (step : ∀ p s t, runPhase cmd p s = .go t → P s → P t) (ps : List Phase) (s : State) (hs : P s) :
    (∀ t, runPhases cmd ps s = .go t → P t) ∧
    (∀ t, runPhases cmd ps s = .call t → ∃ p ∈ ps, ∃ u, P u ∧ runPhase cmd p u = .call t) := by
  induction ps generalizing s with
  | nil =>
    constructor
    · intro t h
      obtain rfl := Flow.go.inj h
      exact hs
    · intro t h
      cases h
  | cons p ps ih =>
    simp only [runPhases]
    cases e : runPhase cmd p s with
    | go u =>
      obtain ⟨h1, h2⟩ := ih u (step p s u e hs)
      exact ⟨h1, fun t ht => by
        obtain ⟨q, hq, r⟩ := h2 t ht
        exact ⟨q, List.mem_cons_of_mem _ hq, r⟩⟩
    | call u =>
      constructor
      · intro t h
        cases h
      · intro t h
        obtain rfl := Flow.call.inj h
        exact ⟨p, List.mem_cons_self, s, hs, e⟩
    | stop r => exact ⟨fun t h => (by cases h), fun t h => (by cases h)⟩

/-- A property that every phase keeps holds where a command ends; and where control passes to a handler, it held
at the phase that called it. -/
theorem lineSteps_induct (P : State → Prop) (cmd : TimingCmd)
    (step : ∀ p s t, runPhase cmd p s = .go t → P s → P t) (more : Nat) (ps : List Phase) (s : State)
    (hs : P s) {t : State} (h : lineSteps cmd more ps s = .next t) :
    (∃ u, P u ∧ t = endTiming u) ∨ (∃ p u, P u ∧ runPhase cmd p u = .call t) := by
  induction more generalizing ps s with
  | zero =>
    obtain ⟨h1, h2⟩ := runPhases_induct P cmd step ps s hs
    unfold lineSteps at h
    split at h
    · rename_i u e
      simp only [Host.Outcome.next.injEq] at h
      exact .inl ⟨u, h1 u e, h.symm⟩
    · rename_i u e
      simp only [Host.Outcome.next.injEq] at h
      subst h
      obtain ⟨p, -, v, hv, hc⟩ := h2 _ e
      exact .inr ⟨p, v, hv, hc⟩
    · cases h
  | succ more ih =>
    obtain ⟨h1, h2⟩ := runPhases_induct P cmd step ps s hs
    unfold lineSteps at h
    split at h
    · rename_i u e
      split at h
      · simp only [Host.Outcome.next.injEq] at h
        exact .inl ⟨u, h1 u e, h.symm⟩
      · exact ih _ _ (h1 u e) h
    · rename_i u e
      simp only [Host.Outcome.next.injEq] at h
      subst h
      obtain ⟨p, -, v, hv, hc⟩ := h2 _ e
      exact .inr ⟨p, v, hv, hc⟩
    · cases h

theorem lineSteps_ne_fault {cmd : TimingCmd} {more : Nat} {ps : List Phase} {s : State} {f : Fault} :
    lineSteps cmd more ps s ≠ .fault f := by
  induction more generalizing ps s with
  | zero => unfold lineSteps; split <;> simp
  | succ more ih =>
    unfold lineSteps
    split
    · split
      · simp
      · exact ih
    · simp
    · simp

/-- A handler's entry through a phase: the sequencing state after it. -/
theorem runPhase_call_context {cmd : TimingCmd} {p : Phase} {s t : State} (h : runPhase cmd p s = .call t)
    (hi : s.insvc = 0) : handlerContext t := by
  obtain ⟨src, ref, s0, hd, h0, -, -, -, rfl⟩ := runPhase_call h
  have e2 : s0.insvc = 0 := by rcases h0 with rfl | ⟨-, rfl⟩ <;> exact hi
  refine ⟨rfl, ?_, hd⟩
  show setFlag s0.insvc src = _
  rw [e2]

/-! ### Lines -/

theorem nextLine_lt (l : BitVec 8) : (nextLine l).toNat < Config.linesPerFrame := by
  have h : (l.toNat + 1) % 228 < 228 := Nat.mod_lt _ (by norm_num)
  simp only [nextLine, Config.linesPerFrame, BitVec.toNat_ofNat]
  omega

theorem nextLine_toNat (l : BitVec 8) : (nextLine l).toNat = (l.toNat + 1) % 228 := by
  have h : (l.toNat + 1) % 228 < 228 := Nat.mod_lt _ (by norm_num)
  simp only [nextLine, Config.linesPerFrame, BitVec.toNat_ofNat]
  omega

/-! ### Occurrences that reach a handler, and those that do not -/

theorem unserved_shut {src : Source} {s : State} (h : s.ime = false) : unserved src s := .inr (.inl h)

/-- An occurrence that reaches no handler latches at most (spec/60_exceptions.md R233). -/
theorem raiseIrq_unserved {cmd : TimingCmd} {p : Phase} {src : Source} {s : State} (h : unserved src s) :
    raiseIrq cmd p src s = .go { s with ifReg := if flagOf s.ie src then setFlag s.ifReg src else s.ifReg } := by
  rcases raiseIrq_cases cmd p src s with ⟨e, h'⟩ | ⟨e, -, h'⟩ | ⟨ref, a, b, c, -⟩
  · rw [h', e]
    rfl
  · rw [h', e]
    rfl
  · rcases h with h | h | h
    · rw [a] at h; cases h
    · rw [b] at h; cases h
    · rw [c] at h; cases h

/-- An occurrence that enters its handler (spec/60_exceptions.md R233). -/
theorem raiseIrq_served {cmd : TimingCmd} {p : Phase} {src : Source} {s : State} {ref : Word}
    (h : served src ref s) :
    raiseIrq cmd p src s = .call (invoke cmd p src ref { s with ifReg := setFlag s.ifReg src }) := by
  obtain ⟨h, hi, hv⟩ := h
  unfold raiseIrq
  simp only [h, hi, if_true]
  show (match s.vec[src] with | none => _ | some ref => _) = _
  rw [hv]

/-- Latching a source where it is enabled, as a mask. -/
theorem latch_eq_or (v ie m : BitVec 14) (src : Source) (hm : m = 1#14 <<< src.val) :
    (if flagOf ie src then setFlag v src else v) = v ||| (ie &&& m) := by
  subst hm
  refine flags_ext fun j => ?_
  have e : flagOf (1#14 <<< src.val) j = decide (j = src) := by
    have := flagOf_setFlag 0 src j
    simpa [setFlag, flagOf] using this
  have e1 : flagOf (v ||| (ie &&& 1#14 <<< src.val)) j =
      (flagOf v j || (flagOf ie j && flagOf (1#14 <<< src.val) j)) := by simp [flagOf]
  rw [e1, e]
  split
  · rename_i h
    rw [flagOf_setFlag]
    by_cases hj : j = src
    · subst hj; simp [h]
    · simp [hj]
  · rename_i h
    by_cases hj : j = src
    · subst hj; simp [h]
    · simp [hj]

theorem visible_iff {line : BitVec 8} : visible line = true ↔ line.toNat < 160 := by
  unfold visible
  rw [decide_eq_true_iff]
  rfl

/-- The phases of the visible lines do nothing on the others (spec/41_timing_engine.md R122, R123). -/
theorem runPhase_blank {cmd : TimingCmd} {p : Phase} {s : State} (hp : p = .p2 ∨ p = .p3 ∨ p = .p4)
    (h : 160 ≤ s.line.toNat) : runPhase cmd p s = .go s := by
  have hv : ¬ visible s.line = true := by rw [visible_iff]; omega
  rcases hp with rfl | rfl | rfl <;> exact if_neg hv

/-- The phases of line 160 do nothing on the other lines (spec/41_timing_engine.md R124 to R128). -/
theorem runPhase_not160 {cmd : TimingCmd} {p : Phase} {s : State}
    (hp : p = .p5 ∨ p = .p6 ∨ p = .p7 ∨ p = .p8 ∨ p = .p9) (h : s.line.toNat ≠ 160) :
    runPhase cmd p s = .go s := by
  rcases hp with rfl | rfl | rfl | rfl | rfl <;> exact if_neg h

theorem runPhase_p1 (cmd : TimingCmd) {s : State} (h : s.line = s.vcmp → unserved srcVcount s) :
    runPhase cmd .p1 s = .go { s with ifReg := vcountLatched s } := by
  simp only [runPhase, vcountLatched]
  split
  · rename_i hl
    rw [raiseIrq_unserved (h hl), latch_eq_or _ _ 0x0004#14 _ rfl]
  · simp

theorem runPhase_p1_served (cmd : TimingCmd) {s : State} {ref : Word} (hl : s.line = s.vcmp)
    (h : served srcVcount ref s) :
    runPhase cmd .p1 s = .call (invoke cmd .p1 srcVcount ref { s with ifReg := setFlag s.ifReg srcVcount }) := by
  simp only [runPhase]
  rw [if_pos hl, raiseIrq_served h]

theorem runPhase_p2 (cmd : TimingCmd) {s : State} (h : s.line.toNat < 160) :
    runPhase cmd .p2 s = .go (emit (.draw s.line) s) := if_pos (visible_iff.mpr h)

theorem runPhase_p3 (cmd : TimingCmd) {s : State} (h : s.line.toNat < 160) :
    runPhase cmd .p3 s = flowOf (dmaTrigger .hblank s) := if_pos (visible_iff.mpr h)

theorem runPhase_p4 (cmd : TimingCmd) {s : State} (hl : s.line.toNat < 160) (h : unserved srcHblank s) :
    runPhase cmd .p4 s = .go { s with ifReg := s.ifReg ||| (s.ie &&& 0x0002#14) } := by
  simp only [runPhase]
  rw [if_pos (visible_iff.mpr hl), raiseIrq_unserved h, latch_eq_or _ _ 0x0002#14 _ rfl]

theorem runPhase_p4_served (cmd : TimingCmd) {s : State} {ref : Word} (hl : s.line.toNat < 160)
    (h : served srcHblank ref s) :
    runPhase cmd .p4 s = .call (invoke cmd .p4 srcHblank ref { s with ifReg := setFlag s.ifReg srcHblank }) := by
  simp only [runPhase]
  rw [if_pos (visible_iff.mpr hl), raiseIrq_served h]

theorem runPhase_p5 (cmd : TimingCmd) {s : State} (h : s.line.toNat = 160) :
    runPhase cmd .p5 s = flowOf (dmaTrigger .vblank s) := if_pos h

theorem runPhase_p6 (cmd : TimingCmd) {s : State} (hl : s.line.toNat = 160) (h : unserved srcVblank s) :
    runPhase cmd .p6 s = .go { s with ifReg := s.ifReg ||| (s.ie &&& 0x0001#14) } := by
  simp only [runPhase]
  rw [if_pos (show s.line.toNat = Config.vblankLine from hl), raiseIrq_unserved h, latch_eq_or _ _ 0x0001#14 _ rfl]

theorem runPhase_p6_served (cmd : TimingCmd) {s : State} {ref : Word} (hl : s.line.toNat = 160)
    (h : served srcVblank ref s) :
    runPhase cmd .p6 s = .call (invoke cmd .p6 srcVblank ref { s with ifReg := setFlag s.ifReg srcVblank }) := by
  simp only [runPhase]
  rw [if_pos (show s.line.toNat = Config.vblankLine from hl), raiseIrq_served h]

theorem runPhase_p7 (cmd : TimingCmd) {s : State} (hl : s.line.toNat = 160) :
    runPhase cmd .p7 s = flowOf (soundMixFrame (emit .present s)) := if_pos hl

theorem runPhase_p8 (cmd : TimingCmd) {s : State} (hl : s.line.toNat = 160) :
    runPhase cmd .p8 s = .go (pacingWait s) := if_pos hl

theorem keypadCondition_iff (s : State) :
    (s.kirqEn && keypadCondition s.kand s.kwatch s.host.keys) = true ↔ keypadHit s := by
  unfold keypadHit keypadCondition
  cases s.kand <;> simp

theorem runPhase_p9 (cmd : TimingCmd) {s : State} (hl : s.line.toNat = 160)
    (h : keypadHit s → unserved srcKeypad s) :
    runPhase cmd .p9 s = .go { s with
      keysnap := s.host.keys
      ifReg := s.ifReg ||| (if keypadHit s then s.ie &&& 0x1000#14 else 0) } := by
  simp only [runPhase]
  rw [if_pos (show s.line.toNat = Config.vblankLine from hl)]
  show (if (s.kirqEn && keypadCondition s.kand s.kwatch s.host.keys) = true then raiseIrq cmd .p9 srcKeypad (pollKeys s)
    else .go (pollKeys s)) = _
  by_cases hc : keypadHit s
  · rw [if_pos ((keypadCondition_iff s).mpr hc), raiseIrq_unserved (by exact h hc),
      latch_eq_or _ _ 0x1000#14 _ rfl, if_pos hc]
    rfl
  · rw [if_neg (fun e => hc ((keypadCondition_iff s).mp e)), if_neg hc]
    simp [pollKeys]

theorem runPhase_p9_served (cmd : TimingCmd) {s : State} {ref : Word} (hl : s.line.toNat = 160) (hc : keypadHit s)
    (h : served srcKeypad ref s) :
    runPhase cmd .p9 s =
      .call (invoke cmd .p9 srcKeypad ref { pollKeys s with ifReg := setFlag s.ifReg srcKeypad }) := by
  simp only [runPhase]
  rw [if_pos (show s.line.toNat = Config.vblankLine from hl)]
  show (if (s.kirqEn && keypadCondition s.kand s.kwatch s.host.keys) = true then raiseIrq cmd .p9 srcKeypad (pollKeys s)
    else .go (pollKeys s)) = _
  rw [if_pos ((keypadCondition_iff s).mpr hc), raiseIrq_served (by exact h)]
  rfl

/-! ### A whole line step -/

theorem runPhases_go {cmd : TimingCmd} {p : Phase} {ps : List Phase} {s s' : State}
    (h : runPhase cmd p s = .go s') : runPhases cmd (p :: ps) s = runPhases cmd ps s' := by
  rw [runPhases, h]

theorem runPhases_call {cmd : TimingCmd} {p : Phase} {ps : List Phase} {s s' : State}
    (h : runPhase cmd p s = .call s') : runPhases cmd (p :: ps) s = .call s' := by
  rw [runPhases, h]

theorem runPhases_stop {cmd : TimingCmd} {p : Phase} {ps : List Phase} {s : State} {r : Refusal}
    (h : runPhase cmd p s = .stop r) : runPhases cmd (p :: ps) s = .stop r := by
  rw [runPhases, h]

theorem runPhases_append {cmd : TimingCmd} {ps qs : List Phase} {s : State} :
    runPhases cmd (ps ++ qs) s =
      match runPhases cmd ps s with
      | .go s' => runPhases cmd qs s'
      | .call s' => .call s'
      | .stop r => .stop r := by
  induction ps generalizing s with
  | nil => rfl
  | cons p ps ih =>
    rw [List.cons_append, runPhases, runPhases]
    split
    · rw [ih]
    · rfl
    · rfl

/-- Phases before P10 leave LINE alone. -/
theorem runPhases_line {cmd : TimingCmd} {ps : List Phase} {s t : State} (hps : ∀ p ∈ ps, p ≠ .p10)
    (h : runPhases cmd ps s = .go t) : t.line = s.line := by
  induction ps generalizing s with
  | nil =>
    obtain rfl := Flow.go.inj h
    rfl
  | cons p ps ih =>
    rw [runPhases] at h
    split at h
    · rename_i u hu
      rw [ih (fun q hq => hps q (by simp [hq])) h, runPhase_line hu, if_neg (hps p (by simp))]
    · cases h
    · cases h

/-- A line step that ends leaves the next line (spec/41_timing_engine.md R129). -/
theorem allPhases_line {cmd : TimingCmd} {s t : State} (h : runPhases cmd allPhases s = .go t) :
    t.line = nextLine s.line := by
  have e : allPhases = [.p1, .p2, .p3, .p4, .p5, .p6, .p7, .p8, .p9] ++ [.p10] := rfl
  rw [e, runPhases_append] at h
  split at h
  · rename_i u hu
    have ht : t = { u with line := nextLine u.line } := (Flow.go.inj h).symm
    rw [ht, ← runPhases_line (by decide) hu]
  · cases h
  · cases h

/-- HALT is one line step, or what is left of one (spec/41_timing_engine.md R130). -/
theorem lineSteps_halt (more : Nat) (ps : List Phase) (s : State) :
    lineSteps .halt more ps s =
      match runPhases .halt ps s with
      | .go s' => .next (endTiming s')
      | .call s' => .next s'
      | .stop r => .refused r := by
  cases more <;> unfold lineSteps <;> rfl

/-- A trigger, with what it did on another state of the same MEM and channels. -/
theorem dmaTrigger_moved {ev : Trigger} {r s u : State} (hm : r.mem = s.mem) (hd : r.dma = s.dma)
    (h : dmaTrigger ev s = .ok u) : dmaTrigger ev r = .ok { r with mem := u.mem, dma := u.dma } := by
  rw [dmaTrigger_same hm hd, h]
  rfl

theorem nextLine_eq {l : BitVec 8} {n : Nat} (h : l.toNat = n) : nextLine l = BitVec.ofNat 8 ((n + 1) % 228) := by
  subst h
  rfl

/-- On a visible line, the phases after the VCount match up to the HBLANK occurrence. -/
theorem runPhases_toHblank {cmd : TimingCmd} {ps : List Phase} {s u : State} (hl : s.line.toNat < 160)
    (h : dmaTrigger .hblank s = .ok u) :
    runPhases cmd (.p2 :: .p3 :: ps) s =
      runPhases cmd ps { s with mem := u.mem, dma := u.dma, trace := s.trace ++ [.draw s.line] } := by
  rw [runPhases_go (runPhase_p2 cmd hl)]
  refine runPhases_go ((runPhase_p3 cmd (by exact hl)).trans ?_)
  rw [dmaTrigger_moved (r := emit (.draw s.line) s) (s := s) rfl rfl h]
  rfl

/-- The phases of line 160 do nothing on the others, and the line advances. -/
theorem runPhases_noVblank {cmd : TimingCmd} {s : State} (hn : s.line.toNat ≠ 160) :
    runPhases cmd [.p5, .p6, .p7, .p8, .p9, .p10] s = .go { s with line := nextLine s.line } := by
  rw [runPhases_go (runPhase_not160 (p := .p5) (by simp) hn), runPhases_go (runPhase_not160 (p := .p6) (by simp) hn),
    runPhases_go (runPhase_not160 (p := .p7) (by simp) hn), runPhases_go (runPhase_not160 (p := .p8) (by simp) hn),
    runPhases_go (runPhase_not160 (p := .p9) (by simp) hn), runPhases_go rfl]
  rfl

/-- The phases of the visible lines do nothing on the others. -/
theorem runPhases_blank {cmd : TimingCmd} {ps : List Phase} {s : State} (hb : 160 ≤ s.line.toNat) :
    runPhases cmd (.p2 :: .p3 :: .p4 :: ps) s = runPhases cmd ps s := by
  rw [runPhases_go (runPhase_blank (p := .p2) (by simp) hb), runPhases_go (runPhase_blank (p := .p3) (by simp) hb),
    runPhases_go (runPhase_blank (p := .p4) (by simp) hb)]

/-- A visible line after the VCount match, its HBLANK occurrence reaching no handler (spec/41_timing_engine.md
R122, R123). -/
theorem runPhases_visible {cmd : TimingCmd} {s u : State} (hl : s.line.toNat < 160)
    (h : dmaTrigger .hblank s = .ok u) (hi : unserved srcHblank s) :
    runPhases cmd (phasesAfter .p1) s = .go { s with
      mem := u.mem
      dma := u.dma
      line := BitVec.ofNat 8 (s.line.toNat + 1)
      ifReg := s.ifReg ||| (s.ie &&& 0x0002#14)
      trace := s.trace ++ [.draw s.line] } := by
  have hn : s.line.toNat ≠ 160 := by omega
  unfold phasesAfter
  rw [runPhases_toHblank hl h, runPhases_go (runPhase_p4 cmd (by exact hl) (by exact hi)),
    runPhases_noVblank (by exact hn)]
  have e : nextLine s.line = BitVec.ofNat 8 (s.line.toNat + 1) := by
    rw [nextLine_eq rfl, Nat.mod_eq_of_lt (by omega)]
  rw [← e]

/-- A visible line after the VCount match, its HBLANK occurrence entering a handler. -/
theorem runPhases_visible_served {cmd : TimingCmd} {s u : State} {ref : Word} (hl : s.line.toNat < 160)
    (h : dmaTrigger .hblank s = .ok u) (hi : served srcHblank ref s) :
    runPhases cmd (phasesAfter .p1) s = .call (invoke cmd .p4 srcHblank ref { s with
      mem := u.mem
      dma := u.dma
      ifReg := setFlag s.ifReg srcHblank
      trace := s.trace ++ [.draw s.line] }) := by
  unfold phasesAfter
  rw [runPhases_toHblank hl h]
  exact runPhases_call (runPhase_p4_served cmd (by exact hl) (by exact hi))

/-- A visible line whose HBLANK transfer is refused. -/
theorem runPhases_visible_stop {cmd : TimingCmd} {s : State} {e : Refusal} (hl : s.line.toNat < 160)
    (h : dmaTrigger .hblank s = .error e) : runPhases cmd (phasesAfter .p1) s = .stop e := by
  unfold phasesAfter
  rw [runPhases_go (runPhase_p2 cmd hl)]
  refine runPhases_stop ((runPhase_p3 cmd (by exact hl)).trans ?_)
  rw [dmaTrigger_same (r := emit (.draw s.line) s) (s := s) rfl rfl, h]
  rfl

/-- What the mix and the pacing of a frame keep. -/
theorem flush_kept {s v : State} (h : soundMixFrame (emit .present s) = .ok v) :
    (v.line = s.line ∧ (pacingWait v).line = s.line) ∧
      (keypadHit (pacingWait v) ↔ keypadHit s) ∧ (unserved srcKeypad (pacingWait v) ↔ unserved srcKeypad s) ∧
      (∀ ref, served srcKeypad ref (pacingWait v) ↔ served srcKeypad ref s) := by
  obtain ⟨f, -⟩ := soundMixFrame_frame h
  obtain ⟨g, -⟩ := pacingWait_frame v
  have kept : ∀ {α : Type} (x : State → α), x (pacingWait v) = x { v with
      deadline := (pacingWait v).deadline, trace := (pacingWait v).trace } := fun x => congrArg x g
  have kept' : ∀ {α : Type} (x : State → α), x v = x { emit .present s with
      snd := v.snd, dma := v.dma, mix := v.mix, mixn := v.mixn, trace := v.trace } := fun x => congrArg x f
  have e1 : (pacingWait v).kirqEn = s.kirqEn := (kept _).trans (kept' State.kirqEn)
  have e2 : (pacingWait v).kand = s.kand := (kept _).trans (kept' State.kand)
  have e3 : (pacingWait v).kwatch = s.kwatch := (kept _).trans (kept' State.kwatch)
  have e4 : (pacingWait v).host = s.host := (kept _).trans (kept' State.host)
  have e5 : (pacingWait v).ie = s.ie := (kept _).trans (kept' State.ie)
  have e6 : (pacingWait v).ime = s.ime := (kept _).trans (kept' State.ime)
  have e7 : (pacingWait v).vec = s.vec := (kept _).trans (kept' State.vec)
  refine ⟨⟨kept' State.line, (kept _).trans (kept' State.line)⟩, ?_, ?_, fun ref => ?_⟩
  · unfold keypadHit
    rw [e1, e2, e3, e4]
  · unfold unserved
    rw [e5, e6, e7]
  · unfold served
    rw [e5, e6, e7]

/-- Line 160 from its flush on, the KEYPAD occurrence reaching no handler (spec/41_timing_engine.md R125 to R129). -/
theorem runPhases_flush {cmd : TimingCmd} {s v : State} (hl : s.line.toNat = 160)
    (h : soundMixFrame (emit .present s) = .ok v) (hk : keypadHit s → unserved srcKeypad s) :
    runPhases cmd (phasesAfter .p6) s = .go (afterFlush v) := by
  obtain ⟨⟨l, l'⟩, ek, eu, -⟩ := flush_kept h
  obtain ⟨g, -⟩ := pacingWait_frame v
  unfold phasesAfter
  rw [runPhases_go ((runPhase_p7 cmd hl).trans (congrArg flowOf h)), runPhases_go (runPhase_p8 cmd (by rw [l, hl])),
    runPhases_go (runPhase_p9 cmd (by rw [l', hl]) (fun a => eu.mpr (hk (ek.mp a)))), runPhases_go rfl]
  have en : nextLine (pacingWait v).line = 161#8 := by rw [l', nextLine_eq hl]
  have ev : keypadHit (pacingWait v) ↔ keypadHit v := by
    unfold keypadHit
    rw [g]
  have eh : (pacingWait v).host = v.host := by rw [g]
  have ei : (pacingWait v).ie = v.ie := by rw [g]
  have ef : (pacingWait v).ifReg = v.ifReg := by rw [g]
  show Flow.go { pacingWait v with
    line := nextLine (pacingWait v).line
    keysnap := (pacingWait v).host.keys
    ifReg := (pacingWait v).ifReg |||
      (if keypadHit (pacingWait v) then (pacingWait v).ie &&& 0x1000#14 else 0) } = _
  simp only [afterFlush, en, ev, eh, ei, ef]
  rfl

/-- Line 160 from its flush on, the KEYPAD occurrence entering a handler after the poll. -/
theorem runPhases_flush_served {cmd : TimingCmd} {s v : State} {ref : Word} (hl : s.line.toNat = 160)
    (h : soundMixFrame (emit .present s) = .ok v) (hk : keypadHit s) (hi : served srcKeypad ref s) :
    runPhases cmd (phasesAfter .p6) s = .call (invoke cmd .p9 srcKeypad ref { pacingWait v with
      keysnap := v.host.keys
      ifReg := setFlag v.ifReg srcKeypad }) := by
  obtain ⟨⟨l, l'⟩, ek, -, eu⟩ := flush_kept h
  obtain ⟨g, -⟩ := pacingWait_frame v
  unfold phasesAfter
  rw [runPhases_go ((runPhase_p7 cmd hl).trans (congrArg flowOf h)), runPhases_go (runPhase_p8 cmd (by rw [l, hl])),
    runPhases_call (runPhase_p9_served cmd (by rw [l', hl]) (ek.mpr hk) ((eu ref).mpr hi))]
  have eh : (pacingWait v).host = v.host := by rw [g]
  have ef : (pacingWait v).ifReg = v.ifReg := by rw [g]
  rw [← eh, ← ef]
  rfl

/-- A frame that is refused. -/
theorem runPhases_flush_stop {cmd : TimingCmd} {s : State} {e : Refusal} (hl : s.line.toNat = 160)
    (h : soundMixFrame (emit .present s) = .error e) : runPhases cmd (phasesAfter .p6) s = .stop e :=
  runPhases_stop ((runPhase_p7 cmd hl).trans (by rw [h]; rfl))

/-- Line 160 after the VCount match: the transfer and then the VBLANK occurrence, here reaching no handler
(spec/41_timing_engine.md R124). -/
theorem runPhases_vblank {cmd : TimingCmd} {s u : State} (hl : s.line.toNat = 160)
    (h : dmaTrigger .vblank s = .ok u) (hi : unserved srcVblank s) :
    runPhases cmd (phasesAfter .p1) s =
      runPhases cmd (phasesAfter .p6) { s with
        mem := u.mem
        dma := u.dma
        ifReg := s.ifReg ||| (s.ie &&& 0x0001#14) } := by
  unfold phasesAfter
  rw [runPhases_blank (by omega), runPhases_go ((runPhase_p5 cmd hl).trans (by
    rw [h, (dmaTrigger_frame h).1]; rfl)), runPhases_go (runPhase_p6 cmd (by exact hl) (by exact hi))]

/-- Line 160 after the VCount match, the VBLANK occurrence entering a handler after the transfer. -/
theorem runPhases_vblank_served {cmd : TimingCmd} {s u : State} {ref : Word} (hl : s.line.toNat = 160)
    (h : dmaTrigger .vblank s = .ok u) (hi : served srcVblank ref s) :
    runPhases cmd (phasesAfter .p1) s = .call (invoke cmd .p6 srcVblank ref { s with
      mem := u.mem
      dma := u.dma
      ifReg := setFlag s.ifReg srcVblank }) := by
  unfold phasesAfter
  rw [runPhases_blank (by omega), runPhases_go ((runPhase_p5 cmd hl).trans (by
    rw [h, (dmaTrigger_frame h).1]; rfl)), runPhases_call (runPhase_p6_served cmd (by exact hl) (by exact hi))]

/-- Line 160 whose VBLANK transfer is refused. -/
theorem runPhases_vblank_stop {cmd : TimingCmd} {s : State} {e : Refusal} (hl : s.line.toNat = 160)
    (h : dmaTrigger .vblank s = .error e) : runPhases cmd (phasesAfter .p1) s = .stop e := by
  unfold phasesAfter
  rw [runPhases_blank (by omega)]
  exact runPhases_stop ((runPhase_p5 cmd hl).trans (by rw [h]; rfl))

/-- A whole line step whose VCOUNT occurrence reaches no handler. -/
theorem allPhases_after_p1 {cmd : TimingCmd} {s : State} (h : s.line = s.vcmp → unserved srcVcount s) :
    runPhases cmd allPhases s = runPhases cmd (phasesAfter .p1) { s with ifReg := vcountLatched s } :=
  runPhases_go (runPhase_p1 cmd h)

/-- Lines 161 to 227 after the VCount match. -/
theorem runPhases_blanking {cmd : TimingCmd} {s : State} (hl : 160 < s.line.toNat) :
    runPhases cmd (phasesAfter .p1) s = .go { s with line := nextLine s.line } := by
  unfold phasesAfter
  rw [runPhases_blank (by omega), runPhases_noVblank (by omega)]

end Sys2Proof.Machine
end

