-- ==== Sys2Proof/Laws/Step.lean ====
section
/-! SUPPORT. What an operation, a timing command and a step can do, said once: the cases by which a property of the
whole machine is proved, and what each of them leaves alone. -/

namespace Sys2Proof.Machine

/-! ### Register operations -/

/-- A register operation is the general procedure at some base address. -/
theorem exec_register {i : Instr} {a : BusAccess} (h : accessOf i = some a) :
    ∃ base : Word, ∀ s, exec i s = registerAccess base a s := by
  cases i <;> simp only [accessOf, Option.some.injEq, reduceCtorEq] at h <;> subst h <;> exact ⟨_, fun _ => rfl⟩

/-- No register write sets a pending flag. -/
theorem writeCell_flags {c : Cell} {v : Half} {s t : State} (h : writeCell c v s = .ok t) :
    t.ifReg &&& s.ifReg = t.ifReg := by
  cases c <;> simp only [writeCell] at h
  case cntH n => rw [(writeCntH_frame h).1]; exact BitVec.and_self
  case soundcntH =>
    obtain rfl := Except.ok.inj h
    rw [writeSoundcntH_frame]
    exact BitVec.and_self
  case iF =>
    obtain rfl := Except.ok.inj h
    show s.ifReg &&& _ &&& s.ifReg = _
    rw [BitVec.and_comm, ← BitVec.and_assoc, BitVec.and_self]
    rfl
  all_goals
    obtain rfl := Except.ok.inj h
    exact BitVec.and_self

theorem registerAccess_flags {base : Word} {a : BusAccess} {s t : State} (h : registerAccess base a s = .next t) :
    t.ifReg &&& s.ifReg = t.ifReg := by
  rcases (registerAccess_next h).2.2 with ⟨-, hr⟩ | ⟨-, hw⟩
  · rw [busRead_frame hr]
    exact BitVec.and_self
  · rcases busWrite_ok hw with ⟨c, e⟩ | ⟨c, c', s1, e1, e2⟩
    · exact writeCell_flags e
    · rw [← writeCell_flags e2, ← writeCell_flags e1]
      simp only [BitVec.and_assoc, BitVec.and_self]

/-! ### Commands that are not timing commands -/

/-- What a firmware call, a storage command or a handler registration can change. -/
structure CommandEffect (i : Instr) (s t : State) : Prop where
  frame : t = { s with
    busy := false, mem := t.mem, store := t.store, vec := t.vec, trace := t.trace, port := t.port }
  trace : s.trace <+: t.trace
  mem_wf : s.mem.wf memBytes = true → t.mem.wf memBytes = true
  store_wf : s.store.wf s.cfg.storageSize = true → t.store.wf s.cfg.storageSize = true
  store : (∀ offset src length, i ≠ .sramWrite offset src length) → t.store = s.store
  vec : (∀ source ref, i ≠ .irqSetHandler source ref) → t.vec = s.vec

/-- A command that changes MEM alone. -/
theorem CommandEffect.of_mem {i : Instr} {s t : State} {m : Memory}
    (h : t = { s with busy := false, mem := m, port := { s.port with res := 0 } })
    (hm : s.mem.wf memBytes = true → m.wf memBytes = true) : CommandEffect i s t := by
  subst h
  exact ⟨rfl, List.prefix_refl _, hm, id, fun _ => rfl, fun _ => rfl⟩

theorem unfilterCall_wf {w : Nat} {src dst : Word} {m m' : Memory} (h : unfilterCall w src dst m = .ok m')
    (hm : m.wf memBytes = true) : m'.wf memBytes = true := by
  unfold unfilterCall at h
  simp only [bind_eq_ok] at h
  obtain ⟨hd, -, h⟩ := h
  exact (unfilter_frame h).1 hm

/-- Everything a command that is not a timing command can do when it answers a next state. -/
theorem exec_command {i : Instr} {s t : State} (hi : accessOf i = none) (h1 : i ≠ .halt) (h2 : i ≠ .vsync)
    (h : exec i s = .next t) : CommandEffect i s t := by
  cases i <;> simp only [accessOf, reduceCtorEq] at hi <;> simp only [exec] at h
  case halt => exact absurd rfl h1
  case vsync => exact absurd rfl h2
  case cpuset =>
    obtain ⟨-, m, hm, e⟩ := standalone_memoryCall.mp h
    exact .of_mem e (blockSet_frame hm).1
  case cpufastset =>
    obtain ⟨-, m, hm, e⟩ := standalone_memoryCall.mp h
    exact .of_mem e (blockSet_frame hm).1
  case diff8 =>
    obtain ⟨-, m, hm, e⟩ := standalone_memoryCall.mp h
    exact .of_mem e (unfilterCall_wf hm)
  case diff16 =>
    obtain ⟨-, m, hm, e⟩ := standalone_memoryCall.mp h
    exact .of_mem e (unfilterCall_wf hm)
  case lz77 =>
    obtain ⟨-, s', e, rfl⟩ := execLz77_eq_next.mp h
    obtain ⟨code, rfl⟩ | ⟨out, m, -, hm, rfl⟩ := lzCall_ok e
    · exact ⟨rfl, List.prefix_append _ _, id, id, fun _ => rfl, fun _ => rfl⟩
    · exact ⟨rfl, List.prefix_refl _, (writeBytes_frame hm).1, id, fun _ => rfl, fun _ => rfl⟩
  case sramRead dest offset length =>
    obtain ⟨-, r, s', e, rfl⟩ := standalone_eq_next.mp h
    obtain ⟨-, ⟨-, rfl⟩ | ⟨-, e⟩⟩ := storageCall_eq_ok e
    · exact ⟨rfl, List.prefix_refl _, id, id, fun _ => rfl, fun _ => rfl⟩
    · simp only [bind_eq_ok] at e
      obtain ⟨m, hm, e⟩ := e
      obtain rfl := Except.ok.inj e
      rw [storeToMem_eq] at hm
      exact ⟨rfl, List.prefix_refl _, (writeBytes_frame hm).1, id, fun _ => rfl, fun _ => rfl⟩
  case sramWrite offset src length =>
    obtain ⟨-, r, s', e, rfl⟩ := standalone_eq_next.mp h
    obtain ⟨-, ⟨-, rfl⟩ | ⟨hc, e⟩⟩ := storageCall_eq_ok e
    · exact ⟨rfl, List.prefix_refl _, id, id, fun _ => rfl, fun _ => rfl⟩
    · simp only [bind_eq_ok] at e
      obtain ⟨st, hst, e⟩ := e
      obtain rfl := Except.ok.inj e
      obtain ⟨c1, c2, c3⟩ := storageCheck_ok.mp hc
      have ho := (offset_toNat c2).1
      have hv := (offset_toNat c2).2
      refine ⟨rfl, List.prefix_refl _, id, fun hw => (memToStore_frame hst).1 hw ?_,
        fun hn => absurd rfl (hn offset src length), fun _ => rfl⟩
      rw [hv]
      unfold storageOffset at c3
      rw [ho] at c3
      have c3' : ((offset.toNat + length.toNat : Nat) : Int) ≤ (s.cfg.storageSize : Int) := by exact_mod_cast c3
      exact_mod_cast c3'
  case irqSetHandler source ref =>
    obtain ⟨-, r, s', e, rfl⟩ := standalone_eq_next.mp h
    obtain ⟨rfl, rfl⟩ := Prod.mk.inj (Except.ok.inj e)
    unfold registerHandler
    split
    · exact ⟨rfl, List.prefix_refl _, id, id, fun _ => rfl, fun hn => absurd rfl (hn source ref)⟩
    · exact ⟨rfl, List.prefix_refl _, id, id, fun _ => rfl, fun _ => rfl⟩

/-- No command but HALT and VSYNC faults, and neither do they. -/
theorem exec_ne_fault {i : Instr} {s : State} {f : Fault} : exec i s ≠ .fault f := by
  cases hi : accessOf i with
  | some a =>
    obtain ⟨base, hb⟩ := exec_register hi
    rw [hb]
    exact registerAccess_ne_fault
  | none =>
    cases i <;> simp only [accessOf, reduceCtorEq] at hi
    case halt =>
      show timingCommand .halt s ≠ _
      unfold timingCommand
      split
      · simp
      · split
        · simp
        · exact lineSteps_ne_fault
    case vsync =>
      show timingCommand .vsync s ≠ _
      unfold timingCommand
      split
      · simp
      · split
        · simp
        · exact lineSteps_ne_fault
    case irqSetHandler =>
      simp only [exec, execIrqSetHandler, ne_eq]
      exact standalone_ne_fault
    all_goals exact standalone_ne_fault

/-! ### Timing commands -/

/-- A timing command that answers was accepted in the main flow. -/
theorem timingCommand_next {cmd : TimingCmd} {s t : State} (h : timingCommand cmd s = .next t) :
    s.hdepth = false ∧ s.busy = false ∧ lineSteps cmd 227 allPhases (beginCommand s) = .next t := by
  unfold timingCommand at h
  split at h
  · cases h
  · split at h
    · cases h
    · exact ⟨by simpa using ‹¬ s.hdepth = true›, by simpa using ‹¬ s.busy = true›, h⟩

theorem timingCommand_mainFlow {cmd : TimingCmd} {s : State} (h : mainFlow s) :
    timingCommand cmd s = lineSteps cmd 227 allPhases (beginCommand s) := by
  unfold timingCommand
  rw [h.1, h.2]
  rfl

/-- A handler's return that answers found the suspended command. -/
theorem handlerReturn_next {s t : State} (h : handlerReturn s = .next t) :
    ∃ x, s.hdepth = true ∧ s.susp = some x ∧
      lineSteps x.cmd 227 (phasesAfter x.phase) (leaveHandler x s) = .next t := by
  unfold handlerReturn at h
  split at h
  · split at h
    · exact ⟨_, ‹_›, ‹_›, h⟩
    · cases h
  · cases h

/-- What the phases of a command in progress can have changed when it ends, or is suspended at a handler: the frame
of a phase, the end of the command or the entry of the handler, and the bounds kept. -/
structure TimingEffect (s t : State) : Prop where
  frame : t = { s with
    line := t.line
    ifReg := t.ifReg
    insvc := t.insvc
    deadline := t.deadline
    dma := t.dma
    snd := t.snd
    mix := t.mix
    mixn := t.mixn
    keysnap := t.keysnap
    busy := t.busy
    hdepth := t.hdepth
    susp := t.susp
    port := t.port
    mem := t.mem
    trace := t.trace }
  trace : s.trace <+: t.trace

theorem invoke_effect {cmd : TimingCmd} {p : Phase} {src : Source} {ref : Word} (s : State) :
    TimingEffect s (invoke cmd p src ref { s with ifReg := setFlag s.ifReg src }) :=
  ⟨rfl, List.prefix_append _ _⟩

/-- Everything a command in progress can have changed. -/
theorem lineSteps_effect {cmd : TimingCmd} {more : Nat} {ps : List Phase} {s t : State}
    (h : lineSteps cmd more ps s = .next t) : TimingEffect s t := by
  rcases lineSteps_induct (phaseFrame s) cmd (fun p a b hab ha => phaseFrame_trans ha (runPhase_go hab)) more ps s
    (phaseFrame_refl s) h with ⟨u, hu, rfl⟩ | ⟨p, u, hu, hc⟩
  · obtain ⟨f, g⟩ := hu
    refine ⟨?_, g⟩
    rw [f]
    rfl
  · obtain ⟨src, ref, s0, -, hs0, -, -, -, rfl⟩ := runPhase_call hc
    obtain ⟨f, g⟩ := hu
    rcases hs0 with rfl | ⟨-, rfl⟩
    · refine ⟨?_, g.trans (List.prefix_append _ _)⟩
      rw [f]
      rfl
    · refine ⟨?_, g.trans (List.prefix_append _ _)⟩
      rw [f]
      rfl

/-! ### The invariant -/

/-- The part of the invariant that a command in progress keeps, phase by phase. -/
structure BodyInv (s : State) : Prop where
  params : capacitiesHold s.cfg
  line_lt : s.line.toNat < Config.linesPerFrame
  sound : ∀ c : Audio, soundLegal s.cfg s.snd[c]
  mixed : mixLegal s
  mem_wf : s.mem.wf memBytes = true
  store_wf : s.store.wf s.cfg.storageSize = true
  hdepth : s.hdepth = false
  insvc : s.insvc = 0
  susp : s.susp = none

theorem runPhase_bodyInv {cmd : TimingCmd} {p : Phase} {s t : State} (h : runPhase cmd p s = .go t)
    (hs : BodyInv s) : BodyInv t := by
  obtain ⟨l, m, w⟩ := runPhase_legal hs.params h hs.sound hs.mixed hs.mem_wf
  have f := (runPhase_go h).1
  have hl : t.line.toNat < Config.linesPerFrame := by
    rw [runPhase_line h]
    split
    · exact nextLine_lt _
    · exact hs.line_lt
  have hc : t.cfg = s.cfg := by rw [f]
  refine ⟨?_, hl, ?_, m, w, ?_, ?_, ?_, ?_⟩
  · rw [hc]; exact hs.params
  · rw [hc]; exact l
  · rw [f]; exact hs.store_wf
  · rw [f]; exact hs.hdepth
  · rw [f]; exact hs.insvc
  · rw [f]; exact hs.susp

/-- A command in progress ends, or is suspended, in a legal state. -/
theorem lineSteps_inv {cmd : TimingCmd} {more : Nat} {ps : List Phase} {s t : State} (hs : BodyInv s)
    (h : lineSteps cmd more ps s = .next t) : t.Inv := by
  rcases lineSteps_induct BodyInv cmd (fun p a b hab ha => runPhase_bodyInv hab ha) more ps s hs h with
    ⟨u, hu, rfl⟩ | ⟨p, u, hu, hc⟩
  · refine ⟨hu.params, hu.line_lt, hu.sound, hu.mixed, hu.mem_wf, hu.store_wf, ?_⟩
    unfold handlerContext
    show (match u.susp with | none => _ | some _ => _)
    rw [hu.susp]
    exact ⟨rfl, hu.hdepth, hu.insvc⟩
  · have hx := runPhase_call_context hc hu.insvc
    obtain ⟨src, ref, s0, -, hs0, -, -, -, rfl⟩ := runPhase_call hc
    rcases hs0 with rfl | ⟨-, rfl⟩ <;> exact ⟨hu.params, hu.line_lt, hu.sound, hu.mixed, hu.mem_wf, hu.store_wf, hx⟩

/-- In the main flow of a legal state nothing is in service and nothing is suspended. -/
theorem State.Inv.begin {s : State} (hs : s.Inv) (hd : s.hdepth = false) : BodyInv (beginCommand s) := by
  have hm := hs.handler
  unfold handlerContext at hm
  cases hx : s.susp with
  | none =>
    rw [hx] at hm
    exact ⟨hs.params, hs.line_lt, hs.sound, hs.mixed, hs.mem_wf, hs.store_wf, hd, hm.2.2, hx⟩
  | some x =>
    rw [hx] at hm
    rw [hd] at hm
    exact absurd hm.1 (by decide)

/-- The handler left, the suspended command is in progress again. -/
theorem State.Inv.leave {s : State} {x : Suspension} (hs : s.Inv) (hx : s.susp = some x) : BodyInv (leaveHandler x s) := by
  have hm := hs.handler
  unfold handlerContext at hm
  rw [hx] at hm
  refine ⟨hs.params, hs.line_lt, hs.sound, hs.mixed, hs.mem_wf, hs.store_wf, rfl, ?_, rfl⟩
  show clearFlag s.insvc x.src = 0
  rw [hm.2.1]
  exact clearFlag_setFlag_zero _

/-- Every operation keeps the invariant. -/
theorem exec_inv {i : Instr} {s t : State} (hs : s.Inv) (h : exec i s = .next t) : t.Inv := by
  cases hi : accessOf i with
  | some a =>
    obtain ⟨base, hb⟩ := exec_register hi
    rw [hb] at h
    obtain ⟨f, w⟩ := registerAccess_frame h
    have hsnd := registerAccess_sound (soundLegal s.cfg) (fun d hd => ⟨Nat.zero_le 4, hd.2⟩) h hs.sound
    unfold writeFrame at f
    refine ⟨by rw [f]; exact hs.params, ?_, ?_, ?_, w hs.mem_wf, ?_, ?_⟩
    · rw [f]; exact hs.line_lt
    · rw [show t.cfg = s.cfg by rw [f]]; exact hsnd
    · rw [f]; exact hs.mixed
    · rw [f]; exact hs.store_wf
    · rw [f]; exact hs.handler
  | none =>
    by_cases h1 : i = .halt
    · subst h1
      obtain ⟨hd, -, e⟩ := timingCommand_next h
      exact lineSteps_inv (hs.begin hd) e
    · by_cases h2 : i = .vsync
      · subst h2
        obtain ⟨hd, -, e⟩ := timingCommand_next h
        exact lineSteps_inv (hs.begin hd) e
      · obtain ⟨f, -, w, st, -, -⟩ := exec_command hi h1 h2 h
        refine ⟨by rw [f]; exact hs.params, ?_, ?_, ?_, w hs.mem_wf, ?_, ?_⟩
        · rw [f]; exact hs.line_lt
        · rw [f]; exact hs.sound
        · rw [f]; exact hs.mixed
        · rw [show t.cfg = s.cfg by rw [f]]; exact st hs.store_wf
        · have hm := hs.handler
          unfold handlerContext at hm ⊢
          rw [f]
          cases hx : s.susp with
          | none =>
            rw [hx] at hm
            exact ⟨rfl, hm.2⟩
          | some x =>
            rw [hx] at hm
            exact hm

/-- A command in progress keeps the held bytes at their caches. -/
theorem lineSteps_cur {cmd : TimingCmd} {more : Nat} {ps : List Phase} {s t : State}
    (hs : ∀ c : Audio, curFollowsCache s.snd[c]) (h : lineSteps cmd more ps s = .next t) :
    ∀ c : Audio, curFollowsCache t.snd[c] := by
  rcases lineSteps_induct (fun s => ∀ c : Audio, curFollowsCache s.snd[c]) cmd
    (fun p a b hab ha => runPhase_cur hab ha) more ps s hs h with ⟨u, hu, rfl⟩ | ⟨p, u, hu, hc⟩
  · exact hu
  · obtain ⟨src, ref, s0, -, hs0, -, -, -, rfl⟩ := runPhase_call hc
    rcases hs0 with rfl | ⟨-, rfl⟩ <;> exact hu

/-- Every operation keeps the held bytes at their caches. -/
theorem exec_cur {i : Instr} {s t : State} (hs : ∀ c : Audio, curFollowsCache s.snd[c]) (h : exec i s = .next t) :
    ∀ c : Audio, curFollowsCache t.snd[c] := by
  cases hi : accessOf i with
  | some a =>
    obtain ⟨base, hb⟩ := exec_register hi
    rw [hb] at h
    exact registerAccess_sound curFollowsCache (fun d _ => ⟨Nat.zero_le 3, rfl⟩) h hs
  | none =>
    by_cases h1 : i = .halt
    · subst h1
      exact lineSteps_cur (s := beginCommand s) hs (timingCommand_next h).2.2
    · by_cases h2 : i = .vsync
      · subst h2
        exact lineSteps_cur (s := beginCommand s) hs (timingCommand_next h).2.2
      · rw [(exec_command hi h1 h2 h).frame]
        exact hs

/-- No operation takes an event out of the trace. -/
theorem exec_trace {i : Instr} {s t : State} (h : exec i s = .next t) : s.trace <+: t.trace := by
  cases hi : accessOf i with
  | some a =>
    obtain ⟨base, hb⟩ := exec_register hi
    rw [hb] at h
    have f := (registerAccess_frame h).1
    unfold writeFrame at f
    rw [f]
  | none =>
    by_cases h1 : i = .halt
    · subst h1
      exact (lineSteps_effect (timingCommand_next h).2.2).trace
    · by_cases h2 : i = .vsync
      · subst h2
        exact (lineSteps_effect (timingCommand_next h).2.2).trace
      · exact (exec_command hi h1 h2 h).trace

/-! ### Steps -/

/-- A step that answers had nothing to take, or took the next item. -/
theorem step_cases {s t : State} (h : step s = .next t) :
    t = s ∨ ∃ x rest, s.inputs = x :: rest ∧ takeInput x { s with inputs := rest } = .next t := by
  unfold step at h
  split at h
  · exact .inl (Host.Outcome.next.inj h).symm
  · exact .inr ⟨_, _, ‹_›, h⟩

/-- An operation presented that answers was decoded and executed. -/
theorem presentOp_next {p : PortOp} {s t : State} (h : presentOp p s = .next t) :
    ∃ i, decode p = .ok i ∧ exec i (latchPort p s) = .next t := by
  unfold presentOp at h
  split at h
  · cases h
  · exact ⟨_, ‹_›, h⟩

/-- The reset event that answers. -/
theorem resetEvent_next {s t : State} (h : resetEvent s = .next t) :
    s.busy = false ∧ s.hdepth = false ∧ t = { State.initial s.cfg with
      deadline := s.host.now
      store := s.store
      mem := s.mem
      host := s.host
      inputs := s.inputs } := by
  unfold resetEvent at h
  split at h
  · cases h
  · rename_i hb
    simp only [Bool.or_eq_true, not_or, Bool.not_eq_true] at hb
    exact ⟨hb.1, hb.2, (Host.Outcome.next.inj h).symm⟩

/-- A store of the platform that answers. -/
theorem platformStore_next {addr : Word} {b : Byte} {s t : State} (h : platformStore addr b s = .next t) :
    inRegset addr = false ∧ t = { s with mem := s.mem.write addr.toNat b } := by
  unfold platformStore at h
  split at h
  · cases h
  · exact ⟨by simpa using ‹¬ inRegset addr = true›, (Host.Outcome.next.inj h).symm⟩

/-! ### What a BUS word does -/

/-- The operation of a row is the general procedure at the row's address. -/
theorem exec_row {r : BusRow} (h : r ∈ busRows) (b : BusAccess) (s : State) :
    exec (r.make b) s = registerAccess r.base b s := by
  simp only [busRows, displaySoundRows, dma0Rows, dma1Rows, dma2Rows, dma3Rows, timerKeyIrqRows,
    List.cons_append, List.nil_append, List.mem_cons, List.not_mem_nil, or_false] at h
  rcases h with rfl | rfl | rfl | rfl | rfl | rfl | rfl | rfl | rfl | rfl | rfl | rfl | rfl | rfl | rfl | rfl | rfl |
    rfl | rfl | rfl | rfl | rfl | rfl | rfl | rfl | rfl | rfl | rfl | rfl | rfl | rfl <;> rfl

/-- An access at a bus address: the general procedure by direction, size, address and data (spec/40_register_access.md
R90). -/
def accessAt (dir : Dir) (size : AccessSize) (addr wdata : Word) (s : State) : Host.Outcome State Fault Refusal :=
  if !portFree s then .refused .operationWhileBusy
  else if !accessOk addr size then .refused .badRegisterAccess
  else
    match dir with
    | .read => outcomeOf (busRead size addr s)
    | .write => outcomeOf (busWrite size addr wdata s)

/-- What a BUS word that decodes does: an access at the address, of the size and direction, it gives. -/
theorem exec_bus {w : BitVec 67} {i : Instr} (h : decode (.bus w) = .ok i) :
    ∃ size, AccessSize.ofCode (busSizeCode w) = some size ∧
      ∀ s, exec i s = accessAt (busDir w) size (busAddr w) (busWdata w) s := by
  obtain ⟨size, r, hs, hr, ha, rfl⟩ := decodeBus_ok h
  refine ⟨size, hs, fun s => ?_⟩
  have e := congrArg busAddr (busWord_of_fields hr ha hs)
  rw [busAddr_busWord] at e
  rw [exec_row hr]
  unfold registerAccess accessAddr
  dsimp only
  rw [e]
  rfl

/-- Every even offset of the register window that lies in REGSET starts a cell. -/
theorem cells_cover : ∀ (i : Fin 17) (j : Fin 16),
    regsetRanges.any (fun r => decide (r.1 ≤ 32 * i.val + 2 * j.val) && decide (32 * i.val + 2 * j.val ≤ r.2)) = true →
    (cells.find? fun r => decide (r.1 = 32 * i.val + 2 * j.val)).isSome = true := by decide

/-- A 16-bit read at an even address of REGSET finds its cell (spec/20_memory.md R51, spec/10_state.md R34). -/
theorem cellAt_some {a : Word} (h : inRegset a = true) (h2 : a.toNat % 2 = 0) : ∃ c, cellAt a = some c := by
  have hb := inRegset_iff a |>.mp h
  obtain ⟨i, j, hk⟩ : ∃ (i : Fin 17) (j : Fin 16), a.toNat = 0x04000000 + (32 * i.val + 2 * j.val) :=
    ⟨⟨(a.toNat - 0x04000000) / 32, by omega⟩, ⟨(a.toNat - 0x04000000) % 32 / 2, by omega⟩, by simp only; omega⟩
  have e : Config.ioBase.toNat = 0x04000000 := rfl
  have hc := cells_cover i j (by
    unfold inRegset at h
    rw [hk, e] at h
    rw [List.any_eq_true] at h ⊢
    obtain ⟨r, hr, h⟩ := h
    refine ⟨r, hr, ?_⟩
    simp only [Bool.and_eq_true, decide_eq_true_eq] at h ⊢
    omega)
  unfold cellAt
  have hf : (fun r : Nat × Cell => decide (Config.ioBase.toNat + r.1 = a.toNat)) =
      fun r => decide (r.1 = 32 * i.val + 2 * j.val) := by
    funext r
    rw [hk, e]
    exact decide_eq_decide.mpr (by omega)
  rw [hf]
  obtain ⟨r, hr⟩ := Option.isSome_iff_exists.mp hc
  exact ⟨r.2, by rw [hr]; rfl⟩

/-- A register cell is two bytes. -/
theorem regset_pair {a : Word} (h : inRegset a = true) (h2 : a.toNat % 2 = 0) : inRegset (a + 1) = true := by
  rw [inRegset_iff] at *
  have e : (a + 1).toNat = a.toNat + 1 := by
    rw [BitVec.toNat_add, show (1 : Word).toNat = 1 from rfl]
    omega
  rw [e]
  omega

/-- A 16-bit access at an even address of REGSET is accepted. -/
theorem accessOk_half {a : Word} (h : inRegset a = true) (h2 : a.toNat % 2 = 0) : accessOk a .half = true := by
  have h1 := regset_pair h h2
  unfold accessOk
  simp only [sizeBytes, allInRegset, h, h1, h2]
  rfl

/-- A 32-bit access at a multiple of 4 whose two halves lie in REGSET is accepted. -/
theorem accessOk_word {a : Word} (h : inRegset a = true) (h' : inRegset (a + 2) = true) (h4 : a.toNat % 4 = 0) :
    accessOk a .word = true := by
  have e2 : (a + 2).toNat % 2 = 0 := by
    rw [BitVec.toNat_add, show (2 : Word).toNat = 2 from rfl]
    omega
  have h1 := regset_pair h (by omega)
  have h3 := regset_pair h' e2
  have e : a + 1 + 1 = a + 2 := by
    rw [BitVec.add_assoc]
    rfl
  unfold accessOk
  simp only [sizeBytes, allInRegset, h, h1, e, h', h3, h4]
  rfl

end Sys2Proof.Machine
end

