-- ==== Sys2Proof/Laws/Line.lean ====
section
/-! SUPPORT. Laws of whole line steps: where a handler is entered, line steps that end, what only the step of line
160 does, that BUSY and the port's wires do not matter to a line step, and the commands as runs of line steps. -/

namespace Sys2Proof.Machine

/-! ### Where a handler is entered -/

/-- Latching and clearing a flag, as a mask. -/
theorem clearFlag_setFlag (v m : BitVec 14) (src : Source) (hm : m = ~~~(1#14 <<< src.val)) :
    clearFlag (setFlag v src) src = v &&& m := by
  subst hm
  refine flags_ext fun j => ?_
  have e : flagOf (v &&& ~~~(1#14 <<< src.val)) j = flagOf (clearFlag v src) j := rfl
  rw [e, flagOf_clearFlag, flagOf_clearFlag, flagOf_setFlag]
  by_cases h : j = src <;> simp [h]

/-- The phases after one: none, or later phases up to the advance of the line. -/
theorem phasesAfter_split (p : Phase) : phasesAfter p = [] ∨
    ∃ ps, phasesAfter p = ps ++ [.p10] ∧ ∀ q ∈ ps, q ≠ .p10 ∧ phaseNumber p < phaseNumber q := by
  cases p
  case p10 => exact .inl rfl
  case p1 => exact .inr ⟨[.p2, .p3, .p4, .p5, .p6, .p7, .p8, .p9], rfl, by decide⟩
  case p2 => exact .inr ⟨[.p3, .p4, .p5, .p6, .p7, .p8, .p9], rfl, by decide⟩
  case p3 => exact .inr ⟨[.p4, .p5, .p6, .p7, .p8, .p9], rfl, by decide⟩
  case p4 => exact .inr ⟨[.p5, .p6, .p7, .p8, .p9], rfl, by decide⟩
  case p5 => exact .inr ⟨[.p6, .p7, .p8, .p9], rfl, by decide⟩
  case p6 => exact .inr ⟨[.p7, .p8, .p9], rfl, by decide⟩
  case p7 => exact .inr ⟨[.p8, .p9], rfl, by decide⟩
  case p8 => exact .inr ⟨[.p9], rfl, by decide⟩
  case p9 => exact .inr ⟨[], rfl, by decide⟩

/-- Control passes to a handler at one of the phases before P10, on the line the phases began on. -/
theorem runPhases_call_mem {cmd : TimingCmd} {ps : List Phase} {s t : State} (hps : ∀ p ∈ ps, p ≠ .p10)
    (h : runPhases cmd (ps ++ [.p10]) s = .call t) :
    ∃ p ∈ ps, ∃ u, u.line = s.line ∧ phaseFrame s u ∧ runPhase cmd p u = .call t := by
  induction ps generalizing s with
  | nil => simp [runPhases, runPhase] at h
  | cons p ps ih =>
    rw [List.cons_append, runPhases] at h
    split at h
    · rename_i u hu
      obtain ⟨p', hp', v, hv, hf, hc⟩ := ih (fun q hq => hps q (by simp [hq])) h
      refine ⟨p', by simp [hp'], v, ?_, phaseFrame_trans (runPhase_go hu) hf, hc⟩
      rw [hv, runPhase_line hu, if_neg (hps p (by simp))]
    · rename_i u hu
      obtain rfl := Flow.call.inj h
      exact ⟨p, by simp, s, rfl, phaseFrame_refl s, hu⟩
    · cases h

/-- Phases that end have the frame of a phase. -/
theorem runPhases_frame {cmd : TimingCmd} {ps : List Phase} {s t : State} (h : runPhases cmd ps s = .go t) :
    phaseFrame s t :=
  (runPhases_induct (phaseFrame s) cmd (fun _ _ _ hab ha => phaseFrame_trans ha (runPhase_go hab)) ps s
    (phaseFrame_refl s)).1 t h

/-- With the gate shut, phases end or are refused. -/
theorem runPhases_shut {cmd : TimingCmd} {ps : List Phase} {s : State} (h : s.ime = false) :
    (∃ t, runPhases cmd ps s = .go t ∧ t.ime = false ∧ t.hdepth = s.hdepth) ∨ ∃ r, runPhases cmd ps s = .stop r := by
  cases e : runPhases cmd ps s with
  | go t =>
    have f := (runPhases_frame e).1
    exact .inl ⟨t, rfl, by rw [f]; exact h, by rw [f]⟩
  | call t =>
    obtain ⟨p, -, u, hu, hc⟩ := (runPhases_induct (fun u => u.ime = false) cmd
      (fun p a b hab ha => by rw [(runPhase_go hab).1]; exact ha) ps s h).2 t e
    obtain ⟨src, ref, s0, -, -, -, hi, -⟩ := runPhase_call hc
    rw [hu] at hi
    cases hi
  | stop r => exact .inr ⟨r, rfl⟩

/-! ### Line steps that end -/

/-- No occurrence of any line step reaches a handler. -/
def allUnserved (s : State) : Prop :=
  unserved srcVcount s ∧ unserved srcHblank s ∧ unserved srcVblank s ∧ unserved srcKeypad s

theorem allUnserved_line {s : State} (h : allUnserved s) : lineUnserved s :=
  ⟨fun _ => h.1, fun _ => h.2.1, fun _ => ⟨h.2.2.1, fun _ => h.2.2.2⟩⟩

theorem dmaTrigger_armed {ev : Trigger} {s t : State} (h : dmaTrigger ev s = .ok t) : noneArmed s.dma t.dma :=
  fun n => (dmaTrigger_channel h n).2

/-- A phase keeps the setup of every channel, and arms none. -/
theorem runPhase_armed {cmd : TimingCmd} {p : Phase} {s t : State} (h : runPhase cmd p s = .go t) :
    noneArmed s.dma t.dma := by
  have raised : ∀ {src : Source} {a : State}, a.dma = s.dma → raiseIrq cmd p src a = .go t → noneArmed s.dma t.dma :=
    fun e h => by rcases raiseIrq_go h with rfl | rfl <;> (rw [← e]; exact noneArmed_refl _)
  have same : ∀ {a : State}, a.dma = s.dma → Flow.go a = .go t → noneArmed s.dma t.dma := fun e h => by
    obtain rfl := Flow.go.inj h
    rw [e]
    exact noneArmed_refl _
  cases p <;> simp only [runPhase] at h
  case p1 => split at h; exacts [raised (by rfl) h, same (by rfl) h]
  case p2 => split at h <;> exact same (by rfl) h
  case p3 => split at h; exacts [dmaTrigger_armed (flowOf_go.mp h), same (by rfl) h]
  case p4 => split at h; exacts [raised (by rfl) h, same (by rfl) h]
  case p5 => split at h; exacts [dmaTrigger_armed (flowOf_go.mp h), same (by rfl) h]
  case p6 => split at h; exacts [raised (by rfl) h, same (by rfl) h]
  case p7 => split at h; exacts [soundMixFrame_armed (s := emit .present s) (flowOf_go.mp h), same (by rfl) h]
  case p8 => split at h; exacts [same (by rw [(pacingWait_frame s).1]) h, same (by rfl) h]
  case p9 =>
    split at h
    · split at h; exacts [raised (by rfl) h, same (by rfl) h]
    · exact same (by rfl) h
  case p10 => exact same (by rfl) h

/-- So does a command in progress, up to its end or its first handler (spec/42_dma.md R140, R143). -/
theorem lineSteps_armed {cmd : TimingCmd} {more : Nat} {ps : List Phase} {s t : State}
    (h : lineSteps cmd more ps s = .next t) : noneArmed s.dma t.dma := by
  rcases lineSteps_induct (fun u => noneArmed s.dma u.dma) cmd
    (fun p a b hab ha => noneArmed_trans ha (runPhase_armed hab)) more ps s (noneArmed_refl _) h with
    ⟨u, hu, rfl⟩ | ⟨p, u, hu, hc⟩
  · exact hu
  · obtain ⟨src, ref, s0, -, hs0, -, -, -, rfl⟩ := runPhase_call hc
    rcases hs0 with rfl | ⟨-, rfl⟩ <;> exact hu

/-- A blanking trigger leaves the FIFO channels alone. -/
theorem feedsClear_after {s u : State} (h : dmaTrigger .vblank s = .ok u) (hf : feedsClear s) : feedsClear u := by
  intro n k he ht hk
  have hc : u.cfg = s.cfg := by rw [(dmaTrigger_frame h).1]
  have hn : armedFor .vblank s.dma[n] = false := by
    by_contra e
    have e := armedFor_iff.mp (by simpa using e)
    exact absurd (e.2.symm.trans ((sameSetup_trig (dmaTrigger_channel h n).2).symm.trans ht)) (by decide)
  rw [(dmaTrigger_channel h n).1 hn] at he ht ⊢
  exact hf n k he ht (by rw [← hc]; exact hk)

/-- A line step whose occurrences reach no handler and whose accesses are clear of the register window ends, and arms
no channel. -/
theorem allPhases_ends {cmd : TimingCmd} {s : State} (hu : lineUnserved s) (hc : lineClear s) :
    ∃ t, runPhases cmd allPhases s = .go t ∧ noneArmed s.dma t.dma := by
  obtain ⟨u1, u2, u3⟩ := hu
  rw [allPhases_after_p1 u1]
  rcases Nat.lt_trichotomy s.line.toNat 160 with h | h | h
  · obtain ⟨-, u, hu⟩ | ⟨no, -⟩ := dmaTrigger_cases .hblank { s with ifReg := vcountLatched s }
    · have a := dmaTrigger_armed hu
      exact ⟨_, runPhases_visible (by exact h) hu (by exact u2 h), a⟩
    · exact absurd (hc.1 h) no
  · obtain ⟨-, u, hu⟩ | ⟨no, -⟩ := dmaTrigger_cases .vblank { s with ifReg := vcountLatched s }
    · have hf : feedsClear u := feedsClear_after hu (hc.2 h).2
      rw [runPhases_vblank (by exact h) hu (by exact (u3 h).1)]
      obtain ⟨v, hv⟩ := soundMixFrame_completes (s := emit .present { s with
        ifReg := vcountLatched s ||| (s.ie &&& 0x0001#14), mem := u.mem, dma := u.dma }) (fun n k a b c => hf n k a b (by
          rw [(dmaTrigger_frame hu).1]; exact c))
      refine ⟨_, runPhases_flush (by exact h) hv (by exact (u3 h).2), ?_⟩
      have e : (afterFlush v).dma = v.dma := by
        show (pacingWait v).dma = v.dma
        rw [(pacingWait_frame v).1]
      rw [e]
      have a := dmaTrigger_armed hu
      have b := soundMixFrame_armed hv
      exact noneArmed_trans a b
    · exact absurd (hc.2 h).1 no
  · exact ⟨_, runPhases_blanking (by exact h), noneArmed_refl _⟩

/-- What a line step that ends keeps. -/
theorem allPhases_keeps {cmd : TimingCmd} {s t : State} (h : runPhases cmd allPhases s = .go t) :
    (∀ src, unserved src t ↔ unserved src s) ∧ t.vcmp = s.vcmp ∧ t.hdepth = s.hdepth ∧ t.line = nextLine s.line := by
  have f := (runPhases_frame h).1
  have e1 : t.ie = s.ie := by rw [f]
  have e2 : t.ime = s.ime := by rw [f]
  have e3 : t.vec = s.vec := by rw [f]
  refine ⟨fun src => ?_, by rw [f], by rw [f], allPhases_line h⟩
  unfold unserved
  rw [e1, e2, e3]

theorem allUnserved_keeps {cmd : TimingCmd} {s t : State} (h : runPhases cmd allPhases s = .go t) (hu : allUnserved s) :
    allUnserved t := by
  have k := (allPhases_keeps h).1
  exact ⟨(k _).mpr hu.1, (k _).mpr hu.2.1, (k _).mpr hu.2.2.1, (k _).mpr hu.2.2.2⟩

/-- Where no channel waits for a blanking trigger, a line step other than that of line 160 has no access to clear. -/
theorem lineClear_idle {s : State} (h : blankingIdle s) (hf : s.line.toNat = 160 → feedsClear s) : lineClear s :=
  ⟨fun _ n a b => absurd b (h n a).1, fun hl => ⟨fun n a b => absurd b (h n a).2, hf hl⟩⟩

theorem blankingIdle_after {s t : State} (h : noneArmed s.dma t.dma) (hi : blankingIdle s) : blankingIdle t :=
  fun n hn => by
    rw [sameSetup_trig (h n)]
    exact hi n ((h n).2 hn)

/-! ### What only the step of line 160 does -/

/-- Nothing of the VBlank effects has happened from one state to the other. -/
structure Quiet (s t : State) : Prop where
  events : ∃ evs, t.trace = s.trace ++ evs ∧ ∀ e ∈ evs, vblankEvent e = false
  keysnap : t.keysnap = s.keysnap
  mix : t.mix = s.mix
  mixn : t.mixn = s.mixn
  snd : t.snd = s.snd
  deadline : t.deadline = s.deadline

theorem Quiet.refl (s : State) : Quiet s s := ⟨⟨[], by simp⟩, rfl, rfl, rfl, rfl, rfl⟩

theorem Quiet.trans {s t u : State} (a : Quiet s t) (b : Quiet t u) : Quiet s u := by
  obtain ⟨x, hx, hx'⟩ := a.events
  obtain ⟨y, hy, hy'⟩ := b.events
  refine ⟨⟨x ++ y, by rw [hy, hx, List.append_assoc], fun e he => ?_⟩, b.keysnap.trans a.keysnap, b.mix.trans a.mix,
    b.mixn.trans a.mixn, b.snd.trans a.snd, b.deadline.trans a.deadline⟩
  rcases List.mem_append.mp he with h | h
  · exact hx' e h
  · exact hy' e h

/-- A state with the same trace. -/
theorem quiet_same {s t : State} (h : t.trace = s.trace) :
    ∃ evs, t.trace = s.trace ++ evs ∧ ∀ e ∈ evs, vblankEvent e = false := ⟨[], by simp [h]⟩

/-- A state whose trace is one event longer. -/
theorem quiet_emit {s t : State} {e : Event} (h : t.trace = s.trace ++ [e]) (he : vblankEvent e = false) :
    ∃ evs, t.trace = s.trace ++ evs ∧ ∀ e ∈ evs, vblankEvent e = false := ⟨[e], h, by simpa using he⟩

theorem Quiet.presents {s t : State} (h : Quiet s t) : presents t.trace = presents s.trace := by
  obtain ⟨evs, he, hv⟩ := h.events
  unfold Machine.presents
  rw [he, List.count_append, List.count_eq_zero.mpr fun hp => absurd (hv _ hp) (by decide), Nat.add_zero]

theorem presents_append (tr : List Event) {e : Event} (h : e ≠ .present) : presents (tr ++ [e]) = presents tr := by
  unfold presents
  rw [List.count_append, List.count_singleton]
  simp [h]

theorem raiseIrq_quiet {cmd : TimingCmd} {p : Phase} {src : Source} {s t : State}
    (h : raiseIrq cmd p src s = .go t) : Quiet s t := by
  rcases raiseIrq_go h with rfl | rfl <;> exact ⟨quiet_same rfl, rfl, rfl, rfl, rfl, rfl⟩

theorem runPhase_go_quiet {cmd : TimingCmd} {p : Phase} {s t : State} (hl : s.line.toNat ≠ 160)
    (h : runPhase cmd p s = .go t) : Quiet s t := by
  by_cases hp : p = .p5 ∨ p = .p6 ∨ p = .p7 ∨ p = .p8 ∨ p = .p9
  · rw [runPhase_not160 hp hl] at h
    obtain rfl := Flow.go.inj h
    exact .refl _
  · cases p <;> simp at hp <;> simp only [runPhase] at h
    case p1 =>
      split at h
      · exact raiseIrq_quiet h
      · obtain rfl := Flow.go.inj h
        exact .refl _
    case p2 =>
      split at h <;> obtain rfl := Flow.go.inj h
      · exact ⟨quiet_emit rfl rfl, rfl, rfl, rfl, rfl, rfl⟩
      · exact .refl _
    case p3 =>
      split at h
      · have f := (dmaTrigger_frame (flowOf_go.mp h)).1
        exact ⟨quiet_same (by rw [f]), by rw [f], by rw [f], by rw [f], by rw [f], by rw [f]⟩
      · obtain rfl := Flow.go.inj h
        exact .refl _
    case p4 =>
      split at h
      · exact raiseIrq_quiet h
      · obtain rfl := Flow.go.inj h
        exact .refl _
    case p10 =>
      obtain rfl := Flow.go.inj h
      exact ⟨quiet_same rfl, rfl, rfl, rfl, rfl, rfl⟩

theorem runPhase_call_quiet {cmd : TimingCmd} {p : Phase} {s t : State} (hl : s.line.toNat ≠ 160)
    (h : runPhase cmd p s = .call t) : Quiet s t := by
  by_cases hp : p = .p5 ∨ p = .p6 ∨ p = .p7 ∨ p = .p8 ∨ p = .p9
  · rw [runPhase_not160 hp hl] at h
    cases h
  · obtain ⟨src, ref, s0, -, hs0, -, -, -, rfl⟩ := runPhase_call h
    rcases hs0 with rfl | ⟨rfl, -⟩
    · exact ⟨quiet_emit rfl rfl, rfl, rfl, rfl, rfl, rfl⟩
    · simp at hp

/-- The phases up to P10, from a line other than 160. -/
theorem runPhases_quiet {cmd : TimingCmd} {ps : List Phase} {s : State} (hl : s.line.toNat ≠ 160)
    (hps : ∀ p ∈ ps, p ≠ .p10) :
    (∀ t, runPhases cmd (ps ++ [.p10]) s = .go t → Quiet s t) ∧
      (∀ t, runPhases cmd (ps ++ [.p10]) s = .call t → Quiet s t) := by
  induction ps generalizing s with
  | nil =>
    refine ⟨fun t h => ?_, fun t h => ?_⟩
    · obtain rfl := Flow.go.inj h
      exact ⟨quiet_same rfl, rfl, rfl, rfl, rfl, rfl⟩
    · cases h
  | cons p ps ih =>
    rw [List.cons_append, runPhases]
    cases e : runPhase cmd p s with
    | go u =>
      have hlu : u.line.toNat ≠ 160 := by
        rw [runPhase_line e, if_neg (hps p (by simp))]
        exact hl
      have q := runPhase_go_quiet hl e
      obtain ⟨a, b⟩ := ih hlu (fun q hq => hps q (by simp [hq]))
      exact ⟨fun t h => q.trans (a t h), fun t h => q.trans (b t h)⟩
    | call u =>
      refine ⟨?_, ?_⟩
      · intro t h
        cases h
      · intro t h
        obtain rfl := Flow.call.inj h
        exact runPhase_call_quiet hl e
    | stop r =>
      refine ⟨?_, ?_⟩
      · intro t h
        cases h
      · intro t h
        cases h

theorem submit_presents (s : State) : presents (submit s).trace = presents s.trace := by
  show presents ((s.trace ++ [.capture _]) ++ [.audio _]) = _
  rw [presents_append _ (by simp), presents_append _ (by simp)]

/-- A phase presents a frame iff it is P7 of line 160 (spec/41_timing_engine.md R125). -/
theorem runPhase_presents {cmd : TimingCmd} {p : Phase} {s t : State} (h : runPhase cmd p s = .go t) :
    presents t.trace = presents s.trace + if p = .p7 ∧ s.line.toNat = 160 then 1 else 0 := by
  by_cases hl : s.line.toNat = 160
  · cases p <;> simp only [runPhase] at h
    case p7 =>
      rw [if_pos (by exact hl)] at h
      have h' := flowOf_go.mp h
      unfold soundMixFrame at h'
      simp only [bind_eq_ok] at h'
      obtain ⟨u, hu, h'⟩ := h'
      obtain rfl := Except.ok.inj h'
      rw [submit_presents, mixFrame_frame hu]
      simp [hl, presents, emit]
    case p1 =>
      split at h
      · rw [(raiseIrq_quiet h).presents]; simp
      · obtain rfl := Flow.go.inj h; simp
    case p2 => split at h <;> obtain rfl := Flow.go.inj h <;> simp [presents, emit]
    case p3 =>
      split at h
      · rw [(dmaTrigger_frame (flowOf_go.mp h)).1]; simp
      · obtain rfl := Flow.go.inj h; simp
    case p4 =>
      split at h
      · rw [(raiseIrq_quiet h).presents]; simp
      · obtain rfl := Flow.go.inj h; simp
    case p5 =>
      split at h
      · rw [(dmaTrigger_frame (flowOf_go.mp h)).1]; simp
      · obtain rfl := Flow.go.inj h; simp
    case p6 =>
      split at h
      · rw [(raiseIrq_quiet h).presents]; simp
      · obtain rfl := Flow.go.inj h; simp
    case p8 =>
      split at h <;> obtain rfl := Flow.go.inj h
      · have e : presents (pacingWait s).trace = presents s.trace := by
          unfold pacingWait
          dsimp only
          split_ifs <;> simp [presents, emit]
        rw [e]
        simp
      · simp
    case p9 =>
      split at h
      · split at h
        · rw [(raiseIrq_quiet h).presents]; simp [pollKeys]
        · obtain rfl := Flow.go.inj h; simp [pollKeys]
      · obtain rfl := Flow.go.inj h; simp
    case p10 => obtain rfl := Flow.go.inj h; simp
  · rw [(runPhase_go_quiet hl h).presents]
    simp [hl]

/-- The phases up to P10 present a frame for each P7 among them, on line 160. -/
theorem runPhases_presents {cmd : TimingCmd} {ps : List Phase} {s t : State} (hps : ∀ p ∈ ps, p ≠ .p10)
    (h : runPhases cmd ps s = .go t) :
    presents t.trace = presents s.trace + if s.line.toNat = 160 then ps.count .p7 else 0 := by
  induction ps generalizing s with
  | nil =>
    obtain rfl := Flow.go.inj h
    simp
  | cons p ps ih =>
    rw [runPhases] at h
    split at h
    · rename_i u hu
      rw [ih (fun q hq => hps q (by simp [hq])) h, runPhase_presents hu]
      have hlu : u.line = s.line := by rw [runPhase_line hu, if_neg (hps p (by simp))]
      rw [hlu, List.count_cons]
      by_cases e : p = .p7 <;> by_cases hl : s.line.toNat = 160 <;> simp [e, hl] <;> omega
    · cases h
    · cases h

/-! ### BUSY and the port's wires do not matter to a line step -/

/-- The state with BUSY and the port's wires replaced: what the end of one command and the start of the next
change. -/
def withPort (b : Bool) (q : CmdPort) (s : State) : State := { s with busy := b, port := q }

theorem dmaTrigger_withPort (b : Bool) (q : CmdPort) (ev : Trigger) (s : State) :
    dmaTrigger ev (withPort b q s) = (dmaTrigger ev s).map (withPort b q) := by
  rw [dmaTrigger_same (r := withPort b q s) (s := s) rfl rfl]
  cases e : dmaTrigger ev s with
  | error e => rfl
  | ok t =>
    show Except.ok _ = Except.ok _
    rw [(dmaTrigger_frame e).1]
    rfl

theorem soundMixFrame_withPort (b : Bool) (q : CmdPort) (s : State) :
    soundMixFrame (withPort b q s) = (soundMixFrame s).map (withPort b q) := by
  have h := soundMixFrame_withSound (withPort b q s) s
  rw [show withSound (withPort b q s) s = withPort b q s from rfl] at h
  rw [h]
  cases e : soundMixFrame s with
  | error e => rfl
  | ok t =>
    show Except.ok _ = Except.ok _
    rw [(soundMixFrame_frame e).1]
    rfl

/-- The frame's audio whatever BUSY is. -/
theorem soundMixFrame_busy (b : Bool) {s v : State} (h : soundMixFrame s = .ok v) :
    soundMixFrame { s with busy := b } = .ok { v with busy := b } := by
  have e : s.port = v.port := by rw [(soundMixFrame_frame h).1]
  have h' := soundMixFrame_withPort b s.port s
  rw [h] at h'
  refine Eq.trans h' ?_
  show Except.ok (withPort b s.port v) = _
  rw [e]
  rfl

theorem soundMixFrame_busy_refused (b : Bool) {s : State} {e : Refusal} (h : soundMixFrame s = .error e) :
    soundMixFrame { s with busy := b } = .error e := by
  have h' := soundMixFrame_withPort b s.port s
  rw [h] at h'
  exact h'

theorem pacingWait_busy (b : Bool) (v : State) : pacingWait { v with busy := b } = { pacingWait v with busy := b } := by
  unfold pacingWait
  dsimp only
  split_ifs <;> rfl

theorem afterFlush_busy (b : Bool) (v : State) : afterFlush { v with busy := b } = { afterFlush v with busy := b } := by
  unfold afterFlush
  rw [pacingWait_busy]

/-- What the rest of a frame keeps. -/
theorem afterFlush_kept (v : State) : (afterFlush v).busy = v.busy ∧ (afterFlush v).port = v.port ∧
    (afterFlush v).hdepth = v.hdepth := by
  have g := (pacingWait_frame v).1
  refine ⟨?_, ?_, ?_⟩
  · show (pacingWait v).busy = _
    rw [g]
  · show (pacingWait v).port = _
    rw [g]
  · show (pacingWait v).hdepth = _
    rw [g]

/-- How a phase ends, with BUSY and the port's wires replaced, and the command that a handler suspends. -/
def Flow.withPort (b : Bool) (q : CmdPort) (c : TimingCmd) : Flow → Flow
  | .go s => .go (Machine.withPort b q s)
  | .call s => .call { Machine.withPort b q s with susp := s.susp.map fun x => { x with cmd := c } }
  | .stop r => .stop r

theorem flowOf_withPort (b : Bool) (q : CmdPort) (c : TimingCmd) (r : Except Refusal State) :
    flowOf (r.map (withPort b q)) = (flowOf r).withPort b q c := by
  cases r <;> rfl

theorem raiseIrq_withPort (b : Bool) (q : CmdPort) (c c' : TimingCmd) (p : Phase) (src : Source) (s : State) :
    raiseIrq c p src (withPort b q s) = (raiseIrq c' p src s).withPort b q c := by
  by_cases h : unserved src s
  · rw [raiseIrq_unserved h, raiseIrq_unserved (by exact h)]
    rfl
  · obtain ⟨ref, hr⟩ : ∃ ref, served src ref s := by
      obtain ⟨h1, h2⟩ := not_or.mp h
      obtain ⟨h2, h3⟩ := not_or.mp h2
      obtain ⟨ref, hv⟩ := Option.ne_none_iff_exists'.mp h3
      exact ⟨ref, by simpa using h1, by simpa using h2, hv⟩
    rw [raiseIrq_served hr, raiseIrq_served (ref := ref) (by exact hr)]
    rfl

/-- A phase does the same whichever command runs it, BUSY and the port's wires carried along. -/
theorem runPhase_withPort (b : Bool) (q : CmdPort) (c c' : TimingCmd) (p : Phase) (s : State) :
    runPhase c p (withPort b q s) = (runPhase c' p s).withPort b q c := by
  cases p <;> simp only [runPhase]
  case p1 =>
    show (if s.line = s.vcmp then _ else _) = _
    rw [raiseIrq_withPort b q c c']
    split <;> rfl
  case p2 =>
    show (if visible s.line = true then _ else _) = _
    split <;> rfl
  case p3 =>
    show (if visible s.line = true then _ else _) = _
    rw [dmaTrigger_withPort, flowOf_withPort b q c]
    split <;> rfl
  case p4 =>
    show (if visible s.line = true then _ else _) = _
    rw [raiseIrq_withPort b q c c']
    split <;> rfl
  case p5 =>
    show (if s.line.toNat = Config.vblankLine then _ else _) = _
    rw [dmaTrigger_withPort, flowOf_withPort b q c]
    split <;> rfl
  case p6 =>
    show (if s.line.toNat = Config.vblankLine then _ else _) = _
    rw [raiseIrq_withPort b q c c']
    split <;> rfl
  case p7 =>
    show (if s.line.toNat = Config.vblankLine then flowOf (soundMixFrame (withPort b q (emit .present s))) else _) = _
    rw [soundMixFrame_withPort, flowOf_withPort b q c]
    split <;> rfl
  case p8 =>
    show (if s.line.toNat = Config.vblankLine then _ else _) = _
    have e : pacingWait (withPort b q s) = withPort b q (pacingWait s) := by
      unfold pacingWait
      dsimp only
      show (if s.host.fastForward = true then _ else
        if s.host.now < s.deadline + Config.framePeriod then _ else
        if Config.framePeriod < s.host.now - (s.deadline + Config.framePeriod) then _ else _) = _
      split_ifs <;> rfl
    rw [e]
    split <;> rfl
  case p9 =>
    show (if s.line.toNat = Config.vblankLine then
      (if ((pollKeys s).kirqEn && keypadCondition (pollKeys s).kand (pollKeys s).kwatch (pollKeys s).keysnap) = true
        then raiseIrq c .p9 srcKeypad (withPort b q (pollKeys s)) else .go (withPort b q (pollKeys s))) else _) = _
    rw [raiseIrq_withPort b q c c']
    split_ifs <;> rfl
  case p10 => rfl

theorem runPhases_withPort (b : Bool) (q : CmdPort) (c c' : TimingCmd) (ps : List Phase) (s : State) :
    runPhases c ps (withPort b q s) = (runPhases c' ps s).withPort b q c := by
  induction ps generalizing s with
  | nil => rfl
  | cons p ps ih =>
    rw [runPhases, runPhases, runPhase_withPort b q c c' p s]
    cases e : runPhase c' p s with
    | go t => exact ih t
    | call t => rfl
    | stop r => rfl

/-! ### The line steps of VSYNC -/

/-- One more line step allowed to VSYNC makes no difference where line 160 is in reach (spec/41_timing_engine.md
R131). -/
theorem lineSteps_vsync_succ {n : Nat} {s : State} (hn : (387 - s.line.toNat) % 228 ≤ n) :
    lineSteps .vsync (n + 1) allPhases s = lineSteps .vsync n allPhases s := by
  have hl := s.line.isLt
  induction n generalizing s with
  | zero =>
    rw [lineSteps, lineSteps]
    cases e : runPhases .vsync allPhases s with
    | go t =>
      have hd : commandDone .vsync t = true := by
        rw [commandDone, decide_eq_true_iff, allPhases_line e, nextLine_toNat]
        show _ = 160
        omega
      dsimp only
      rw [if_pos hd]
    | call t => rfl
    | stop r => rfl
  | succ n ih =>
    rw [lineSteps, lineSteps.eq_2]
    cases e : runPhases .vsync allPhases s with
    | go t =>
      have ht : t.line.toNat = (s.line.toNat + 1) % 228 := by rw [allPhases_line e, nextLine_toNat]
      dsimp only
      by_cases hd : commandDone .vsync t = true
      · rw [if_pos hd, if_pos hd]
      · rw [if_neg hd, if_neg hd]
        rw [commandDone, decide_eq_true_iff] at hd
        have hd : t.line.toNat ≠ 160 := hd
        exact ih (by omega) t.line.isLt
    | call t => rfl
    | stop r => rfl

/-! ### The commands and their line steps -/

/-- HALT and VSYNC in the main flow are the line steps of their command. -/
theorem exec_timingOp (cmd : TimingCmd) {s : State} (h : mainFlow s) :
    exec (timingOp cmd) s = lineSteps cmd 227 allPhases (beginCommand s) := by
  cases cmd <;> exact timingCommand_mainFlow h

/-- A command is suspended where a phase of its first line step enters a handler. -/
theorem lineSteps_call {cmd : TimingCmd} {more : Nat} {ps : List Phase} {s t : State}
    (h : runPhases cmd ps s = .call t) : lineSteps cmd more ps s = .next t := by
  cases more <;> (unfold lineSteps; rw [h])

/-- A command is refused where a phase of its first line step is. -/
theorem lineSteps_stop {cmd : TimingCmd} {more : Nat} {ps : List Phase} {s : State} {r : Refusal}
    (h : runPhases cmd ps s = .stop r) : lineSteps cmd more ps s = .refused r := by
  cases more <;> (unfold lineSteps; rw [h])

/-- What the entry of a handler keeps, and what it suspends. -/
theorem runPhases_called {cmd : TimingCmd} {ps : List Phase} {s t : State} (h : runPhases cmd ps s = .call t) :
    t.busy = s.busy ∧ t.port = s.port ∧ t.hdepth = true ∧ ∃ x, t.susp = some x ∧ x.cmd = cmd := by
  obtain ⟨p, -, v, hv, hc⟩ := (runPhases_induct (phaseFrame s) cmd
    (fun _ _ _ hab ha => phaseFrame_trans ha (runPhase_go hab)) _ _ (phaseFrame_refl s)).2 _ h
  obtain ⟨src, ref, s0, -, h0, -, -, -, rfl⟩ := runPhase_call hc
  refine ⟨?_, ?_, rfl, _, rfl, rfl⟩ <;> rcases h0 with rfl | ⟨-, rfl⟩
  · show s0.busy = _
    rw [hv.1]
  · show v.busy = _
    rw [hv.1]
  · show s0.port = _
    rw [hv.1]
  · show v.port = _
    rw [hv.1]

/-- HALT between the line steps of a VSYNC: its line step is the VSYNC's (spec/41_timing_engine.md R131). -/
theorem exec_halt_withPort {s : State} (hd : s.hdepth = false) (q : CmdPort) :
    exec .halt (withPort false q s) =
      match runPhases .vsync allPhases s with
      | .go t => .next (withPort false { q with res := 0 } t)
      | .call t => .next { withPort true q t with susp := t.susp.map fun x => { x with cmd := .halt } }
      | .stop r => .refused r := by
  have h := exec_timingOp .halt (s := withPort false q s) ⟨rfl, hd⟩
  rw [lineSteps_halt, show beginCommand (withPort false q s) = withPort true q s from rfl,
    runPhases_withPort true q .halt .vsync] at h
  refine h.trans ?_
  cases runPhases .vsync allPhases s <;> rfl

end Sys2Proof.Machine
end

