-- ==== Sys2Proof/Laws/PerInstr.lean ====
section
/-! SUPPORT. The per-instruction family TableRow: the encoding of each operation lies in its row of the opcode table. -/

namespace Sys2Proof.Laws

/-- An operation's encoding is a word of its row: a command's has a zero `zero` field and no register access in it; a
register operation that is well formed has an address its row matches (spec/30_encoding.md R71, R72, R76). -/
def TableRow.Statement (i : Instr) : Prop :=
  match encode i with
  | .cmd w => cmdZero w = 0 ∧ Machine.accessOf i = none
  | .bus w => ∃ r ∈ busRows, (∃ a, i = r.make a) ∧ (WellFormed i = true → r.hits (busAddr w) = true)

/-- The rows of the register window, from the row's number. -/
theorem tableRow_of_row (k : Fin 31) (a : BusAccess)
    (h : WellFormed ((rowAt k).make a) = true → (rowAt k).hits ((rowAt k).base + a.off.setWidth 32) = true) :
    TableRow.Statement ((rowAt k).make a) := by
  have hm : rowAt k ∈ busRows := List.getElem_mem _
  unfold TableRow.Statement
  rw [(busRow_make hm a).1]
  exact ⟨rowAt k, hm, ⟨a, rfl⟩, fun hw => by rw [busAddr_busWord]; exact h hw⟩

theorem tableRow_cell16 : ∀ (k : Fin 31) (o : BitVec 2), (rowAt k).mask = 0xFFFFFFFE#32 →
    o.toNat < 2 → (rowAt k).hits ((rowAt k).base + o.setWidth 32) = true := by decide

theorem tableRow_cell32 : ∀ (k : Fin 31) (o : BitVec 2), (rowAt k).mask = 0xFFFFFFFC#32 →
    (rowAt k).hits ((rowAt k).base + o.setWidth 32) = true := by decide

namespace TableRow

theorem halt : Statement .halt := ⟨rfl, rfl⟩

theorem vsync : Statement .vsync := ⟨rfl, rfl⟩

theorem cpuset (src dst control : Word) : Statement (.cpuset src dst control) := ⟨cmdZero_cmdWord _ _ _ _, rfl⟩

theorem cpufastset (src dst control : Word) : Statement (.cpufastset src dst control) := ⟨cmdZero_cmdWord _ _ _ _, rfl⟩

theorem lz77 (src dst : Word) : Statement (.lz77 src dst) := ⟨cmdZero_cmdWord _ _ _ _, rfl⟩

theorem diff8 (src dst : Word) : Statement (.diff8 src dst) := ⟨cmdZero_cmdWord _ _ _ _, rfl⟩

theorem diff16 (src dst : Word) : Statement (.diff16 src dst) := ⟨cmdZero_cmdWord _ _ _ _, rfl⟩

theorem sramRead (dest offset length : Word) : Statement (.sramRead dest offset length) := ⟨cmdZero_cmdWord _ _ _ _, rfl⟩

theorem sramWrite (offset src length : Word) : Statement (.sramWrite offset src length) := ⟨cmdZero_cmdWord _ _ _ _, rfl⟩

theorem irqSetHandler (source ref : Word) : Statement (.irqSetHandler source ref) := ⟨cmdZero_cmdWord _ _ _ _, rfl⟩

theorem regDispstat (a : BusAccess) : Statement (.regDispstat a) :=
  tableRow_of_row 0 a fun h => tableRow_cell16 0 a.off rfl (of_decide_eq_true h)

theorem regVcount (a : BusAccess) : Statement (.regVcount a) :=
  tableRow_of_row 1 a fun h => tableRow_cell16 1 a.off rfl (of_decide_eq_true h)

theorem regSoundcntH (a : BusAccess) : Statement (.regSoundcntH a) :=
  tableRow_of_row 2 a fun h => tableRow_cell16 2 a.off rfl (of_decide_eq_true h)

theorem regSoundcntX (a : BusAccess) : Statement (.regSoundcntX a) :=
  tableRow_of_row 3 a fun h => tableRow_cell16 3 a.off rfl (of_decide_eq_true h)

theorem regFifoA (a : BusAccess) : Statement (.regFifoA a) :=
  tableRow_of_row 4 a fun _ => tableRow_cell32 4 a.off rfl

theorem regFifoB (a : BusAccess) : Statement (.regFifoB a) :=
  tableRow_of_row 5 a fun _ => tableRow_cell32 5 a.off rfl

theorem regDma0Sad (a : BusAccess) : Statement (.regDma0Sad a) :=
  tableRow_of_row 6 a fun _ => tableRow_cell32 6 a.off rfl

theorem regDma0Dad (a : BusAccess) : Statement (.regDma0Dad a) :=
  tableRow_of_row 7 a fun _ => tableRow_cell32 7 a.off rfl

theorem regDma0CntL (a : BusAccess) : Statement (.regDma0CntL a) :=
  tableRow_of_row 8 a fun h => tableRow_cell16 8 a.off rfl (of_decide_eq_true h)

theorem regDma0CntH (a : BusAccess) : Statement (.regDma0CntH a) :=
  tableRow_of_row 9 a fun h => tableRow_cell16 9 a.off rfl (of_decide_eq_true h)

theorem regDma1Sad (a : BusAccess) : Statement (.regDma1Sad a) :=
  tableRow_of_row 10 a fun _ => tableRow_cell32 10 a.off rfl

theorem regDma1Dad (a : BusAccess) : Statement (.regDma1Dad a) :=
  tableRow_of_row 11 a fun _ => tableRow_cell32 11 a.off rfl

theorem regDma1CntL (a : BusAccess) : Statement (.regDma1CntL a) :=
  tableRow_of_row 12 a fun h => tableRow_cell16 12 a.off rfl (of_decide_eq_true h)

theorem regDma1CntH (a : BusAccess) : Statement (.regDma1CntH a) :=
  tableRow_of_row 13 a fun h => tableRow_cell16 13 a.off rfl (of_decide_eq_true h)

theorem regDma2Sad (a : BusAccess) : Statement (.regDma2Sad a) :=
  tableRow_of_row 14 a fun _ => tableRow_cell32 14 a.off rfl

theorem regDma2Dad (a : BusAccess) : Statement (.regDma2Dad a) :=
  tableRow_of_row 15 a fun _ => tableRow_cell32 15 a.off rfl

theorem regDma2CntL (a : BusAccess) : Statement (.regDma2CntL a) :=
  tableRow_of_row 16 a fun h => tableRow_cell16 16 a.off rfl (of_decide_eq_true h)

theorem regDma2CntH (a : BusAccess) : Statement (.regDma2CntH a) :=
  tableRow_of_row 17 a fun h => tableRow_cell16 17 a.off rfl (of_decide_eq_true h)

theorem regDma3Sad (a : BusAccess) : Statement (.regDma3Sad a) :=
  tableRow_of_row 18 a fun _ => tableRow_cell32 18 a.off rfl

theorem regDma3Dad (a : BusAccess) : Statement (.regDma3Dad a) :=
  tableRow_of_row 19 a fun _ => tableRow_cell32 19 a.off rfl

theorem regDma3CntL (a : BusAccess) : Statement (.regDma3CntL a) :=
  tableRow_of_row 20 a fun h => tableRow_cell16 20 a.off rfl (of_decide_eq_true h)

theorem regDma3CntH (a : BusAccess) : Statement (.regDma3CntH a) :=
  tableRow_of_row 21 a fun h => tableRow_cell16 21 a.off rfl (of_decide_eq_true h)

theorem regTm0CntL (a : BusAccess) : Statement (.regTm0CntL a) :=
  tableRow_of_row 22 a fun h => tableRow_cell16 22 a.off rfl (of_decide_eq_true h)

theorem regTm0CntH (a : BusAccess) : Statement (.regTm0CntH a) :=
  tableRow_of_row 23 a fun h => tableRow_cell16 23 a.off rfl (of_decide_eq_true h)

theorem regTm1CntL (a : BusAccess) : Statement (.regTm1CntL a) :=
  tableRow_of_row 24 a fun h => tableRow_cell16 24 a.off rfl (of_decide_eq_true h)

theorem regTm1CntH (a : BusAccess) : Statement (.regTm1CntH a) :=
  tableRow_of_row 25 a fun h => tableRow_cell16 25 a.off rfl (of_decide_eq_true h)

theorem regKeyinput (a : BusAccess) : Statement (.regKeyinput a) :=
  tableRow_of_row 26 a fun h => tableRow_cell16 26 a.off rfl (of_decide_eq_true h)

theorem regKeycnt (a : BusAccess) : Statement (.regKeycnt a) :=
  tableRow_of_row 27 a fun h => tableRow_cell16 27 a.off rfl (of_decide_eq_true h)

theorem regIe (a : BusAccess) : Statement (.regIe a) :=
  tableRow_of_row 28 a fun h => tableRow_cell16 28 a.off rfl (of_decide_eq_true h)

theorem regIf (a : BusAccess) : Statement (.regIf a) :=
  tableRow_of_row 29 a fun h => tableRow_cell16 29 a.off rfl (of_decide_eq_true h)

theorem regIme (a : BusAccess) : Statement (.regIme a) :=
  tableRow_of_row 30 a fun h => tableRow_cell16 30 a.off rfl (of_decide_eq_true h)

end TableRow

end Sys2Proof.Laws
end

