-- ==== Sys2Proof/Laws/Transfer.lean ====
section
/-! SUPPORT. Laws of DMA transfers as copies: the addresses of the units of a transfer whose operands step, a stepping
transfer as a block copy, what the enable edge stores, and which channel supplies an audio channel. -/

namespace Sys2Proof.Machine

/-! ### Rounded addresses -/

theorem alignDown_two (x : Word) : (alignDown x 2).toNat = x.toNat / 2 * 2 := clear_bit0 x

theorem alignDown_four (x : Word) : (alignDown x 4).toNat = x.toNat / 4 * 4 := clear_bits10 x

theorem dmaWidth_cases (c : DmaChannel) : dmaWidth c = 2 ∨ dmaWidth c = 4 := by
  unfold dmaWidth unitBytes
  cases c.w32 <;> simp

/-- Rounding commutes with a step of whole units. -/
theorem alignDown_add (x : Word) {w : Nat} (j : Nat) (hw : w = 2 ∨ w = 4) :
    alignDown (x + BitVec.ofNat 32 (j * w)) w = alignDown x w + BitVec.ofNat 32 (j * w) := by
  apply BitVec.eq_of_toNat_eq
  have hx := x.isLt
  rcases hw with rfl | rfl
  · rw [alignDown_two, BitVec.toNat_add, BitVec.toNat_add, alignDown_two, BitVec.toNat_ofNat]
    omega
  · rw [alignDown_four, BitVec.toNat_add, BitVec.toNat_add, alignDown_four, BitVec.toNat_ofNat]
    omega

theorem unitSource_stepping {c : DmaChannel} (h : c.srcFixed = false) (j : Nat) :
    unitSource c j = alignDown c.isrc (dmaWidth c) + BitVec.ofNat 32 (j * dmaWidth c) := by
  unfold unitSource latchAfter
  rw [h]
  exact alignDown_add _ _ (dmaWidth_cases c)

theorem unitDest_stepping {c : DmaChannel} (h : c.dstFixed = false) (j : Nat) :
    unitDest c j = alignDown c.idst (dmaWidth c) + BitVec.ofNat 32 (j * dmaWidth c) := by
  unfold unitDest latchAfter
  rw [h]
  exact alignDown_add _ _ (dmaWidth_cases c)

/-- A transfer whose operands both step touches only the bytes of its two ranges. -/
theorem transferClear_stepping {c : DmaChannel} {k : Nat} (h1 : c.srcFixed = false) (h2 : c.dstFixed = false)
    (hs : clearOf (alignDown c.isrc (dmaWidth c)) (k * dmaWidth c))
    (hd : clearOf (alignDown c.idst (dmaWidth c)) (k * dmaWidth c)) : transferClear c k := by
  intro j hj
  have hle : (j + 1) * dmaWidth c ≤ k * dmaWidth c := Nat.mul_le_mul_right _ hj
  rw [Nat.succ_mul] at hle
  rw [unitSource_stepping h1, unitDest_stepping h2]
  exact ⟨clearOf_sub hs hle, clearOf_sub hd hle⟩

/-- A transfer whose operands both step is a block copy. -/
theorem dmaUnits_copies {c c' : DmaChannel} {k : Nat} {m m' : Memory} (h1 : c.srcFixed = false)
    (h2 : c.dstFixed = false) (h : dmaUnits k c m = .ok (c', m')) :
    copyUnits (dmaWidth c) k (alignDown c.isrc (dmaWidth c)) (alignDown c.idst (dmaWidth c)) m = .ok m' := by
  induction k generalizing c m with
  | zero =>
    simp only [dmaUnits, Except.ok.injEq, Prod.mk.injEq] at h
    rw [h.2]
    rfl
  | succ k ih =>
    simp only [dmaUnits, bind_eq_ok] at h
    obtain ⟨v, hv, m1, hm1, h⟩ := h
    have e : ∀ x : Word, alignDown (x + BitVec.ofNat 32 (dmaWidth c)) (dmaWidth c) =
        alignDown x (dmaWidth c) + BitVec.ofNat 32 (dmaWidth c) := fun x => by
      have := alignDown_add x 1 (dmaWidth_cases c)
      rwa [Nat.one_mul] at this
    have hrec := ih (c := dmaAdvance c) h1 h2 h
    simp only [dmaAdvance, h1, h2, Bool.false_eq_true, if_false] at hrec
    rw [copyUnits, hv, ok_bind, hm1, ok_bind, ← e, ← e]
    exact hrec

/-! ### What a transfer stores -/

/-- The first unit of a transfer and then the others. -/
theorem transfers_cons {c : DmaChannel} {k : Nat} {m m1 m' : Memory}
    (h0 : ∀ i, i < dmaWidth c →
      m1.read (unitDest c 0 + BitVec.ofNat 32 i).toNat = m.read (unitSource c 0 + BitVec.ofNat 32 i).toNat)
    (h1 : ∀ a, outside a (unitDest c 0) (dmaWidth c) → m1.read a = m.read a)
    (h : transfers (dmaAdvance c) k m1 m') : transfers c (k + 1) m m' := by
  induction k generalizing m' with
  | zero =>
    obtain rfl := h
    exact ⟨m, rfl, h0, h1⟩
  | succ k ih =>
    obtain ⟨m2, hm2, ha, hb⟩ := h
    refine ⟨m2, ih hm2, ?_, ?_⟩
    · rw [← unitSource_advance, ← unitDest_advance]
      exact ha
    · rw [← unitDest_advance]
      exact hb

/-- A transfer that is not refused stores its units, one after another (spec/42_dma.md R143). -/
theorem dmaUnits_transfers {k : Nat} {c c' : DmaChannel} {m m' : Memory} (hw : m.wf memBytes = true)
    (h : dmaUnits k c m = .ok (c', m')) : transfers c k m m' := by
  induction k generalizing c m with
  | zero =>
    simp only [dmaUnits, Except.ok.injEq, Prod.mk.injEq] at h
    exact h.2.symm
  | succ k ih =>
    simp only [dmaUnits, bind_eq_ok] at h
    obtain ⟨v, hv, m1, hm, hr⟩ := h
    refine transfers_cons (m1 := m1) (fun i hi => ?_) (fun a ha => ?_) (ih (memWrite_wf hm hw) hr)
    · rw [unitDest, unitSource, latchAfter_zero, latchAfter_zero]
      obtain ⟨-, rfl⟩ := memRead_eq_ok.mp hv
      obtain ⟨-, rfl⟩ := memWrite_eq_ok.mp hm
      exact read_moved hw _ _ (by have := dmaWidth_cases c; omega) hi
    · obtain ⟨-, rfl⟩ := memWrite_eq_ok.mp hm
      refine read_writeLE_other _ _ _ _ _ fun i hi => ?_
      have := ha i hi
      rwa [unitDest, latchAfter_zero] at this

/-! ### The control word -/

/-- The fields of the control word as bits of the bus word. -/
theorem withControl_low (v : Word) (c : DmaChannel) :
    withControl (lowHalf v) c = { c with
      dstFixed := v.getLsbD 6
      srcFixed := v.getLsbD 8
      rep := v.getLsbD 9
      w32 := v.getLsbD 10
      trig := triggerOf ((lowHalf v).extractLsb' 12 2)
      en := v.getLsbD 15 } := by
  simp only [withControl, lowHalf_bit v 6 (by norm_num), lowHalf_bit v 8 (by norm_num),
    lowHalf_bit v 9 (by norm_num), lowHalf_bit v 10 (by norm_num), lowHalf_bit v 15 (by norm_num)]

/-- The trigger a bus word selects, by its number. -/
theorem triggerOf_low (v : Word) : triggerCode (triggerOf ((lowHalf v).extractLsb' 12 2)) =
    BitVec.ofNat 2 (v.toNat / 0x1000) := by
  have e : (lowHalf v).extractLsb' 12 2 = BitVec.ofNat 2 (v.toNat / 0x1000) := by
    apply BitVec.eq_of_toNat_eq
    rw [extract_toNat, BitVec.toNat_ofNat, lowHalf, extract_toNat]
    omega
  rw [e]
  generalize BitVec.ofNat 2 (v.toNat / 0x1000) = x
  revert x
  decide

/-! ### Armed and supplying channels -/

theorem feeds_iff {c : Audio} {ch : DmaChannel} :
    feeds c ch = true ↔ ch.en = true ∧ ch.trig = .fifo ∧ ch.dad = fifoAddr c := by
  unfold feeds
  rw [Bool.and_eq_true, armedFor_iff, decide_eq_true_iff, and_assoc]

/-- The supplier is the lowest of the channels that feed the audio channel. -/
theorem supplier_lowest {c : Audio} {dma : Vector DmaChannel 4} {n : DmaIndex} (h : feeds c dma[n] = true)
    (hlt : ∀ k, k < n → feeds c dma[k] = false) : supplier c dma = some n := by
  have pos : ∀ (k : DmaIndex) l, feeds c dma[k] = true →
      List.find? (fun n : DmaIndex => feeds c dma[n]) (k :: l) = some k :=
    fun k l h => List.find?_cons_of_pos h
  have neg : ∀ (k : DmaIndex) l, feeds c dma[k] = false →
      List.find? (fun n : DmaIndex => feeds c dma[n]) (k :: l) =
        List.find? (fun n : DmaIndex => feeds c dma[n]) l :=
    fun k l h => List.find?_cons_of_neg (by rw [h]; decide)
  unfold supplier
  match n, h, hlt with
  | 0, h, _ => exact pos 0 _ h
  | 1, h, hlt => rw [neg 0 _ (hlt 0 (by decide))]; exact pos 1 _ h
  | 2, h, hlt => rw [neg 0 _ (hlt 0 (by decide)), neg 1 _ (hlt 1 (by decide))]; exact pos 2 _ h
  | 3, h, hlt =>
    rw [neg 0 _ (hlt 0 (by decide)), neg 1 _ (hlt 1 (by decide)), neg 2 _ (hlt 2 (by decide))]
    exact pos 3 _ h

theorem supplier_none {c : Audio} {dma : Vector DmaChannel 4} (h : ∀ n : DmaIndex, feeds c dma[n] = false) :
    supplier c dma = none := by
  unfold supplier
  rw [List.find?_eq_none]
  intro n _ hx
  rw [h n] at hx
  exact absurd hx (by decide)

/-! ### Ranges by their bounds -/

/-- A range wholly below or wholly above the register window is clear of it. -/
theorem clearOf_of_bounds {x : Word} {k : Nat} (h : x.toNat + k ≤ 2 ^ 32)
    (h' : x.toNat + k ≤ 0x04000000 ∨ 0x0400020A ≤ x.toNat) : clearOf x k := by
  intro i hi
  by_contra hc
  have hr := (inRegset_iff _).mp (by simpa using hc)
  have e : (x + BitVec.ofNat 32 i).toNat = x.toNat + i := by
    rw [BitVec.toNat_add, BitVec.toNat_ofNat]
    omega
  rw [e] at hr
  omega

/-- A range wholly below another shares no byte with it. -/
theorem apart_of_lt {x y : Word} {k n : Nat} (h : x.toNat + k ≤ y.toNat) (h' : y.toNat + n ≤ 2 ^ 32) : apart x k y n := by
  intro i j hi hj e
  have e' := congrArg BitVec.toNat e
  have := y.isLt
  rw [BitVec.toNat_add, BitVec.toNat_add, BitVec.toNat_ofNat, BitVec.toNat_ofNat] at e'
  omega

end Sys2Proof.Machine
end

