-- ==== Sys2Proof/Tests/Slice0.lean ====
section
/-! SUPPORT. Small tests. The expected values are from the spec's test vectors (spec/95_test_vectors.md, by their
numbers) or computed by hand from its rules; the words are written out from spec/30_encoding.md R71 and R72. The
witnesses at the end show, for each obligation with hypotheses, concrete operands that meet them. -/

namespace Sys2Proof.Tests

open Sys2Proof Sys2Proof.Machine

/-! ### Helpers -/

/-- The small parameters of spec/95_test_vectors.md section 2.6. -/
def tiny : Config := { Config.default with
    clocksPerFrame := 16, clocksPerSample := 4, samplesPerFrame := 4, bufCap := 4, mixCap := 4 }

/-- The reset state with the small parameters. -/
def start : State := State.initial tiny

/-- The bytes written one after another from an address. -/
def poke : List Byte → Nat → Memory → Memory
  | [], _, m => m
  | b :: bs, a, m => poke bs (a + 1) (m.write a b)

/-- The `n` bytes from an address. -/
def peek (m : Memory) (a n : Nat) : List Byte := (List.range n).map fun i => m.read (a + i)

/-- X of the vectors: an address of the guest's memory. -/
def atX : Nat := 0x02000000

/-- The state with these bytes from X. -/
def withBytes (bs : List Byte) : State := { start with mem := poke bs atX [] }

/-- MEM of section 2.4: 0x1111, 0x2222, 0x3333, 0x4444, 0x5555 from X. -/
def fives : State := withBytes [0x11, 0x11, 0x22, 0x22, 0x33, 0x33, 0x44, 0x44, 0x55, 0x55]

/-- What the outcome says of the next state; false where there is none. -/
def after (o : Host.Outcome State Fault Refusal) (f : State → Bool) : Bool :=
  match o with
  | .next t => f t
  | .fault _ => false
  | .refused _ => false

/-- There is a next state. -/
def answers (o : Host.Outcome State Fault Refusal) : Bool := after o fun _ => true

theorem answers_next {o : Host.Outcome State Fault Refusal} (h : answers o = true) : ∃ t, o = .next t := by
  cases o with
  | next t => exact ⟨t, rfl⟩
  | fault f => cases h
  | refused r => cases h

/-- The outcome is this refusal. -/
def refusedWith (o : Host.Outcome State Fault Refusal) (r : Refusal) : Bool :=
  match o with
  | .next _ => false
  | .fault _ => false
  | .refused r' => decide (r' = r)

/-- A 16-bit write of a register at its first byte. -/
def w16 (v : Word) : BusAccess := ⟨.write, .half, 0, v⟩

/-- A 16-bit read of a register at its first byte. -/
def r16 : BusAccess := ⟨.read, .half, 0, 0⟩

/-- The operation answers, and the register reads the value afterwards. -/
def readsBack (i : Instr) (s : State) (read : State → Half) (v : Half) : Bool :=
  after (exec i s) fun t => decide (read t = v)

/-- The read answers the value on `rdata`. -/
def answersData (i : Instr) (s : State) (v : Word) : Bool := after (exec i s) fun t => decide (t.rdata = v)

/-! ### Well-formedness: an ill-formed term for each check -/

theorem test_wellFormed_refuses_byte_2_of_16_bit_registers :
    ([
      .regDispstat ⟨.read, .half, 2, 0⟩, .regVcount ⟨.read, .half, 2, 0⟩, .regSoundcntH ⟨.read, .half, 2, 0⟩,
      .regSoundcntX ⟨.read, .half, 2, 0⟩, .regDma0CntL ⟨.read, .half, 2, 0⟩, .regDma0CntH ⟨.read, .half, 2, 0⟩,
      .regDma1CntL ⟨.read, .half, 2, 0⟩, .regDma1CntH ⟨.read, .half, 2, 0⟩, .regDma2CntL ⟨.read, .half, 2, 0⟩,
      .regDma2CntH ⟨.read, .half, 2, 0⟩, .regDma3CntL ⟨.read, .half, 2, 0⟩, .regDma3CntH ⟨.read, .half, 2, 0⟩,
      .regTm0CntL ⟨.read, .half, 2, 0⟩, .regTm0CntH ⟨.read, .half, 2, 0⟩, .regTm1CntL ⟨.read, .half, 2, 0⟩,
      .regTm1CntH ⟨.read, .half, 2, 0⟩, .regKeyinput ⟨.read, .half, 2, 0⟩, .regKeycnt ⟨.read, .half, 2, 0⟩,
      .regIe ⟨.read, .half, 2, 0⟩, .regIf ⟨.read, .half, 2, 0⟩, .regIme ⟨.read, .half, 2, 0⟩] : List Instr).all (fun i => !WellFormed i) = true := by decide

theorem test_wellFormed_accepts_byte_1_of_16_bit_registers :
    ([
      .regDispstat ⟨.write, .byte, 1, 0⟩, .regVcount ⟨.write, .byte, 1, 0⟩, .regSoundcntH ⟨.write, .byte, 1, 0⟩,
      .regSoundcntX ⟨.write, .byte, 1, 0⟩, .regDma0CntL ⟨.write, .byte, 1, 0⟩, .regDma0CntH ⟨.write, .byte, 1, 0⟩,
      .regDma1CntL ⟨.write, .byte, 1, 0⟩, .regDma1CntH ⟨.write, .byte, 1, 0⟩, .regDma2CntL ⟨.write, .byte, 1, 0⟩,
      .regDma2CntH ⟨.write, .byte, 1, 0⟩, .regDma3CntL ⟨.write, .byte, 1, 0⟩, .regDma3CntH ⟨.write, .byte, 1, 0⟩,
      .regTm0CntL ⟨.write, .byte, 1, 0⟩, .regTm0CntH ⟨.write, .byte, 1, 0⟩, .regTm1CntL ⟨.write, .byte, 1, 0⟩,
      .regTm1CntH ⟨.write, .byte, 1, 0⟩, .regKeyinput ⟨.write, .byte, 1, 0⟩, .regKeycnt ⟨.write, .byte, 1, 0⟩,
      .regIe ⟨.write, .byte, 1, 0⟩, .regIf ⟨.write, .byte, 1, 0⟩, .regIme ⟨.write, .byte, 1, 0⟩] : List Instr).all WellFormed = true := by decide

theorem test_wellFormed_accepts_byte_3_of_32_bit_registers :
    ([
      .regFifoA ⟨.read, .word, 3, 0⟩, .regFifoB ⟨.read, .word, 3, 0⟩, .regDma0Sad ⟨.read, .word, 3, 0⟩,
      .regDma0Dad ⟨.read, .word, 3, 0⟩, .regDma1Sad ⟨.read, .word, 3, 0⟩, .regDma1Dad ⟨.read, .word, 3, 0⟩,
      .regDma2Sad ⟨.read, .word, 3, 0⟩, .regDma2Dad ⟨.read, .word, 3, 0⟩, .regDma3Sad ⟨.read, .word, 3, 0⟩,
      .regDma3Dad ⟨.read, .word, 3, 0⟩] : List Instr).all WellFormed = true := by decide

/-! ### Decoding: every constructor, by a word written out from its encoding

A CMD word is 6 hexadecimal digits of `zero`, 2 of `op`, and three operands of 8; a BUS word is one digit for
dir and size (1 RD16, 2 RD32, 5 WR16, 6 WR32), 8 of the address and 8 of the data. -/

theorem test_decode_commands :
    decode (.cmd 0x00000002000000000000000000000000#128) = .ok .halt ∧
    decode (.cmd 0x00000005000000000000000000000000#128) = .ok .vsync ∧
    decode (.cmd 0x0000000B020000010200010301000004#128) = .ok (.cpuset 0x02000001 0x02000103 0x01000004) ∧
    decode (.cmd 0x0000000C02000010020000400000000B#128) = .ok (.cpufastset 0x02000010 0x02000040 0x0000000B) ∧
    decode (.cmd 0x00000011020001000200020000000000#128) = .ok (.lz77 0x02000100 0x02000200) ∧
    decode (.cmd 0x00000016020001100200021000000000#128) = .ok (.diff8 0x02000110 0x02000210) ∧
    decode (.cmd 0x00000018020001200200022000000000#128) = .ok (.diff16 0x02000120 0x02000220) ∧
    decode (.cmd 0x000000E002000000FFFFFFFF00000004#128) = .ok (.sramRead 0x02000000 0xFFFFFFFF 4) ∧
    decode (.cmd 0x000000E1000004000200020000000008#128) = .ok (.sramWrite 0x400 0x02000200 8) ∧
    decode (.cmd 0x000000E2000000000800010100000000#128) = .ok (.irqSetHandler 0 0x08000101) :=
  ⟨rfl, rfl, rfl, rfl, rfl, rfl, rfl, rfl, rfl, rfl⟩

theorem test_decode_display_and_sound :
    decode (.bus 0x5040000040000A500#67) = .ok (.regDispstat ⟨.write, .half, 0, 0x0000A500⟩) ∧
    decode (.bus 0x5040000060000A501#67) = .ok (.regVcount ⟨.write, .half, 0, 0x0000A501⟩) ∧
    decode (.bus 0x5040000820000A502#67) = .ok (.regSoundcntH ⟨.write, .half, 0, 0x0000A502⟩) ∧
    decode (.bus 0x5040000840000A503#67) = .ok (.regSoundcntX ⟨.write, .half, 0, 0x0000A503⟩) ∧
    decode (.bus 0x6040000A01234A504#67) = .ok (.regFifoA ⟨.write, .word, 0, 0x1234A504⟩) ∧
    decode (.bus 0x6040000A41234A505#67) = .ok (.regFifoB ⟨.write, .word, 0, 0x1234A505⟩) :=
  ⟨rfl, rfl, rfl, rfl, rfl, rfl⟩

theorem test_decode_dma_0_and_1 :
    decode (.bus 0x6040000B01234A500#67) = .ok (.regDma0Sad ⟨.write, .word, 0, 0x1234A500⟩) ∧
    decode (.bus 0x6040000B41234A501#67) = .ok (.regDma0Dad ⟨.write, .word, 0, 0x1234A501⟩) ∧
    decode (.bus 0x5040000B80000A502#67) = .ok (.regDma0CntL ⟨.write, .half, 0, 0x0000A502⟩) ∧
    decode (.bus 0x5040000BA0000A503#67) = .ok (.regDma0CntH ⟨.write, .half, 0, 0x0000A503⟩) ∧
    decode (.bus 0x6040000BC1234A504#67) = .ok (.regDma1Sad ⟨.write, .word, 0, 0x1234A504⟩) ∧
    decode (.bus 0x6040000C01234A505#67) = .ok (.regDma1Dad ⟨.write, .word, 0, 0x1234A505⟩) ∧
    decode (.bus 0x5040000C40000A506#67) = .ok (.regDma1CntL ⟨.write, .half, 0, 0x0000A506⟩) ∧
    decode (.bus 0x5040000C60000A507#67) = .ok (.regDma1CntH ⟨.write, .half, 0, 0x0000A507⟩) :=
  ⟨rfl, rfl, rfl, rfl, rfl, rfl, rfl, rfl⟩

theorem test_decode_dma_2_and_3 :
    decode (.bus 0x6040000C81234A500#67) = .ok (.regDma2Sad ⟨.write, .word, 0, 0x1234A500⟩) ∧
    decode (.bus 0x6040000CC1234A501#67) = .ok (.regDma2Dad ⟨.write, .word, 0, 0x1234A501⟩) ∧
    decode (.bus 0x5040000D00000A502#67) = .ok (.regDma2CntL ⟨.write, .half, 0, 0x0000A502⟩) ∧
    decode (.bus 0x5040000D20000A503#67) = .ok (.regDma2CntH ⟨.write, .half, 0, 0x0000A503⟩) ∧
    decode (.bus 0x6040000D41234A504#67) = .ok (.regDma3Sad ⟨.write, .word, 0, 0x1234A504⟩) ∧
    decode (.bus 0x6040000D81234A505#67) = .ok (.regDma3Dad ⟨.write, .word, 0, 0x1234A505⟩) ∧
    decode (.bus 0x5040000DC0000A506#67) = .ok (.regDma3CntL ⟨.write, .half, 0, 0x0000A506⟩) ∧
    decode (.bus 0x5040000DE0000A507#67) = .ok (.regDma3CntH ⟨.write, .half, 0, 0x0000A507⟩) :=
  ⟨rfl, rfl, rfl, rfl, rfl, rfl, rfl, rfl⟩

theorem test_decode_timers_keypad_interrupts :
    decode (.bus 0x5040001000000A500#67) = .ok (.regTm0CntL ⟨.write, .half, 0, 0x0000A500⟩) ∧
    decode (.bus 0x5040001020000A501#67) = .ok (.regTm0CntH ⟨.write, .half, 0, 0x0000A501⟩) ∧
    decode (.bus 0x5040001040000A502#67) = .ok (.regTm1CntL ⟨.write, .half, 0, 0x0000A502⟩) ∧
    decode (.bus 0x5040001060000A503#67) = .ok (.regTm1CntH ⟨.write, .half, 0, 0x0000A503⟩) ∧
    decode (.bus 0x5040001300000A504#67) = .ok (.regKeyinput ⟨.write, .half, 0, 0x0000A504⟩) ∧
    decode (.bus 0x5040001320000A505#67) = .ok (.regKeycnt ⟨.write, .half, 0, 0x0000A505⟩) ∧
    decode (.bus 0x5040002000000A506#67) = .ok (.regIe ⟨.write, .half, 0, 0x0000A506⟩) ∧
    decode (.bus 0x5040002020000A507#67) = .ok (.regIf ⟨.write, .half, 0, 0x0000A507⟩) ∧
    decode (.bus 0x5040002080000A508#67) = .ok (.regIme ⟨.write, .half, 0, 0x0000A508⟩) :=
  ⟨rfl, rfl, rfl, rfl, rfl, rfl, rfl, rfl, rfl⟩

/-- E7, E8, E14, a high half and a byte: direction, size and offset. -/
theorem test_decode_access_fields :
    decode (.bus 0x20400000400000000#67) = .ok (.regDispstat ⟨.read, .word, 0, 0⟩) ∧
    decode (.bus 0x50400020200000001#67) = .ok (.regIf ⟨.write, .half, 0, 1⟩) ∧
    decode (.bus 0x20400020000000000#67) = .ok (.regIe ⟨.read, .word, 0, 0⟩) ∧
    decode (.bus 0x1040000B200000000#67) = .ok (.regDma0Sad ⟨.read, .half, 2, 0⟩) ∧
    decode (.bus 0x40400020800000001#67) = .ok (.regIme ⟨.write, .byte, 0, 1⟩) ∧
    decode (.bus 0x50400020100000001#67) = .ok (.regIe ⟨.write, .half, 1, 1⟩) :=
  ⟨rfl, rfl, rfl, rfl, rfl, rfl⟩

/-- E9, E10, a reserved size code, and an address outside REGSET. -/
theorem test_decode_refuses :
    decode (.cmd 0x00000003000000000000000000000000#128) = .error .unassignedOpcode ∧
    decode (.cmd 0x01000002000000000000000000000000#128) = .error .nonzeroZeroField ∧
    decode (.bus 0x30400020000000000#67) = .error .reservedSize ∧
    decode (.bus 0x10300000000000000#67) = .error .notInRegset ∧
    decode (.bus 0x60400020A00000000#67) = .error .notInRegset :=
  ⟨rfl, rfl, rfl, rfl, rfl⟩

/-- The opcode-table form of a word of each port, and withFetchWord. -/
theorem test_table_words :
    decodeTableWord 128 0x00000002000000000000000000000000 = some .halt ∧
    decodeTableWord 67 0x50400020800000001 = some (.regIme ⟨.write, .half, 0, 1⟩) :=
  ⟨rfl, rfl⟩

theorem test_withFetchWord_runs :
    step (State.reset.withFetchWord 67 0x50400020800000001) = .next { State.reset with ime := true } := by rfl

/-! ### Reset -/

theorem test_reset_memories_canonical :
    State.reset.mem.wf memBytes = true ∧ State.reset.store.wf State.reset.cfg.storageSize = true := ⟨rfl, rfl⟩

/-- The three sizes by default, 280896 / 512 rounded down and up; the buffers hold a silent frame, here and in the small
parameters. -/
theorem test_default_parameters : Config.default.samplesPerFrame = 548 ∧ Config.default.bufCap = 549 ∧
    Config.default.mixCap = 549 ∧ capacitiesHold Config.default ∧ capacitiesHold tiny := by
  unfold capacitiesHold
  decide

/-! ### Register accesses (vectors A1 to A18; one step each) -/

theorem test_dispstat_write : readsBack (.regDispstat (w16 0xFFFF)) start readDispstat 0xFF00 = true := by decide

theorem test_dispstat_read_with_vcount :
    answersData (.regDispstat ⟨.read, .word, 0, 0⟩) { start with line := 3, vcmp := 7 } 0x00030700 = true := by decide

theorem test_vcount_write_ignored : readsBack (.regVcount (w16 0x00FF)) start readVcount 0x0000 = true := by decide

theorem test_soundcntH_write : readsBack (.regSoundcntH (w16 0xFFFF)) start readSoundcntH 0x770C = true := by decide

theorem test_soundcntH_resets_only_the_fifo_named :
    after (exec (.regSoundcntH (w16 0x4B04))
        { start with snd := Vector.replicate 2 { SoundDma.initial tiny with rem := 2, cur := 5, srcclk := 7 } })
      (fun t => decide (t.snd[0].rem = 0 ∧ t.snd[0].cur = 0 ∧ t.snd[0].srcclk = 7 ∧ t.snd[1].rem = 2 ∧
        t.snd[1].cur = 5)) = true := by decide

theorem test_soundcntX_write : readsBack (.regSoundcntX (w16 0xFFFF)) start readSoundcntX 0x0080 = true := by decide

theorem test_fifoA_read : answersData (.regFifoA ⟨.read, .word, 0, 0⟩) start 0 = true := by decide

theorem test_fifoB_write_ignored :
    after (exec (.regFifoB ⟨.write, .word, 0, 0x11223344⟩) start) (fun t => decide (t.snd = start.snd)) = true := by decide

theorem test_dma2sad_write :
    readsBack (.regDma2Sad ⟨.write, .word, 0, 0xFFFFFFFF⟩) start (readSad 2 false) 0xFFFF = true := by decide

theorem test_dma0cntH_drops_reserved_bits :
    readsBack (.regDma0CntH (w16 0x7F5F)) start (readCntH 0) 0x3740 = true := by decide

theorem test_dma0cntH_refuses_bits_5_and_7 :
    refusedWith (exec (.regDma0CntH (w16 0xFFFF)) start) .dmaModeNotInSource = true ∧
    refusedWith (exec (.regDma0CntH (w16 0x0020)) start) .dmaModeNotInSource = true := ⟨by decide, by decide⟩

theorem test_tm0cntL_write : readsBack (.regTm0CntL (w16 0x1234)) start (readTmL 0) 0x1234 = true := by decide

theorem test_tm1cntH_write : readsBack (.regTm1CntH (w16 0xFFFF)) start (readTmH 1) 0x0083 = true := by decide

theorem test_keyinput_write_ignored : readsBack (.regKeyinput (w16 0)) start readKeyinput 0x03FF = true := by decide

theorem test_keycnt_write : readsBack (.regKeycnt (w16 0xFFFF)) start readKeycnt 0xC3FF = true := by decide

theorem test_ie_write : readsBack (.regIe (w16 0xFFFF)) start readIe 0x3FFF = true := by decide

/-- A17: the high half of the word goes to IF, as an acknowledge. -/
theorem test_ie_word_write :
    after (exec (.regIe ⟨.write, .word, 0, 0xFFFF0001⟩) { start with ifReg := 0x3FFF })
      (fun t => decide (t.ie = 1 ∧ t.ifReg = 0)) = true := by decide

theorem test_if_write_sets_nothing : readsBack (.regIf (w16 0xFFFF)) start readIf 0x0000 = true := by decide

theorem test_if_acknowledges_one_flag :
    readsBack (.regIf (w16 0x0002)) { start with ifReg := 0x0007 } readIf 0x0005 = true := by decide

theorem test_ime_write : readsBack (.regIme (w16 0xFFFE)) start readIme 0x0000 = true := by decide

/-- E11, E12, E13. -/
theorem test_bad_accesses_refused :
    refusedWith (exec (.regIme ⟨.write, .byte, 0, 1⟩) start) .badRegisterAccess = true ∧
    refusedWith (exec (.regIe ⟨.write, .half, 1, 1⟩) start) .badRegisterAccess = true ∧
    refusedWith (exec (.regIme ⟨.read, .word, 0, 0⟩) start) .badRegisterAccess = true :=
  ⟨by decide, by decide, by decide⟩

/-! ### DMA (vectors D1, D2, D4, D5, D13, D15) -/

/-- A channel set up as the vectors do, not yet enabled. -/
def channel (sad dad : Word) (cnt : Half) : DmaChannel := { DmaChannel.initial with sad := sad, dad := dad, cnt := cnt }

theorem test_dma_immediate_copy :
    after (exec (.regDma3CntH (w16 0x8000))
        { fives with dma := fives.dma.set 3 (channel 0x02000000 0x02000010 2) })
      (fun t => decide (peek t.mem 0x02000010 5 = [0x11, 0x11, 0x22, 0x22, 0] ∧ t.dma[3].isrc = 0x02000004 ∧
        t.dma[3].idst = 0x02000014 ∧ readCntH 3 t = 0)) = true := by decide

theorem test_dma_overlap_replicates :
    after (exec (.regDma3CntH (w16 0x8000))
        { fives with dma := fives.dma.set 3 (channel 0x02000000 0x02000002 4) })
      (fun t => decide (peek t.mem 0x02000000 10 = List.replicate 10 0x11)) = true := by decide

theorem test_dma_word_units_are_aligned_down :
    after (exec (.regDma0CntH (w16 0x8400))
        { fives with dma := fives.dma.set 0 (channel 0x02000001 0x02000023 1) })
      (fun t => decide (peek t.mem 0x02000020 4 = [0x11, 0x11, 0x22, 0x22] ∧ t.dma[0].isrc = 0x02000005 ∧
        t.dma[0].idst = 0x02000027)) = true := by decide

theorem test_dma_into_the_register_window_refused :
    refusedWith (exec (.regDma0CntH (w16 0x8000))
      { fives with dma := fives.dma.set 0 (channel 0x02000000 0x04000200 1) }) .engineAccessToRegisters = true := by
  decide

/-- D15: the demand reads four bytes at the latch rounded down and steps the latch by 4. -/
theorem test_fifo_demand :
    (match fifoSupply 0 fives.mem (start.dma.set 1 { channel 0x02000002 0x040000A0 0 with
        en := true, trig := .fifo, rep := true, isrc := 0x02000002 }) with
      | .ok (some c, d) => decide (c = ⟨0x11, 0x11, 0x22, 0x22⟩ ∧ d[1].isrc = 0x02000006 ∧ d[1].en = true)
      | _ => false) = true := by decide

/-! ### Firmware calls (vectors F1, F5, F6, F9, L1, L3, L6, L8, L12) -/

theorem test_cpuset_fill :
    after (exec (.cpuset 0x02000001 0x02000103 0x01000004) (withBytes [0xEF, 0xBE]))
      (fun t => decide (peek t.mem 0x02000101 10 = [0, 0xEF, 0xBE, 0xEF, 0xBE, 0xEF, 0xBE, 0xEF, 0xBE, 0])) = true := by
  decide

theorem test_cpufastset_count_7_touches_nothing :
    after (exec (.cpufastset 0x02000000 0x02000100 0x01000007) fives) (fun t => decide (t.mem = fives.mem)) = true := by
  decide

theorem test_cpufastset_copies_8_of_11 :
    after (exec (.cpufastset 0x02000000 0x02000100 0x0000000B)
        (withBytes ((List.range 44).map fun i => BitVec.ofNat 8 (i + 1))))
      (fun t => decide (peek t.mem 0x0200011C 8 = [29, 30, 31, 32, 0, 0, 0, 0])) = true := by decide

theorem test_diff8 :
    after (exec (.diff8 0x02000000 0x02000100) (withBytes [0x81, 3, 0, 0, 5, 3, 0xFA]))
      (fun t => decide (peek t.mem 0x02000100 4 = [5, 8, 2, 0])) = true := by decide

theorem test_diff16 :
    after (exec (.diff16 0x02000000 0x02000100) (withBytes [0x82, 6, 0, 0, 0xFF, 0xFF, 2, 0, 1, 0]))
      (fun t => decide (peek t.mem 0x02000100 7 = [0xFF, 0xFF, 1, 0, 2, 0, 0])) = true := by decide

/-- What LZ77 writes at 0x02000100 and logs, for these bytes at X. -/
def lzGives (bs out : List Byte) (log : List Event) : Bool :=
  after (exec (.lz77 0x02000000 0x02000100) (withBytes bs)) fun t =>
    decide (peek t.mem 0x02000100 (out.length + 1) = out ++ [0] ∧ t.trace = log)

theorem test_lz77_decodes :
    lzGives [0x10, 5, 0, 0, 0, 0x48, 0x45, 0x4C, 0x4C, 0x4F] [0x48, 0x45, 0x4C, 0x4C, 0x4F] [] = true ∧
    lzGives [0x10, 8, 0, 0, 0x20, 0x41, 0x42, 0x30, 1] [0x41, 0x42, 0x41, 0x42, 0x41, 0x42, 0x41, 0x42] [] = true ∧
    lzGives [0x10, 9, 0, 0, 0, 0x31, 0x32, 0x33, 0x34, 0x35, 0x36, 0x37, 0x38, 0, 0x39]
      [0x31, 0x32, 0x33, 0x34, 0x35, 0x36, 0x37, 0x38, 0x39] [] = true :=
  ⟨by decide, by decide, by decide⟩

theorem test_lz77_aborts :
    lzGives [0x20, 4, 0, 0, 0, 0x41, 0x42, 0x43, 0x44] [] [.log .badType] = true ∧
    lzGives [0x10, 4, 0, 0, 0x40, 0x41, 0, 1] [] [.log .backref] = true := ⟨by decide, by decide⟩

/-! ### Storage (vectors G1, G2, G12, G13, G14) -/

/-- The status a command answers. -/
def answersStatus (i : Instr) (s : State) (res : Word) : Bool := after (exec i s) fun t => decide (t.port.res = res)

theorem test_sramWrite :
    answersStatus (.sramWrite 0xFFFFFFFF 0x02000000 0x10000) start 2 = true ∧
    answersStatus (.sramWrite 0xFFFFFFFF 0x02000000 0x10001) start 1 = true ∧
    after (exec (.sramWrite 5 0x02000000 3) fives)
      (fun t => decide (t.port.res = 0 ∧ peek t.store 4 5 = [0, 0x11, 0x11, 0x22, 0])) = true :=
  ⟨by decide, by decide, by decide⟩

theorem test_sramRead :
    answersStatus (.sramRead 0x02000100 0xFFFF 2) start 3 = true ∧
    after (exec (.sramRead 0x02000100 0xFFFF 1) { start with store := poke [0xAB] 0xFFFF [] })
      (fun t => decide (t.port.res = 0 ∧ peek t.mem 0x02000100 2 = [0xAB, 0])) = true := ⟨by decide, by decide⟩

/-! ### Interrupts and timing (vectors I1, I2, I4, I14, T2, T5, T8, T10) -/

/-- A state with handlers registered for VBLANK, HBLANK, VCOUNT and KEYPAD, the gate open. -/
def handlers (ie : BitVec 14) (line vcmp : BitVec 8) : State :=
  { start with
    vec := (((start.vec.set 0 (some 0xB)).set 1 (some 0x11)).set 2 (some 0xC)).set 12 (some 0xA)
    ie := ie
    ime := true
    line := line
    vcmp := vcmp }

theorem test_irqSetHandler :
    after (exec (.irqSetHandler 1 0x08000301) start)
      (fun t => decide (t.vec = start.vec.set 1 (some 0x08000301))) = true ∧
    after (exec (.irqSetHandler 14 0x08000301) start) (fun t => decide (t.vec = start.vec ∧ t.port.res = 0)) = true :=
  ⟨by decide, by decide⟩

/-- T2, T5 and T10. -/
theorem test_halt_trace :
    after (exec .halt { start with line := 227 }) (fun t => decide (t.line = 0 ∧ t.trace = [])) = true ∧
    after (exec .halt { start with line := 160 })
      (fun t => decide (t.line = 161 ∧ t.trace = [.present, .capture (List.replicate 4 (0, 0)),
        .audio (List.replicate 4 (0, 0))])) = true := ⟨by decide, by decide⟩

theorem test_vsync_from_159 :
    after (exec .vsync { start with line := 159 }) (fun t => decide (t.line = 160 ∧ t.trace = [.draw 159])) = true := by
  decide

/-- I5: the VCOUNT handler, then on its return the HBLANK handler after the line is drawn. -/
theorem test_dispatch_order :
    after (exec .halt (handlers 0x0006 7 7)) (fun t => decide (t.trace = [.call 2 0xC]) &&
      after (handlerReturn t) fun u => decide (u.trace = [.call 2 0xC, .ret 2, .draw 7, .call 1 0x11] ∧ u.line = 7 ∧
        u.ifReg = 0 ∧ u.insvc = 2)) = true := by decide

/-- I10: the keypad condition over all of the watched buttons. -/
theorem test_keypad_condition :
    keypadCondition true 0x003 0x001 = false ∧ keypadCondition true 0x003 0x007 = true ∧
    keypadCondition false 0x003 0x002 = true ∧ keypadCondition false 0x003 0x004 = false ∧
    keypadCondition true 0 0 = true := ⟨rfl, rfl, rfl, rfl, rfl⟩

/-! ### The mixer (vectors M4 frame 1, M8, M9) -/

/-- The state of M4 before its first frame. -/
def mixing : State :=
  { start with
    mem := poke [0x10, 0xF0, 0x7F, 0x80, 1, 2, 3, 4] 0x02001000 []
    timer := start.timer.set 0 ⟨0xFFF8, 0, true⟩
    ctl := start.ctl.set 0 ⟨true, true, true, 0⟩ |>.set 1 ⟨false, false, false, 1⟩
    master := true
    dma := start.dma.set 1 { channel 0x02001000 0x040000A0 0 with
      en := true, trig := .fifo, rep := true, isrc := 0x02001000 }
    line := 160 }

/-- The channels of `mixing`, the supplier's latch in REGSET. -/
def badFeed : Vector DmaChannel 4 := mixing.dma.set 1 { mixing.dma[1] with isrc := 0x04000004 }

theorem test_mixer_frame :
    after (exec .halt mixing) (fun t => decide (t.snd[0].buf = [16, 16, 0xF0, 0xF0] ∧
      t.mix = [(2048, 2048), (2048, 2048), (BitVec.ofInt 16 (-2048), BitVec.ofInt 16 (-2048)),
        (BitVec.ofInt 16 (-2048), BitVec.ofInt 16 (-2048))] ∧
      t.snd[0].srcclk = 1 ∧ t.snd[0].outclk = 1 ∧ t.snd[0].rem = 2 ∧ t.snd[0].cur = 0xF0 ∧
      t.dma[1].isrc = 0x02001004)) = true := by decide

theorem test_mix_arithmetic :
    mixedPair ⟨true, false, true, 0⟩ ⟨false, true, true, 0⟩ 16 (-3) = (BitVec.ofInt 16 1856, BitVec.ofInt 16 (-192)) ∧
    mixedPair ⟨true, true, true, 0⟩ ⟨true, true, true, 0⟩ (-128) (-128) =
      (BitVec.ofInt 16 (-32768), BitVec.ofInt 16 (-32768)) := ⟨rfl, rfl⟩

/-! ### Witnesses: concrete operands that meet the hypotheses of each obligation, clause by clause -/

/-- A state inside the VCOUNT handler of a HALT, whose routine returns next. -/
def inHandler (line : BitVec 8) : State :=
  { handlers 0x0004 line line with
    busy := true, hdepth := true, insvc := 0x0004, susp := some ⟨srcVcount, .p1, .halt⟩, inputs := [.ret] }

/-- A range is clear of REGSET, by running the engine's own check. -/
theorem clear_by_check {addr : Word} {k : Nat} (h : engineOk k addr = true) : clearOf addr k := (engineOk_iff k addr).mp h

theorem start_inv : start.Inv where
  params := by unfold capacitiesHold; decide
  line_lt := by decide
  sound := by unfold soundLegal; decide
  mixed := by unfold mixLegal; decide
  mem_wf := by decide
  store_wf := by decide
  handler := ⟨rfl, rfl, rfl⟩

theorem inHandler_inv : (inHandler 7).Inv where
  params := by unfold capacitiesHold; decide
  line_lt := by decide
  sound := by unfold soundLegal; decide
  mixed := by unfold mixLegal; decide
  mem_wf := by decide
  store_wf := by decide
  handler := ⟨rfl, rfl, .inl ⟨rfl, rfl⟩⟩

/-- HALT presented at a state. -/
def halting (s : State) : State := s.withFetchWord 128 0x00000002000000000000000000000000

theorem halting_inv : (halting start).Inv :=
  ⟨start_inv.1, start_inv.2, start_inv.3, start_inv.4, start_inv.5, start_inv.6, start_inv.7⟩

theorem test_witness_StepKeepsInvariant :
    (∃ s t : State, s.Inv ∧ step s = .next t) ∧ ∃ s t : State, s.Inv ∧ s.hdepth = true ∧ step s = .next t :=
  ⟨⟨halting start, _, halting_inv, rfl⟩,
   have ⟨t, h⟩ := answers_next (o := step (inHandler 7)) (by decide)
   ⟨inHandler 7, t, inHandler_inv, rfl, h⟩⟩

theorem test_witness_StepKeepsHeldByte :
    (∀ c : Audio, curFollowsCache (halting mixing).snd[c]) ∧ ∃ t, step (halting mixing) = .next t :=
  ⟨by unfold curFollowsCache; decide, answers_next (by decide)⟩

theorem test_witness_NoStepFaults : handlerContext start ∧ handlerContext (inHandler 7) :=
  ⟨start_inv.handler, inHandler_inv.handler⟩

theorem test_witness_TraceOnlyGrows :
    (halting start).inputs.head? ≠ some .reset ∧ ∃ t, step (halting start) = .next t ∧ t.trace ≠ [] :=
  ⟨by decide, _, rfl, by decide⟩

theorem test_witness_OnlyTimingCommandsAdvance : ∃ t, exec (.cpuset 0 0 0) start = .next t ∧
    ∃ u, exec (.regIme (w16 1)) start = .next u := ⟨_, rfl, _, rfl⟩

theorem test_witness_OperationFrames :
    (∃ t, exec (.cpuset 0 0 0) start = .next t ∧ accessOf (.cpuset 0 0 0) = none) ∧
    (∃ t, exec (.regIme (w16 1)) start = .next t ∧ accessOf (.regIme (w16 1)) ≠ none) :=
  ⟨⟨_, rfl, rfl⟩, _, rfl, by decide⟩

theorem test_witness_DecodeEncodeRoundTrip :
    WellFormed (.regIe ⟨.write, .byte, 1, 0xFFFFFFFF⟩) = true ∧ WellFormed (.regFifoA ⟨.read, .word, 3, 0⟩) = true ∧
      WellFormed (.cpuset 0xFFFFFFFF 0 1) = true ∧ WellFormed .halt = true := by decide

/-- A word with an ignored operand, and the last byte of the register window. -/
theorem test_witness_DecodedWordsEncodeBack :
    decode (.bus 0x00400020900000000#67) = .ok (.regIme ⟨.read, .byte, 1, 0⟩) ∧
    decode (.cmd 0x00000002FFFFFFFF0000000000000001#128) = .ok .halt := ⟨rfl, rfl⟩

theorem test_witness_NonOperationsRefused :
    cmdZero 0x01000002000000000000000000000000#128 ≠ 0 ∧
    (cmdZero 0x00000001000000000000000000000000#128 = 0 ∧
      (cmdOp 0x00000001000000000000000000000000#128).toNat ∉
        [0x02, 0x05, 0x0B, 0x0C, 0x11, 0x16, 0x18, 0xE0, 0xE1, 0xE2]) ∧
    busSizeCode 0x30400020000000000#67 = 3 ∧
    inRegset (busAddr 0x10400000300000000#67) = false ∧ inRegset (busAddr 0x50400020A00000001#67) = false := by decide

theorem test_witness_StepRunsDecodedOperation :
    (∃ w i, (halting start).inputs = [.op (.cmd w)] ∧ decode (.cmd w) = .ok i) ∧
    (∃ w i, (start.withFetchWord 67 0x50400020800000001).inputs = [.op (.bus w)] ∧ decode (.bus w) = .ok i) ∧
    inRegset 0x04000003 = false ∧ inRegset 0x0400020A = false ∧ start.inputs = [] :=
  ⟨⟨_, _, rfl, rfl⟩, ⟨_, _, rfl, rfl⟩, rfl, rfl, rfl⟩

theorem test_witness_ResetEvent :
    (({ start with inputs := [.reset] } : State).busy = false ∧ start.hdepth = false) ∧
      ({ inHandler 7 with inputs := [.reset] } : State).busy = true ∧
      ({ inHandler 7 with busy := false, inputs := [.reset] } : State).hdepth = true := ⟨⟨rfl, rfl⟩, rfl, rfl⟩

/-- The premise of the register accesses, in the main flow and inside a handler; the even offsets; the codes. -/
theorem test_witness_register_accesses :
    portFree start = true ∧ portFree (inHandler 7) = true ∧ (0 : BitVec 2).toNat % 2 = 0 ∧ (2 : BitVec 2).toNat % 2 = 0 ∧
    ∃ code : Trigger → Nat, code .immediate = 0 ∧ code .vblank = 1 ∧ code .hblank = 2 ∧ code .fifo = 3 :=
  ⟨rfl, rfl, rfl, rfl, fun t => (triggerCode t).toNat, rfl, rfl, rfl, rfl⟩

/-- WriteDmaControl: bit 5 and bit 7; no edge, the channel off or on already; an edge with the triggers 1 and 3. -/
theorem test_witness_WriteDmaControl :
    (0x0020#32).getLsbD 5 = true ∧ (0x0080#32).getLsbD 7 = true ∧
    ((0x7F5F#32).getLsbD 5 = false ∧ (0x7F5F#32).getLsbD 7 = false ∧ (0x7F5F#32).getLsbD 15 = false ∧
      (triggerCode .fifo).toNat = (0x7F5F#32).toNat / 0x1000 % 4) ∧
    mixing.dma[1].en = true ∧
    (start.dma[0].en = false ∧ (0x9000#32).getLsbD 5 = false ∧ (0x9000#32).getLsbD 7 = false ∧
      (0x9000#32).getLsbD 15 = true ∧ (triggerCode .vblank).toNat = (0x9000#32).toNat / 0x1000 % 4) ∧
    ((0xB000#32).getLsbD 15 = true ∧ (triggerCode .fifo).toNat = (0xB000#32).toNat / 0x1000 % 4) := by decide

/-- Channel 3 enabled by 0x8400: 2 words from an odd source to the last words of the address space. -/
def ready : State := { fives with dma := fives.dma.set 3 (channel 0x02000001 0xFFFFFFF8 2) }

/-- The same channel, its second word in REGSET. -/
theorem test_witness_EnableEdgeRunsImmediateTransfer :
    portFree ready = true ∧ ready.mem.wf memBytes = true ∧ ready.dma[3].en = false ∧ (0x8400#32).getLsbD 5 = false ∧
    (0x8400#32).getLsbD 7 = false ∧ (0x8400#32).getLsbD 12 = false ∧ (0x8400#32).getLsbD 13 = false ∧
    (0x8400#32).getLsbD 15 = true ∧
    transferClear { ready.dma[3] with w32 := true, en := true, isrc := 0x02000001, idst := 0xFFFFFFF8 } 2 ∧
    ¬ transferClear { ready.dma[3] with w32 := true, en := true, isrc := 0x02000001, idst := 0x04000000 } 2 :=
  ⟨rfl, by decide, rfl, rfl, rfl, rfl, rfl, rfl,
   transferClear_stepping rfl rfl (clear_by_check (by decide)) (clear_by_check (by decide)),
   fun h => absurd ((h 1 (by decide)).2 0 (by decide)) (by decide)⟩

theorem test_witness_WordAccessIsTwoHalves :
    (decode (.bus (1#1 ++ 2#2 ++ 0x04000200#32 ++ 0xFFFF0001#32)) = .ok (.regIe ⟨.write, .word, 0, 0xFFFF0001⟩) ∧
      decode (.bus (1#1 ++ 1#2 ++ 0x04000200#32 ++ 1#32)) = .ok (.regIe (w16 1)) ∧
      decode (.bus (1#1 ++ 1#2 ++ (0x04000200#32 + 2) ++ 0xFFFF#32)) = .ok (.regIf (w16 0xFFFF))) ∧
    (decode (.bus (0#1 ++ 2#2 ++ 0x040000DC#32 ++ 0#32)) = .ok (.regDma3CntL ⟨.read, .word, 0, 0⟩) ∧
      decode (.bus (0#1 ++ 1#2 ++ 0x040000DC#32 ++ 0#32)) = .ok (.regDma3CntL r16) ∧
      decode (.bus (0#1 ++ 1#2 ++ (0x040000DC#32 + 2) ++ 0#32)) = .ok (.regDma3CntH r16)) :=
  ⟨⟨rfl, rfl, rfl⟩, rfl, rfl, rfl⟩

/-- An 8-bit access; a misaligned one; one partly outside REGSET; and reads of both accepted sizes. -/
theorem test_witness_AccessesAcceptedOrRefused :
    (decode (.bus 0x00400020800000000#67) = .ok (.regIme ⟨.read, .byte, 0, 0⟩) ∧ busSizeCode 0x00400020800000000#67 = 0) ∧
    (decode (.bus 0x10400020100000000#67) = .ok (.regIe ⟨.read, .half, 1, 0⟩) ∧
      (busAddr 0x10400020100000000#67).toNat % 2 ^ (busSizeCode 0x10400020100000000#67).toNat ≠ 0) ∧
    (decode (.bus 0x20400020800000000#67) = .ok (.regIme ⟨.read, .word, 0, 0⟩) ∧
      inRegset (busAddr 0x20400020800000000#67 + BitVec.ofNat 32 2) = false) ∧
    (decode (.bus 0x10400020800000000#67) = .ok (.regIme r16) ∧
      (∀ k, k < 2 → inRegset (busAddr 0x10400020800000000#67 + BitVec.ofNat 32 k) = true)) ∧
    (decode (.bus 0x20400000400000000#67) = .ok (.regDispstat ⟨.read, .word, 0, 0⟩) ∧
      (∀ k, k < 4 → inRegset (busAddr 0x20400000400000000#67 + BitVec.ofNat 32 k) = true)) :=
  ⟨⟨rfl, rfl⟩, ⟨rfl, by decide⟩, ⟨rfl, by decide⟩, ⟨rfl, by decide⟩, rfl, by decide⟩

/-- The main flow of a line, the gate shut, no channel armed, the sound off. -/
def calm (line : BitVec 8) : State := { start with line := line }

theorem calm_meets (line : BitVec 8) : mainFlow (calm line) ∧ dmaIdle (calm line) :=
  ⟨⟨rfl, rfl⟩, show ∀ n : DmaIndex, start.dma[n].en = false by decide⟩

theorem calm_unserved (line : BitVec 8) : allUnserved (calm line) :=
  ⟨unserved_shut rfl, unserved_shut rfl, unserved_shut rfl, unserved_shut rfl⟩

theorem calm_meets_lines :
    (calm 0).line.toNat < 160 ∧ (calm 159).line.toNat < 160 ∧ (calm 160).line.toNat = 160 ∧ 160 < (calm 161).line.toNat ∧
      160 < (calm 227).line.toNat ∧ (calm 227).line.toNat < 228 := by decide

/-- Channel 0 armed for a trigger with two units of 2 bytes from X, and no source enabled. -/
def armed (ev : Trigger) (line : BitVec 8) (idst : Word) : State :=
  { fives with
    line := line
    dma := fives.dma.set 0 { channel 0 0 2 with
      en := true, trig := ev, rep := true, isrc := 0x02000000, idst := idst } }

theorem armed_by_run {ev : Trigger} {s : State} (h : (dmaTrigger ev s).isOk = true) : armedClear ev s := by
  by_contra hn
  rw [dmaTrigger_refused hn] at h
  cases h

theorem not_armed_by_run {ev : Trigger} {s : State} (h : (dmaTrigger ev s).isOk = false) : ¬ armedClear ev s := fun hc => by
  obtain ⟨t, ht⟩ := dmaTrigger_completes hc
  rw [ht] at h
  cases h

theorem ok_by_run {r : Except Refusal State} (h : r.isOk = true) : ∃ t, r = .ok t := by
  cases r with
  | ok t => exact ⟨t, rfl⟩
  | error e => cases h

theorem feeds_by_check {s : State} (h : ∀ n : DmaIndex, s.dma[n].en = true → s.dma[n].trig = .fifo →
    ∀ k, k < 2 * s.cfg.clocksPerFrame → engineOk 4 (alignDown (latchAfter s.dma[n].srcFixed 4 s.dma[n].isrc k) 4) = true) :
    feedsClear s := fun n k he ht hk => clear_by_check (h n he ht k hk)

/-- Units up to the last byte below REGSET; a second unit in REGSET; the line compared equal and not. -/
theorem test_witness_HaltOnVisibleLine :
    (mainFlow (armed .hblank 159 0x03FFFFFC) ∧ unserved srcVcount (armed .hblank 0 0x03FFFFFC) ∧
      (armed .hblank 0 0x03FFFFFC).line = (armed .hblank 0 0x03FFFFFC).vcmp ∧
      (armed .hblank 159 0x03FFFFFC).line ≠ (armed .hblank 159 0x03FFFFFC).vcmp ∧
      unserved srcHblank (armed .hblank 159 0x03FFFFFC) ∧ (armed .hblank 159 0x03FFFFFC).line.toNat < 160) ∧
    armedClear .hblank (armed .hblank 159 0x03FFFFFC) ∧ ¬ armedClear .hblank (armed .hblank 159 0x04000002) :=
  ⟨⟨⟨rfl, rfl⟩, .inl rfl, rfl, by decide, .inl rfl, by decide⟩, armed_by_run (by decide), not_armed_by_run (by decide)⟩

theorem test_witness_LineAdvance :
    (∃ s : State, mainFlow s ∧ unserved srcVcount s ∧ 160 < s.line.toNat ∧ s.line.toNat < 228) ∧
      ∃ t, exec .halt (calm 227) = .next t ∧ t.hdepth = false :=
  ⟨⟨calm 227, (calm_meets _).1, .inl rfl, by decide, by decide⟩, _, rfl, rfl⟩

/-- Transfers clear and not; the frame of a running timer, and one whose demand reads REGSET; the sound off. -/
theorem test_witness_HaltOnLine160 :
    (∀ src ∈ [srcVcount, srcVblank, srcKeypad], unserved src (armed .vblank 160 0x03FFFFFC)) ∧
    (mainFlow (armed .vblank 160 0x03FFFFFC) ∧ (armed .vblank 160 0x03FFFFFC).line.toNat = 160 ∧
      (armed .vblank 160 0x03FFFFFC).master = false ∧ (armed .vblank 160 0x03FFFFFC).host.fastForward = true) ∧
    armedClear .vblank (armed .vblank 160 0x03FFFFFC) ∧ ¬ armedClear .vblank (armed .vblank 160 0x04000002) ∧
    ((∃ u, dmaTrigger .vblank mixing = .ok u ∧
        (soundMixFrame { mixing with mem := u.mem, dma := u.dma, trace := [.present] }).isOk = true) ∧
      (soundMixFrame { mixing with dma := badFeed }).isOk = false) :=
  ⟨fun src h => .inr (.inl rfl), ⟨⟨rfl, rfl⟩, rfl, rfl, rfl⟩, armed_by_run (by decide), not_armed_by_run (by decide),
   ⟨_, rfl, by decide⟩, by decide⟩

/-- Line 160 at host time `now`, the deadline 5. -/
def paced (now : Nat) : State :=
  { calm 160 with deadline := 5, host := { HostInputs.initial with fastForward := false, now := now } }

theorem test_witness_HaltPacesTheHost :
    (mainFlow (paced 0) ∧ allUnserved (paced 0) ∧ armedClear .vblank (paced 0) ∧ (paced 0).line.toNat = 160 ∧
      (paced 0).master = false ∧ (paced 0).host.fastForward = false) ∧
    (paced 1004).host.now < (paced 1004).deadline + 1000 ∧ (paced 1005).deadline + 1000 ≤ (paced 1005).host.now ∧
    (paced 2005).host.now ≤ (paced 2005).deadline + 2000 ∧ (paced 2006).deadline + 2000 < (paced 2006).host.now :=
  ⟨⟨⟨rfl, rfl⟩, calm_unserved 160, armed_by_run (by decide), rfl, rfl, rfl⟩, by decide⟩

/-- HALT: a FIFO channel armed and the mixer running on line 160; a blanking channel armed on line 159. VSYNC: the mixer on
line 160; a VBLANK handler on lines 0 and 161; a VCOUNT handler for line 160, from 161. -/
theorem test_witness_TimingCommandsComplete :
    (mainFlow mixing ∧ lineUnserved mixing ∧ lineClear mixing ∧ blankingIdle mixing ∧ mixing.line.toNat = 160 ∧
      mixing.dma[1].en = true) ∧
    (lineUnserved (armed .hblank 159 0x03FFFFFC) ∧ lineClear (armed .hblank 159 0x03FFFFFC)) ∧
    (served srcVblank 0xB (handlers 1 0 0) ∧ unserved srcVcount (handlers 1 0 0) ∧ unserved srcHblank (handlers 1 0 0)) ∧
    (mainFlow (handlers 5 161 160) ∧ blankingIdle (handlers 5 161 160) ∧ unserved srcHblank (handlers 5 161 160) ∧
      served srcVblank 0xB (handlers 5 161 160) ∧ served srcVcount 0xC (handlers 5 161 160) ∧
      ∀ k, k ≤ (387 - (handlers 5 161 160).line.toNat) % 228 →
        ((handlers 5 161 160).line.toNat + k) % 228 ≠ (handlers 5 161 160).vcmp.toNat) :=
  ⟨⟨⟨rfl, rfl⟩, allUnserved_line ⟨.inl rfl, .inl rfl, .inl rfl, .inl rfl⟩,
    ⟨fun h => absurd h (by decide), fun _ => ⟨armed_by_run (by decide), feeds_by_check (by decide)⟩⟩,
    show ∀ n : DmaIndex, mixing.dma[n].en = true → mixing.dma[n].trig ≠ .hblank ∧ mixing.dma[n].trig ≠ .vblank by decide,
    rfl, rfl⟩,
   ⟨allUnserved_line ⟨.inl rfl, .inl rfl, .inl rfl, .inl rfl⟩,
    fun _ => armed_by_run (by decide), fun h => absurd h (by decide)⟩,
   ⟨⟨rfl, rfl, rfl⟩, .inl rfl, .inl rfl⟩,
   ⟨rfl, rfl⟩, fun n hn => absurd hn (by revert n; decide), .inl rfl, ⟨rfl, rfl, rfl⟩, ⟨rfl, rfl, rfl⟩,
   show ∀ k, k ≤ 226 → (161 + k) % 228 ≠ 160 by omega⟩

/-- From line 158, two HALTs: complete, the gate open; suspended in the second at VCOUNT; refused at the first HBLANK. -/
theorem test_witness_VsyncIsRepeatedHalt :
    (mainFlow (handlers 1 158 0) ∧ (handlers 1 158 0).line.toNat < 228 ∧ 1 = (387 - (handlers 1 158 0).line.toNat) % 228) ∧
    after (exec .vsync (handlers 1 158 0)) (fun t => decide (t.hdepth = false ∧ t.line = 160)) = true ∧
    after (exec .vsync (handlers 4 158 159))
      (fun t => decide (t.hdepth = true ∧ t.line = 159 ∧ t.trace = [.draw 158, .call 2 0xC])) = true ∧
    refusedWith (exec .vsync (armed .hblank 158 0x04000002)) .engineAccessToRegisters = true :=
  ⟨⟨⟨rfl, rfl⟩, by decide, by decide⟩, by decide, by decide, by decide⟩

theorem test_witness_VcountHandlerEntry : mainFlow (handlers 4 227 227) ∧ (handlers 4 227 227).ime = true ∧
    (handlers 4 227 227).ie.getLsbD 2 = true ∧ (handlers 4 227 227).vec[srcVcount] = some 0xC ∧
    (handlers 4 227 227).line = (handlers 4 227 227).vcmp := ⟨⟨rfl, rfl⟩, rfl, rfl, rfl, rfl⟩

/-- Line 160 with a handler for KEYPAD only, the poll's condition met: any of the watched buttons, or all of none. -/
def polling (kand : Bool) (kwatch keys : BitVec 10) : State :=
  { handlers 0x1000 160 0 with
    kirqEn := true, kand := kand, kwatch := kwatch, host := { HostInputs.initial with keys := keys } }

theorem test_witness_BlankingHandlerEntry :
    (mainFlow (handlers 2 159 0) ∧ (handlers 2 159 0).line ≠ (handlers 2 159 0).vcmp ∧
      (handlers 2 159 0).line.toNat < 160 ∧ armedClear .hblank (handlers 2 159 0) ∧
      served srcHblank 0x11 (handlers 2 159 0) ∧ served srcHblank 0x11 (handlers 2 0 0) ∧
      unserved srcVcount (handlers 2 0 0)) ∧
    (mainFlow (handlers 1 160 0) ∧ (handlers 1 160 0).line.toNat = 160 ∧ armedClear .vblank (handlers 1 160 0) ∧
      served srcVblank 0xB (handlers 1 160 0)) ∧
    (keypadHit (polling false 2 2) ∧ keypadHit (polling true 0 0) ∧ unserved srcVblank (polling false 2 2) ∧
      served srcKeypad 0xA (polling false 2 2) ∧ armedClear .vblank (polling false 2 2) ∧
      (soundMixFrame { polling false 2 2 with busy := true, trace := [.present] }).isOk = true) :=
  ⟨⟨⟨rfl, rfl⟩, by decide, by decide, armed_by_run (by decide), ⟨rfl, rfl, rfl⟩, ⟨rfl, rfl, rfl⟩, .inl rfl⟩,
   ⟨⟨rfl, rfl⟩, rfl, armed_by_run (by decide), rfl, rfl, rfl⟩,
   by decide, by decide, .inl rfl, ⟨rfl, rfl, rfl⟩, armed_by_run (by decide), by decide⟩

/-- Disabled; enabled and the gate shut; enabled and no handler; enabled, open and registered. -/
theorem test_witness_OccurrenceOfASource :
    flagOf (handlers 0x1FFF 0 0).ie 13 = false ∧
    (flagOf ({ handlers 1 0 0 with ime := false } : State).ie 0 = true ∧
      ({ handlers 1 0 0 with ime := false } : State).ime = false) ∧
    (flagOf (handlers 0x2000 0 0).ie 13 = true ∧ (handlers 0x2000 0 0).vec[13] = none) ∧
    (flagOf (handlers 1 0 0).ie 0 = true ∧ (handlers 1 0 0).ime = true ∧ (handlers 1 0 0).vec[0] = some 0xB) :=
  ⟨rfl, ⟨rfl, rfl⟩, ⟨rfl, rfl⟩, rfl, rfl, rfl⟩

/-- A state inside the handler that phase `p` of a HALT has called. -/
def called (src : Source) (p : Phase) (line : BitVec 8) : State := { inHandler line with susp := some ⟨src, p, .halt⟩ }

theorem test_witness_HandlerReturnGoesOn :
    ({ start with inputs := [.ret] } : State).hdepth = false ∧
    ((called srcKeypad .p9 160).inputs = [.ret] ∧ (called srcKeypad .p9 160).hdepth = true) ∧
    (called srcHblank .p4 159).line.toNat ≠ 160 ∧ 160 < (called srcVcount .p1 161).line.toNat ∧
    160 < (called srcVcount .p1 227).line.toNat := by decide

/-- The VCOUNT return of a visible line and of line 160, with blanking handlers to enter and without; the VBLANK return;
the KEYPAD handler to enter; a suspended VSYNC whose step ends on line 160, beyond it, and in a handler. -/
theorem test_witness_HandlerReturnGoesOn_phases :
    ((called srcVcount .p1 159).line.toNat < 160 ∧ armedClear .hblank (called srcVcount .p1 159) ∧
      unserved srcHblank (called srcVcount .p1 159) ∧
      served srcHblank 0x11 { called srcVcount .p1 159 with ie := 0x0006 }) ∧
    ((called srcVcount .p1 160).line.toNat = 160 ∧ armedClear .vblank (called srcVcount .p1 160) ∧
      unserved srcVblank (called srcVcount .p1 160) ∧ unserved srcKeypad (called srcVcount .p1 160) ∧
      served srcVblank 0xB { called srcVcount .p1 160 with ie := 0x0005 } ∧
      (soundMixFrame { called srcVcount .p1 160 with hdepth := false, susp := none, trace := [.present] }).isOk = true) ∧
    (keypadHit { called srcVblank .p6 160 with kirqEn := true, kand := true } ∧
      served srcKeypad 0xA { called srcVblank .p6 160 with ie := 0x1000 }) ∧
    (after (step { inHandler 159 with susp := some ⟨srcVcount, .p1, .halt⟩ })
        (fun u => decide (u.susp = none ∧ u.line.toNat = 160)) &&
      after (step { inHandler 161 with susp := some ⟨srcVcount, .p1, .halt⟩ })
        (fun u => decide (u.susp = none ∧ u.line.toNat ≠ 160)) &&
      after (step { inHandler 159 with susp := some ⟨srcVcount, .p1, .halt⟩, ie := 0x0006 })
        (fun u => decide (u.susp = some ⟨srcHblank, .p4, .halt⟩))) = true :=
  ⟨⟨by decide, armed_by_run (by decide), .inl rfl, rfl, rfl, rfl⟩,
   ⟨rfl, armed_by_run (by decide), .inl rfl, .inl rfl, ⟨rfl, rfl, rfl⟩, by decide⟩,
   ⟨by decide, rfl, rfl, rfl⟩, by decide⟩

/-- A VCOUNT return before a transfer into REGSET, of a visible line and of line 160; a frame whose demand reads REGSET;
the VCOUNT return of line 160 with the KEYPAD handler, and no other, to enter. -/
theorem test_witness_HandlerReturnGoesOn_refused_and_keypad :
    ¬ armedClear .hblank { called srcVcount .p1 159 with dma := (armed .hblank 159 0x04000002).dma } ∧
    ¬ armedClear .vblank { called srcVcount .p1 160 with dma := (armed .vblank 160 0x04000002).dma } ∧
    ((called srcVblank .p6 160).line.toNat = 160 ∧ (soundMixFrame { mixing with
        dma := badFeed, trace := [.ret 0, .present] }).isOk = false) ∧
    (unserved srcVblank { called srcVcount .p1 160 with ie := 0x1000 } ∧
      served srcKeypad 0xA { called srcVcount .p1 160 with ie := 0x1000 } ∧
      after (step { called srcVcount .p1 160 with ie := 0x1000, kirqEn := true, kand := true })
        (fun t => decide (t.susp = some ⟨srcKeypad, .p9, .halt⟩)) = true) :=
  ⟨not_armed_by_run (by decide), not_armed_by_run (by decide), ⟨rfl, by decide⟩, .inl rfl, ⟨rfl, rfl, rfl⟩, by decide⟩

theorem test_witness_DispatchOrderWithinALine :
    after (handlerReturn ({ handlers 0x0006 7 7 with
        busy := true, hdepth := true, insvc := 4, susp := some ⟨srcVcount, .p1, .halt⟩ }))
      (fun t => decide (t.susp = some ⟨srcHblank, .p4, .halt⟩)) = true := by decide

theorem test_witness_VblankEffectsOnlyAtLine160 :
    ((calm 159).line.toNat ≠ 160 ∧ ∃ t, exec .halt (calm 159) = .next t) ∧
    ((calm 161).line.toNat ≠ 160 ∧ ∃ t, exec .halt (calm 161) = .next t) ∧
    (∃ t, exec .vsync (calm 159) = .next t) ∧
    ((inHandler 7).line.toNat ≠ 160 ∧ ∃ t, handlerReturn (inHandler 7) = .next t) :=
  ⟨⟨by decide, _, rfl⟩, ⟨by decide, _, rfl⟩, answers_next (by decide), by decide, answers_next (by decide)⟩

theorem halts_reach (n : Nat) {s : State} (hm : mainFlow s) (hg : allUnserved s) (hd : dmaIdle s) :
    ∃ t, haltsReach n s t := by
  induction n generalizing s with
  | zero => exact ⟨s, rfl⟩
  | succ n ih =>
    have off : ∀ k : DmaIndex, s.dma[k].en ≠ true := fun k => by
      rw [hd k]
      decide
    have hc : lineClear (beginCommand s) :=
      ⟨fun _ k h => absurd h (off k), fun _ => ⟨fun k h => absurd h (off k), fun k j h => absurd h (off k)⟩⟩
    obtain ⟨u, hu, ha⟩ := allPhases_ends (cmd := .halt) (s := beginCommand s) (allUnserved_line hg) hc
    obtain ⟨-, -, hh, -⟩ := allPhases_keeps hu
    have e : exec .halt s = .next (endTiming u) := by
      refine (timingCommand_mainFlow (cmd := .halt) hm).trans ?_
      rw [lineSteps_halt, hu]
    have hh' : u.hdepth = false := hh.trans hm.2
    have hi : dmaIdle u := fun k => by
      cases he : u.dma[k].en with
      | false => rfl
      | true => exact absurd ((ha k).2 he) (off k)
    obtain ⟨t, ht⟩ := ih (s := endTiming u) ⟨rfl, hh'⟩ (show allUnserved u from allUnserved_keeps hu hg) hi
    exact ⟨t, endTiming u, e, hh', ht⟩

theorem test_witness_FrameOfHalts : ∃ s t : State, s.line.toNat < 228 ∧ haltsReach 228 s t :=
  have ⟨t, h⟩ := halts_reach 228 (calm_meets 227).1 (calm_unserved 227) (calm_meets 227).2
  ⟨calm 227, t, by decide, h⟩

theorem test_witness_Acceptance : (inHandler 7).hdepth = true ∧
    (({ start with busy := true } : State).busy = true ∧ ({ start with busy := true } : State).hdepth = false) := by decide

/-! #### DMA -/

theorem test_witness_TriggerRunsMatchingChannels :
    (armedClear .hblank (armed .hblank 0 0x03FFFFFC) ∧ (armed .hblank 0 0x03FFFFFC).mem.wf memBytes = true ∧
      (match dmaTrigger .hblank (armed .hblank 0 0x03FFFFFC) with
        | .ok t => decide (t.dma[0].isrc = 0x02000004 ∧ t.dma[0].en = true)
        | .error _ => false) = true) ∧
    ¬ armedClear .vblank (armed .vblank 0 0x04000002) :=
  ⟨⟨armed_by_run (by decide), by decide, by decide⟩, not_armed_by_run (by decide)⟩

theorem test_witness_ZeroLengthTransfer : start.dma[3].cnt = 0 ∧
    (({ channel 0 0 0 with en := true, trig := .vblank } : DmaChannel).en = true) := ⟨rfl, rfl⟩

theorem test_witness_ImmediateTransferCopies :
    portFree ready = true ∧ ready.mem.wf memBytes = true ∧ ready.dma[3].en = false ∧ (0x8400#32).getLsbD 5 = false ∧
    (0x8400#32).getLsbD 7 = false ∧ (0x8400#32).getLsbD 12 = false ∧ (0x8400#32).getLsbD 13 = false ∧
    (0x8400#32).getLsbD 15 = true ∧ (0x8400#32).getLsbD 6 = false ∧ (0x8400#32).getLsbD 8 = false ∧
    4 = (if (0x8400#32).getLsbD 10 then 4 else 2) ∧ 8 = ready.dma[3].cnt.toNat * 4 ∧
    clearOf (alignDown ready.dma[3].sad 4) 8 ∧ clearOf (alignDown ready.dma[3].dad 4) 8 ∧
    apart (alignDown ready.dma[3].sad 4) 8 (alignDown ready.dma[3].dad 4) 8 :=
  ⟨rfl, by decide, rfl, rfl, rfl, rfl, rfl, rfl, rfl, rfl, rfl, rfl, clear_by_check (by decide), clear_by_check (by decide),
   apart_of_lt (by decide) (by decide)⟩

/-- The operand modes of 0x8000, 0x8100, 0x8040 and 0x8140; the overlaps, one unit up and one unit down; the last unit of
a fixed destination elsewhere. -/
theorem test_witness_ImmediateTransferCopies_modes :
    ([0x8000#32, 0x8100#32, 0x8040#32, 0x8140#32].all fun v => !v.getLsbD 5 && !v.getLsbD 7 && !v.getLsbD 12 &&
        !v.getLsbD 13 && v.getLsbD 15) = true ∧
    [0x8000#32, 0x8100#32, 0x8040#32, 0x8140#32].map (fun v => (v.getLsbD 8, v.getLsbD 6)) =
      [(false, false), (true, false), (false, true), (true, true)] ∧
    alignDown 0x02000003#32 2 = alignDown 0x02000000#32 2 + BitVec.ofNat 32 2 ∧
    alignDown 0x02000003#32 2 ≠ alignDown 0x02000000#32 2 + BitVec.ofNat 32 ((4 - 1) * 2) ∧
    clearOf (alignDown 0x02000000#32 2) (4 * 2) ∧ clearOf (alignDown 0x02000003#32 2) (4 * 2) ∧
    clearOf (alignDown 0x04000002#32 2) (min 1 4 * 2) :=
  ⟨by decide, by decide, by decide, by decide, clear_by_check (by decide), clear_by_check (by decide),
   clear_by_check (by decide)⟩

/-- No channel named; channel 1 named, the lowest, its latch at the last word of the address space, and in REGSET. -/
theorem test_witness_FifoDemand :
    (∀ n : DmaIndex, ¬ (start.dma[n].en = true ∧ start.dma[n].trig = .fifo ∧ start.dma[n].dad = 0x040000A4#32)) ∧
    (mixing.dma[1].en = true ∧ mixing.dma[1].trig = .fifo ∧ mixing.dma[1].dad = 0x040000A0#32 ∧
      mixing.dma[0].en = false ∧ clearOf (0xFFFFFFFF#32 &&& 0xFFFFFFFC#32) 4 ∧
      ¬ clearOf (0x04000203#32 &&& 0xFFFFFFFC#32) 4) :=
  ⟨by decide, rfl, rfl, rfl, rfl, clear_by_check (by decide), fun h => absurd (h 0 (by decide)) (by decide)⟩

/-! #### The mixer -/

theorem test_witness_MixesEachIndex : ∃ level : Bool → Bool → Int,
    ∀ on amp, level on amp = if on then (if amp then 2 else 1) else 0 := ⟨_, fun _ _ => rfl⟩

/-- Both timers stopped; a started timer under a channel, MASTER = 1; a feed clear of REGSET; a mix shorter than a frame. -/
theorem test_witness_FrameSynthesis :
    (start.master = false ∧ ∀ c : Audio, start.timer[start.ctl[c].tsel].start = false) ∧
    (mixing.timer[mixing.ctl[0].tsel].start = true ∧ mixing.timer[mixing.ctl[1].tsel].start = false ∧
      mixing.master = true ∧ mixing.host.queueOver = false ∧ (synth 0 mixing).isOk = true ∧
      (soundMixFrame mixing).isOk = true) ∧
    feedsClear mixing ∧
    (2 = min tiny.samplesPerFrame ({ tiny with mixCap := 2 } : Config).mixCap ∧ start.timer[start.ctl[0].tsel].start = false) :=
  ⟨by decide, by decide, feeds_by_check (by decide), rfl, rfl⟩

/-- `rem` 1 and 4; `rem` 0 with no supplier, with one, and with one that is refused. -/
theorem test_witness_PopTakesNextByte :
    (0 < ({ SoundDma.initial tiny with rem := 1 } : SoundDma).rem ∧
      ({ SoundDma.initial tiny with rem := 4 } : SoundDma).rem ≤ 4) ∧
    ((SoundDma.initial tiny).rem = 0 ∧ fifoSupply 0 start.mem start.dma = .ok (none, start.dma)) ∧
    (∃ r dma', fifoSupply 0 mixing.mem mixing.dma = .ok (some r, dma')) ∧
    ∃ e, fifoSupply 0 mixing.mem badFeed = .error e :=
  ⟨by decide, ⟨rfl, rfl⟩, ⟨⟨0x10, 0xF0, 0x7F, 0x80⟩, _, rfl⟩, _, rfl⟩

/-- Both counters at 1 and at 2; a full buffer; a refused pop. -/
theorem test_witness_TickOfAChannel :
    (∃ g, tick 0 tiny start.mem 8 ({ SoundDma.initial tiny with srcclk := 1, outclk := 1 }, start.dma) = .ok g) ∧
    (∃ g, tick 0 tiny start.mem 8 ({ SoundDma.initial tiny with srcclk := 2, outclk := 2 }, start.dma) = .ok g) ∧
    (∃ g, tick 0 tiny start.mem 8 ({ SoundDma.initial tiny with bufn := 4 }, start.dma) = .ok g) ∧ tiny.bufCap = 4 ∧
    ∃ e, tick 0 tiny mixing.mem 8 ({ SoundDma.initial tiny with srcclk := 1 }, badFeed) = .error e :=
  ⟨⟨_, rfl⟩, ⟨_, rfl⟩, ⟨_, rfl⟩, rfl, _, rfl⟩

/-! #### Firmware calls and storage -/

/-- A range is not clear of REGSET, by running the engine's own check. -/
theorem not_clear_by_check {addr : Word} {k : Nat} (h : engineOk k addr = false) : ¬ clearOf addr k := fun hc => by
  rw [(engineOk_iff k addr).mpr hc] at h
  cases h

/-- A fill of 2 words that ends at the top of the address space; a count of 0; a fill into REGSET. -/
theorem test_witness_CpusetFills :
    portFree fives = true ∧ 4 = (if (0x05000002#32).getLsbD 26 then 4 else 2) ∧ 2 = (0x05000002#32).toNat % 2 ^ 21 ∧
    (0x05000002#32).getLsbD 24 = true ∧ fives.mem.wf memBytes = true ∧ clearOf (alignDown 0x02000003#32 4) 4 ∧
    clearOf (alignDown 0xFFFFFFFB#32 4) (2 * 4) ∧ 0 = (0x05000000#32).toNat % 2 ^ 21 ∧
    ¬ clearOf (alignDown 0x03FFFFFF#32 4) (3 * 4) :=
  ⟨rfl, rfl, rfl, rfl, by decide, clear_by_check (by decide), clear_by_check (by decide), rfl,
   not_clear_by_check (by decide)⟩

/-- A copy between ranges apart, and one a single unit upwards; one out of REGSET. -/
theorem test_witness_CpusetCopies :
    portFree fives = true ∧ fives.mem.wf memBytes = true ∧ 2 = (if (0x00000003#32).getLsbD 26 then 4 else 2) ∧
    3 = (0x00000003#32).toNat % 2 ^ 21 ∧ (0x00000003#32).getLsbD 24 = false ∧
    clearOf (alignDown 0x02000001#32 2) (3 * 2) ∧ clearOf (alignDown 0x02000100#32 2) (3 * 2) ∧
    apart (alignDown 0x02000001#32 2) (3 * 2) (alignDown 0x02000100#32 2) (3 * 2) ∧
    alignDown 0x02000003#32 2 = alignDown 0x02000001#32 2 + BitVec.ofNat 32 2 ∧
    ¬ clearOf (alignDown 0x04000001#32 2) (3 * 2) :=
  ⟨rfl, by decide, rfl, rfl, rfl, clear_by_check (by decide), clear_by_check (by decide), apart_of_lt (by decide) (by decide),
   by decide, not_clear_by_check (by decide)⟩

/-- A copy of 8 of 11 units and a fill of 8 of 9; a count of 7; a fill whose last word is in REGSET. -/
theorem test_witness_CpufastsetTruncates :
    (8 = (0x0000000B#32).toNat % 2 ^ 21 / 8 * 8 ∧ 8 = (if (0x0000000B#32).getLsbD 24 then min 1 8 else 8) ∧
      (0x04000008#32).toNat % 2 ^ 21 = 8 ∧ (0x04000008#32).getLsbD 24 = (0x0000000B#32).getLsbD 24 ∧
      (0x04000008#32).getLsbD 26 = true ∧ clearOf (alignDown 0x02000000#32 4) (8 * 4)) ∧
    (8 = (0x01000009#32).toNat % 2 ^ 21 / 8 * 8 ∧ 1 = (if (0x01000009#32).getLsbD 24 then min 1 8 else 8) ∧
      (0x05000008#32).toNat % 2 ^ 21 = 8 ∧ (0x05000008#32).getLsbD 24 = (0x01000009#32).getLsbD 24 ∧
      ¬ clearOf (alignDown 0x03FFFFE8#32 4) (8 * 4)) ∧
    0 = (0x01000007#32).toNat % 2 ^ 21 / 8 * 8 ∧ portFree fives = true :=
  ⟨⟨rfl, rfl, rfl, rfl, rfl, clear_by_check (by decide)⟩, ⟨rfl, rfl, rfl, rfl, not_clear_by_check (by decide)⟩, rfl, rfl⟩

theorem test_witness_FillThenCopy :
    fives.mem.wf memBytes = true ∧ (0x01000002#32).getLsbD 24 = true ∧ (0x00000002#32).getLsbD 24 = false ∧
    2 = (if (0x01000002#32).getLsbD 26 then 4 else 2) ∧ 2 = (if (0x00000002#32).getLsbD 26 then 4 else 2) ∧
    2 = (0x01000002#32).toNat % 2 ^ 21 ∧ 2 = (0x00000002#32).toNat % 2 ^ 21 ∧
    apart (alignDown 0x02000100#32 2) (2 * 2) (alignDown 0x02000200#32 2) (2 * 2) ∧
    ∃ t u, exec (.cpuset 0x02000000 0x02000100 0x01000002) fives = .next t ∧
      exec (.cpuset 0x02000100 0x02000200 0x00000002) t = .next u :=
  ⟨by decide, rfl, rfl, rfl, rfl, rfl, rfl, apart_of_lt (by decide) (by decide), _, _, rfl, rfl⟩

/-- A header of 9 literals at X: two control bytes. -/
def literals : State :=
  withBytes [0x10, 9, 0, 0, 0, 0x31, 0x32, 0x33, 0x34, 0x35, 0x36, 0x37, 0x38, 0, 0x39]

theorem test_witness_Lz77CompletesOrAborts :
    (clearOf 0x02000000 (4 + 3 * declaredSize literals.mem 0x02000000) ∧
      clearOf 0x02000100 (declaredSize literals.mem 0x02000000)) ∧
    ¬ clearOf 0x040001FD 4 ∧
    (clearOf 0x02000000 4 ∧ declaredType fives.mem 0x02000004 = 3 ∧ declaredType (withBytes [0x0F]).mem 0x02000000 = 0) ∧
    (declaredType literals.mem 0x02000000 = 1 ∧
      ({ tiny with scratchCap := 8 } : Config).scratchCap < declaredSize literals.mem 0x02000000) ∧
    ({ HostInputs.initial with allocOk := false } : HostInputs).allocOk = false :=
  ⟨⟨clear_by_check (by decide), clear_by_check (by decide)⟩, not_clear_by_check (by decide),
   ⟨clear_by_check (by decide), by decide, by decide⟩, by decide, rfl⟩

/-- Two literals and a back-reference of length 6 and distance 2, cut at 8 bytes; the same with distance 3; the same with
its last byte in REGSET; a destination that ends in REGSET. -/
theorem test_witness_Lz77BackReference :
    let m := (withBytes [0x10, 8, 0, 0, 0x20, 0x41, 0x42, 0x30, 1]).mem
    let m' := (withBytes [0x10, 8, 0, 0, 0x20, 0x41, 0x42, 0x30, 2]).mem
    let r := poke [0x10, 8, 0, 0, 0x20, 0x41, 0x42, 0x30, 1] 0x03FFFFFC []
    m.wf memBytes = true ∧ declaredType m 0x02000000 = 1 ∧ 8 = declaredSize m 0x02000000 ∧ 8 ≤ tiny.scratchCap ∧
    (m.read 0x02000004).toNat / 2 ^ (7 - 2) = 1 ∧ 6 = (m.read 0x02000007).toNat / 16 + 3 ∧
    2 = (m.read 0x02000007).toNat % 16 * 256 + (m.read 0x02000008).toNat + 1 ∧
    3 = (m'.read 0x02000007).toNat % 16 * 256 + (m'.read 0x02000008).toNat + 1 ∧
    clearOf 0x02000000 (7 + 2) ∧ clearOf 0xFFFFFFF8 8 ∧
    (r.wf memBytes = true ∧ declaredType r 0x03FFFFFC = 1 ∧ 8 = declaredSize r 0x03FFFFFC ∧
      (r.read 0x04000000).toNat / 2 ^ (7 - 2) = 1 ∧ ¬ clearOf 0x03FFFFFC (7 + 2)) ∧ ¬ clearOf 0x040001F9 8 :=
  ⟨by decide, by decide, by decide, by decide, by decide, by decide, by decide, by decide, clear_by_check (by decide),
   clear_by_check (by decide), ⟨by decide, by decide, by decide, by decide, not_clear_by_check (by decide)⟩,
   not_clear_by_check (by decide)⟩

theorem test_witness_Lz77Literals :
    portFree literals = true ∧ literals.mem.wf memBytes = true ∧ declaredType literals.mem 0x02000000 = 1 ∧
    9 = declaredSize literals.mem 0x02000000 ∧ 9 ≤ literals.cfg.scratchCap ∧ literals.host.allocOk = true ∧
    (∀ j, j < 2 → literals.mem.read (0x02000000#32 + BitVec.ofNat 32 (4 + 9 * j)).toNat = 0) ∧
    clearOf 0x02000000 (4 + 9 + (9 + 7) / 8) ∧ clearOf 0xFFFFFFF7 9 ∧
    ¬ clearOf 0x040001F8 9 :=
  ⟨rfl, by decide, by decide, by decide, by decide, rfl, by decide, clear_by_check (by decide), clear_by_check (by decide),
   not_clear_by_check (by decide)⟩

/-- An odd declared size, the destination right after the input, of which DIFF16 leaves the last byte; a destination that
ends in REGSET. -/
theorem test_witness_DeltaUnfilters :
    portFree (withBytes [0x81, 3, 0, 0, 5, 3, 0xFA]) = true ∧
    (withBytes [0x81, 3, 0, 0, 5, 3, 0xFA]).mem.wf memBytes = true ∧
    3 = declaredSize (withBytes [0x81, 3, 0, 0, 5, 3, 0xFA]).mem 0x02000000 ∧ clearOf 0x02000000 (4 + 3) ∧
    clearOf 0x02000007 3 ∧ apart (0x02000000 + 4) 3 0x02000007 3 ∧
    (2 = 2 * (3 / 2) ∧ clearOf 0x02000000 (4 + 2) ∧ clearOf 0x03FFFFFE 2 ∧ apart (0x02000000 + 4) 2 0x02000006 2) ∧
    ¬ clearOf 0x040001FE 3 ∧ ¬ clearOf 0x040001FF 2 :=
  ⟨rfl, by decide, by decide, clear_by_check (by decide), clear_by_check (by decide), apart_of_lt (by decide) (by decide),
   ⟨rfl, clear_by_check (by decide), clear_by_check (by decide), apart_of_lt (by decide) (by decide)⟩,
   not_clear_by_check (by decide), not_clear_by_check (by decide)⟩

/-- Each code at its boundary: a length one too long, the offset -1, an end one beyond the region, the whole region. -/
theorem test_witness_StorageBoundsCheck :
    portFree start = true ∧ start.cfg.storageSize < (0x10001#32).toNat ∧
    (¬ start.cfg.storageSize < (0x10000#32).toNat ∧ (0xFFFFFFFF#32).toInt < 0) ∧
    (¬ (0xFFFF#32).toInt < 0 ∧ (start.cfg.storageSize : Int) < (0xFFFF#32).toInt + (2#32).toNat) ∧
    ¬ (start.cfg.storageSize : Int) < (0#32).toInt + (0x10000#32).toNat := by decide

theorem test_witness_SramReadCopies_and_SramWriteStores :
    portFree start = true ∧ start.mem.wf memBytes = true ∧ start.store.wf start.cfg.storageSize = true ∧
    0 ≤ (0xFFFE#32).toInt ∧ (0xFFFE#32).toNat + (2#32).toNat ≤ start.cfg.storageSize ∧
    clearOf 0x03FFFFFE (2#32).toNat ∧ ¬ clearOf 0x04000003 (2#32).toNat :=
  ⟨rfl, by decide, by decide, by decide, by decide, clear_by_check (by decide), fun h => absurd (h 1 (by decide)) (by decide)⟩

theorem test_witness_IrqSetHandlerRegisters : 14 ≤ (14#32).toNat ∧ (13#32).toNat = (13 : Source).val := by decide

end Sys2Proof.Tests
end

section
/-! PROOFS. How a step takes the next item of the input list (spec/00_scope.md R6). -/

namespace Sys2Proof.Machine

/-! ### The step, by what is presented -/

/-- With nothing presented the block waits. -/
theorem step_of_no_input {s : State} (h : s.inputs = []) : step s = .next s := by
  simp only [step, h]

/-- The item at the head of the list is taken, and the rest of the list is left. -/
theorem step_of_input {s : State} {x : Input} {rest : List Input} (h : s.inputs = x :: rest) :
    step s = takeInput x { s with inputs := rest } := by
  simp only [step, h]

/-- An operation presented that decodes is executed after its operands are latched. -/
theorem presentOp_of_decode {p : PortOp} {i : Instr} (s : State) (h : decode p = .ok i) :
    presentOp p s = exec i (latchPort p s) := by
  simp only [presentOp, h]

/-- The step at an operation that decodes; `latchPort` is where the two ports differ. -/
theorem step_of_op {s : State} {p : PortOp} {i : Instr} {rest : List Input} (hs : s.inputs = .op p :: rest)
    (hd : decode p = .ok i) : step s = exec i (latchPort p { s with inputs := rest }) :=
  (step_of_input hs).trans (presentOp_of_decode _ hd)

/-- A store of the platform outside REGSET is done as it says. -/
theorem platformStore_outside {addr : Word} (b : Byte) (s : State) (h : inRegset addr = false) :
    platformStore addr b s = .next { s with mem := s.mem.write addr.toNat b } := by
  simp [platformStore, h]

end Sys2Proof.Machine

namespace Sys2Proof.Certificates
open Sys2Proof.Machine

/-- Settles O13, by the kind of the item at the head of the input list. -/
theorem stepRunsDecodedOperation : Obligations.StepRunsDecodedOperation := by
  refine ⟨?cmd, ?bus, ?host, ?store, ?nothing⟩
  case cmd => exact fun _ _ _ _ hs hd => step_of_op hs hd
  case bus => exact fun _ _ _ _ hs hd => step_of_op hs hd
  case host => exact fun _ _ _ hs => step_of_input hs
  case store => exact fun _ _ _ b hs ha => (step_of_input hs).trans (platformStore_outside b _ ha)
  case nothing => exact fun _ hs => step_of_no_input hs

end Sys2Proof.Certificates
end

section
/-! PROOFS. The family spec/10_state.md: the reset state, what every step keeps (R27, R40, R41), and the frames of whole
classes of operations. A step takes one item, so each step lemma goes by the five kinds of item. -/

namespace Sys2Proof.Machine

/-! ### The reset state -/

/-- Every element of SoundDmaState at reset is within its bounds. -/
theorem soundLegal_initial (cfg : Config) : soundLegal cfg (SoundDma.initial cfg) :=
  ⟨Nat.zero_le _, Nat.zero_le _, List.length_replicate, Nat.zero_le _, Nat.zero_le _⟩

/-- At reset nothing has been taken from the cache, and CUR and the cache are 0 alike. -/
theorem curFollowsCache_initial (cfg : Config) : curFollowsCache (SoundDma.initial cfg) := ⟨Nat.zero_le _, rfl⟩

theorem initial_snd (cfg : Config) (c : Audio) : (State.initial cfg).snd[c] = SoundDma.initial cfg := by
  simp [State.initial]

theorem initial_inv {cfg : Config} (h : capacitiesHold cfg) : (State.initial cfg).Inv where
  params := h
  line_lt := by show 0 < 228; decide
  sound c := by rw [initial_snd]; exact soundLegal_initial cfg
  mixed := ⟨Nat.zero_le _, List.length_replicate⟩
  mem_wf := rfl
  store_wf := rfl
  handler := ⟨rfl, rfl, rfl⟩

theorem initial_cur (cfg : Config) (c : Audio) : curFollowsCache (State.initial cfg).snd[c] := by
  rw [initial_snd]
  exact curFollowsCache_initial cfg

theorem capacitiesHold_default : capacitiesHold Config.default := by
  unfold capacitiesHold
  decide

/-! ### What every step keeps -/

/-- An operation presented writes the command port's wires at most (spec/10_state.md R12). -/
theorem latchPort_frame (p : PortOp) (s : State) : latchPort p s = { s with port := (latchPort p s).port } := by
  cases p <;> rfl

/-- The invariant says nothing of the wires, the host inputs and the items to come. -/
theorem State.Inv.of_wires {s : State} (h : s.Inv) (port : CmdPort) (host : HostInputs) (inputs : List Input) :
    ({ s with port := port, host := host, inputs := inputs } : State).Inv :=
  ⟨h.params, h.line_lt, h.sound, h.mixed, h.mem_wf, h.store_wf, h.handler⟩

/-- Every item keeps the invariant. -/
theorem takeInput_inv {x : Input} {s t : State} (hs : s.Inv) (h : takeInput x s = .next t) : t.Inv := by
  cases x with
  | op p =>
    obtain ⟨i, -, hi⟩ := presentOp_next h
    rw [latchPort_frame] at hi
    exact exec_inv (hs.of_wires _ s.host s.inputs) hi
  | ret =>
    obtain ⟨y, -, hy, hl⟩ := handlerReturn_next h
    exact lineSteps_inv (hs.leave hy) hl
  | reset =>
    obtain ⟨-, -, rfl⟩ := resetEvent_next h
    obtain ⟨-, hl, hsnd, hmix, -, -, hh⟩ := initial_inv hs.params
    exact ⟨hs.params, hl, hsnd, hmix, hs.mem_wf, hs.store_wf, hh⟩
  | host w =>
    obtain rfl := Host.Outcome.next.inj h
    exact hs.of_wires s.port w s.inputs
  | store addr b =>
    obtain ⟨-, rfl⟩ := platformStore_next h
    exact ⟨hs.params, hs.line_lt, hs.sound, hs.mixed, Memory.write_wf b hs.mem_wf addr.isLt, hs.store_wf, hs.handler⟩

/-- Every item keeps the held bytes at their caches. -/
theorem takeInput_cur {x : Input} {s t : State} (hs : ∀ c : Audio, curFollowsCache s.snd[c])
    (h : takeInput x s = .next t) : ∀ c : Audio, curFollowsCache t.snd[c] := by
  cases x with
  | op p =>
    obtain ⟨i, -, hi⟩ := presentOp_next h
    refine exec_cur (fun c => ?_) hi
    rw [latchPort_frame]
    exact hs c
  | ret =>
    obtain ⟨y, -, -, hl⟩ := handlerReturn_next h
    exact lineSteps_cur (s := leaveHandler y s) hs hl
  | reset =>
    obtain ⟨-, -, rfl⟩ := resetEvent_next h
    exact initial_cur s.cfg
  | host w =>
    obtain rfl := Host.Outcome.next.inj h
    exact hs
  | store addr b =>
    obtain ⟨-, rfl⟩ := platformStore_next h
    exact hs

/-- Every item but the reset event keeps the trace so far. -/
theorem takeInput_trace {x : Input} {s t : State} (hx : x ≠ .reset) (h : takeInput x s = .next t) :
    s.trace <+: t.trace := by
  cases x with
  | op p =>
    obtain ⟨i, -, hi⟩ := presentOp_next h
    have ht := exec_trace hi
    rw [latchPort_frame] at ht
    exact ht
  | ret =>
    obtain ⟨y, -, -, hl⟩ := handlerReturn_next h
    exact (List.prefix_append s.trace [.ret y.src]).trans (lineSteps_effect hl).trace
  | reset => exact absurd rfl hx
  | host w =>
    obtain rfl := Host.Outcome.next.inj h
    exact List.prefix_refl _
  | store addr b =>
    obtain ⟨-, rfl⟩ := platformStore_next h
    exact List.prefix_refl _

/-! ### What every command leaves alone -/

/-- What a command, HALT and VSYNC among them, can change. -/
structure CommandFrame (i : Instr) (s t : State) : Prop where
  frame : t = { s with
    line := t.line
    deadline := t.deadline
    ifReg := t.ifReg
    insvc := t.insvc
    vec := t.vec
    dma := t.dma
    snd := t.snd
    mix := t.mix
    mixn := t.mixn
    keysnap := t.keysnap
    store := t.store
    busy := t.busy
    hdepth := t.hdepth
    susp := t.susp
    port := t.port
    mem := t.mem
    trace := t.trace }
  channels : noneArmed s.dma t.dma
  store : (∀ offset src length, i ≠ .sramWrite offset src length) → t.store = s.store
  vec : (∀ source ref, i ≠ .irqSetHandler source ref) → t.vec = s.vec

/-- HALT and VSYNC run the phases of line steps; every other command works on MEM, STORE, VEC and the trace alone. -/
theorem exec_command_cases {i : Instr} {s t : State} (hi : accessOf i = none) (h : exec i s = .next t) :
    (∃ cmd, lineSteps cmd 227 allPhases (beginCommand s) = .next t) ∨ CommandEffect i s t := by
  by_cases h1 : i = .halt
  · subst h1
    exact .inl ⟨.halt, (timingCommand_next h).2.2⟩
  · by_cases h2 : i = .vsync
    · subst h2
      exact .inl ⟨.vsync, (timingCommand_next h).2.2⟩
    · exact .inr (exec_command hi h1 h2 h)

theorem exec_command_frame {i : Instr} {s t : State} (hi : accessOf i = none) (h : exec i s = .next t) :
    CommandFrame i s t := by
  rcases exec_command_cases hi h with ⟨cmd, hl⟩ | ⟨f, -, -, -, hstore, hvec⟩
  · have f := (lineSteps_effect hl).frame
    refine ⟨?_, lineSteps_armed (s := beginCommand s) hl, fun _ => ?_, fun _ => ?_⟩ <;> rw [f] <;> rfl
  · refine ⟨?_, ?_, hstore, hvec⟩
    · rw [f]
    · rw [f]
      exact noneArmed_refl s.dma

end Sys2Proof.Machine

namespace Sys2Proof.Certificates
open Sys2Proof.Machine

/-- Settles O2: the item taken keeps the invariant, which does not depend on what is still to come. -/
theorem stepKeepsInvariant : Obligations.StepKeepsInvariant := by
  intro s t hs h
  rcases step_cases h with rfl | ⟨x, rest, -, hx⟩
  · exact hs
  · exact takeInput_inv (hs.of_wires s.port s.host rest) hx

/-- Settles O3: the item taken keeps each held byte at its cache. -/
theorem stepKeepsHeldByte : Obligations.StepKeepsHeldByte := by
  intro s t hs h
  rcases step_cases h with rfl | ⟨x, rest, -, hx⟩
  · exact hs
  · exact takeInput_cur (s := { s with inputs := rest }) hs hx

/-- Settles O5: the item taken is not the reset event, so it keeps the trace so far. -/
theorem traceOnlyGrows : Obligations.TraceOnlyGrows := by
  intro s t hr h
  rcases step_cases h with rfl | ⟨x, rest, hin, hx⟩
  · exact List.prefix_refl _
  · have hne : x ≠ .reset := fun e => hr (by rw [hin, e]; rfl)
    exact takeInput_trace (s := { s with inputs := rest }) hne hx

/-- Settles O7, by the two classes: a register access by the frame of the general procedure, a command by
`exec_command_frame`, whose channels keep their setup. -/
theorem operationFrames : Obligations.OperationFrames := by
  intro i s t h
  cases hi : accessOf i with
  | some a =>
    obtain ⟨base, hb⟩ := exec_register hi
    have f := (registerAccess_frame ((hb s).symm.trans h)).1
    unfold writeFrame at f
    rw [f]
    exact ⟨rfl, rfl, rfl, fun _ => rfl, fun _ => rfl, fun hn => absurd hn (Option.some_ne_none a), fun _ => ⟨rfl, rfl⟩⟩
  | none =>
    obtain ⟨f, hdma, hstore, hvec⟩ := exec_command_frame hi h
    rw [f]
    exact ⟨rfl, rfl, rfl, hstore, hvec,
      fun _ => ⟨rfl, rfl, rfl, rfl, rfl, rfl, rfl, rfl, rfl, rfl, fun n => (hdma n).1⟩,
      fun hn => absurd rfl hn⟩

/-- Settles O1, for `State.reset` by the capacities that the suggested parameters meet. -/
theorem resetMeetsInvariant : Obligations.ResetMeetsInvariant :=
  ⟨initial_inv capacitiesHold_default, fun cfg => ⟨initial_inv, initial_cur cfg⟩⟩

end Sys2Proof.Certificates
end

section
/-! PROOFS. The family spec/20_memory.md: which BUS words are operations (R51), and which register accesses are accepted
(R55, R57, R90). -/

namespace Sys2Proof.Machine

/-! ### Acceptance, by the fields of the word -/

/-- A size code that is a size counts its bytes as a power of two. -/
theorem sizeBytes_of_ofCode {c : BitVec 2} {size : AccessSize} (h : AccessSize.ofCode c = some size) :
    sizeBytes size = 2 ^ c.toNat := by
  rw [← AccessSize.code_of_ofCode h]
  cases size <;> rfl

theorem ne_byte_iff_of_ofCode {c : BitVec 2} {size : AccessSize} (h : AccessSize.ofCode c = some size) :
    size ≠ .byte ↔ c ≠ 0 := by
  rw [← AccessSize.code_of_ofCode h]
  cases size <;> decide

theorem accessOk_iff {addr : Word} {size : AccessSize} : accessOk addr size = true ↔
    size ≠ .byte ∧ addr.toNat % sizeBytes size = 0 ∧
      ∀ k, k < sizeBytes size → inRegset (addr + BitVec.ofNat 32 k) = true := by
  simp only [accessOk, Bool.and_eq_true, decide_eq_true_eq, allInRegset_iff, and_assoc]

/-- Acceptance in the words of R90: the size code, the alignment, and each byte of the access. -/
theorem accessOk_iff_of_ofCode {c : BitVec 2} {size : AccessSize} (addr : Word) (h : AccessSize.ofCode c = some size) :
    accessOk addr size = true ↔ c ≠ 0 ∧ addr.toNat % 2 ^ c.toNat = 0 ∧
      ∀ k, k < 2 ^ c.toNat → inRegset (addr + BitVec.ofNat 32 k) = true := by
  rw [accessOk_iff, ne_byte_iff_of_ofCode h, sizeBytes_of_ofCode h]

/-! ### The two ends of an access at a free port -/

theorem accessAt_refused {dir : Dir} {size : AccessSize} {addr wdata : Word} {s : State} (hp : portFree s = true)
    (ha : ¬ accessOk addr size = true) : accessAt dir size addr wdata s = .refused .badRegisterAccess := by
  simp [accessAt, hp, ha]

theorem accessAt_read {size : AccessSize} {addr wdata : Word} {s : State} (hp : portFree s = true)
    (ha : accessOk addr size = true) : accessAt .read size addr wdata s = outcomeOf (busRead size addr s) := by
  simp [accessAt, hp, ha]

/-- A 16-bit read at an even address of REGSET answers a value: a cell starts there. -/
theorem read16_completes {addr : Word} (s : State) (h : inRegset addr = true) (h2 : addr.toNat % 2 = 0) :
    ∃ v, read16 addr s = .ok v := by
  obtain ⟨c, hc⟩ := cellAt_some h h2
  exact ⟨readCell c s, by simp only [read16, hc]⟩

/-- A read that is accepted completes, half by half, and changes the response alone. -/
theorem busRead_completes {size : AccessSize} {addr : Word} (s : State) (ha : accessOk addr size = true) :
    ∃ v, busRead size addr s = .ok { s with rdata := v } := by
  obtain ⟨hsize, hal, hin⟩ := accessOk_iff.mp ha
  have h0 : inRegset addr = true := by simpa using hin 0 (by cases size <;> decide)
  cases size with
  | byte => exact absurd rfl hsize
  | half =>
    obtain ⟨v, hv⟩ := read16_completes s h0 hal
    exact ⟨v.setWidth 32, by simp only [busRead, hv, ok_bind, pure_eq_ok]⟩
  | word =>
    have h4 : addr.toNat % 4 = 0 := hal
    have hr2 : inRegset (addr + 2) = true := hin 2 (by decide)
    have h2 : (addr + 2).toNat % 2 = 0 := by
      rw [BitVec.toNat_add, show (2 : Word).toNat = 2 from rfl]
      omega
    obtain ⟨lo, hlo⟩ := read16_completes s h0 (by omega)
    obtain ⟨hi, hhi⟩ := read16_completes s hr2 h2
    exact ⟨hi ++ lo, by simp only [busRead, hlo, hhi, ok_bind, pure_eq_ok]⟩

end Sys2Proof.Machine

namespace Sys2Proof.Certificates
open Sys2Proof.Machine

/-- Settles O10, by the three answers of the decoder (`decodeBus_cases`) and the ranges of REGSET. -/
theorem busDecodesExactlyRegset : Obligations.BusDecodesExactlyRegset := by
  intro w
  dsimp only
  rw [← inRegset_iff]
  rcases decodeBus_cases w with ⟨h3, hd⟩ | ⟨-, hr, hd⟩ | ⟨h3, hr, hd⟩
  · simp [hd, h3]
  · simp [hd, hr]
  · exact iff_of_true hd ⟨h3, hr⟩

/-- Settles O26: the word's fields decide acceptance (`accessOk_iff_of_ofCode`), and a read that is accepted finds its
cells. -/
theorem accessesAcceptedOrRefused : Obligations.AccessesAcceptedOrRefused := by
  intro w i s hd hp
  obtain ⟨size, hs, hexec⟩ := exec_bus hd
  have hok := accessOk_iff_of_ofCode (busAddr w) hs
  rw [hexec]
  constructor
  · intro hbad
    refine accessAt_refused hp fun ha => ?_
    obtain ⟨hbyte, hal, hin⟩ := hok.mp ha
    rcases hbad with h | h | ⟨k, hk, h⟩
    · exact hbyte h
    · exact h hal
    · rw [hin k hk] at h
      cases h
  · intro hbyte hal hin hread
    have ha := hok.mpr ⟨hbyte, hal, hin⟩
    obtain ⟨v, hv⟩ := busRead_completes s ha
    exact ⟨v, by rw [hread, accessAt_read hp ha, hv]; rfl⟩

end Sys2Proof.Certificates
end

section
/-! PROOFS. The family spec/30_encoding.md: the decoder against the encoder (R71 to R76), the words that are no operation
(R72, R80, R81), the acceptance of operations (R82, R244), and the 32-bit access as two 16-bit ones (R85). -/

namespace Sys2Proof.Machine

/-! ### A command's word, by its opcode (R75) -/

@[simp] theorem decode_cmdWord_halt (x y z : Word) : decode (.cmd (cmdWord 0x02#8 x y z)) = .ok .halt := by
  simp [decode, decodeCmd]

@[simp] theorem decode_cmdWord_vsync (x y z : Word) : decode (.cmd (cmdWord 0x05#8 x y z)) = .ok .vsync := by
  simp [decode, decodeCmd]

@[simp] theorem decode_cmdWord_cpuset (src dst control : Word) :
    decode (.cmd (cmdWord 0x0B#8 src dst control)) = .ok (.cpuset src dst control) := by
  simp [decode, decodeCmd]

@[simp] theorem decode_cmdWord_cpufastset (src dst control : Word) :
    decode (.cmd (cmdWord 0x0C#8 src dst control)) = .ok (.cpufastset src dst control) := by
  simp [decode, decodeCmd]

@[simp] theorem decode_cmdWord_lz77 (src dst unused : Word) :
    decode (.cmd (cmdWord 0x11#8 src dst unused)) = .ok (.lz77 src dst) := by
  simp [decode, decodeCmd]

@[simp] theorem decode_cmdWord_diff8 (src dst unused : Word) :
    decode (.cmd (cmdWord 0x16#8 src dst unused)) = .ok (.diff8 src dst) := by
  simp [decode, decodeCmd]

@[simp] theorem decode_cmdWord_diff16 (src dst unused : Word) :
    decode (.cmd (cmdWord 0x18#8 src dst unused)) = .ok (.diff16 src dst) := by
  simp [decode, decodeCmd]

@[simp] theorem decode_cmdWord_sramRead (dest offset length : Word) :
    decode (.cmd (cmdWord 0xE0#8 dest offset length)) = .ok (.sramRead dest offset length) := by
  simp [decode, decodeCmd]

@[simp] theorem decode_cmdWord_sramWrite (offset src length : Word) :
    decode (.cmd (cmdWord 0xE1#8 offset src length)) = .ok (.sramWrite offset src length) := by
  simp [decode, decodeCmd]

@[simp] theorem decode_cmdWord_irqSetHandler (source ref unused : Word) :
    decode (.cmd (cmdWord 0xE2#8 source ref unused)) = .ok (.irqSetHandler source ref) := by
  simp [decode, decodeCmd]

/-- The encoding of a command that decodes from `w` has `w`'s opcode and the operands the command uses: all three for the
opcodes of three operands, two for the others but HALT and VSYNC. -/
theorem encode_operands {w : BitVec 128} {i : Instr} {a0 a1 a2 : Word}
    (he : encode i = .cmd (cmdWord (cmdOp w) a0 a1 a2))
    (h01 : i ≠ .halt ∧ i ≠ .vsync → a0 = cmdA0 w ∧ a1 = cmdA1 w)
    (h2 : (cmdOp w).toNat ∈ [0x0B, 0x0C, 0xE0, 0xE1] → a2 = cmdA2 w) :
    ∃ w' : BitVec 128, encode i = .cmd w' ∧ cmdOp w' = cmdOp w ∧
      (i ≠ .halt ∧ i ≠ .vsync → cmdA0 w' = cmdA0 w ∧ cmdA1 w' = cmdA1 w) ∧
      ((cmdOp w).toNat ∈ [0x0B, 0x0C, 0xE0, 0xE1] → cmdA2 w' = cmdA2 w) :=
  ⟨_, he, cmdOp_cmdWord .., fun h => by simpa using h01 h, fun h => by simpa using h2 h⟩

/-! ### A register operation, by its row (R76) -/

/-- A register operation is the access of one of the 31 rows. -/
theorem row_of_accessOf {i : Instr} {a : BusAccess} (h : accessOf i = some a) :
    ∃ r ∈ busRows, i = r.make a := by
  cases i <;> simp only [accessOf, Option.some.injEq, reduceCtorEq] at h
  all_goals
    subst h
    simp [busRows, displaySoundRows, dma0Rows, dma1Rows, dma2Rows, dma3Rows, timerKeyIrqRows, row16, row32]

/-- The address of a well-formed register operation lies in the cell of its own row. -/
theorem row_hits_of_wellFormed {k : Fin 31} {a : BusAccess} (h : WellFormed ((rowAt k).make a) = true) :
    (rowAt k).hits ((rowAt k).base + a.off.setWidth 32) = true := by
  obtain ⟨-, -, ⟨hm, hw⟩ | ⟨hm, -⟩⟩ := busRow_make (r := rowAt k) (List.getElem_mem _) a
  · exact Laws.tableRow_cell16 k a.off hm (of_decide_eq_true (hw.symm.trans h))
  · exact Laws.tableRow_cell32 k a.off hm

theorem decode_encode_register {i : Instr} {a : BusAccess} (ha : accessOf i = some a) (h : WellFormed i = true) :
    decode (encode i) = .ok i := by
  obtain ⟨r, hr, rfl⟩ := row_of_accessOf ha
  obtain ⟨k, hk, rfl⟩ := List.mem_iff_getElem.mp hr
  rw [(busRow_make hr a).1]
  exact decode_row ⟨k, hk⟩ a (row_hits_of_wellFormed h)

theorem decode_encode_command {i : Instr} (ha : accessOf i = none) : decode (encode i) = .ok i := by
  cases i <;> simp only [accessOf, reduceCtorEq] at ha <;> simp [encode]

/-- The offset of an address in the cell of its row is one of the cell's bytes. -/
theorem wellFormed_of_hits {r : BusRow} {x : Word} (hr : r ∈ busRows) (hx : x &&& r.mask = r.base) (dir : Dir)
    (size : AccessSize) (wdata : Word) :
    WellFormed (r.make ⟨dir, size, (x - r.base).setWidth 2, wdata⟩) = true := by
  obtain ⟨-, -, ⟨hm, hw⟩ | ⟨-, hw⟩⟩ := busRow_make hr ⟨dir, size, (x - r.base).setWidth 2, wdata⟩
  · rw [hm] at hx
    rw [hw]
    exact decide_eq_true (hits_row16 hx).2.1
  · rw [hw]
    exact decide_eq_true (BitVec.isLt _)

/-! ### What is refused -/

/-- A word that decodes to nothing is refused, whatever the state (R80). -/
theorem step_of_decode_error {s : State} {p : PortOp} {e : DecodeError} {rest : List Input}
    (hs : s.inputs = .op p :: rest) (hd : decode p = .error e) : step s = .refused (refusalOf e) := by
  rw [step_of_input hs]
  simp only [takeInput, presentOp, hd]

theorem decode_cmd_of_zeroField {w : BitVec 128} (h : cmdZero w ≠ 0) : decode (.cmd w) = .error .nonzeroZeroField :=
  if_pos h

/-- An opcode outside the map of R75 is unassigned: the decoder's ten comparisons fail. -/
theorem decode_cmd_of_opcode {w : BitVec 128} (hz : cmdZero w = 0)
    (ho : (cmdOp w).toNat ∉ [0x02, 0x05, 0x0B, 0x0C, 0x11, 0x16, 0x18, 0xE0, 0xE1, 0xE2]) :
    decode (.cmd w) = .error .unassignedOpcode := by
  have hne : ∀ op : Byte, op.toNat ∈ [0x02, 0x05, 0x0B, 0x0C, 0x11, 0x16, 0x18, 0xE0, 0xE1, 0xE2] → cmdOp w ≠ op :=
    fun op hop e => ho (e ▸ hop)
  simp [decode, decodeCmd, hz, hne]

theorem standalone_busy {s : State} (body : Except Refusal (Word × State)) (h : portFree s = false) :
    standalone s body = .refused .operationWhileBusy := by
  simp [standalone, h]

theorem registerAccess_busy {s : State} (base : Word) (a : BusAccess) (h : portFree s = false) :
    registerAccess base a s = .refused .operationWhileBusy := by
  simp [registerAccess, h]

theorem timingCommand_inHandler {s : State} (cmd : TimingCmd) (h : s.hdepth = true) :
    timingCommand cmd s = .refused .timingCommandInHandler := by
  simp [timingCommand, h]

theorem timingCommand_busy {s : State} (cmd : TimingCmd) (hb : s.busy = true) (hd : s.hdepth = false) :
    timingCommand cmd s = .refused .operationWhileBusy := by
  simp [timingCommand, hb, hd]

/-- While a command is in progress in the main flow every operation is refused: at the port, or by the timing command
itself (R82, spec/60_exceptions.md R244). -/
theorem exec_busy {s : State} (hb : s.busy = true) (hd : s.hdepth = false) (i : Instr) :
    exec i s = .refused .operationWhileBusy := by
  have hp : portFree s = false := by simp [portFree, hb, hd]
  cases ha : accessOf i with
  | some a =>
    obtain ⟨base, hexec⟩ := exec_register ha
    rw [hexec, registerAccess_busy base a hp]
  | none =>
    cases i <;> simp only [accessOf, reduceCtorEq] at ha <;> rw [exec]
    case halt => exact timingCommand_busy .halt hb hd
    case vsync => exact timingCommand_busy .vsync hb hd
    all_goals exact standalone_busy _ hp

/-! ### An access at its address, by the fields of its word -/

theorem inRegset_of_decode {w : BitVec 67} {i : Instr} (h : decode (.bus w) = .ok i) : inRegset (busAddr w) = true := by
  rcases decodeBus_cases w with ⟨-, hd⟩ | ⟨-, -, hd⟩ | ⟨-, hin, -⟩
  · cases hd.symm.trans h
  · cases hd.symm.trans h
  · exact hin

/-- A BUS word written out field by field, where it is an operation, is the access its fields say. -/
theorem exec_busFields {dir : Dir} {size : AccessSize} {addr v : Word} {i : Instr}
    (h : decode (.bus (dir.code ++ size.code ++ addr ++ v)) = .ok i) :
    inRegset addr = true ∧ ∀ s, exec i s = accessAt dir size addr v s := by
  have hw : dir.code ++ size.code ++ addr ++ v = busWord addr ⟨dir, size, 0, v⟩ := by simp [busWord]
  have haddr : busAddr (busWord addr ⟨dir, size, 0, v⟩) = addr := by simp
  rw [hw] at h
  refine ⟨haddr ▸ inRegset_of_decode h, ?_⟩
  obtain ⟨size', hsize, hexec⟩ := exec_bus h
  rw [busSizeCode_busWord, AccessSize.ofCode_code] at hsize
  obtain rfl := Option.some.inj hsize
  rwa [busDir_busWord, haddr, busWdata_busWord] at hexec

/-! ### A 32-bit access and its two halves (R85, R90) -/

theorem accessAt_write_next {size : AccessSize} {addr v : Word} {s t : State} (ha : accessOk addr size = true) :
    accessAt .write size addr v s = .next t ↔ portFree s = true ∧ busWrite size addr v s = .ok t := by
  cases hp : portFree s <;> simp [accessAt, hp, ha]

theorem accessAt_read_next {size : AccessSize} {addr v : Word} {s t : State} (ha : accessOk addr size = true) :
    accessAt .read size addr v s = .next t ↔ portFree s = true ∧ busRead size addr s = .ok t := by
  cases hp : portFree s <;> simp [accessAt, hp, ha]

/-- No register write moves BUSY or HDEPTH. -/
theorem busWrite_portFree {size : AccessSize} {addr v : Word} {s t : State} (h : busWrite size addr v s = .ok t) :
    portFree t = portFree s := by
  rw [(busWrite_frame h).1]
  rfl

theorem lowHalf_ofNat_low (v : Word) : lowHalf (BitVec.ofNat 32 (v.toNat % 65536)) = lowHalf v := by
  apply BitVec.eq_of_toNat_eq
  simp [lowHalf]

theorem lowHalf_ofNat_high (v : Word) : lowHalf (BitVec.ofNat 32 (v.toNat / 65536)) = highHalf v := by
  apply BitVec.eq_of_toNat_eq
  have := v.isLt
  simp only [lowHalf, highHalf, extract_toNat, BitVec.toNat_ofNat]
  omega

/-- The two halves of a 32-bit response, from the two 16-bit ones. -/
theorem append_halves (hi lo : Half) :
    (hi ++ lo : Word) = BitVec.ofNat 32 ((hi.setWidth 32).toNat * 65536 + (lo.setWidth 32).toNat) := by
  apply BitVec.eq_of_toNat_eq
  have h1 := hi.isLt
  have h2 := lo.isLt
  rw [BitVec.toNat_ofNat, BitVec.toNat_setWidth, BitVec.toNat_setWidth]
  refine (append_toNat hi lo).trans ?_
  omega

/-- The 32-bit access at a multiple of 4 and its two 16-bit ones are accepted together. -/
theorem accessOk_word_halves {addr : Word} (h4 : addr.toNat % 4 = 0) (h0 : inRegset addr = true)
    (h2 : inRegset (addr + 2) = true) :
    accessOk addr .word = true ∧ accessOk addr .half = true ∧ accessOk (addr + 2) .half = true := by
  have e2 : (addr + 2).toNat % 2 = 0 := by
    rw [BitVec.toNat_add, show (2 : Word).toNat = 2 from rfl]
    omega
  exact ⟨accessOk_word h0 h2 h4, accessOk_half h0 (by omega), accessOk_half h2 e2⟩

/-- A 32-bit write is the write of the low half, then of the high half in the state that leaves: the port is still
free there. -/
theorem accessAt_write_word {addr v vlo vhi : Word} {s t : State} (h4 : addr.toNat % 4 = 0)
    (h0 : inRegset addr = true) (h2 : inRegset (addr + 2) = true) (hlo : lowHalf vlo = lowHalf v)
    (hhi : lowHalf vhi = highHalf v) :
    accessAt .write .word addr v s = .next t ↔
      ∃ u, accessAt .write .half addr vlo s = .next u ∧ accessAt .write .half (addr + 2) vhi u = .next t := by
  obtain ⟨hw, hl, hh⟩ := accessOk_word_halves h4 h0 h2
  have hfree {u : State} (hu : write16 addr (lowHalf v) s = .ok u) : portFree u = portFree s :=
    busWrite_portFree (size := .half) hu
  simp only [accessAt_write_next hw, accessAt_write_next hl, accessAt_write_next hh, busWrite, hlo, hhi, bind_eq_ok]
  constructor
  · rintro ⟨hp, u, hu, ht⟩
    exact ⟨u, ⟨hp, hu⟩, (hfree hu).trans hp, ht⟩
  · rintro ⟨u, ⟨hp, hu⟩, -, ht⟩
    exact ⟨hp, u, hu, ht⟩

/-- A 32-bit read answers the 16-bit answers one above the other. -/
theorem accessAt_read_word {addr v : Word} {s t : State} (h4 : addr.toNat % 4 = 0) (h0 : inRegset addr = true)
    (h2 : inRegset (addr + 2) = true) :
    accessAt .read .word addr v s = .next t ↔
      ∃ u1 u2, accessAt .read .half addr v s = .next u1 ∧ accessAt .read .half (addr + 2) v s = .next u2 ∧
        t = { s with rdata := BitVec.ofNat 32 (u2.rdata.toNat * 65536 + u1.rdata.toNat) } := by
  obtain ⟨hw, hl, hh⟩ := accessOk_word_halves h4 h0 h2
  simp only [accessAt_read_next hw, accessAt_read_next hl, accessAt_read_next hh, busRead, bind_eq_ok, pure_eq_ok,
    Except.ok.injEq, append_halves]
  constructor
  · rintro ⟨hp, lo, hlo, hi, hhi, rfl⟩
    exact ⟨_, _, ⟨hp, lo, hlo, rfl⟩, ⟨hp, hi, hhi, rfl⟩, rfl⟩
  · rintro ⟨u1, u2, ⟨hp, lo, hlo, rfl⟩, ⟨-, hi, hhi, rfl⟩, rfl⟩
    exact ⟨hp, lo, hlo, hi, hhi, rfl⟩

end Sys2Proof.Machine

namespace Sys2Proof.Certificates
open Sys2Proof.Machine

/-- Settles O8, by the two ports: a command's word by its opcode, a register operation by its row, whose cell no other row
shares. -/
theorem decodeEncodeRoundTrip : Obligations.DecodeEncodeRoundTrip := by
  intro i h
  cases ha : accessOf i with
  | some a => exact decode_encode_register ha h
  | none => exact decode_encode_command ha

/-- Settles O9: a BUS word by the row its address lies in, a CMD word by its opcode. -/
theorem decodedWordsEncodeBack : Obligations.DecodedWordsEncodeBack := by
  refine ⟨?bus, ?cmd, ?three, ?two, ?sramRead, ?sramWrite, ?handler, ?timing⟩
  case bus =>
    intro w i h
    obtain ⟨size, r, hs, hr, ha, rfl⟩ := decodeBus_ok h
    obtain ⟨he, hacc, -⟩ := busRow_make hr ⟨busDir w, size, (busAddr w - r.base).setWidth 2, busWdata w⟩
    refine ⟨wellFormed_of_hits hr ha _ _ _, ?_, by simp [hacc]⟩
    rw [he, busWord_of_fields hr ha hs]
  case cmd =>
    intro w i h
    obtain ⟨hz, hop⟩ := decodeCmd_ok h
    rcases hop with ⟨ho, rfl⟩ | ⟨ho, rfl⟩ | ⟨ho, rfl⟩ | ⟨ho, rfl⟩ | ⟨ho, rfl⟩ | ⟨ho, rfl⟩ | ⟨ho, rfl⟩ | ⟨ho, rfl⟩ |
      ⟨ho, rfl⟩ | ⟨ho, rfl⟩
    all_goals
      refine ⟨rfl, rfl, hz, encode_operands (by rw [ho]; rfl) ?_ ?_⟩
      · simp
      · simp [ho]
  case three => exact fun src dst control => ⟨decode_cmdWord_cpuset .., decode_cmdWord_cpufastset ..⟩
  case two => exact fun src dst unused => ⟨decode_cmdWord_lz77 .., decode_cmdWord_diff8 .., decode_cmdWord_diff16 ..⟩
  case sramRead => exact decode_cmdWord_sramRead
  case sramWrite => exact decode_cmdWord_sramWrite
  case handler => exact decode_cmdWord_irqSetHandler
  case timing => exact fun x y z => ⟨decode_cmdWord_halt .., decode_cmdWord_vsync ..⟩

/-- Settles O25: each word is the access of its fields (`exec_busFields`), and the general procedure takes a 32-bit access
half by half. -/
theorem wordAccessIsTwoHalves : Obligations.WordAccessIsTwoHalves := by
  intro addr h4
  constructor
  · intro v iw ilo ihi hw hl hh s t
    obtain ⟨h0, ew⟩ := exec_busFields (dir := .write) (size := .word) hw
    obtain ⟨-, el⟩ := exec_busFields (dir := .write) (size := .half) hl
    obtain ⟨h2, eh⟩ := exec_busFields (dir := .write) (size := .half) hh
    simp only [ew, el, eh]
    exact accessAt_write_word h4 h0 h2 (lowHalf_ofNat_low v) (lowHalf_ofNat_high v)
  · intro iw ilo ihi hw hl hh s t
    obtain ⟨h0, ew⟩ := exec_busFields (dir := .read) (size := .word) hw
    obtain ⟨-, el⟩ := exec_busFields (dir := .read) (size := .half) hl
    obtain ⟨h2, eh⟩ := exec_busFields (dir := .read) (size := .half) hh
    simp only [ew, el, eh]
    exact accessAt_read_word h4 h0 h2

/-- Settles O11: each word is read off by evaluation of the decoder. -/
theorem specWordsDecode : Obligations.SpecWordsDecode :=
  ⟨rfl, rfl, rfl, rfl, rfl, rfl, rfl, rfl, rfl, rfl, rfl, rfl, rfl, rfl⟩

/-- Settles O12, by the ports: the decoder's two grounds for a CMD word, its two for a BUS word. -/
theorem nonOperationsRefused : Obligations.NonOperationsRefused := by
  intro s rest
  refine ⟨fun w hs => ⟨fun hz => step_of_decode_error hs (decode_cmd_of_zeroField hz),
    fun hz ho => step_of_decode_error hs (decode_cmd_of_opcode hz ho)⟩, fun w hs hbad => ?_⟩
  rcases decodeBus_cases w with ⟨-, hd⟩ | ⟨-, -, hd⟩ | ⟨h3, hin, -⟩
  · exact step_of_decode_error hs hd
  · exact step_of_decode_error hs hd
  · rcases hbad with h | h
    · exact absurd h h3
    · cases hin.symm.trans h

/-- Settles O40, by the port's rule for each kind of operation (`exec_busy`). -/
theorem acceptance : Obligations.Acceptance :=
  fun _ => ⟨fun hd => ⟨timingCommand_inHandler .halt hd, timingCommand_inHandler .vsync hd⟩, exec_busy⟩

end Sys2Proof.Certificates
end

section
/-! PROOFS. The family spec/40_register_access.md: what a 16-bit access of each register answers and changes (R91 to R109).
An operation at an offset names one cell of the register window; the general procedure (R90) is then the cell's own read or
write, and what is left is how the cell's bits stand for the fields. -/

namespace Sys2Proof.Machine

/-! ### The cell a 16-bit access reaches (R90) -/

/-- A 16-bit access of the register operation `op` at byte offset `off` is accepted and reaches the cell `c`. -/
def ReachesCell (op : BusAccess → Instr) (off : BitVec 2) (c : Cell) : Prop :=
  ∃ base : Word, (∀ a s, exec (op a) s = registerAccess base a s) ∧
    accessOk (base + off.setWidth 32) .half = true ∧ cellAt (base + off.setWidth 32) = some c

/-- A 16-bit read of a cell answers what the cell reads and changes nothing else. -/
theorem exec_read_half {op : BusAccess → Instr} {off : BitVec 2} {c : Cell} {s : State} {x : Word}
    (h : ReachesCell op off c) (hp : portFree s = true) (d : Word) (hx : (readCell c s).setWidth 32 = x) :
    exec (op ⟨.read, .half, off, d⟩) s = .next { s with rdata := x } := by
  obtain ⟨base, hexec, hok, hc⟩ := h
  rw [hexec, registerAccess_read_half hp hok hc, hx]

/-- A 16-bit write of a cell is the cell's own write of `wdata[15:0]` (`hr` says what that comes to). -/
theorem exec_write_half {op : BusAccess → Instr} {off : BitVec 2} {c : Cell} {s : State} {v : Word}
    {r : Except Refusal State} (h : ReachesCell op off c) (hp : portFree s = true)
    (hr : writeCell c (lowHalf v) s = r) : exec (op ⟨.write, .half, off, v⟩) s = outcomeOf r := by
  obtain ⟨base, hexec, hok, hc⟩ := h
  rw [hexec, registerAccess_write_half hp hok hc, hr]

theorem reaches_dispstat : ReachesCell .regDispstat 0 .dispstat := ⟨_, fun _ _ => rfl, rfl, rfl⟩
theorem reaches_vcount : ReachesCell .regVcount 0 .vcount := ⟨_, fun _ _ => rfl, rfl, rfl⟩
theorem reaches_soundcntH : ReachesCell .regSoundcntH 0 .soundcntH := ⟨_, fun _ _ => rfl, rfl, rfl⟩
theorem reaches_soundcntX : ReachesCell .regSoundcntX 0 .soundcntX := ⟨_, fun _ _ => rfl, rfl, rfl⟩
theorem reaches_keyinput : ReachesCell .regKeyinput 0 .keyinput := ⟨_, fun _ _ => rfl, rfl, rfl⟩
theorem reaches_keycnt : ReachesCell .regKeycnt 0 .keycnt := ⟨_, fun _ _ => rfl, rfl, rfl⟩
theorem reaches_ie : ReachesCell .regIe 0 .ie := ⟨_, fun _ _ => rfl, rfl, rfl⟩
theorem reaches_if : ReachesCell .regIf 0 .iF := ⟨_, fun _ _ => rfl, rfl, rfl⟩
theorem reaches_ime : ReachesCell .regIme 0 .ime := ⟨_, fun _ _ => rfl, rfl, rfl⟩

/-- Both halves of a FIFO address, at the even offsets (R95, R96). -/
theorem reaches_fifo (c : Audio) {off : BitVec 2} (h : off.toNat % 2 = 0) :
    ReachesCell (fifoOp c) off (.fifo c (decide (off = 2))) := by
  have hoff : off = 0 ∨ off = 2 := by revert off; decide
  rcases hoff with rfl | rfl <;> match c with
  | 0 | 1 => exact ⟨_, fun _ _ => rfl, rfl, rfl⟩

theorem reaches_sad (n : DmaIndex) (hi : Bool) : ReachesCell (sadOp n) (bif hi then 2 else 0) (.sad n hi) := by
  cases hi <;> match n with
  | 0 | 1 | 2 | 3 => exact ⟨_, fun _ _ => rfl, rfl, rfl⟩

theorem reaches_dad (n : DmaIndex) (hi : Bool) : ReachesCell (dadOp n) (bif hi then 2 else 0) (.dad n hi) := by
  cases hi <;> match n with
  | 0 | 1 | 2 | 3 => exact ⟨_, fun _ _ => rfl, rfl, rfl⟩

theorem reaches_cntL (n : DmaIndex) : ReachesCell (cntLOp n) 0 (.cntL n) := by
  match n with
  | 0 | 1 | 2 | 3 => exact ⟨_, fun _ _ => rfl, rfl, rfl⟩

theorem reaches_cntH (n : DmaIndex) : ReachesCell (cntHOp n) 0 (.cntH n) := by
  match n with
  | 0 | 1 | 2 | 3 => exact ⟨_, fun _ _ => rfl, rfl, rfl⟩

theorem reaches_tmL (t : TimerIndex) : ReachesCell (tmLOp t) 0 (.tmL t) := by
  match t with
  | 0 | 1 => exact ⟨_, fun _ _ => rfl, rfl, rfl⟩

theorem reaches_tmH (t : TimerIndex) : ReachesCell (tmHOp t) 0 (.tmH t) := by
  match t with
  | 0 | 1 => exact ⟨_, fun _ _ => rfl, rfl, rfl⟩

/-! ### What the registers of one field read -/

/-- A field of at most 16 bits stands in the low bits of the response. -/
theorem setWidth_half_word {w : Nat} (x : BitVec w) (hw : w ≤ 16) :
    (x.setWidth 16).setWidth 32 = BitVec.ofNat 32 x.toNat := by
  apply BitVec.eq_of_toNat_eq
  have hx : x.toNat < 2 ^ 16 := x.isLt.trans_le (Nat.pow_le_pow_right (by decide) hw)
  simp only [BitVec.toNat_setWidth, BitVec.toNat_ofNat]
  omega

theorem readSoundcntX_eq (s : State) : (readSoundcntX s).setWidth 32 = BitVec.ofNat 32 (s.master.toNat * 0x80) := by
  unfold readSoundcntX
  cases s.master <;> rfl

theorem readIme_eq (s : State) : (readIme s).setWidth 32 = BitVec.ofNat 32 s.ime.toNat := by
  unfold readIme
  cases s.ime <;> rfl

theorem getHalf_low_eq (x : Word) : (getHalf false x).setWidth 32 = BitVec.ofNat 32 (x.toNat % 65536) := by
  apply BitVec.eq_of_toNat_eq
  simp [getHalf, lowHalf]

theorem getHalf_high_eq (x : Word) : (getHalf true x).setWidth 32 = BitVec.ofNat 32 (x.toNat / 65536) := by
  apply BitVec.eq_of_toNat_eq
  have := x.isLt
  simp only [getHalf, highHalf, if_true, BitVec.toNat_setWidth, BitVec.toNat_ofNat, extract_toNat]
  omega

/-! ### The fields of a written half -/

/-- A field of a 16-bit register, by its number in the bus word. -/
theorem lowHalf_field (v : Word) {k n : Nat} (h : k + n ≤ 16) :
    (lowHalf v).extractLsb' k n = BitVec.ofNat n (v.toNat / 2 ^ k) := by
  apply BitVec.eq_of_getLsbD_eq
  intro i hi
  rw [BitVec.getLsbD_extractLsb', lowHalf_bit v (k + i) (by omega), BitVec.getLsbD_ofNat, Nat.testBit_div_two_pow]
  simp [hi, BitVec.getLsbD, Nat.add_comm k i]

theorem lowHalf_eq (v : Word) : lowHalf v = BitVec.ofNat 16 v.toNat := by
  apply BitVec.eq_of_toNat_eq
  simp [lowHalf]

theorem writeDispstat_low (v : Word) (s : State) :
    writeDispstat (lowHalf v) s = { s with vcmp := BitVec.ofNat 8 (v.toNat / 256) } := by
  rw [writeDispstat, lowHalf_field v (by decide), show 2 ^ 8 = 256 from rfl]

theorem writeSoundcntX_low (v : Word) (s : State) :
    writeSoundcntX (lowHalf v) s = { s with master := v.getLsbD 7 } := by
  rw [writeSoundcntX, lowHalf_bit v 7 (by decide)]

theorem writeTmL_low (t : TimerIndex) (v : Word) (s : State) :
    writeTmL t (lowHalf v) s = setTimer t { s.timer[t] with reload := BitVec.ofNat 16 v.toNat } s := by
  rw [writeTmL, lowHalf_eq]

theorem writeTmH_low (t : TimerIndex) (v : Word) (s : State) :
    writeTmH t (lowHalf v) s =
      setTimer t { s.timer[t] with psel := BitVec.ofNat 2 v.toNat, start := v.getLsbD 7 } s := by
  rw [writeTmH, lowHalf_field v (by decide), lowHalf_bit v 7 (by decide), Nat.pow_zero, Nat.div_one]

theorem writeKeycnt_low (v : Word) (s : State) :
    writeKeycnt (lowHalf v) s =
      { s with kwatch := BitVec.ofNat 10 v.toNat, kirqEn := v.getLsbD 14, kand := v.getLsbD 15 } := by
  rw [writeKeycnt, lowHalf_field v (by decide), lowHalf_bit v 14 (by decide), lowHalf_bit v 15 (by decide),
    Nat.pow_zero, Nat.div_one]

theorem writeIe_low (v : Word) (s : State) : writeIe (lowHalf v) s = { s with ie := BitVec.ofNat 14 v.toNat } := by
  rw [writeIe, lowHalf_field v (by decide), Nat.pow_zero, Nat.div_one]

theorem writeIme_low (v : Word) (s : State) : writeIme (lowHalf v) s = { s with ime := v.getLsbD 0 } := by
  rw [writeIme, lowHalf_bit v 0 (by decide)]

/-- A write of IF leaves a flag pending iff it was and its bit is written 0 (R107). -/
theorem flagOf_writeIf (v : Word) (s : State) (src : Source) :
    flagOf (writeIf (lowHalf v) s).ifReg src = (flagOf s.ifReg src && !v.getLsbD src.val) := by
  have hsrc := src.isLt
  have hbit : ((lowHalf v).extractLsb' 0 14).getLsbD src.val = v.getLsbD src.val := by
    rw [BitVec.getLsbD_extractLsb', Nat.zero_add, lowHalf_bit v src.val (by omega), decide_eq_true hsrc, Bool.true_and]
  simp only [flagOf, writeIf, BitVec.getLsbD_and, BitVec.getLsbD_not, hbit, decide_eq_true hsrc, Bool.true_and]

/-! ### The write of a DMA control word (R100) -/

/-- A numbering of the triggers as in spec/10_state.md R21 is `triggerCode`. -/
theorem code_eq_triggerCode {code : Trigger → Nat} (hi : code .immediate = 0) (hv : code .vblank = 1)
    (hh : code .hblank = 2) (hf : code .fifo = 3) (t : Trigger) : code t = (triggerCode t).toNat := by
  cases t <;> assumption

theorem triggerOf_triggerCode (t : Trigger) : triggerOf (triggerCode t) = t := by cases t <;> rfl

/-- The channel a bus word's control fields make, its trigger by the number in bits 13:12. -/
theorem withControl_low_of_trigger {v : Word} {t : Trigger} (c : DmaChannel)
    (h : (triggerCode t).toNat = v.toNat / 0x1000 % 4) :
    withControl (lowHalf v) c = { c with
      dstFixed := v.getLsbD 6, srcFixed := v.getLsbD 8, rep := v.getLsbD 9, w32 := v.getLsbD 10, trig := t,
      en := v.getLsbD 15 } := by
  have hcode : (lowHalf v).extractLsb' 12 2 = triggerCode t := by
    rw [lowHalf_field v (by decide)]
    apply BitVec.eq_of_toNat_eq
    rw [h]
    exact BitVec.toNat_ofNat _ _
  rw [withControl_low, hcode, triggerOf_triggerCode]

/-- Bits 13:12 both 0 are trigger number 0. -/
theorem triggerNumber_eq_zero {v : Word} (h12 : v.getLsbD 12 = false) (h13 : v.getLsbD 13 = false) :
    v.toNat / 0x1000 % 4 = 0 := by
  simp only [BitVec.getLsbD, Nat.testBit_eq_decide_div_mod_eq, decide_eq_false_iff_not] at h12 h13
  omega

@[simp] theorem setDma_setDma (n : DmaIndex) (c c' : DmaChannel) (s : State) :
    setDma n c (setDma n c' s) = setDma n c s := by
  simp [setDma]

/-- The reserved bits 5 and 7 are checked first. -/
theorem writeCntH_reserved {n : DmaIndex} {v : Word} {s : State} (h : v.getLsbD 5 = true ∨ v.getLsbD 7 = true) :
    writeCntH n (lowHalf v) s = .error .dmaModeNotInSource := by
  rw [← lowHalf_bit v 5 (by decide), ← lowHalf_bit v 7 (by decide)] at h
  exact if_pos (by simpa using h)

/-- With the reserved bits clear, the enable edge and the trigger decide what a control word does. -/
theorem writeCntH_accepted {n : DmaIndex} {v : Word} {s : State} {c : DmaChannel} (h5 : v.getLsbD 5 = false)
    (h7 : v.getLsbD 7 = false) (hc : withControl (lowHalf v) s.dma[n] = c) :
    writeCntH n (lowHalf v) s =
      if s.dma[n].en = false ∧ v.getLsbD 15 = true then
        if c.trig = .immediate then dmaRun n (setDma n (loadLatches c) s) else .ok (setDma n (loadLatches c) s)
      else .ok (setDma n c s) := by
  have hen : c.en = v.getLsbD 15 := by rw [← hc, ← lowHalf_bit v 15 (by decide)]; rfl
  simp only [writeCntH, lowHalf_bit v 5 (by decide), lowHalf_bit v 7 (by decide), h5, h7, hc, hen, Bool.or_self,
    Bool.false_eq_true, if_false, Bool.and_eq_true, Bool.not_eq_true']

/-! ### The immediate transfer (spec/42_dma.md R143, R146) -/

/-- An immediate transfer whose units complete leaves the channel they end at, disabled, and their MEM. -/
theorem dmaRun_of_units {n : DmaIndex} {s : State} {c : DmaChannel} {m : Memory}
    (h : dmaUnits s.dma[n].cnt.toNat s.dma[n] s.mem = .ok (c, m)) :
    dmaRun n s = .ok (setDma n { c with en := false } { s with mem := m }) := by
  simp only [dmaRun, dmaBlock, h, ok_bind, pure_eq_ok, setDma_get_same, setDma_setDma]

theorem dmaRun_refused {n : DmaIndex} {s : State} (h : ¬ transferClear s.dma[n] s.dma[n].cnt.toNat) :
    dmaRun n s = .error .engineAccessToRegisters := by
  simp only [dmaRun, dmaBlock, dmaUnits_refused h, error_bind]

end Sys2Proof.Machine

namespace Sys2Proof.Certificates
open Sys2Proof.Machine

/-- Settles O15, register by register: the cell reached and the value its reader packs. -/
theorem readDisplayAndSound : Obligations.ReadDisplayAndSound := by
  intro s d hp
  refine ⟨?dispstat, ?vcount, ?soundcntH, ?soundcntX, ?fifo⟩
  case dispstat => exact exec_read_half reaches_dispstat hp d (readDispstat_eq s)
  case vcount => exact exec_read_half reaches_vcount hp d (setWidth_half_word s.line (by decide))
  case soundcntH => exact exec_read_half reaches_soundcntH hp d (readSoundcntH_eq s)
  case soundcntX => exact exec_read_half reaches_soundcntX hp d (readSoundcntX_eq s)
  case fifo => exact fun c off hoff => exec_read_half (reaches_fifo c hoff) hp d rfl

/-- Settles O16: the addresses half by half, the control word with the triggers numbered by `triggerCode`. -/
theorem readDma : Obligations.ReadDma := by
  intro s d n code hp hi hv hh hf
  refine ⟨?sadLow, ?sadHigh, ?dadLow, ?dadHigh, ?cntL, ?cntH⟩
  case sadLow => exact exec_read_half (reaches_sad n false) hp d (getHalf_low_eq _)
  case sadHigh => exact exec_read_half (reaches_sad n true) hp d (getHalf_high_eq _)
  case dadLow => exact exec_read_half (reaches_dad n false) hp d (getHalf_low_eq _)
  case dadHigh => exact exec_read_half (reaches_dad n true) hp d (getHalf_high_eq _)
  case cntL => exact exec_read_half (reaches_cntL n) hp d (setWidth_half_word s.dma[n].cnt (le_refl 16))
  case cntH =>
    rw [code_eq_triggerCode hi hv hh hf]
    exact exec_read_half (reaches_cntH n) hp d (readCntH_eq n s)

/-- Settles O17, register by register: the cell reached and the value its reader packs. -/
theorem readTimerKeypadInterrupt : Obligations.ReadTimerKeypadInterrupt := by
  intro s d hp
  refine ⟨?timer, ?keyinput, ?keycnt, ?ie, ?iF, ?ime⟩
  case timer =>
    exact fun u => ⟨exec_read_half (reaches_tmL u) hp d (setWidth_half_word s.timer[u].reload (le_refl 16)),
      exec_read_half (reaches_tmH u) hp d (readTmH_eq u s)⟩
  case keyinput => exact exec_read_half reaches_keyinput hp d (readKeyinput_eq s)
  case keycnt => exact exec_read_half reaches_keycnt hp d (readKeycnt_eq s)
  case ie => exact exec_read_half reaches_ie hp d (setWidth_half_word s.ie (by decide))
  case iF => exact exec_read_half reaches_if hp d (setWidth_half_word s.ifReg (by decide))
  case ime => exact exec_read_half reaches_ime hp d (readIme_eq s)

/-- Settles O18: the two stored fields as bits of the bus word; the other cells ignore the write. -/
theorem writeDisplayAndMaster : Obligations.WriteDisplayAndMaster := by
  intro s v hp
  refine ⟨?dispstat, ?vcount, ?soundcntX, ?fifo⟩
  case dispstat => exact exec_write_half reaches_dispstat hp (congrArg Except.ok (writeDispstat_low v s))
  case vcount => exact exec_write_half reaches_vcount hp rfl
  case soundcntX => exact exec_write_half reaches_soundcntX hp (congrArg Except.ok (writeSoundcntX_low v s))
  case fifo => exact fun c off hoff => exec_write_half (reaches_fifo c hoff) hp rfl

/-- Settles O19, by the fields the write leaves: the two controls, and each audio channel by its own reset bit. -/
theorem writeSoundcntH : Obligations.WriteSoundcntH := by
  intro s v hp
  refine ⟨_, exec_write_half reaches_soundcntH hp rfl, writeSoundcntH_frame _ s, ?ctlA, ?ctlB, ?sndA, ?sndB⟩
  case ctlA => simp [writeSoundcntH_ctl, ctlOfA_low]
  case ctlB => simp [writeSoundcntH_ctl, ctlOfB_low]
  case sndA | sndB =>
    rw [writeSoundcntH_snd, lowHalf_bit v 11 (by decide), lowHalf_bit v 15 (by decide)]
    split <;> split <;> simp [Cache.initial]

/-- Settles O20: half of an address is replaced (`setHalf_lo`, `setHalf_hi`), the count whole. -/
theorem writeDmaAddressesAndCount : Obligations.WriteDmaAddressesAndCount := by
  intro s v n hp
  rw [← setHalf_lo, ← setHalf_hi, ← setHalf_lo, ← setHalf_hi, ← lowHalf_eq]
  exact ⟨exec_write_half (reaches_sad n false) hp rfl, exec_write_half (reaches_sad n true) hp rfl,
    exec_write_half (reaches_dad n false) hp rfl, exec_write_half (reaches_dad n true) hp rfl,
    exec_write_half (reaches_cntL n) hp rfl⟩

/-- Settles O21, by `writeCntH_accepted`: no enable edge, or one whose trigger is not the immediate one. -/
theorem writeDmaControl : Obligations.WriteDmaControl := by
  intro s v n code hp hi hv hh hf
  refine ⟨fun hbad => exec_write_half (reaches_cntH n) hp (writeCntH_reserved hbad), fun h5 h7 trig htrig => ?_⟩
  rw [code_eq_triggerCode hi hv hh hf] at htrig
  have hw := writeCntH_accepted h5 h7 (withControl_low_of_trigger s.dma[n] htrig)
  refine ⟨fun hno => ?noEdge, fun hoff hon hwait => ?edge⟩
  case noEdge =>
    have hne : ¬ (s.dma[n].en = false ∧ v.getLsbD 15 = true) := by
      rintro ⟨hoff, hon⟩
      rw [hoff, hon] at hno
      exact absurd hno (by decide)
    rw [if_neg hne] at hw
    exact exec_write_half (reaches_cntH n) hp hw
  case edge =>
    rw [if_pos ⟨hoff, hon⟩, if_neg hwait, hon] at hw
    exact exec_write_half (reaches_cntH n) hp hw

/-- Settles O23: each stored field as bits of the bus word; KEYINPUT ignores the write. -/
theorem writeTimerKeypadInterrupt : Obligations.WriteTimerKeypadInterrupt := by
  intro s v hp
  refine ⟨?timer, ?keyinput, ?keycnt, ?ie, ?ime⟩
  case timer =>
    exact fun u => ⟨exec_write_half (reaches_tmL u) hp (congrArg Except.ok (writeTmL_low u v s)),
      exec_write_half (reaches_tmH u) hp (congrArg Except.ok (writeTmH_low u v s))⟩
  case keyinput => exact exec_write_half reaches_keyinput hp rfl
  case keycnt => exact exec_write_half reaches_keycnt hp (congrArg Except.ok (writeKeycnt_low v s))
  case ie => exact exec_write_half reaches_ie hp (congrArg Except.ok (writeIe_low v s))
  case ime => exact exec_write_half reaches_ime hp (congrArg Except.ok (writeIme_low v s))

/-- Settles O24, flag by flag (`flagOf_writeIf`). -/
theorem acknowledgeInterrupts : Obligations.AcknowledgeInterrupts := by
  intro s v hp
  have hread := (setWidth_half_word s.ifReg (by decide)).trans (BitVec.ofNat_toNat 32 s.ifReg)
  exact ⟨⟨_, exec_write_half reaches_if hp rfl, rfl, flagOf_writeIf v s⟩,
    _, exec_read_half reaches_if hp v hread, rfl, rfl⟩

/-- Settles O22: the edge loads the latches, and the transfer of the channel so loaded completes or is refused as its units
are clear of REGSET or not. -/
theorem enableEdgeRunsImmediateTransfer : Obligations.EnableEdgeRunsImmediateTransfer := by
  intro s v n c hp hoff h5 h7 h12 h13 hon hc
  have hrun : exec (cntHOp n ⟨.write, .half, 0, v⟩) s = outcomeOf (dmaRun n (setDma n c s)) := by
    have htrig : (triggerCode .immediate).toNat = v.toNat / 0x1000 % 4 := (triggerNumber_eq_zero h12 h13).symm
    have hw := writeCntH_accepted h5 h7 (withControl_low_of_trigger s.dma[n] htrig)
    rw [if_pos ⟨hoff, hon⟩, if_pos rfl, hon] at hw
    rw [hc]
    exact exec_write_half (reaches_cntH n) hp hw
  constructor
  · intro hclear
    obtain ⟨c', m, hunits⟩ := dmaUnits_completes s.mem hclear
    obtain ⟨rfl, -⟩ := dmaUnits_ok hunits
    refine ⟨m, ?_, fun hwf => dmaUnits_transfers hwf hunits, fun a ha => ?_⟩
    · have hdone := dmaRun_of_units (n := n) (s := setDma n c s) (by rw [setDma_get_same]; exact hunits)
      rw [hrun, hdone]
      simp [outcomeOf, setDma]
    · exact dmaUnits_read_other hunits a fun j i hj hi => ha j hj i hi
  · intro hmeets
    rw [hrun, dmaRun_refused (by rwa [setDma_get_same])]
    rfl

end Sys2Proof.Certificates
end

section
/-! PROOFS. The family spec/41_timing_engine.md: HALT on each kind of line (R120 to R130), the entries of the handlers
(R121, R123 to R125, R128, R133), VSYNC as a run of HALTs (R131), and what happens once a frame (R132). -/

namespace Sys2Proof.Machine

/-! ### A timing command, by how its first line step ends -/

/-- A HALT whose line step ends is complete: BUSY as in the main flow, `res` = 0 (spec/30_encoding.md R77). -/
theorem exec_halt_of_go {s t : State} (hm : mainFlow s) (h : runPhases .halt allPhases (beginCommand s) = .go t) :
    exec .halt s = .next { t with busy := s.busy, port := { t.port with res := 0 } } := by
  rw [hm.1]
  refine (exec_timingOp .halt hm).trans ?_
  rw [lineSteps_halt, h]
  rfl

theorem exec_timingOp_of_call {cmd : TimingCmd} {s t : State} (hm : mainFlow s)
    (h : runPhases cmd allPhases (beginCommand s) = .call t) : exec (timingOp cmd) s = .next t :=
  (exec_timingOp cmd hm).trans (lineSteps_call h)

theorem exec_timingOp_of_stop {cmd : TimingCmd} {s : State} {e : Refusal} (hm : mainFlow s)
    (h : runPhases cmd allPhases (beginCommand s) = .stop e) : exec (timingOp cmd) s = .refused e :=
  (exec_timingOp cmd hm).trans (lineSteps_stop h)

/-- How a command in progress comes to answer: its line step ends it, or enters a handler, or ends with lines left to
step. -/
theorem lineSteps_next_cases {cmd : TimingCmd} {more : Nat} {ps : List Phase} {s t : State}
    (h : lineSteps cmd more ps s = .next t) :
    (∃ u, runPhases cmd ps s = .go u ∧ t = endTiming u) ∨ runPhases cmd ps s = .call t ∨
      ∃ rest u, more = rest + 1 ∧ runPhases cmd ps s = .go u ∧ commandDone cmd u = false ∧
        lineSteps cmd rest allPhases u = .next t := by
  cases e : runPhases cmd ps s with
  | go u =>
    cases more with
    | zero =>
      rw [lineSteps, e] at h
      exact .inl ⟨u, rfl, (Host.Outcome.next.inj h).symm⟩
    | succ rest =>
      rw [lineSteps, e] at h
      dsimp only at h
      split at h
      · exact .inl ⟨u, rfl, (Host.Outcome.next.inj h).symm⟩
      · rename_i hdone
        exact .inr (.inr ⟨rest, u, rfl, rfl, by simpa using hdone, h⟩)
  | call u =>
    rw [lineSteps_call e] at h
    exact .inr (.inl (congrArg Flow.call (Host.Outcome.next.inj h)))
  | stop r =>
    rw [lineSteps_stop e] at h
    cases h

/-- A HALT in progress has no further line to step. -/
theorem lineSteps_halt_next {more : Nat} {ps : List Phase} {s t : State} (h : lineSteps .halt more ps s = .next t) :
    (∃ u, runPhases .halt ps s = .go u ∧ t = endTiming u) ∨ runPhases .halt ps s = .call t := by
  obtain h | h | ⟨_, _, _, _, hdone, _⟩ := lineSteps_next_cases h
  · exact .inl h
  · exact .inr h
  · cases hdone

/-- A HALT that answers outside a handler ran its line step to the end. -/
theorem exec_halt_completed {s u : State} (h : exec .halt s = .next u) (hu : u.hdepth = false) :
    ∃ v, runPhases .halt allPhases (beginCommand s) = .go v ∧ u = endTiming v := by
  obtain hgo | hcall := lineSteps_halt_next (timingCommand_next (cmd := .halt) h).2.2
  · exact hgo
  · obtain ⟨-, -, hd, -⟩ := runPhases_called hcall
    exact absurd (hu.symm.trans hd) (by decide)

/-- A line step that ends leaves the next line, modulo 228 (spec/41_timing_engine.md R129). -/
theorem allPhases_line_toNat {cmd : TimingCmd} {s t : State} (h : runPhases cmd allPhases s = .go t) :
    t.line.toNat = (s.line.toNat + 1) % 228 := by
  rw [allPhases_line h, nextLine_toNat]

/-! ### A line step after the VCount match -/

/-- A timing command in progress after phase P1, no handler entered: BUSY = 1 and the VCOUNT occurrence latched
(spec/41_timing_engine.md R121). -/
def afterVcount (s : State) : State := { s with busy := true, ifReg := vcountLatched s }

theorem allPhases_afterVcount {cmd : TimingCmd} {s : State} (h : s.line = s.vcmp → unserved srcVcount s) :
    runPhases cmd allPhases (beginCommand s) = runPhases cmd (phasesAfter .p1) (afterVcount s) :=
  allPhases_after_p1 (s := beginCommand s) h

/-- A trigger that completes does so in a command in progress too. -/
theorem dmaTrigger_afterVcount {ev : Trigger} {s u : State} (h : dmaTrigger ev s = .ok u) :
    dmaTrigger ev (afterVcount s) = .ok (withDma (afterVcount s) u) :=
  dmaTrigger_moved (s := s) rfl rfl h

theorem dmaTrigger_afterVcount_refused {ev : Trigger} {s : State} (h : ¬ armedClear ev s) :
    dmaTrigger ev (afterVcount s) = .error .engineAccessToRegisters :=
  dmaTrigger_refused (s := afterVcount s) h

/-! ### Host pacing (spec/41_timing_engine.md R127) -/

theorem pacingWait_fast {s : State} (h : s.host.fastForward = true) : pacingWait s = s := if_pos h

/-- The host is early: it waits for the deadline. -/
theorem pacingWait_early {s : State} (h : s.host.fastForward = false) (hnow : s.host.now < s.deadline + 1000) :
    pacingWait s =
      emit (.sleep (min 1000 (s.deadline + 1000 - s.host.now))) { s with deadline := s.deadline + 1000 } := by
  unfold pacingWait sleepTime
  rw [Nat.min_comm]
  simp [h, hnow, Config.framePeriod]

/-- The host is late by at most one frame period: the deadline stands. -/
theorem pacingWait_late {s : State} (h : s.host.fastForward = false) (hd : s.deadline + 1000 ≤ s.host.now)
    (hnow : s.host.now ≤ s.deadline + 2000) : pacingWait s = { s with deadline := s.deadline + 1000 } := by
  unfold pacingWait
  simp [h, Config.framePeriod, show ¬ s.host.now < s.deadline + 1000 by omega,
    show ¬ 1000 < s.host.now - (s.deadline + 1000) by omega]

/-- The host is later than that: the deadline is dropped. -/
theorem pacingWait_missed {s : State} (h : s.host.fastForward = false) (hnow : s.deadline + 2000 < s.host.now) :
    pacingWait s = { s with deadline := s.host.now } := by
  unfold pacingWait
  simp [h, Config.framePeriod, show ¬ s.host.now < s.deadline + 1000 by omega,
    show 1000 < s.host.now - (s.deadline + 1000) by omega]

/-! ### Handler entries -/

/-- The entry of a handler whose occurrence has just latched: the latch and its clearing as one mask
(spec/60_exceptions.md R234, R236). -/
theorem invoke_latched (cmd : TimingCmd) (p : Phase) {src : Source} (ref : Word) (s : State) (v m : BitVec 14)
    (hm : m = ~~~(1#14 <<< src.val)) :
    invoke cmd p src ref { s with ifReg := setFlag v src } = { s with
      hdepth := true
      ifReg := v &&& m
      insvc := setFlag s.insvc src
      susp := some { src := src, phase := p, cmd := cmd }
      trace := s.trace ++ [.call src ref] } := by
  rw [← clearFlag_setFlag v m src hm]
  rfl

/-- A HALT or VSYNC suspended at the handler of an occurrence of its first line. -/
theorem exec_timingOp_entered {cmd : TimingCmd} {p : Phase} {src : Source} {ref : Word} {s t : State} {v m : BitVec 14}
    (hs : mainFlow s) (hm : m = ~~~(1#14 <<< src.val))
    (h : runPhases cmd allPhases (beginCommand s) = .call (invoke cmd p src ref { t with ifReg := setFlag v src })) :
    exec (timingOp cmd) s = .next { t with
      hdepth := true
      ifReg := v &&& m
      insvc := setFlag t.insvc src
      susp := some { src := src, phase := p, cmd := cmd }
      trace := t.trace ++ [.call src ref] } := by
  rw [exec_timingOp_of_call hs h, invoke_latched cmd p ref t v m hm]

/-- The HBLANK handler of a visible line is entered after DRAW and the transfers `u` (spec/41_timing_engine.md R123). -/
theorem exec_hblank_entered {cmd : TimingCmd} {s u : State} {ref : Word} (hm : mainFlow s)
    (hv : s.line = s.vcmp → unserved srcVcount s) (hl : s.line.toNat < 160) (hu : dmaTrigger .hblank s = .ok u)
    (hi : served srcHblank ref s) :
    exec (timingOp cmd) s = .next { afterVcount s with
      mem := u.mem
      dma := u.dma
      hdepth := true
      ifReg := vcountLatched s &&& 0x3FFD#14
      insvc := s.insvc ||| 0x0002#14
      susp := some { src := srcHblank, phase := .p4, cmd := cmd }
      trace := s.trace ++ [.draw s.line] ++ [.call srcHblank ref] } :=
  exec_timingOp_entered (v := vcountLatched s)
    (t := { afterVcount s with mem := u.mem, dma := u.dma, trace := s.trace ++ [.draw s.line] }) hm rfl
    ((allPhases_afterVcount hv).trans
      (runPhases_visible_served (s := afterVcount s) (u := withDma (afterVcount s) u) hl (dmaTrigger_afterVcount hu)
        hi))

/-! ### Line 160 -/

/-- Line 160 at its flush: the VBLANK transfers `u` done, VCOUNT and VBLANK latched, PRESENT emitted
(spec/41_timing_engine.md R124, R125). -/
def atFlush (s u : State) : State :=
  { s with
    mem := u.mem
    dma := u.dma
    ifReg := vcountLatched s ||| (s.ie &&& 0x0001#14)
    trace := s.trace ++ [.present] }

/-- Line 160 up to its flush, neither VCOUNT nor VBLANK entering a handler. -/
theorem allPhases_toFlush {cmd : TimingCmd} {s u : State} (hv : s.line = s.vcmp → unserved srcVcount s)
    (hl : s.line.toNat = 160) (hu : dmaTrigger .vblank s = .ok u) (hi : unserved srcVblank s) :
    runPhases cmd allPhases (beginCommand s) = runPhases cmd (phasesAfter .p6) { afterVcount s with
      mem := u.mem
      dma := u.dma
      ifReg := vcountLatched s ||| (s.ie &&& 0x0001#14) } := by
  rw [allPhases_afterVcount hv, runPhases_vblank (s := afterVcount s) hl (dmaTrigger_afterVcount hu) hi]
  rfl

section
variable {s u : State} (hm : mainFlow s) (hv : s.line = s.vcmp → unserved srcVcount s) (hl : s.line.toNat = 160)
  (hu : dmaTrigger .vblank s = .ok u)
include hm hv hl hu

/-- HALT on line 160 with its frame mixed to `v` (spec/41_timing_engine.md R125 to R129). -/
theorem exec_halt_flush {v : State} (hi : unserved srcVblank s) (hk : keypadHit s → unserved srcKeypad s)
    (hmix : soundMixFrame (atFlush s u) = .ok v) :
    exec .halt s = .next { afterFlush v with port := { s.port with res := 0 } } := by
  have hframe := (soundMixFrame_frame hmix).1
  have hbusy : v.busy = s.busy := by rw [hframe]; rfl
  have hport : v.port = s.port := by rw [hframe]; rfl
  obtain ⟨kbusy, kport, -⟩ := afterFlush_kept v
  rw [exec_halt_of_go hm ((allPhases_toFlush hv hl hu hi).trans
    (runPhases_flush hl (soundMixFrame_busy true hmix) hk)), afterFlush_busy]
  dsimp only
  rw [kport, hport, ← hbusy, ← kbusy]

/-- HALT on line 160 whose frame is refused. -/
theorem exec_halt_flush_refused {e : Refusal} (hi : unserved srcVblank s)
    (hmix : soundMixFrame (atFlush s u) = .error e) : exec .halt s = .refused e :=
  exec_timingOp_of_stop (cmd := .halt) hm ((allPhases_toFlush hv hl hu hi).trans
    (runPhases_flush_stop hl (soundMixFrame_busy_refused true hmix)))

/-- HALT on line 160 with the sound off: the pacing of a silent frame (spec/43_sound_mixer.md R161, R175). -/
theorem exec_halt_silent {n n' : Nat} (hi : unserved srcVblank s) (hk : keypadHit s → unserved srcKeypad s)
    (hoff : s.master = false) (hn : n = s.cfg.samplesPerFrame) (hn' : n' = if s.host.queueOver then n - 1 else n) :
    exec .halt s = .next { afterFlush { atFlush s u with
        mix := List.replicate n (0, 0) ++ s.mix.drop n
        mixn := n'
        trace := (atFlush s u).trace ++ [.capture (List.replicate n (0, 0)), .audio (List.replicate n' (0, 0))] }
      with port := { s.port with res := 0 } } :=
  exec_halt_flush hm hv hl hu hi hk (soundMixFrame_silent (s := atFlush s u) hoff hn hn')

/-- The VBLANK handler is entered after the transfers `u` and before the flush (spec/41_timing_engine.md R124). -/
theorem exec_vblank_entered {cmd : TimingCmd} {ref : Word} (hi : served srcVblank ref s) :
    exec (timingOp cmd) s = .next { afterVcount s with
      mem := u.mem
      dma := u.dma
      hdepth := true
      ifReg := vcountLatched s &&& 0x3FFE#14
      insvc := s.insvc ||| 0x0001#14
      susp := some { src := srcVblank, phase := .p6, cmd := cmd }
      trace := s.trace ++ [.call srcVblank ref] } :=
  exec_timingOp_entered (v := vcountLatched s) (t := { afterVcount s with mem := u.mem, dma := u.dma }) hm rfl
    ((allPhases_afterVcount hv).trans
      (runPhases_vblank_served (s := afterVcount s) (u := withDma (afterVcount s) u) hl (dmaTrigger_afterVcount hu) hi))

/-- The KEYPAD handler is entered after the flush `v`, the pacing and the poll (spec/41_timing_engine.md R128). -/
theorem exec_keypad_entered {cmd : TimingCmd} {ref : Word} {v : State} (hi : unserved srcVblank s) (hk : keypadHit s)
    (hserved : served srcKeypad ref s) (hmix : soundMixFrame { atFlush s u with busy := true } = .ok v) :
    exec (timingOp cmd) s = .next { pacingWait v with
      hdepth := true
      keysnap := s.host.keys
      ifReg := v.ifReg &&& 0x2FFF#14
      insvc := s.insvc ||| 0x1000#14
      susp := some { src := srcKeypad, phase := .p9, cmd := cmd }
      trace := (pacingWait v).trace ++ [.call srcKeypad ref] } := by
  have hframe := (soundMixFrame_frame hmix).1
  have hhost : v.host = s.host := by rw [hframe]; rfl
  have hinsvc : (pacingWait v).insvc = s.insvc := by rw [(pacingWait_frame v).1, hframe]; rfl
  rw [exec_timingOp_entered (t := { pacingWait v with keysnap := v.host.keys }) hm rfl
    ((allPhases_toFlush hv hl hu hi).trans (runPhases_flush_served hl hmix hk hserved))]
  dsimp only
  rw [hhost, hinsvc]
  rfl

end

/-! ### VSYNC, line step by line step (spec/41_timing_engine.md R131) -/

/-- The line step that ends at line 160 ends VSYNC. -/
theorem lineSteps_vsync_done {more : Nat} {s t : State} (h : runPhases .vsync allPhases s = .go t)
    (ht : t.line.toNat = 160) : lineSteps .vsync more allPhases s = .next (endTiming t) := by
  have hd : commandDone .vsync t = true := decide_eq_true ht
  cases more with
  | zero => rw [lineSteps, h]
  | succ more =>
    rw [lineSteps, h]
    exact if_pos hd

/-- Any other that ends is followed by the next line's. -/
theorem lineSteps_vsync_more {more : Nat} {s t : State} (h : runPhases .vsync allPhases s = .go t)
    (ht : t.line.toNat ≠ 160) : lineSteps .vsync (more + 1) allPhases s = lineSteps .vsync more allPhases t := by
  have hd : ¬ commandDone .vsync t = true := fun hd => ht (of_decide_eq_true hd)
  rw [lineSteps, h]
  exact if_neg hd

/-- What a VSYNC in progress needs to complete: no occurrence of the lines it steps reaches a handler, and the engines'
accesses stay outside REGSET. -/
structure VsyncClear (s : State) : Prop where
  vcount : ∀ k, k ≤ (387 - s.line.toNat) % 228 → (s.line.toNat + k) % 228 = s.vcmp.toNat → unserved srcVcount s
  hblank : unserved srcHblank s
  vblank : s.line.toNat = 160 → unserved srcVblank s ∧ (keypadHit s → unserved srcKeypad s) ∧ feedsClear s
  idle : blankingIdle s

theorem VsyncClear.lineUnserved {s : State} (h : VsyncClear s) (hl : s.line.toNat < 228) : lineUnserved s := by
  refine ⟨fun e => h.vcount 0 (Nat.zero_le _) ?_, fun _ => h.hblank, fun e => ⟨(h.vblank e).1, (h.vblank e).2.1⟩⟩
  rw [Nat.add_zero, Nat.mod_eq_of_lt hl, e]

theorem VsyncClear.lineClear {s : State} (h : VsyncClear s) : lineClear s :=
  lineClear_idle h.idle fun e => (h.vblank e).2.2

/-- A line step that does not end at line 160 leaves what is left of the VSYNC clear. -/
theorem VsyncClear.after {s t : State} (h : VsyncClear s) (hl : s.line.toNat < 228)
    (hgo : runPhases .vsync allPhases s = .go t) (ha : noneArmed s.dma t.dma) (ht : t.line.toNat ≠ 160) :
    VsyncClear t := by
  have hline := allPhases_line_toNat hgo
  obtain ⟨hu, hvcmp, -, -⟩ := allPhases_keeps hgo
  refine ⟨fun k hk e => (hu _).mpr (h.vcount (k + 1) (by omega) ?_), (hu _).mpr h.hblank, fun e => absurd e ht,
    blankingIdle_after ha h.idle⟩
  rw [← hvcmp]
  omega

/-- A VSYNC in progress that is clear, and may step the lines up to 160, ends there. -/
theorem lineSteps_vsync_completes {more : Nat} {s : State} (hl : s.line.toNat < 228)
    (hn : (387 - s.line.toNat) % 228 ≤ more) (hc : VsyncClear s) :
    ∃ t, lineSteps .vsync more allPhases s = .next t ∧ t.line.toNat = 160 ∧ t.busy = false ∧
      t.hdepth = s.hdepth ∧ t.port.res = 0 := by
  induction more using Nat.strong_induction_on generalizing s with
  | _ more ih =>
    obtain ⟨t, hgo, ha⟩ := allPhases_ends (cmd := .vsync) (hc.lineUnserved hl) hc.lineClear
    have hline := allPhases_line_toNat hgo
    have hd : t.hdepth = s.hdepth := (allPhases_keeps hgo).2.2.1
    by_cases ht : t.line.toNat = 160
    · exact ⟨_, lineSteps_vsync_done hgo ht, ht, rfl, hd, rfl⟩
    · obtain ⟨rest, rfl⟩ := Nat.exists_eq_add_one.mpr (show 0 < more by omega)
      rw [lineSteps_vsync_more hgo ht, ← hd]
      exact ih rest (by omega) (by omega) (by omega) (hc.after hl hgo ha ht)

/-! ### VSYNC as a run of HALTs -/

/-- The state a HALT is suspended in, as that of a VSYNC whose port holds `p` (log 3, spec/30_encoding.md R77). -/
def asVsync (p : CmdPort) (v : State) : State :=
  { v with port := p, susp := v.susp.map fun x => { x with cmd := .vsync } }

/-- Up to `n` HALTs in a row, ended as a VSYNC by the first that is suspended or refused. -/
def haltsAsVsync (p : CmdPort) : Nat → State → Host.Outcome State Fault Refusal
  | 0, s => .next s
  | n + 1, s =>
    match exec .halt s with
    | .next u => if u.hdepth then .next (asVsync p u) else haltsAsVsync p n u
    | .fault f => .fault f
    | .refused e => .refused e

section
variable {p : CmdPort} {n : Nat} {s u : State}

theorem haltsAsVsync_completed (h : exec .halt s = .next u) (hu : u.hdepth = false) :
    haltsAsVsync p (n + 1) s = haltsAsVsync p n u := by
  simp [haltsAsVsync, h, hu]

theorem haltsAsVsync_suspended (h : exec .halt s = .next u) (hu : u.hdepth = true) :
    haltsAsVsync p (n + 1) s = .next (asVsync p u) := by
  simp [haltsAsVsync, h, hu]

theorem haltsAsVsync_refused {e : Refusal} (h : exec .halt s = .refused e) :
    haltsAsVsync p (n + 1) s = .refused e := by
  simp [haltsAsVsync, h]

/-- A run of completed HALTs goes on from the state its first one leaves. -/
theorem haltsReach_completed {t : State} (h : exec .halt s = .next u) (hu : u.hdepth = false) :
    haltsReach (n + 1) s t ↔ haltsReach n u t := by
  simp [haltsReach, h, hu]

theorem not_haltsReach_suspended {t : State} (h : exec .halt s = .next u) (hu : u.hdepth = true) :
    ¬ haltsReach (n + 1) s t := by
  simp [haltsReach, h, hu]

theorem not_haltsReach_refused {t : State} {e : Refusal} (h : exec .halt s = .refused e) :
    ¬ haltsReach (n + 1) s t := by
  simp [haltsReach, h]

end

/-- Fewer than `n` completed HALTs lead to a state with this property. -/
def reachesBefore (n : Nat) (s : State) (Q : State → Prop) : Prop := ∃ k u, k < n ∧ haltsReach k s u ∧ Q u

theorem not_reachesBefore_zero {s : State} {Q : State → Prop} : ¬ reachesBefore 0 s Q := fun ⟨_, _, hk, _⟩ =>
  absurd hk (Nat.not_lt_zero _)

/-- The property holds at once, or within what is left after the first HALT. -/
theorem reachesBefore_succ {n : Nat} {s : State} {Q : State → Prop} : reachesBefore (n + 1) s Q ↔
    Q s ∨ ∃ u, exec .halt s = .next u ∧ u.hdepth = false ∧ reachesBefore n u Q := by
  constructor
  · rintro ⟨k, v, hk, hr, hq⟩
    cases k with
    | zero =>
      obtain rfl := hr
      exact .inl hq
    | succ k =>
      obtain ⟨u, hu, hd, hr⟩ := hr
      exact .inr ⟨u, hu, hd, k, v, Nat.lt_of_succ_lt_succ hk, hr, hq⟩
  · rintro (hq | ⟨u, hu, hd, k, v, hk, hr, hq⟩)
    · exact ⟨0, s, Nat.succ_pos n, rfl, hq⟩
    · exact ⟨k + 1, v, Nat.succ_lt_succ hk, ⟨u, hu, hd, hr⟩, hq⟩

theorem haltsAsVsync_completes_iff {p : CmdPort} {n : Nat} {s t : State} (hd : s.hdepth = false) :
    haltsAsVsync p n s = .next t ∧ t.hdepth = false ↔ haltsReach n s t := by
  induction n generalizing s with
  | zero =>
    constructor
    · rintro ⟨h, -⟩
      exact (Host.Outcome.next.inj h).symm
    · rintro rfl
      exact ⟨rfl, hd⟩
  | succ n ih =>
    cases e : exec .halt s with
    | next u =>
      cases hu : u.hdepth with
      | false => rw [haltsAsVsync_completed e hu, haltsReach_completed e hu, ih hu]
      | true =>
        rw [haltsAsVsync_suspended e hu]
        refine iff_of_false ?_ (not_haltsReach_suspended e hu)
        rintro ⟨h, ht⟩
        obtain rfl := Host.Outcome.next.inj h
        exact absurd (hu.symm.trans ht) (by decide)
    | fault f => exact absurd e exec_ne_fault
    | refused e' =>
      rw [haltsAsVsync_refused e]
      exact iff_of_false (by simp) (not_haltsReach_refused e)

theorem haltsAsVsync_suspends_iff {p : CmdPort} {n : Nat} {s t : State} (hd : s.hdepth = false) :
    haltsAsVsync p n s = .next t ∧ t.hdepth = true ↔
      reachesBefore n s fun u => ∃ v, exec .halt u = .next v ∧ v.hdepth = true ∧ t = asVsync p v := by
  induction n generalizing s with
  | zero =>
    refine iff_of_false ?_ not_reachesBefore_zero
    rintro ⟨h, ht⟩
    obtain rfl := Host.Outcome.next.inj h
    exact absurd (hd.symm.trans ht) (by decide)
  | succ n ih =>
    rw [reachesBefore_succ]
    cases e : exec .halt s with
    | next u =>
      cases hu : u.hdepth with
      | false =>
        rw [haltsAsVsync_completed e hu, ih hu]
        simp [hu]
      | true =>
        rw [haltsAsVsync_suspended e hu]
        constructor
        · rintro ⟨h, -⟩
          exact .inl ⟨u, rfl, hu, (Host.Outcome.next.inj h).symm⟩
        · rintro (⟨v, h, -, rfl⟩ | ⟨v, h, hv, -⟩) <;> obtain rfl := Host.Outcome.next.inj h
          · exact ⟨rfl, hu⟩
          · exact absurd (hu.symm.trans hv) (by decide)
    | fault f => exact absurd e exec_ne_fault
    | refused e' =>
      rw [haltsAsVsync_refused e]
      simp

theorem haltsAsVsync_refuses_iff {p : CmdPort} {n : Nat} {s : State} {e : Refusal} :
    haltsAsVsync p n s = .refused e ↔ reachesBefore n s fun u => exec .halt u = .refused e := by
  induction n generalizing s with
  | zero => exact iff_of_false (by simp [haltsAsVsync]) not_reachesBefore_zero
  | succ n ih =>
    rw [reachesBefore_succ]
    cases h : exec .halt s with
    | next u =>
      cases hu : u.hdepth with
      | false =>
        rw [haltsAsVsync_completed h hu, ih]
        simp [hu]
      | true =>
        rw [haltsAsVsync_suspended h hu]
        simp [hu]
    | fault f => exact absurd h exec_ne_fault
    | refused e' =>
      rw [haltsAsVsync_refused h]
      simp

/-- More line steps than line 160 is away make no difference to VSYNC. -/
theorem lineSteps_vsync_of_le {n m : Nat} {s : State} (hn : (387 - s.line.toNat) % 228 ≤ n) (hm : n ≤ m) :
    lineSteps .vsync m allPhases s = lineSteps .vsync n allPhases s := by
  induction m, hm using Nat.le_induction with
  | base => rfl
  | succ m hm ih => rw [lineSteps_vsync_succ (hn.trans hm), ih]

/-- A suspended VSYNC is the suspended HALT, as a VSYNC: BUSY, the port and the command are those of the VSYNC. -/
theorem asVsync_of_called {s t : State} (q : CmdPort) (hb : s.busy = true)
    (h : runPhases .vsync allPhases s = .call t) :
    asVsync s.port { withPort true q t with susp := t.susp.map fun x => { x with cmd := .halt } } = t := by
  obtain ⟨tbusy, tport, -, x, hx, hcmd⟩ := runPhases_called h
  have hsusp : (t.susp.map fun x => { x with cmd := .halt }).map (fun x : Suspension => { x with cmd := .vsync }) =
      t.susp := by
    rw [hx, ← hcmd]
    rfl
  unfold asVsync withPort
  dsimp only
  rw [hsusp, ← tport, ← hb, ← tbusy]

/-- The first line step of a VSYNC is a HALT that completes, or it settles the VSYNC as that HALT is settled. -/
theorem lineSteps_vsync_first {n m : Nat} {s : State} (q : CmdPort) (hd : s.hdepth = false) (hb : s.busy = true) :
    (∃ t, runPhases .vsync allPhases s = .go t ∧ t.hdepth = false ∧ t.busy = true ∧ t.port = s.port ∧
      haltsAsVsync s.port (n + 1) (withPort false q s) =
        haltsAsVsync s.port n (withPort false { q with res := 0 } t)) ∨
    lineSteps .vsync m allPhases s = haltsAsVsync s.port (n + 1) (withPort false q s) := by
  have hhalt := exec_halt_withPort hd q
  cases e : runPhases .vsync allPhases s with
  | go t =>
    rw [e] at hhalt
    have f := (runPhases_frame e).1
    have td : t.hdepth = false := by rw [f]; exact hd
    exact .inl ⟨t, rfl, td, by rw [f]; exact hb, by rw [f], haltsAsVsync_completed hhalt td⟩
  | call t =>
    rw [e] at hhalt
    obtain ⟨-, -, td, -⟩ := runPhases_called e
    right
    rw [lineSteps_call e, haltsAsVsync_suspended hhalt td, asVsync_of_called q hb e]
  | stop r =>
    rw [e] at hhalt
    right
    rw [lineSteps_stop e, haltsAsVsync_refused hhalt]

/-- VSYNC's line steps up to line 160 are HALTs, whatever the port holds but for the result (spec/41_timing_engine.md
R131). -/
theorem lineSteps_vsync_eq_halts {n : Nat} {s : State} {q : CmdPort} (hd : s.hdepth = false) (hb : s.busy = true)
    (hl : s.line.toNat < 228) (hn : n = (387 - s.line.toNat) % 228)
    (hq : { q with res := 0 } = { s.port with res := 0 }) :
    lineSteps .vsync n allPhases s = haltsAsVsync s.port (n + 1) (withPort false q s) := by
  induction n generalizing s q with
  | zero =>
    obtain ⟨t, e, -, -, tport, hhalts⟩ | h := lineSteps_vsync_first q hd hb
    · have ht : t.line.toNat = 160 := by rw [allPhases_line_toNat e]; omega
      rw [lineSteps_vsync_done e ht, hhalts, hq, ← tport]
      rfl
    · exact h
  | succ n ih =>
    obtain ⟨t, e, td, tb, tport, hhalts⟩ | h := lineSteps_vsync_first q hd hb
    · have hline := allPhases_line_toNat e
      rw [lineSteps_vsync_more e (by omega), hhalts, ← tport]
      exact ih td tb (by omega) (by omega) (by rw [tport]; exact hq)
    · exact h

/-- VSYNC in the main flow is the run of the HALTs up to line 160 (spec/41_timing_engine.md R131). -/
theorem exec_vsync_eq_halts {s : State} {n : Nat} (hm : mainFlow s) (hl : s.line.toNat < 228)
    (hn : n = (387 - s.line.toNat) % 228) : exec .vsync s = haltsAsVsync s.port (n + 1) s := by
  have hs : withPort false s.port (beginCommand s) = s := by
    rw [← hm.1]
    rfl
  have hsteps := lineSteps_vsync_eq_halts (s := beginCommand s) (q := s.port) hm.2 rfl hl hn rfl
  rw [hs] at hsteps
  calc exec .vsync s = lineSteps .vsync 227 allPhases (beginCommand s) := exec_timingOp .vsync hm
    _ = lineSteps .vsync n allPhases (beginCommand s) := lineSteps_vsync_of_le (le_of_eq hn.symm) (by omega)
    _ = haltsAsVsync s.port (n + 1) s := hsteps

/-! ### What one step of line 160 a frame does -/

/-- Phases of a line step up to its end: none, or a list whose last, and no other, is P10. -/
def LineTail (ps : List Phase) : Prop := ps = [] ∨ ∃ qs, ps = qs ++ [.p10] ∧ ∀ q ∈ qs, q ≠ .p10

/-- What is left of a line step leaves the VBlank effects alone on every line but 160. -/
theorem runPhases_quiet_of_tail {cmd : TimingCmd} {ps : List Phase} {s : State} (hl : s.line.toNat ≠ 160)
    (hps : LineTail ps) :
    (∀ t, runPhases cmd ps s = .go t → Quiet s t) ∧ (∀ t, runPhases cmd ps s = .call t → Quiet s t) := by
  rcases hps with rfl | ⟨qs, rfl, hqs⟩
  · constructor
    · intro t h
      obtain rfl := Flow.go.inj h
      exact .refl _
    · intro t h
      cases h
  · exact runPhases_quiet hl hqs

theorem endTiming_quiet (s : State) : Quiet s (endTiming s) := ⟨quiet_same rfl, rfl, rfl, rfl, rfl, rfl⟩

theorem beginCommand_quiet (s : State) : Quiet s (beginCommand s) := ⟨quiet_same rfl, rfl, rfl, rfl, rfl, rfl⟩

theorem leaveHandler_quiet (x : Suspension) (s : State) : Quiet s (leaveHandler x s) :=
  ⟨quiet_emit rfl rfl, rfl, rfl, rfl, rfl, rfl⟩

theorem allPhases_tail : LineTail allPhases :=
  .inr ⟨[.p1, .p2, .p3, .p4, .p5, .p6, .p7, .p8, .p9], rfl, by decide⟩

theorem phasesAfter_tail (p : Phase) : LineTail (phasesAfter p) :=
  (phasesAfter_split p).imp_right fun ⟨ps, e, h⟩ => ⟨ps, e, fun q hq => (h q hq).1⟩

/-- Only line 160 ends VSYNC, and any line HALT. -/
theorem line_ne_of_not_done {cmd : TimingCmd} {s : State} (h : commandDone cmd s = false) : s.line.toNat ≠ 160 := by
  cases cmd with
  | halt => cases h
  | vsync => exact of_decide_eq_false h

/-- A command that goes on from a line other than 160 ends before it steps line 160, so it has no VBlank effect
(spec/41_timing_engine.md R131, R132). -/
theorem lineSteps_quiet {cmd : TimingCmd} {more : Nat} {ps : List Phase} {s t : State} (hps : LineTail ps)
    (hl : s.line.toNat ≠ 160) (h : lineSteps cmd more ps s = .next t) : Quiet s t := by
  induction more using Nat.strong_induction_on generalizing ps s with
  | _ more ih =>
    obtain ⟨hgo, hcall⟩ := runPhases_quiet_of_tail (cmd := cmd) hl hps
    obtain ⟨u, e, rfl⟩ | e | ⟨rest, u, hmore, e, hdone, hrest⟩ := lineSteps_next_cases h
    · exact (hgo u e).trans (endTiming_quiet u)
    · exact hcall t e
    · exact (hgo u e).trans (ih rest (by omega) allPhases_tail (line_ne_of_not_done hdone) hrest)

theorem exec_timingOp_quiet {cmd : TimingCmd} {s t : State} (hl : s.line.toNat ≠ 160)
    (h : exec (timingOp cmd) s = .next t) : Quiet s t := by
  have h : timingCommand cmd s = .next t := by cases cmd <;> exact h
  exact (beginCommand_quiet s).trans
    (lineSteps_quiet (s := beginCommand s) allPhases_tail hl (timingCommand_next h).2.2)

theorem handlerReturn_quiet {s t : State} (hl : s.line.toNat ≠ 160) (h : handlerReturn s = .next t) : Quiet s t := by
  obtain ⟨x, -, -, h⟩ := handlerReturn_next h
  exact (leaveHandler_quiet x s).trans (lineSteps_quiet (s := leaveHandler x s) (phasesAfter_tail x.phase) hl h)

/-- None of the VBlank effects' events, one by one. -/
theorem vblankEvent_eq_false {e : Event} (h : vblankEvent e = false) :
    e ≠ .present ∧ (∀ b, e ≠ .capture b) ∧ (∀ b, e ≠ .audio b) ∧ ∀ n, e ≠ .sleep n := by
  cases e <;> simp [vblankEvent] at h ⊢

/-! ### The order of the handlers in one HALT -/

/-- A HALT that goes on after a phase enters a handler at a later phase, on the same line (spec/60_exceptions.md
R239). -/
theorem lineSteps_halt_suspended {more : Nat} {p : Phase} {s t : State} {y : Suspension} (hs : s.susp = none)
    (h : lineSteps .halt more (phasesAfter p) s = .next t) (hy : t.susp = some y) :
    phaseNumber p < phaseNumber y.phase ∧ y.cmd = .halt ∧ t.line = s.line ∧ dispatchPoint y.src y.phase := by
  obtain ⟨u, e, rfl⟩ | e := lineSteps_halt_next h
  · have hu : u.susp = none := by rw [(runPhases_frame e).1]; exact hs
    exact absurd (hu.symm.trans hy) (by simp)
  · obtain hnil | ⟨ps, hps, hlater⟩ := phasesAfter_split p
    · rw [hnil] at e
      cases e
    · rw [hps] at e
      obtain ⟨q, hq, v, hline, -, hcall⟩ := runPhases_call_mem (fun q hq => (hlater q hq).1) e
      obtain ⟨src, ref, s0, hpoint, hs0, -, -, -, rfl⟩ := runPhase_call hcall
      obtain rfl := Option.some.inj hy
      refine ⟨(hlater q hq).2, rfl, ?_, hpoint⟩
      rcases hs0 with rfl | ⟨-, rfl⟩ <;> exact hline

/-! ### Frames -/

/-- A line step that ends presents a frame on line 160 and on no other (spec/41_timing_engine.md R125, R132). -/
theorem allPhases_presents {cmd : TimingCmd} {s t : State} (h : runPhases cmd allPhases s = .go t) :
    presents t.trace = presents s.trace + if s.line.toNat = 160 then 1 else 0 := by
  have e : allPhases = [.p1, .p2, .p3, .p4, .p5, .p6, .p7, .p8, .p9] ++ [.p10] := rfl
  rw [e, runPhases_append] at h
  split at h
  · rename_i u hu
    obtain rfl := Flow.go.inj h
    exact runPhases_presents (by decide) hu
  · cases h
  · cases h

/-- The lines and the frames of `n` completed HALTs: from line `l` on they step line 160, which is 68 lines before line 0,
as often as a multiple of 228 lies among `l + 68` to `l + n + 67`. -/
theorem haltsReach_counts {n : Nat} {s t : State} (hl : s.line.toNat < 228) (h : haltsReach n s t) :
    t.line.toNat = (s.line.toNat + n) % 228 ∧
      presents t.trace + (s.line.toNat + 67) / 228 = presents s.trace + (s.line.toNat + n + 67) / 228 := by
  induction n generalizing s with
  | zero =>
    obtain rfl := h
    exact ⟨(Nat.mod_eq_of_lt hl).symm, rfl⟩
  | succ n ih =>
    obtain ⟨u, hexec, hd, hreach⟩ := h
    obtain ⟨v, hgo, rfl⟩ := exec_halt_completed hexec hd
    have hline : (endTiming v).line.toNat = (s.line.toNat + 1) % 228 :=
      allPhases_line_toNat (s := beginCommand s) (t := v) hgo
    have hpresents : presents (endTiming v).trace = presents s.trace + if s.line.toNat = 160 then 1 else 0 :=
      allPhases_presents (s := beginCommand s) (t := v) hgo
    obtain ⟨hline', hpresents'⟩ := ih (by omega) hreach
    refine ⟨by omega, ?_⟩
    split at hpresents <;> omega

end Sys2Proof.Machine

namespace Sys2Proof.Certificates
open Sys2Proof.Machine

/-- Settles O27, by the outcome of the HBLANK trigger. -/
theorem haltOnVisibleLine : Obligations.HaltOnVisibleLine := by
  intro s hm hv hl
  constructor
  · intro hclear hi
    obtain ⟨u, hu⟩ := dmaTrigger_completes hclear
    exact ⟨u, hu, exec_halt_of_go hm ((allPhases_afterVcount hv).trans
      (runPhases_visible (s := afterVcount s) hl (dmaTrigger_afterVcount hu) hi))⟩
  · intro hmeets
    exact exec_timingOp_of_stop (cmd := .halt) hm ((allPhases_afterVcount hv).trans
      (runPhases_visible_stop (s := afterVcount s) hl (dmaTrigger_afterVcount_refused hmeets)))

/-- Settles O28, by the blanking lines' step and the line that every step which ends leaves. -/
theorem lineAdvance : Obligations.LineAdvance := by
  constructor
  · intro s hm hv hl _
    exact exec_halt_of_go hm ((allPhases_afterVcount hv).trans (runPhases_blanking (s := afterVcount s) hl))
  · intro s t h hd
    obtain ⟨v, hgo, rfl⟩ := exec_halt_completed h hd
    exact ⟨allPhases_line_toNat (s := beginCommand s) (t := v) hgo, rfl⟩

/-- Settles O29, by the outcomes of the VBLANK trigger and of the frame. -/
theorem haltOnLine160 : Obligations.HaltOnLine160 := by
  rintro s latched hm hv hl rfl
  constructor
  · intro hmeets
    exact exec_timingOp_of_stop (cmd := .halt) hm ((allPhases_afterVcount hv).trans
      (runPhases_vblank_stop (s := afterVcount s) hl (dmaTrigger_afterVcount_refused hmeets)))
  · intro hclear hi
    obtain ⟨u, hu⟩ := dmaTrigger_completes hclear
    refine ⟨u, hu, ?frame, ?silent⟩
    case frame =>
      rintro frame rfl
      exact ⟨fun v hmix hk => exec_halt_flush hm hv hl hu hi hk hmix,
        fun e hmix => exec_halt_flush_refused hm hv hl hu hi hmix⟩
    case silent =>
      intro n n' hk hoff hff hn hn'
      rw [exec_halt_silent hm hv hl hu hi hk hoff hn hn']
      simp [afterFlush, pacingWait_fast, atFlush, hff, vcountLatched, keypadHit]

/-- Settles O30: the cases of the pacing after a silent frame. -/
theorem haltPacesTheHost : Obligations.HaltPacesTheHost := by
  intro s n n' hm hv hi hk hclear hl hoff hff hn hn'
  obtain ⟨u, hu⟩ := dmaTrigger_completes hclear
  refine ⟨_, exec_halt_silent hm hv hl hu hi hk hoff hn hn', rfl, rfl, ?early, ?late, ?missed, ?noWait⟩
  case early =>
    intro hnow
    simp [afterFlush, pacingWait_early, atFlush, hff, hnow]
  case late =>
    intro hd hnow
    simp [afterFlush, pacingWait_late, atFlush, hff, hd, hnow]
  case missed =>
    intro hnow
    simp [afterFlush, pacingWait_missed, atFlush, hff, hnow]
  case noWait =>
    intro hd
    rcases Nat.lt_or_ge (s.deadline + 2000) s.host.now with hnow | hnow
    · simp [afterFlush, pacingWait_missed, atFlush, hff, hnow]
    · simp [afterFlush, pacingWait_late, atFlush, hff, hd, hnow]

/-- Settles O31: HALT by its one line step, VSYNC by its line steps up to line 160. -/
theorem timingCommandsComplete : Obligations.TimingCommandsComplete := by
  intro s hm hl
  constructor
  · intro hu hc
    obtain ⟨t, hgo, -⟩ := allPhases_ends (cmd := .halt) (s := beginCommand s) hu hc
    have hline := allPhases_line_toNat (s := beginCommand s) hgo
    exact ⟨_, exec_halt_of_go hm hgo, hline, hm.1, (allPhases_keeps hgo).2.2.1.trans hm.2, rfl⟩
  · intro hv hh hb hi
    have hc : VsyncClear (beginCommand s) := ⟨hv, hh, hb, hi⟩
    obtain ⟨t, ht, hline, hbusy, hd, hres⟩ := lineSteps_vsync_completes (more := 227) (s := beginCommand s) hl
      (Nat.le_of_lt_succ (Nat.mod_lt _ (by decide))) hc
    exact ⟨t, (exec_timingOp .vsync hm).trans ht, hline, hbusy, hd.trans hm.2, hres⟩

/-- Settles O32: VSYNC is the run of its HALTs (`exec_vsync_eq_halts`), and the three ends of that run. -/
theorem vsyncIsRepeatedHalt : Obligations.VsyncIsRepeatedHalt := by
  intro s n hm hl hn
  rw [exec_vsync_eq_halts hm hl hn]
  refine ⟨fun t => haltsAsVsync_completes_iff hm.2, fun t => ?suspended, fun e => ?refused⟩
  case suspended =>
    rw [haltsAsVsync_suspends_iff hm.2]
    simp only [reachesBefore, Nat.lt_succ_iff, exists_and_left, asVsync]
  case refused =>
    rw [haltsAsVsync_refuses_iff]
    simp only [reachesBefore, Nat.lt_succ_iff]

/-- Settles O33: phase P1 enters the handler (`runPhase_p1_served`). -/
theorem vcountHandlerEntry : Obligations.VcountHandlerEntry := by
  intro s ref cmd hm hime hie hvec hl
  exact exec_timingOp_entered (t := beginCommand s) hm rfl
    (runPhases_call (runPhase_p1_served cmd (s := beginCommand s) hl ⟨hie, hime, hvec⟩))

/-- Settles O34, by the phase that raises each source. -/
theorem blankingHandlerEntry : Obligations.BlankingHandlerEntry := by
  rintro s cmd ref latched hm hv rfl
  constructor
  · intro hl hclear hi
    obtain ⟨u, hu⟩ := dmaTrigger_completes hclear
    refine ⟨u, hu, ?_⟩
    rw [exec_hblank_entered hm hv hl hu hi, List.append_assoc]
    rfl
  · intro hl hclear
    obtain ⟨u, hu⟩ := dmaTrigger_completes hclear
    exact ⟨u, hu, fun hi => exec_vblank_entered hm hv hl hu hi,
      fun hi hk hserved v hmix => exec_keypad_entered hm hv hl hu hi hk hserved hmix⟩

/-- Settles O37: the return goes on with the phases after the one that was left. -/
theorem dispatchOrderWithinALine : Obligations.DispatchOrderWithinALine := by
  intro s t x y hx hcmd h hy
  obtain ⟨x', -, hx', h⟩ := handlerReturn_next h
  obtain rfl := Option.some.inj (hx.symm.trans hx')
  rw [hcmd] at h
  exact lineSteps_halt_suspended (s := leaveHandler x s) rfl h hy

/-- Settles O38, command by command: each is quiet from a line other than 160. -/
theorem vblankEffectsOnlyAtLine160 : Obligations.VblankEffectsOnlyAtLine160 := by
  intro s t hl h
  have hquiet : Quiet s t := by
    rcases h with h | h | h
    · exact exec_timingOp_quiet (cmd := .halt) hl h
    · exact exec_timingOp_quiet (cmd := .vsync) hl h
    · exact handlerReturn_quiet hl h
  obtain ⟨⟨evs, htrace, hevs⟩, hkeys, hmix, hmixn, hsnd, hdeadline⟩ := hquiet
  exact ⟨⟨evs, htrace, fun e he => vblankEvent_eq_false (hevs e he)⟩, hkeys, hmix, hmixn, hsnd, hdeadline⟩

/-- Settles O39: 228 line steps pass line 160 once (`haltsReach_counts`). -/
theorem frameOfHalts : Obligations.FrameOfHalts := by
  intro s t hl h
  obtain ⟨hline, hpresents⟩ := haltsReach_counts hl h
  exact ⟨BitVec.eq_of_toNat_eq (by omega), by omega⟩

end Sys2Proof.Certificates
end

section
/-! PROOFS. The family spec/42_dma.md: a transfer without units (R144), a trigger as four turns (R141), what the units of
a transfer leave in MEM by its operand modes (R143, R149), and the demand of an audio channel (R150). -/

namespace Sys2Proof.Machine

/-! ### A transfer without units (R144) -/

@[simp] theorem setDma_self (n : DmaIndex) (s : State) : setDma n s.dma[n] s = s := by
  simp [setDma]

theorem dmaBlock_of_no_units {n : DmaIndex} {s : State} (h : s.dma[n].cnt = 0) : dmaBlock n s = .ok s := by
  have hunits : dmaUnits s.dma[n].cnt.toNat s.dma[n] s.mem = .ok (s.dma[n], s.mem) := by rw [h]; rfl
  rw [dmaBlock, hunits, ok_bind]
  exact congrArg Except.ok (setDma_self n s)

theorem disableUnlessRepeat_of_armed {c : DmaChannel} (h : c.en = true) :
    disableUnlessRepeat c = { c with en := c.rep } := by
  rw [disableUnlessRepeat, h, Bool.true_and]

/-! ### A channel's turn (R141) -/

theorem dmaTurn_channel_after {ev : Trigger} {n : DmaIndex} {s t : State} (h : dmaTurn ev n s = .ok t) :
    t.dma[n] = if s.dma[n].en = true ∧ s.dma[n].trig = ev
      then { channelAfter s.dma[n] s.dma[n].cnt.toNat with en := s.dma[n].rep } else s.dma[n] := by
  rcases dmaTurn_ok h with ⟨hidle, rfl⟩ | ⟨harmed, m', -, rfl⟩
  · rw [if_neg (by rw [← armedFor_iff, hidle]; decide)]
  · have hen := armedFor_iff.mp harmed
    rw [if_pos hen, setDma_get_same]
    exact disableUnlessRepeat_of_armed hen.1

theorem dmaTurn_mem_after {ev : Trigger} {n : DmaIndex} {s t : State} (hw : s.mem.wf memBytes = true)
    (h : dmaTurn ev n s = .ok t) :
    if s.dma[n].en = true ∧ s.dma[n].trig = ev then transfers s.dma[n] s.dma[n].cnt.toNat s.mem t.mem
    else t.mem = s.mem := by
  rcases dmaTurn_ok h with ⟨hidle, rfl⟩ | ⟨harmed, m', hunits, rfl⟩
  · rw [if_neg (by rw [← armedFor_iff, hidle]; decide)]
  · rw [if_pos (armedFor_iff.mp harmed)]
    exact dmaUnits_transfers hw hunits

/-- A turn changes no byte outside the destinations of its channel's units. -/
theorem dmaTurn_read_other {ev : Trigger} {n : DmaIndex} {s t : State} {a : Nat} (h : dmaTurn ev n s = .ok t)
    (ha : ∀ j, s.dma[n].en = true → s.dma[n].trig = ev → j < s.dma[n].cnt.toNat →
      outside a (unitDest s.dma[n] j) (dmaWidth s.dma[n])) : t.mem.read a = s.mem.read a := by
  rcases dmaTurn_ok h with ⟨-, rfl⟩ | ⟨harmed, m', hunits, rfl⟩
  · rfl
  · obtain ⟨hen, htrig⟩ := armedFor_iff.mp harmed
    exact dmaUnits_read_other hunits a fun j i hj hi => ha j hen htrig hj i hi

/-! ### A trigger as four turns (R141) -/

/-- Channel `n` takes its turn between the states `u n` and `u (n + 1)`. -/
def TurnChain (ev : Trigger) (u : Nat → State) : Prop := ∀ n : DmaIndex, dmaTurn ev n (u n) = .ok (u (n + 1))

theorem dmaTrigger_chain {ev : Trigger} {s t : State} (h : dmaTrigger ev s = .ok t) :
    ∃ u, TurnChain ev u ∧ u 0 = s ∧ u 4 = t := by
  simp only [dmaTrigger, bind_eq_ok] at h
  obtain ⟨s0, h0, s1, h1, s2, h2, h3⟩ := h
  refine ⟨fun i => [s, s0, s1, s2].getD i t, fun n => ?_, rfl, rfl⟩
  match n with
  | 0 => exact h0
  | 1 => exact h1
  | 2 => exact h2
  | 3 => exact h3

section
variable {ev : Trigger} {u : Nat → State} (hu : TurnChain ev u)
include hu

/-- Turns that do not include a channel's own leave it alone. -/
theorem TurnChain.dma_eq {a b : Nat} (n : DmaIndex) (hab : a ≤ b) (hb : b ≤ 4) (hn : n.val < a ∨ b ≤ n.val) :
    (u b).dma[n] = (u a).dma[n] := by
  induction b, hab using Nat.le_induction with
  | base => rfl
  | succ b hab ih =>
    have hother : n ≠ (⟨b, hb⟩ : DmaIndex) := fun e => by rw [e] at hn; simp only at hn; omega
    rw [dmaTurn_other (hu ⟨b, hb⟩) hother, ih (by omega) (by omega)]

theorem TurnChain.dma_before (n : DmaIndex) : (u n).dma[n] = (u 0).dma[n] :=
  hu.dma_eq n (Nat.zero_le _) n.isLt.le (.inr (le_refl _))

theorem TurnChain.dma_after (n : DmaIndex) : (u 4).dma[n] = (u (n + 1)).dma[n] :=
  hu.dma_eq n n.isLt (le_refl 4) (.inl n.val.lt_succ_self)

theorem TurnChain.mem_wf (hw : (u 0).mem.wf memBytes = true) {k : Nat} (hk : k ≤ 4) :
    (u k).mem.wf memBytes = true := by
  induction k with
  | zero => exact hw
  | succ k ih => exact (dmaTurn_frame (hu ⟨k, hk⟩)).2 (ih (by omega))

theorem TurnChain.read_other {a k : Nat} (hk : k ≤ 4)
    (ha : ∀ (n : DmaIndex) (j : Nat), (u 0).dma[n].en = true → (u 0).dma[n].trig = ev →
      j < (u 0).dma[n].cnt.toNat → outside a (unitDest (u 0).dma[n] j) (dmaWidth (u 0).dma[n])) :
    (u k).mem.read a = (u 0).mem.read a := by
  induction k with
  | zero => rfl
  | succ k ih =>
    have hturn := dmaTurn_read_other (a := a) (hu ⟨k, hk⟩)
    rw [hu.dma_before ⟨k, hk⟩] at hturn
    rw [hturn (ha ⟨k, hk⟩), ih (by omega) ha]

end

/-! ### The ranges of a transfer's operands (R143) -/

/-- Two rounded units are the same unit or share no byte. -/
theorem alignDown_eq_or_apart (x y : Word) {w : Nat} (hw : w = 2 ∨ w = 4) :
    alignDown x w = alignDown y w ∨ apart (alignDown x w) w (alignDown y w) w := by
  refine or_iff_not_imp_left.mpr fun hne i j hi hj e => hne (BitVec.eq_of_toNat_eq ?_)
  have e' := congrArg BitVec.toNat e
  have hx := x.isLt
  have hy := y.isLt
  rw [BitVec.toNat_add, BitVec.toNat_add, BitVec.toNat_ofNat, BitVec.toNat_ofNat] at e'
  rcases hw with rfl | rfl
  · rw [alignDown_two, alignDown_two] at e' ⊢
    omega
  · rw [alignDown_four, alignDown_four] at e' ⊢
    omega

/-- Each unit of an operand lies in the operand's range: one unit where it is fixed, all of them where it steps. -/
theorem unit_in_range (fixed : Bool) (x : Word) {w j k : Nat} (hw : w = 2 ∨ w = 4) (hj : j < k) :
    ∃ o, alignDown (latchAfter fixed w x j) w = alignDown x w + BitVec.ofNat 32 o ∧
      o + w ≤ (if fixed then min 1 k else k) * w := by
  cases fixed with
  | true =>
    refine ⟨0, by simp [latchAfter], ?_⟩
    rw [if_pos rfl, Nat.min_eq_left (by omega)]
    omega
  | false =>
    refine ⟨j * w, alignDown_add x j hw, ?_⟩
    have hle : (j + 1) * w ≤ k * w := Nat.mul_le_mul_right w hj
    rw [Nat.succ_mul] at hle
    exact hle

theorem transferClear_of_ranges {c : DmaChannel} {k : Nat}
    (hs : clearOf (alignDown c.isrc (dmaWidth c)) ((if c.srcFixed then min 1 k else k) * dmaWidth c))
    (hd : clearOf (alignDown c.idst (dmaWidth c)) ((if c.dstFixed then min 1 k else k) * dmaWidth c)) :
    transferClear c k := by
  intro j hj
  obtain ⟨p, hp, hple⟩ := unit_in_range c.srcFixed c.isrc (dmaWidth_cases c) hj
  obtain ⟨q, hq, hqle⟩ := unit_in_range c.dstFixed c.idst (dmaWidth_cases c) hj
  rw [unitSource, hp, unitDest, hq]
  exact ⟨clearOf_sub hs hple, clearOf_sub hd hqle⟩

theorem outside_unitDest {c : DmaChannel} {a j k : Nat} (hj : j < k)
    (ha : outside a (alignDown c.idst (dmaWidth c)) ((if c.dstFixed then min 1 k else k) * dmaWidth c)) :
    outside a (unitDest c j) (dmaWidth c) := by
  intro i hi
  obtain ⟨o, ho, hle⟩ := unit_in_range c.dstFixed c.idst (dmaWidth_cases c) hj
  rw [unitDest, ho, add_ofNat_add]
  exact ha (o + i) (by omega)

theorem unitSource_fixed {c : DmaChannel} (h : c.srcFixed = true) (j : Nat) :
    unitSource c j = alignDown c.isrc (dmaWidth c) := by
  rw [unitSource, latchAfter, if_pos h]

theorem unitDest_fixed {c : DmaChannel} (h : c.dstFixed = true) (j : Nat) :
    unitDest c j = alignDown c.idst (dmaWidth c) := by
  rw [unitDest, latchAfter, if_pos h]

/-! ### What a transfer leaves in MEM (R143, R149) -/

section
variable {c : DmaChannel} {m m' : Memory}

/-- A byte outside every destination of a transfer is as it was. -/
theorem transfers_read_other {k a : Nat} (h : transfers c k m m')
    (ha : ∀ j, j < k → outside a (unitDest c j) (dmaWidth c)) : m'.read a = m.read a := by
  induction k generalizing m' with
  | zero => rw [h]
  | succ k ih =>
    obtain ⟨m1, h1, -, hkeep⟩ := h
    rw [hkeep a (ha k k.lt_succ_self), ih h1 fun j hj => ha j (by omega)]

/-- A fixed source holds its unit throughout: each unit is stored there unchanged or elsewhere. -/
theorem transfers_fixedSource {k i : Nat} (hs : c.srcFixed = true) (h : transfers c k m m') (hi : i < dmaWidth c) :
    m'.read (alignDown c.isrc (dmaWidth c) + BitVec.ofNat 32 i).toNat =
      m.read (alignDown c.isrc (dmaWidth c) + BitVec.ofNat 32 i).toNat := by
  induction k generalizing m' with
  | zero => rw [h]
  | succ k ih =>
    obtain ⟨m1, h1, hmove, hkeep⟩ := h
    rw [← ih h1]
    rcases alignDown_eq_or_apart c.isrc (latchAfter c.dstFixed (dmaWidth c) c.idst k) (dmaWidth_cases c) with
      hsame | hapart
    · have hmoved := hmove i hi
      rwa [unitSource_fixed hs, unitDest, ← hsame] at hmoved
    · exact hkeep _ fun j hj => apart_toNat hapart hi hj

/-- A unit ahead of the stepping destination is outside the units before it. -/
theorem outside_earlier_unit {l j o : Nat} (hd : c.dstFixed = false) (hl : l < j) (hj : j * dmaWidth c ≤ o)
    (ho : o < 2 ^ 32) :
    outside (alignDown c.idst (dmaWidth c) + BitVec.ofNat 32 o).toNat (unitDest c l) (dmaWidth c) := by
  intro b hb
  have hle : (l + 1) * dmaWidth c ≤ j * dmaWidth c := Nat.mul_le_mul_right _ hl
  rw [Nat.succ_mul] at hle
  rw [unitDest_stepping hd, add_ofNat_add]
  exact add_ofNat_ne (by omega) ho (by omega)

/-- With a stepping destination, each unit ends as its source held it when it was moved. -/
theorem transfers_unit {k j i : Nat} (hd : c.dstFixed = false) (hk : k * dmaWidth c ≤ 2 ^ 32)
    (h : transfers c k m m') (hj : j < k) (hi : i < dmaWidth c) :
    ∃ m1, transfers c j m m1 ∧ m'.read (unitDest c j + BitVec.ofNat 32 i).toNat =
      m1.read (unitSource c j + BitVec.ofNat 32 i).toNat := by
  induction k generalizing m' with
  | zero => omega
  | succ k ih =>
    obtain ⟨m1, h1, hmove, hkeep⟩ := h
    rw [Nat.succ_mul] at hk
    rcases Nat.lt_succ_iff_lt_or_eq.mp hj with hlt | rfl
    · obtain ⟨m2, h2, he⟩ := ih (by omega) h1 hlt
      refine ⟨m2, h2, (hkeep _ fun b hb => ?_).trans he⟩
      have hle : (j + 1) * dmaWidth c ≤ k * dmaWidth c := Nat.mul_le_mul_right _ hlt
      rw [Nat.succ_mul] at hle
      rw [unitDest_stepping hd, unitDest_stepping hd, add_ofNat_add, add_ofNat_add]
      exact add_ofNat_ne (by omega) (by omega) (by omega)
    · exact ⟨m1, h1, hmove i hi⟩

/-- Where no unit is read at a byte an earlier unit stored, a transfer with both operands stepping is a copy. -/
theorem transfers_copies {k i : Nat} (hs : c.srcFixed = false) (hd : c.dstFixed = false)
    (hk : k * dmaWidth c ≤ 2 ^ 32) (h : transfers c k m m')
    (hfresh : ∀ j l b, j < k → b < dmaWidth c → l < j →
      outside (unitSource c j + BitVec.ofNat 32 b).toNat (unitDest c l) (dmaWidth c)) (hi : i < k * dmaWidth c) :
    m'.read (alignDown c.idst (dmaWidth c) + BitVec.ofNat 32 i).toNat =
      m.read (alignDown c.isrc (dmaWidth c) + BitVec.ofNat 32 i).toNat := by
  have hpos : 0 < dmaWidth c := by have := dmaWidth_cases c; omega
  have hj : i / dmaWidth c < k := (Nat.div_lt_iff_lt_mul hpos).mpr hi
  have hb : i % dmaWidth c < dmaWidth c := Nat.mod_lt _ hpos
  obtain ⟨m1, h1, he⟩ := transfers_unit hd hk h hj hb
  rw [transfers_read_other h1 fun l hl => hfresh _ l _ hj hb hl, unitDest_stepping hd, unitSource_stepping hs,
    add_ofNat_add, add_ofNat_add, Nat.div_add_mod'] at he
  exact he

theorem transfers_copies_apart {k i : Nat} (hs : c.srcFixed = false) (hd : c.dstFixed = false)
    (hk : k * dmaWidth c ≤ 2 ^ 32) (h : transfers c k m m')
    (ha : apart (alignDown c.isrc (dmaWidth c)) (k * dmaWidth c) (alignDown c.idst (dmaWidth c)) (k * dmaWidth c))
    (hi : i < k * dmaWidth c) :
    m'.read (alignDown c.idst (dmaWidth c) + BitVec.ofNat 32 i).toNat =
      m.read (alignDown c.isrc (dmaWidth c) + BitVec.ofNat 32 i).toNat := by
  have hin : ∀ j b, j < k → b < dmaWidth c → j * dmaWidth c + b < k * dmaWidth c := fun j b hj hb => by
    have hle : (j + 1) * dmaWidth c ≤ k * dmaWidth c := Nat.mul_le_mul_right _ hj
    rw [Nat.succ_mul] at hle
    omega
  refine transfers_copies hs hd hk h (fun j l b hj hb hl b' hb' => ?_) hi
  rw [unitSource_stepping hs, unitDest_stepping hd, add_ofNat_add, add_ofNat_add]
  exact apart_toNat ha (hin j b hj hb) (hin l b' (hl.trans hj) hb')

/-- One unit downwards, every unit is read ahead of what is stored. -/
theorem transfers_copies_down {k i : Nat} (hs : c.srcFixed = false) (hd : c.dstFixed = false)
    (hk : (k + 1) * dmaWidth c ≤ 2 ^ 32) (h : transfers c k m m')
    (hdown : alignDown c.isrc (dmaWidth c) = alignDown c.idst (dmaWidth c) + BitVec.ofNat 32 (dmaWidth c))
    (hi : i < k * dmaWidth c) :
    m'.read (alignDown c.idst (dmaWidth c) + BitVec.ofNat 32 i).toNat =
      m.read (alignDown c.isrc (dmaWidth c) + BitVec.ofNat 32 i).toNat := by
  rw [Nat.succ_mul] at hk
  refine transfers_copies hs hd (by omega) h (fun j l b hj hb hl => ?_) hi
  have hle : (j + 1) * dmaWidth c ≤ k * dmaWidth c := Nat.mul_le_mul_right _ hj
  rw [Nat.succ_mul] at hle
  rw [unitSource_stepping hs, hdown, add_ofNat_add, add_ofNat_add]
  exact outside_earlier_unit hd hl (by omega) (by omega)

/-- One unit upwards, every unit is read where the unit before it was stored. -/
theorem transfers_replicates {k j i : Nat} (hs : c.srcFixed = false) (hd : c.dstFixed = false)
    (hk : k * dmaWidth c ≤ 2 ^ 32) (h : transfers c k m m')
    (hup : alignDown c.idst (dmaWidth c) = alignDown c.isrc (dmaWidth c) + BitVec.ofNat 32 (dmaWidth c))
    (hj : j < k) (hi : i < dmaWidth c) :
    m'.read (unitDest c j + BitVec.ofNat 32 i).toNat =
      m.read (alignDown c.isrc (dmaWidth c) + BitVec.ofNat 32 i).toNat := by
  induction j generalizing k m' with
  | zero =>
    obtain ⟨m1, rfl, he⟩ := transfers_unit hd hk h hj hi
    rw [he, unitSource_stepping hs, Nat.zero_mul, BitVec.add_zero]
  | succ j ih =>
    obtain ⟨m1, h1, he⟩ := transfers_unit hd hk h hj hi
    have hprev : unitSource c (j + 1) = unitDest c j := by
      rw [unitSource_stepping hs, unitDest_stepping hd, hup, add_ofNat_add, Nat.succ_mul, Nat.add_comm]
    rw [he, hprev]
    exact ih ((Nat.mul_le_mul_right _ hj.le).trans hk) h1 j.lt_succ_self

/-- From a fixed source every unit is the source's. -/
theorem transfers_fills {k j i : Nat} (hs : c.srcFixed = true) (hd : c.dstFixed = false)
    (hk : k * dmaWidth c ≤ 2 ^ 32) (h : transfers c k m m') (hj : j < k) (hi : i < dmaWidth c) :
    m'.read (unitDest c j + BitVec.ofNat 32 i).toNat =
      m.read (alignDown c.isrc (dmaWidth c) + BitVec.ofNat 32 i).toNat := by
  obtain ⟨m1, h1, he⟩ := transfers_unit hd hk h hj hi
  rw [he, unitSource_fixed hs, transfers_fixedSource hs h1 hi]

/-- At a fixed destination the last unit stays: the units before it did not change its source, which is elsewhere. -/
theorem transfers_fixedDest {k i : Nat} (hs : c.srcFixed = false) (hd : c.dstFixed = true) (h : transfers c k m m')
    (hk : 0 < k)
    (hlast : alignDown c.idst (dmaWidth c) ≠
      alignDown c.isrc (dmaWidth c) + BitVec.ofNat 32 ((k - 1) * dmaWidth c)) (hi : i < dmaWidth c) :
    m'.read (alignDown c.idst (dmaWidth c) + BitVec.ofNat 32 i).toNat =
      m.read (alignDown c.isrc (dmaWidth c) + BitVec.ofNat 32 ((k - 1) * dmaWidth c + i)).toNat := by
  obtain ⟨k, rfl⟩ := Nat.exists_eq_add_one_of_ne_zero hk.ne'
  rw [Nat.add_sub_cancel] at hlast ⊢
  obtain ⟨m1, h1, hmove, -⟩ := h
  have hmoved := hmove i hi
  rw [unitDest_fixed hd] at hmoved
  rw [hmoved, ← add_ofNat_add, ← unitSource_stepping hs]
  rw [← unitSource_stepping hs] at hlast
  refine transfers_read_other h1 fun l _ b hb => ?_
  rw [unitDest_fixed hd]
  exact apart_toNat ((alignDown_eq_or_apart _ _ (dmaWidth_cases c)).resolve_left (Ne.symm hlast)) hi hb

/-- With both operands fixed one unit is copied. -/
theorem transfers_bothFixed {k i : Nat} (hs : c.srcFixed = true) (hd : c.dstFixed = true) (h : transfers c k m m')
    (hk : 0 < k) (hi : i < dmaWidth c) :
    m'.read (alignDown c.idst (dmaWidth c) + BitVec.ofNat 32 i).toNat =
      m.read (alignDown c.isrc (dmaWidth c) + BitVec.ofNat 32 i).toNat := by
  obtain ⟨k, rfl⟩ := Nat.exists_eq_add_one_of_ne_zero hk.ne'
  obtain ⟨m1, h1, hmove, -⟩ := h
  have hmoved := hmove i hi
  rwa [unitDest_fixed hd, unitSource_fixed hs, transfers_fixedSource hs h1 hi] at hmoved

end

/-- The channel an enabling control word with the immediate trigger makes, its latches loaded (spec/40_register_access.md
R100). -/
def enabledImmediate (v : Word) (c : DmaChannel) : DmaChannel :=
  { c with
    dstFixed := v.getLsbD 6, srcFixed := v.getLsbD 8, rep := v.getLsbD 9, w32 := v.getLsbD 10, trig := .immediate,
    en := true, isrc := c.sad, idst := c.dad }

/-! ### The demand of an audio channel (R150) -/

/-- The four bytes from an address. -/
def bytesAt (m : Memory) (x : Word) : Cache :=
  ⟨m.read x.toNat, m.read (x + 1).toNat, m.read (x + 2).toNat, m.read (x + 3).toNat⟩

theorem readLE_one (m : Memory) (x : Word) : BitVec.ofNat 8 (readLE m 1 x) = m.read x.toNat := by
  have h := readLE_byte m 1 x 0 Nat.one_pos
  rwa [Nat.pow_zero, Nat.div_one, BitVec.add_zero] at h

/-- Bytes supplied are read outside REGSET from the latch rounded down to 4. -/
theorem supplyBytes_ok {m : Memory} {ch : DmaChannel} {b : Cache} (h : supplyBytes m ch = .ok b) :
    clearOf (alignDown ch.isrc 4) 4 ∧ b = bytesAt m (alignDown ch.isrc 4) := by
  simp only [supplyBytes, bind_eq_ok, memRead_eq_ok, engineOk_iff, pure_eq_ok, Except.ok.injEq] at h
  obtain ⟨_, ⟨h0, rfl⟩, _, ⟨h1, rfl⟩, _, ⟨h2, rfl⟩, _, ⟨h3, rfl⟩, rfl⟩ := h
  refine ⟨clearOf_append (clearOf_append (clearOf_append h0 h1) h2) h3, ?_⟩
  simp only [readLE_one, bytesAt]

theorem supplyBytes_clear {m : Memory} {ch : DmaChannel} (h : clearOf (alignDown ch.isrc 4) 4) :
    supplyBytes m ch = .ok (bytesAt m (alignDown ch.isrc 4)) := by
  obtain ⟨b, hb⟩ := supplyBytes_completes (m := m) h
  rw [hb, (supplyBytes_ok hb).2]

theorem onlyEngine_supplyBytes (m : Memory) (ch : DmaChannel) : onlyEngine (supplyBytes m ch) :=
  onlyEngine_bind (onlyEngine_memRead _ _ _) fun _ => onlyEngine_bind (onlyEngine_memRead _ _ _) fun _ =>
    onlyEngine_bind (onlyEngine_memRead _ _ _) fun _ => onlyEngine_bind (onlyEngine_memRead _ _ _) fun _ =>
      onlyEngine_ok _

theorem supplyBytes_refused {m : Memory} {ch : DmaChannel} (h : ¬ clearOf (alignDown ch.isrc 4) 4) :
    supplyBytes m ch = .error .engineAccessToRegisters := by
  cases hr : supplyBytes m ch with
  | error e => rw [onlyEngine_supplyBytes m ch e hr]
  | ok b => exact absurd (supplyBytes_ok hr).1 h

theorem afterSupply_of_armed {ch : DmaChannel} (h : ch.en = true) :
    afterSupply ch = { ch with isrc := if ch.srcFixed then ch.isrc else ch.isrc + 4, en := ch.rep } :=
  disableUnlessRepeat_of_armed h

theorem fifoSupply_of_none {c : Audio} {m : Memory} {dma : Vector DmaChannel 4} (h : supplier c dma = none) :
    fifoSupply c m dma = .ok (none, dma) := by
  rw [fifoSupply, h]

theorem fifoSupply_of_supplier {c : Audio} {m : Memory} {dma : Vector DmaChannel 4} {n : DmaIndex}
    (h : supplier c dma = some n) : fifoSupply c m dma =
      (supplyBytes m dma[n] >>= fun bytes => .ok (some bytes, dma.set n (afterSupply dma[n]))) := by
  rw [fifoSupply, h]
  rfl

end Sys2Proof.Machine

namespace Sys2Proof.Certificates
open Sys2Proof.Machine

/-- Settles O42: with no units the block transfer leaves the state, and what follows it is the enable rule alone. -/
theorem zeroLengthTransfer : Obligations.ZeroLengthTransfer := by
  intro n s hcnt
  have hblock := dmaBlock_of_no_units hcnt
  refine ⟨hblock, fun ev hen htrig => ?_, ?_⟩
  · rw [dmaTurn, if_pos (armedFor_iff.mpr ⟨hen, htrig⟩), hblock, ok_bind, disableUnlessRepeat_of_armed hen]
    rfl
  · rw [dmaRun, hblock]
    rfl

/-- Settles O41: the trigger as a chain of four turns, of which each channel's own is the only one that changes it. -/
theorem triggerRunsMatchingChannels : Obligations.TriggerRunsMatchingChannels := by
  intro ev s
  refine ⟨dmaTrigger_completes, dmaTrigger_refused, fun t h => ⟨(dmaTrigger_frame h).1, ?_⟩⟩
  obtain ⟨u, hu, rfl, rfl⟩ := dmaTrigger_chain h
  refine ⟨fun n => ?channel, fun hw => ⟨fun k => (u k).mem, rfl, rfl, fun n => ?units⟩,
    fun a ha => hu.read_other (le_refl 4) ha⟩
  case channel =>
    rw [hu.dma_after n, dmaTurn_channel_after (hu n), hu.dma_before n]
  case units =>
    have hmem := dmaTurn_mem_after (hu.mem_wf hw n.isLt.le) (hu n)
    rwa [hu.dma_before n] at hmem

/-- Settles O43: the write runs the transfer of the channel so enabled (`enableEdgeRunsImmediateTransfer`), and each mode is
a law of the units it stores. -/
theorem immediateTransferCopies : Obligations.ImmediateTransferCopies := by
  intro s v n w k ks kd src dst hp hwf hoff h5 h7 h12 h13 hon hw hk hks hkd hsrc hdst hclearSrc hclearDst
  obtain ⟨c, hc⟩ : ∃ c, c = enabledImmediate v s.dma[n] := ⟨_, rfl⟩
  have hs : v.getLsbD 8 = c.srcFixed := by rw [hc]; rfl
  have hd : v.getLsbD 6 = c.dstFixed := by rw [hc]; rfl
  obtain rfl : w = dmaWidth c := by rw [hw, hc]; rfl
  obtain rfl : k = c.cnt.toNat := by rw [hk, hc]; rfl
  obtain rfl : src = alignDown c.isrc (dmaWidth c) := by rw [hsrc, hc]; rfl
  obtain rfl : dst = alignDown c.idst (dmaWidth c) := by rw [hdst, hc]; rfl
  have hlen : (c.cnt.toNat + 1) * dmaWidth c ≤ 2 ^ 32 := by
    have := c.cnt.isLt
    rcases dmaWidth_cases c with e | e <;> rw [e] <;> omega
  have hlen' := (Nat.mul_le_mul_right (dmaWidth c) c.cnt.toNat.le_succ).trans hlen
  rw [hs] at hks ⊢
  rw [hd] at hkd ⊢
  subst hks hkd
  obtain ⟨m, hexec, htransfers, hother⟩ := (enableEdgeRunsImmediateTransfer s v n c hp hoff h5 h7 h12 h13 hon hc).1
    (transferClear_of_ranges hclearSrc hclearDst)
  have hm := htransfers hwf
  refine ⟨_, hexec, ?apart, ?up, ?down, ?fill, ?last, ?single, ?frame⟩
  case apart => exact fun hs hd ha i hi => transfers_copies_apart hs hd hlen' hm ha hi
  case up =>
    intro hs hd hup j i hj hi
    rw [← add_ofNat_add, ← unitDest_stepping hd]
    exact transfers_replicates hs hd hlen' hm hup hj hi
  case down => exact fun hs hd hdown i hi => transfers_copies_down hs hd hlen hm hdown hi
  case fill =>
    intro hs hd j i hj hi
    rw [← add_ofNat_add, ← unitDest_stepping hd]
    exact transfers_fills hs hd hlen' hm hj hi
  case last => exact fun hs hd hpos hlast i hi => transfers_fixedDest hs hd hm hpos hlast hi
  case single => exact fun hs hd hpos i hi => transfers_bothFixed hs hd hm hpos hi
  case frame => exact fun a ha => hother a fun j hj => outside_unitDest hj ha

/-- Settles O44: the lowest channel that feeds the audio channel is its supplier, and the demand is that channel's four
byte reads. -/
theorem fifoDemand : Obligations.FifoDemand := by
  intro c m dma named hnamed
  have hfeeds : ∀ n, named n ↔ feeds c dma[n] = true := fun n => (hnamed n).trans feeds_iff.symm
  have hidle : ∀ n, ¬ named n → feeds c dma[n] = false := fun n hn => by rwa [hfeeds, Bool.not_eq_true] at hn
  refine ⟨fun hnone => fifoSupply_of_none (supplier_none fun n => hidle n (hnone n)), fun n base hn hlow hbase => ?_⟩
  obtain rfl : base = alignDown dma[n].isrc 4 := hbase
  have hsupplier := supplier_lowest ((hfeeds n).mp hn) fun k hk => hidle k (hlow k hk)
  rw [fifoSupply_of_supplier hsupplier]
  constructor
  · intro hclear
    rw [supplyBytes_clear hclear, ok_bind, afterSupply_of_armed ((hnamed n).mp hn).1]
    rfl
  · intro hmeets
    rw [supplyBytes_refused hmeets, error_bind]

end Sys2Proof.Certificates
end

section
/-! PROOFS. The family spec/43_sound_mixer.md: the pop by what the cache holds (R165), one simulated clock as its source and
its output side (R164), the sums of the mix (R170), and a frame as synthesis, mix and submission (R160 to R163, R175). -/

namespace Sys2Proof.Machine

/-! ### The pop (R165) -/

theorem takeByte_of_pos {d : SoundDma} (h : 0 < d.rem) :
    takeByte d = { d with cur := cacheByte d.cache (4 - d.rem), rem := d.rem - 1 } := if_pos h

theorem takeByte_of_empty {d : SoundDma} (h : d.rem = 0) : takeByte d = d := if_neg (by omega)

/-- The bytes of the cache, lowest address first. -/
theorem cacheByte_eq_getElem? (b : Cache) {k : Nat} (h : k < 4) :
    some (cacheByte b k) = [b.b0, b.b1, b.b2, b.b3][k]? :=
  match k, h with
  | 0, _ => rfl
  | 1, _ => rfl
  | 2, _ => rfl
  | 3, _ => rfl

theorem pop_of_held {c : Audio} {m : Memory} {d : SoundDma} {dma : Vector DmaChannel 4} (h : 0 < d.rem) :
    pop c m (d, dma) = .ok ({ d with cur := cacheByte d.cache (4 - d.rem), rem := d.rem - 1 }, dma) := by
  rw [pop, refill, if_neg h.ne', ok_bind, takeByte_of_pos h, pure_eq_ok]

section
variable {c : Audio} {m : Memory} {d : SoundDma} {dma dma' : Vector DmaChannel 4} (hempty : d.rem = 0)
include hempty

theorem pop_of_unsupplied (h : fifoSupply c m dma = .ok (none, dma')) : pop c m (d, dma) = .ok (d, dma') := by
  rw [pop, refill, if_pos hempty, h]
  simp only [ok_bind, pure_eq_ok, takeByte_of_empty hempty]

theorem pop_of_supplied {r : Cache} (h : fifoSupply c m dma = .ok (some r, dma')) :
    pop c m (d, dma) = .ok ({ d with cache := r, cur := r.b0, rem := 3 }, dma') := by
  rw [pop, refill, if_pos hempty, h]
  rfl

theorem pop_of_refused {e : Refusal} (h : fifoSupply c m dma = .error e) : pop c m (d, dma) = .error e := by
  rw [pop, refill, if_pos hempty, h]
  rfl

end

/-- A pop leaves the output counter and the buffer alone. -/
theorem pop_output {c : Audio} {m : Memory} {f p : Feed} (h : pop c m f = .ok p) :
    p.1.outclk = f.1.outclk ∧ p.1.bufn = f.1.bufn ∧ p.1.buf = f.1.buf := by
  obtain ⟨d, dma⟩ := f
  rcases Nat.eq_zero_or_pos d.rem with h0 | h0
  · cases hs : fifoSupply c m dma with
    | error e => cases (pop_of_refused h0 hs).symm.trans h
    | ok r =>
      obtain ⟨_ | bytes, dma'⟩ := r
      · obtain rfl := Except.ok.inj ((pop_of_unsupplied h0 hs).symm.trans h)
        exact ⟨rfl, rfl, rfl⟩
      · obtain rfl := Except.ok.inj ((pop_of_supplied h0 hs).symm.trans h)
        exact ⟨rfl, rfl, rfl⟩
  · obtain rfl := Except.ok.inj ((pop_of_held h0).symm.trans h)
    exact ⟨rfl, rfl, rfl⟩

/-! ### One simulated clock (R164) -/

/-- The feed with the source counter at `x`. -/
def withSrcclk (x : Nat) (f : Feed) : Feed := ({ f.1 with srcclk := x }, f.2)

/-- The pop neither reads nor writes the source counter. -/
theorem pop_withSrcclk (c : Audio) (m : Memory) (x : Nat) (f : Feed) :
    pop c m (withSrcclk x f) = (pop c m f).map (withSrcclk x) := by
  obtain ⟨d, dma⟩ := f
  rcases Nat.eq_zero_or_pos d.rem with h0 | h0
  · cases hs : fifoSupply c m dma with
    | error e =>
      rw [pop_of_refused h0 hs]
      exact pop_of_refused (d := { d with srcclk := x }) h0 hs
    | ok r =>
      obtain ⟨_ | bytes, dma'⟩ := r
      · rw [pop_of_unsupplied h0 hs]
        exact pop_of_unsupplied (d := { d with srcclk := x }) h0 hs
      · rw [pop_of_supplied h0 hs]
        exact pop_of_supplied (d := { d with srcclk := x }) h0 hs
  · rw [pop_of_held h0]
    exact pop_of_held (d := { d with srcclk := x }) h0

/-- The feed after the output side of a tick whose source side left the counter at `x`. -/
def afterSource (cfg : Config) (x : Nat) (f : Feed) : Feed := (outputSide cfg { f.1 with srcclk := x }, f.2)

/-- Where the source counter fires, a tick is the pop, then the output side. -/
theorem tick_of_fires {c : Audio} {cfg : Config} {m : Memory} {per : Nat} {f : Feed} (h : f.1.srcclk ≤ 1) :
    tick c cfg m per f = (pop c m f).map (afterSource cfg per) := by
  have hsource : sourceSide c m per f = (pop c m f).map (withSrcclk per) :=
    (if_pos h).trans (pop_withSrcclk c m per f)
  rw [tick, hsource]
  cases pop c m f <;> rfl

/-- Where the source counter counts down, a tick is the output side alone. -/
theorem tick_of_counts {c : Audio} {cfg : Config} {m : Memory} {per : Nat} {f : Feed} (h : 1 < f.1.srcclk) :
    tick c cfg m per f = .ok (afterSource cfg (f.1.srcclk - 1) f) := by
  rw [tick, sourceSide, if_neg h.not_ge]
  rfl

/-- A tick that is not refused, by its source counter. -/
theorem tick_cases {c : Audio} {cfg : Config} {m : Memory} {per : Nat} {f g : Feed} (h : tick c cfg m per f = .ok g) :
    (f.1.srcclk ≤ 1 ∧ ∃ p, pop c m f = .ok p ∧ g = afterSource cfg per p) ∨
    (1 < f.1.srcclk ∧ g = afterSource cfg (f.1.srcclk - 1) f) := by
  rcases Nat.lt_or_ge 1 f.1.srcclk with hc | hf
  · exact .inr ⟨hc, Except.ok.inj (h.symm.trans (tick_of_counts hc))⟩
  · rw [tick_of_fires hf] at h
    cases hp : pop c m f with
    | error e =>
      rw [hp] at h
      cases h
    | ok p =>
      rw [hp] at h
      exact .inl ⟨hf, p, rfl, (Except.ok.inj h).symm⟩

theorem tick_refused_iff {c : Audio} {cfg : Config} {m : Memory} {per : Nat} {f : Feed} {e : Refusal} :
    tick c cfg m per f = .error e ↔ f.1.srcclk ≤ 1 ∧ pop c m f = .error e := by
  rcases Nat.lt_or_ge 1 f.1.srcclk with hc | hf
  · simp [tick_of_counts hc, hc.not_ge]
  · rw [tick_of_fires hf]
    cases pop c m f <;> simp [Except.map, hf]

/-- Where the output counter fires and the buffer has a place, the held byte is appended. -/
theorem afterSource_of_appends {cfg : Config} {x : Nat} {f : Feed} (h : f.1.outclk ≤ 1 ∧ f.1.bufn < cfg.bufCap) :
    afterSource cfg x f = ({ f.1 with
      srcclk := x
      outclk := cfg.clocksPerSample
      bufn := f.1.bufn + 1
      buf := f.1.buf.set f.1.bufn f.1.cur }, f.2) := by
  simp only [afterSource, outputSide, if_pos h.1, appendSample, if_pos h.2]

/-- Where the output counter does not fire or the buffer is full, the two counters alone change. -/
theorem afterSource_of_not_appends {cfg : Config} {x : Nat} {f : Feed}
    (h : ¬ (f.1.outclk ≤ 1 ∧ f.1.bufn < cfg.bufCap)) :
    afterSource cfg x f = ({ f.1 with
      srcclk := x
      outclk := if f.1.outclk ≤ 1 then cfg.clocksPerSample else f.1.outclk - 1 }, f.2) := by
  by_cases hf : f.1.outclk ≤ 1
  · have hfull : ¬ f.1.bufn < cfg.bufCap := fun hb => h ⟨hf, hb⟩
    simp only [afterSource, outputSide, if_pos hf, appendSample, if_neg hfull]
  · simp only [afterSource, outputSide, if_neg hf]

/-- The source counter and what a pop works on are as the source side left them. -/
theorem afterSource_keeps (cfg : Config) (x : Nat) (f : Feed) :
    (afterSource cfg x f).1.srcclk = x ∧ (afterSource cfg x f).1.cur = f.1.cur ∧
      (afterSource cfg x f).1.cache = f.1.cache ∧ (afterSource cfg x f).1.rem = f.1.rem ∧
      (afterSource cfg x f).2 = f.2 := by
  by_cases h : f.1.outclk ≤ 1 ∧ f.1.bufn < cfg.bufCap
  · rw [afterSource_of_appends h]
    exact ⟨rfl, rfl, rfl, rfl, rfl⟩
  · rw [afterSource_of_not_appends h]
    exact ⟨rfl, rfl, rfl, rfl, rfl⟩

/-- The output counter, and the buffer: the byte held after the tick is appended or nothing is. -/
theorem afterSource_output (cfg : Config) (x : Nat) (f : Feed) :
    (afterSource cfg x f).1.outclk = (if f.1.outclk ≤ 1 then cfg.clocksPerSample else f.1.outclk - 1) ∧
      (f.1.outclk ≤ 1 ∧ f.1.bufn < cfg.bufCap → (afterSource cfg x f).1.bufn = f.1.bufn + 1 ∧
        (afterSource cfg x f).1.buf = f.1.buf.set f.1.bufn (afterSource cfg x f).1.cur) ∧
      (¬ (f.1.outclk ≤ 1 ∧ f.1.bufn < cfg.bufCap) →
        (afterSource cfg x f).1.bufn = f.1.bufn ∧ (afterSource cfg x f).1.buf = f.1.buf) := by
  by_cases h : f.1.outclk ≤ 1 ∧ f.1.bufn < cfg.bufCap
  · rw [afterSource_of_appends h]
    exact ⟨(if_pos h.1).symm, fun _ => ⟨rfl, rfl⟩, fun hn => absurd h hn⟩
  · rw [afterSource_of_not_appends h]
    exact ⟨rfl, fun hy => absurd hy h, fun _ => ⟨rfl, rfl⟩⟩

/-! ### The sums of a mix (R162, R170) -/

/-- A channel's volume on a side (R162). -/
theorem volume_mem (on amp : Bool) : (if on then (if amp then 2 else 1) else 0) ∈ ([0, 1, 2] : List Int) := by
  revert on amp
  decide

/-- A sample is a signed byte. -/
theorem sampleAt_range (d : SoundDma) (i : Nat) : -128 ≤ sampleAt d i ∧ sampleAt d i ≤ 127 := by
  unfold sampleAt
  split
  · have hlo := BitVec.le_toInt (d.buf.getD i 0)
    have hhi := BitVec.toInt_lt (x := d.buf.getD i 0)
    exact ⟨hlo, Int.le_of_lt_add_one hhi⟩
  · decide

/-- A signed byte times a volume. -/
theorem byte_mul_volume_range {a v : Int} (ha : -128 ≤ a ∧ a ≤ 127) (hv : v ∈ ([0, 1, 2] : List Int)) :
    -256 ≤ a * v ∧ a * v ≤ 254 := by
  simp only [List.mem_cons, List.not_mem_nil, or_false] at hv
  rcases hv with rfl | rfl | rfl <;> omega

/-- The weighted sum of two signed bytes, scaled, fits a 16-bit sample. -/
theorem toInt_scaledSum {a b v w : Int} (ha : -128 ≤ a ∧ a ≤ 127) (hb : -128 ≤ b ∧ b ≤ 127)
    (hv : v ∈ ([0, 1, 2] : List Int)) (hw : w ∈ ([0, 1, 2] : List Int)) :
    (BitVec.ofInt 16 ((a * v + b * w) * Config.mixScale)).toInt = (a * v + b * w) * 64 := by
  have hav := byte_mul_volume_range ha hv
  have hbw := byte_mul_volume_range hb hw
  rw [Config.mixScale]
  exact BitVec.toInt_ofInt_eq_self (by decide) (by omega) (by omega)

/-- The pairs of a mix. -/
def mixedPairs (s : State) : List (Pcm × Pcm) :=
  (List.range (mixLength s)).map fun i =>
    mixedPair s.ctl[0] s.ctl[1] (sampleAt s.snd[0] i) (sampleAt s.snd[1] i)

theorem length_mixedPairs (s : State) : (mixedPairs s).length = mixLength s := by
  simp [mixedPairs]

theorem mixChannels_mix (s : State) : (mixChannels s).mix = mixedPairs s ++ s.mix.drop (mixLength s) := rfl

theorem mixChannels_mixn (s : State) : (mixChannels s).mixn = mixLength s := rfl

theorem mixChannels_get {s : State} {i : Nat} (h : i < mixLength s) : (mixChannels s).mix[i]? =
    some (mixedPair s.ctl[0] s.ctl[1] (sampleAt s.snd[0] i) (sampleAt s.snd[1] i)) := by
  rw [mixChannels_mix, List.getElem?_append_left (by rwa [length_mixedPairs])]
  simp [mixedPairs, h]

theorem mixChannels_take (s : State) : (mixChannels s).mix.take (mixChannels s).mixn = mixedPairs s := by
  rw [mixChannels_mix, mixChannels_mixn]
  exact List.take_left' (length_mixedPairs s)

/-! ### A frame (R160 to R163) -/

/-- A channel whose timer is started is its simulated clocks. -/
theorem synth_started {c : Audio} {s t : State} (h : (timerOf c s).start = true) :
    synth c s = .ok t ↔ ∃ f : Feed,
      ticks c s.cfg s.mem (period (timerOf c s)) s.cfg.clocksPerFrame ({ s.snd[c] with bufn := 0 }, s.dma) = .ok f ∧
      t = { s with snd := s.snd.set c f.1, dma := f.2 } := by
  unfold synth
  dsimp only
  rw [if_pos h, bind_eq_ok]
  simp only [pure_eq_ok, Except.ok.injEq, setSnd, eq_comm]

theorem mixFrame_on_iff {s t : State} (h : s.master = true) : mixFrame s = .ok t ↔
    ∃ a b, synth 0 { s with mixn := 0 } = .ok a ∧ synth 1 a = .ok b ∧ t = mixChannels b := by
  unfold mixFrame
  dsimp only
  rw [if_pos h]
  simp only [bind_eq_ok, pure_eq_ok, Except.ok.injEq]
  constructor
  · rintro ⟨a, ha, b, hb, rfl⟩
    exact ⟨a, b, ha, hb, rfl⟩
  · rintro ⟨a, b, ha, hb, rfl⟩
    exact ⟨a, ha, b, hb, rfl⟩

/-! ### The submission (R175) -/

theorem submittedLength_eq (s : State) : submittedLength s = if s.host.queueOver then s.mixn - 1 else s.mixn := by
  unfold submittedLength
  cases s.host.queueOver with
  | false => rfl
  | true =>
    rcases Nat.eq_zero_or_pos s.mixn with h | h <;> simp [h]

/-- A frame's mix reaches the capture sink whole and the host short of its last pair under backpressure. -/
theorem submit_of_mixFrame {s u : State} {n : Nat} (h : mixFrame s = .ok u)
    (hn : n = if s.host.queueOver then u.mixn - 1 else u.mixn) :
    submit u = { u with
      mixn := n
      trace := s.trace ++ [.capture (u.mix.take u.mixn), .audio (u.mix.take n)] } := by
  have hhost : u.host = s.host := by rw [mixFrame_frame h]
  have htrace : u.trace = s.trace := by rw [mixFrame_frame h]
  obtain rfl : n = submittedLength u := by rw [hn, submittedLength_eq, hhost]
  simp [submit, emit, htrace]

theorem soundMixFrame_iff {s t : State} : soundMixFrame s = .ok t ↔ ∃ u, mixFrame s = .ok u ∧ t = submit u := by
  simp only [soundMixFrame, bind_eq_ok, pure_eq_ok, Except.ok.injEq, eq_comm (b := t)]

/-! ### Silence (R163, R170) -/

theorem sampleAt_silentFrame (cfg : Config) (d : SoundDma) (i : Nat) : sampleAt (silentFrame cfg d) i = 0 := by
  unfold sampleAt
  split
  next h =>
    have hzero : (silentFrame cfg d).buf.getD i 0 = 0 := by
      have hi : i < cfg.samplesPerFrame := h
      simp [silentFrame, List.getD, List.getElem?_append_left, hi]
    rw [hzero]
    rfl
  next => rfl

theorem mixedPair_zero (a b : SoundCtl) : mixedPair a b 0 0 = (0, 0) := by
  simp [mixedPair]

/-- The mix of two silent channels is all zero. -/
theorem mixedPairs_silent {s : State} (h : ∀ c : Audio, ∃ d, s.snd[c] = silentFrame s.cfg d) :
    mixedPairs s = List.replicate (min s.cfg.samplesPerFrame s.cfg.mixCap) (0, 0) := by
  obtain ⟨d0, h0 : s.snd[0] = silentFrame s.cfg d0⟩ := h 0
  obtain ⟨d1, h1 : s.snd[1] = silentFrame s.cfg d1⟩ := h 1
  have hlen : mixLength s = min s.cfg.samplesPerFrame s.cfg.mixCap := by
    rw [mixLength, h0, h1]
    exact congrArg (min · _) (Nat.max_self _)
  rw [mixedPairs, h0, h1, hlen]
  simp only [sampleAt_silentFrame, mixedPair_zero, List.map_const', List.length_range]

/-- With both timers stopped the two channels are silent and everything else is as it was. -/
theorem mixFrame_stopped {s : State} (hm : s.master = true) (hstop : ∀ c : Audio, (timerOf c s).start = false) :
    ∃ b, mixFrame s = .ok (mixChannels b) ∧ b = { s with snd := b.snd, mixn := 0 } ∧
      ∀ c : Audio, ∃ d, b.snd[c] = silentFrame s.cfg d := by
  refine ⟨_, mixFrame_on hm (synth_stopped (hstop 0)) (synth_stopped (hstop 1)), rfl, ?_⟩
  intro c
  match c with
  | 0 => exact ⟨_, (setSnd_get_other (by decide) _ _).trans (setSnd_get_same _ _ _)⟩
  | 1 => exact ⟨_, setSnd_get_same _ _ _⟩

/-- The frame with both timers stopped. -/
theorem soundMixFrame_stopped {s : State} {n n' : Nat} (hm : s.master = true)
    (hstop : ∀ c : Audio, (timerOf c s).start = false) (hn : n = min s.cfg.samplesPerFrame s.cfg.mixCap)
    (hn' : n' = if s.host.queueOver then n - 1 else n) :
    ∃ t, soundMixFrame s = .ok t ∧ t.dma = s.dma ∧ t.mem = s.mem ∧
      t.trace = s.trace ++ [.capture (List.replicate n (0, 0)), .audio (List.replicate n' (0, 0))] := by
  obtain ⟨b, hmix, hb, hsilent⟩ := mixFrame_stopped hm hstop
  have hcfg : b.cfg = s.cfg := by rw [hb]
  have hpairs : mixedPairs b = List.replicate n (0, 0) := by
    rw [mixedPairs_silent (by rwa [hcfg]), hcfg, hn]
  have hlen : (mixChannels b).mixn = n := by
    rw [mixChannels_mixn, ← length_mixedPairs, hpairs, List.length_replicate]
  have hle : n' ≤ n := by
    rw [hn']
    split_ifs <;> omega
  have htake := mixChannels_take b
  rw [hlen, hpairs] at htake
  have htake' : (mixChannels b).mix.take n' = List.replicate n' (0, 0) := by
    rw [← Nat.min_eq_left hle, ← List.take_take, htake, List.take_replicate]
  refine ⟨_, soundMixFrame_of hmix, ?_⟩
  rw [submit_of_mixFrame hmix (hlen.symm ▸ hn'), hlen, htake, htake', hb]
  exact ⟨rfl, rfl, rfl⟩

end Sys2Proof.Machine

namespace Sys2Proof.Certificates
open Sys2Proof.Machine

/-- Settles O47, by what is left of the cache and what the supplier answers. -/
theorem popTakesNextByte : Obligations.PopTakesNextByte := by
  intro c m d dma dma'
  exact ⟨fun hpos _ => ⟨_, cacheByte_eq_getElem? _ (by omega), pop_of_held hpos⟩, pop_of_unsupplied,
    fun _ he hs => pop_of_supplied he hs, fun _ he hs => pop_of_refused he hs⟩

/-- Settles O48, by whether the source counter fires: what a pop leaves of the output counter and the buffer is what the
output side finds. -/
theorem tickOfAChannel : Obligations.TickOfAChannel := by
  refine ⟨fun c cfg m per f g h => ?_, fun c cfg m per f e => tick_refused_iff⟩
  rcases tick_cases h with ⟨hfires, p, hpop, rfl⟩ | ⟨hcounts, rfl⟩
  · obtain ⟨hsrc, hkeeps⟩ := afterSource_keeps cfg per p
    obtain ⟨houtclk, hbufn, hbuf⟩ := pop_output hpop
    have houtput := afterSource_output cfg per p
    rw [houtclk, hbufn, hbuf] at houtput
    obtain ⟨hout, hbuffer⟩ := houtput
    exact ⟨hsrc.trans (if_pos hfires).symm, hout, fun hc => absurd hc hfires.not_gt, fun _ => ⟨p, hpop, hkeeps⟩,
      hbuffer⟩
  · obtain ⟨hsrc, hkeeps⟩ := afterSource_keeps cfg (f.1.srcclk - 1) f
    obtain ⟨hout, hbuffer⟩ := afterSource_output cfg (f.1.srcclk - 1) f
    exact ⟨hsrc.trans (if_neg hcounts.not_ge).symm, hout, fun _ => hkeeps, fun hf => absurd hcounts hf.not_gt,
      hbuffer⟩

/-- Settles O45: below the length each pair is the mixed one, whose two sums fit 16 bits. -/
theorem mixesEachIndex : Obligations.MixesEachIndex := by
  rintro s t level a b rfl hlevel ha hb
  refine ⟨rfl, rfl, fun i hi => ⟨_, _, mixChannels_get hi, ?_, ?_⟩⟩
  all_goals
    rw [ha, hb, hlevel, hlevel]
    exact toInt_scaledSum (sampleAt_range _ i) (sampleAt_range _ i) (volume_mem _ _) (volume_mem _ _)

/-- Settles O46: a stopped and a started channel, the frame as its operations in order, the frame without sound by MASTER,
and the frame whose demands are clear. -/
theorem frameSynthesis : Obligations.FrameSynthesis := by
  refine ⟨fun c s => synth_stopped, ?started, ?on, ?silent, fun s => soundMixFrame_completes⟩
  case started =>
    rintro c s t timer per rfl hstart rfl
    rw [synth_started hstart]
    simp only [ticks_iff]
    constructor
    · rintro ⟨f, ⟨run, h0, hrun, rfl⟩, rfl⟩
      exact ⟨run, h0, hrun, rfl⟩
    · rintro ⟨run, h0, hrun, rfl⟩
      exact ⟨_, ⟨run, h0, hrun, rfl⟩, rfl⟩
  case on =>
    intro s t hm
    simp only [soundMixFrame_iff, mixFrame_on_iff hm]
    constructor
    · rintro ⟨u, ⟨a, b, ha, hb, rfl⟩, rfl⟩
      exact ⟨a, b, _, _, ha, hb, rfl, rfl, submit_of_mixFrame (mixFrame_on hm ha hb) rfl⟩
    · rintro ⟨a, b, u, n, ha, hb, rfl, rfl, rfl⟩
      exact ⟨_, ⟨a, b, ha, hb, rfl⟩, (submit_of_mixFrame (mixFrame_on hm ha hb) rfl).symm⟩
  case silent =>
    intro s n n' h hn hn'
    cases hm : s.master with
    | false =>
      rw [hm] at hn
      exact ⟨_, soundMixFrame_silent hm hn hn', rfl, rfl, rfl⟩
    | true =>
      rw [hm] at h hn
      exact soundMixFrame_stopped hm (h.resolve_left Bool.noConfusion) hn hn'

end Sys2Proof.Certificates
end

section
/-! PROOFS. The family spec/44_firmware_calls.md: block copy and fill (R192, R195, R196), LZ77 by the end its decode comes
to (R201 to R206), and the delta unfilters (R208, R209). Each call is answered where its body is, so that a statement is a
law of the body. -/

namespace Sys2Proof.Machine

/-! ### Calls that change MEM alone -/

/-- A firmware call that changes MEM alone, where its body completes. -/
theorem memoryCall_completes {s : State} {r : Except Refusal Memory} {m : Memory} (hp : portFree s = true)
    (h : r = .ok m) : standalone s (memoryCall (beginCommand s) r) =
      .next { s with busy := false, mem := m, port := { s.port with res := 0 } } :=
  standalone_memoryCall.mpr ⟨hp, m, h, rfl⟩

/-- A firmware call that changes MEM alone, where its body is refused. -/
theorem memoryCall_stops {s : State} {r : Except Refusal Memory} {e : Refusal} (hp : portFree s = true)
    (h : r = .error e) : standalone s (memoryCall (beginCommand s) r) = .refused e :=
  (standalone_refused hp).mpr (memoryCall_refused.mpr h)

/-! ### Block copy and fill (R192, R195) -/

theorem controlCount_eq (control : Word) : controlCount control = control.toNat % 2 ^ 21 := by
  simp [controlCount]

/-- CPUSET by the bits of its control word. -/
theorem exec_cpuset (src dst control : Word) (s : State) :
    exec (.cpuset src dst control) s = standalone s (memoryCall (beginCommand s)
      (blockSet (control.getLsbD 24) (control.toNat % 2 ^ 21) (if control.getLsbD 26 then 4 else 2) src dst s.mem)) := by
  rw [← controlCount_eq]
  rfl

/-- CPUFASTSET by the bits of its control word. -/
theorem exec_cpufastset (src dst control : Word) (s : State) :
    exec (.cpufastset src dst control) s = standalone s (memoryCall (beginCommand s)
      (blockSet (control.getLsbD 24) (control.toNat % 2 ^ 21 / 8 * 8) 4 src dst s.mem)) := by
  rw [← controlCount_eq]
  rfl

/-- A block of CPUSET has no more bytes than MEM. -/
theorem blockBytes_le {control : Word} {w n : Nat} (hw : w = if control.getLsbD 26 then 4 else 2)
    (hn : n = control.toNat % 2 ^ 21) : n * w ≤ 2 ^ 32 := by
  have hlt : n < 2 ^ 21 := hn ▸ Nat.mod_lt _ (by decide)
  have hw4 : w ≤ 4 := by rw [hw]; split <;> omega
  exact (Nat.mul_le_mul hlt.le hw4).trans (by decide)

section
variable {count w : Nat} {src dst : Word} {m m' : Memory}

theorem blockSet_copy : blockSet false count w src dst m = copyUnits w count (alignDown src w) (alignDown dst w) m := rfl

/-- A fill of some units reads its unit and stores it. -/
theorem blockSet_fill (hcount : 0 < count) (hs : clearOf (alignDown src w) w) :
    blockSet true count w src dst m = fillUnits w (readLE m w (alignDown src w)) count (alignDown dst w) m := by
  simp only [blockSet, if_true, if_pos hcount, memRead_ok ((engineOk_iff _ _).mpr hs), ok_bind]

/-- A fill of some units that is not refused read its unit outside REGSET. -/
theorem blockSet_fill_source (hcount : 0 < count) (h : blockSet true count w src dst m = .ok m') :
    clearOf (alignDown src w) w := by
  by_contra hs
  have hunit : w ≤ min 1 count * w := Nat.le_mul_of_pos_left w (Nat.lt_min.mpr ⟨Nat.one_pos, hcount⟩)
  rw [blockSet_refused (fill := true) m fun hc => hs (clearOf_mono hc.1 hunit)] at h
  cases h

/-- A block copy or fill completes where what it reads and writes is outside REGSET; a fill reads one unit, if any. -/
theorem blockSet_completes {fill : Bool} (hs : clearOf (alignDown src w) ((if fill then min 1 count else count) * w))
    (hd : clearOf (alignDown dst w) (count * w)) : ∃ m', blockSet fill count w src dst m = .ok m' := by
  cases fill with
  | false => exact copyUnits_completes m hs hd
  | true =>
    rcases Nat.eq_zero_or_pos count with rfl | hcount
    · exact ⟨m, blockSet_zero ..⟩
    · rw [if_pos rfl, Nat.min_eq_left hcount, Nat.one_mul] at hs
      rw [blockSet_fill hcount hs]
      exact fillUnits_completes m hd

/-- The bytes of unit `k` of a fill are those of the unit at the source. -/
theorem blockSet_fills (hm : m.wf memBytes = true) (hlen : count * w ≤ 2 ^ 32)
    (h : blockSet true count w src dst m = .ok m') {k i : Nat} (hk : k < count) (hi : i < w) :
    m'.read (blockUnit dst w k + BitVec.ofNat 32 i).toNat = m.read (alignDown src w + BitVec.ofNat 32 i).toNat := by
  have hcount : 0 < count := by omega
  rw [blockSet_fill hcount (blockSet_fill_source hcount h)] at h
  rw [blockUnit, add_ofNat_add, fillUnits_fills hm hlen h k i hk hi, readLE_byte _ _ _ _ hi]

end

/-! ### LZ77 by the end of its decode (R190, R201, R205) -/

/-- The decode that an LZ77 call of this machine makes. -/
def decodeOf (s : State) (src : Word) : Except Refusal LzEnd := lzDecode s.cfg.scratchCap s.host.allocOk s.mem src

/-- Where the port is free, LZ77 is refused exactly where its call is. -/
theorem lz77_refused_iff {s : State} {src dst : Word} {e : Refusal} (hp : portFree s = true) :
    exec (.lz77 src dst) s = .refused e ↔ lzCall src dst (beginCommand s) = .error e := by
  refine (standalone_refused hp).trans ?_
  cases lzCall src dst (beginCommand s) <;> simp

section
variable {s : State} {src dst : Word} {out : List Byte} {code : LogCode} {e : Refusal}

theorem lzCall_of_decode_refused (h : decodeOf s src = .error e) : lzCall src dst s = .error e := by
  rw [decodeOf] at h
  rw [lzCall, h, error_bind]

theorem lzCall_of_abort (h : decodeOf s src = .ok (.abort code)) : lzCall src dst s = .ok (emit (.log code) s) := by
  rw [decodeOf] at h
  rw [lzCall, h, ok_bind]
  rfl

theorem lzCall_of_done (h : decodeOf s src = .ok (.done out)) :
    lzCall src dst s = (writeBytes out dst s.mem >>= fun m => pure { s with mem := m }) := by
  rw [decodeOf] at h
  rw [lzCall, h, ok_bind]

variable (hp : portFree s = true)
include hp

theorem lz77_of_decode_refused (h : decodeOf s src = .error e) : exec (.lz77 src dst) s = .refused e :=
  (lz77_refused_iff hp).mpr (lzCall_of_decode_refused (s := beginCommand s) h)

theorem lz77_of_abort (h : decodeOf s src = .ok (.abort code)) :
    exec (.lz77 src dst) s = .next { s with
      busy := false, trace := s.trace ++ [.log code], port := { s.port with res := 0 } } :=
  execLz77_eq_next.mpr ⟨hp, _, lzCall_of_abort (s := beginCommand s) h, rfl⟩

theorem lz77_of_commit_refused (h : decodeOf s src = .ok (.done out)) (hd : ¬ clearOf dst out.length) :
    exec (.lz77 src dst) s = .refused .engineAccessToRegisters := by
  rw [lz77_refused_iff hp, lzCall_of_done (s := beginCommand s) h, writeBytes_refused _ hd, error_bind]

/-- A decode that ends is committed byte for byte where the destination is outside REGSET. -/
theorem lz77_of_commit (h : decodeOf s src = .ok (.done out)) (hd : clearOf dst out.length) :
    ∃ m, exec (.lz77 src dst) s = .next { s with busy := false, mem := m, port := { s.port with res := 0 } } ∧
      (s.mem.wf memBytes = true → ∀ i, i < out.length → m.read (dst + BitVec.ofNat 32 i).toNat = out.getD i 0) ∧
      ∀ a, outside a dst out.length → m.read a = s.mem.read a := by
  obtain ⟨m, hm⟩ := writeBytes_completes s.mem hd
  refine ⟨m, execLz77_eq_next.mpr ⟨hp, { beginCommand s with mem := m }, ?answer, rfl⟩, fun hwf i hi => ?byte,
    (writeBytes_frame hm).2⟩
  case answer =>
    rw [lzCall_of_done (s := beginCommand s) h, show writeBytes out dst (beginCommand s).mem = .ok m from hm, ok_bind,
      pure_eq_ok]
  case byte =>
    have hlen : out.length ≤ 2 ^ 32 := by
      rw [lzDecode_length h]
      exact (declaredSize_lt s.mem src).le.trans (by decide)
    rw [writeBytes_read hwf hlen hm i hi, List.getD_eq_getElem _ _ hi]

end

/-! ### The header of the stream (R200, R201) -/

section
variable {s : State} {src : Word}

theorem decodeOf_header_refused (h : ¬ clearOf src 4) : decodeOf s src = .error .engineAccessToRegisters := by
  rw [decodeOf, lzDecode, readHeader_refused h, error_bind]

/-- Past a readable header the decode goes by the declared type and size. -/
theorem decodeOf_header (h : clearOf src 4) : decodeOf s src =
    if declaredType s.mem src ≠ 1 then .ok (.abort .badType)
    else if s.cfg.scratchCap < declaredSize s.mem src ∨ s.host.allocOk = false then .ok (.abort .scratchAlloc)
    else lzTokens s.mem (declaredSize s.mem src) (declaredSize s.mem src) 0 0 (src + 4) [] := by
  rw [decodeOf, lzDecode, readHeader_eq_ok.mpr ⟨h, rfl⟩, ok_bind, headerType_eq, headerSize_eq]
  rfl

/-- A stream whose bytes are readable, three at most for each byte of output, decodes to some end. -/
theorem decodeOf_completes (h : clearOf src (4 + 3 * declaredSize s.mem src)) : ∃ r, decodeOf s src = .ok r := by
  rw [decodeOf_header (clearOf_mono h (by omega))]
  split
  · exact ⟨_, rfl⟩
  · split
    · exact ⟨_, rfl⟩
    · exact lzTokens_completes (clearOf_sub (i := 4) h (by simp))

end

/-- The header declares a stream that LZ77 decodes: type 1, and a size within the scratch buffer and granted. -/
structure Decodable (s : State) (src : Word) (n : Nat) : Prop where
  type_one : declaredType s.mem src = 1
  size : n = declaredSize s.mem src
  fits : n ≤ s.cfg.scratchCap
  granted : s.host.allocOk = true

theorem Decodable.decodeOf_eq {s : State} {src : Word} {n : Nat} (h : Decodable s src n) (h4 : clearOf src 4) :
    decodeOf s src = lzTokens s.mem n n 0 0 (src + 4) [] := by
  have hgo : ¬ (s.cfg.scratchCap < declaredSize s.mem src ∨ s.host.allocOk = false) := by
    rw [← h.size, h.granted]
    simpa using h.fits
  rw [decodeOf_header h4, if_neg (not_not.mpr h.type_one), if_neg hgo, h.size]

/-! ### A stream of literals (R202) -/

section
variable {s : State} {src : Word} {n : Nat} (h : Decodable s src n)
  (hzero : ∀ j, 8 * j < n → s.mem.read (src + BitVec.ofNat 32 (4 + 9 * j)).toNat = 0)
include h hzero

theorem Decodable.decodeOf_literals (hsrc : clearOf src (4 + n + (n + 7) / 8)) :
    decodeOf s src = .ok (.done ((List.range n).map fun i => s.mem.read (src + BitVec.ofNat 32 (5 + i + i / 8)).toNat)) :=
  (h.decodeOf_eq (clearOf_mono hsrc (by omega))).trans
    (lzTokens_literals hzero hsrc n 0 (Nat.zero_le n) le_rfl 0 0 rfl fun _ => rfl)

theorem Decodable.decodeOf_literals_refused (hsrc : ¬ clearOf src (4 + n + (n + 7) / 8)) :
    decodeOf s src = .error .engineAccessToRegisters := by
  by_cases h4 : clearOf src 4
  · exact (h.decodeOf_eq h4).trans
      (lzTokens_literals_refused hzero n 0 [] hsrc (Nat.zero_le n) rfl h4 le_rfl 0 0 rfl fun _ => rfl)
  · exact decodeOf_header_refused h4

end

/-! ### A stream of some literals and a back-reference (R202 to R204) -/

theorem readLE_one_eq (m : Memory) (addr : Word) : readLE m 1 addr = (m.read addr.toNat).toNat := by simp [readLE]

/-- A back-reference: an abort where it would reach before the output, else its copy, cut at the declared size. -/
theorem lzTokens_backref {m : Memory} {size fuel k : Nat} {ctrl : Byte} {p : Word} {out : List Byte}
    (hl : out.length < size) (hb : ctrl.getLsbD k = true) (hp : clearOf p 2) {len dist : Nat}
    (hlen : len = (m.read p.toNat).toNat / 16 + 3)
    (hdist : dist = (m.read p.toNat).toNat % 16 * 256 + (m.read (p + 1).toNat).toNat + 1) :
    lzTokens m size (fuel + 1) ctrl (k + 1) p out =
      if out.length < dist then .ok (.abort .backref)
      else lzTokens m size fuel ctrl k (p + 2) (copyBack dist (min len (size - out.length)) out) := by
  have h0 : engineOk 1 p = true := (engineOk_iff 1 p).mpr (clearOf_mono hp (by omega))
  have h1 : engineOk 1 (p + 1) = true := (engineOk_iff 1 _).mpr (clearOf_sub (i := 1) hp (by omega))
  rw [lzTokens, if_neg (by omega)]
  simp only [lzControl, lzToken, hb, if_true, memRead_ok h0, memRead_ok h1, ok_bind, readLE_one_eq, backrefDisp,
    backrefLength, ← hlen, ← hdist]
  split <;> rfl

/-- A back-reference of which a byte lies in REGSET. -/
theorem lzTokens_backref_refused {m : Memory} {size fuel k : Nat} {ctrl : Byte} {p : Word} {out : List Byte}
    (hl : out.length < size) (hb : ctrl.getLsbD k = true) (hp : ¬ clearOf p 2) :
    lzTokens m size (fuel + 1) ctrl (k + 1) p out = .error .engineAccessToRegisters := by
  rw [lzTokens, if_neg (by omega)]
  simp only [lzControl, lzToken, hb, if_true, ok_bind]
  cases h0 : engineOk 1 p with
  | false => rw [memRead_refused h0]; rfl
  | true =>
    have h1 : engineOk 1 (p + 1) = false := by
      rcases not_clearOf_succ hp with h | h
      · exact absurd h0 (by simp [h])
      · simpa [← engineOk_iff] using h
    rw [memRead_ok h0, memRead_refused h1]
    rfl

/-- No token is read once the output has the declared size. -/
theorem lzTokens_full {m : Memory} {size fuel k : Nat} {ctrl : Byte} {p : Word} {out : List Byte}
    (h : size ≤ out.length) : lzTokens m size fuel ctrl k p out = .ok (.done out) := by
  cases fuel with
  | zero => rfl
  | succ fuel => rw [lzTokens, if_pos h]

/-- The bits of a control byte by its leading 1: that bit is set and none above it. -/
theorem getLsbD_of_leading {c : Byte} {k : Nat} (h : c.toNat / 2 ^ k = 1) :
    c.getLsbD k = true ∧ ∀ i, k < i → c.getLsbD i = false := by
  refine ⟨by rw [BitVec.getLsbD, Nat.testBit_eq_decide_div_mod_eq, h]; rfl, fun i hi => Nat.testBit_lt_two_pow ?_⟩
  calc c.toNat < 2 * 2 ^ k := (Nat.div_lt_iff_lt_mul (by positivity)).mp (by omega)
    _ = 2 ^ (k + 1) := (pow_succ' 2 k).symm
    _ ≤ 2 ^ i := Nat.pow_le_pow_right (by decide) hi

/-- The decode once the first control byte is read. -/
theorem Decodable.decodeOf_control {s : State} {src : Word} {n : Nat} (h : Decodable s src n) (hn : 0 < n)
    (hsrc : clearOf src 5) :
    decodeOf s src = lzTokens s.mem n n (s.mem.read (src + 4).toNat) 8 (src + 5) [] := by
  have hp : clearOf (src + 4) 1 := clearOf_sub (i := 4) hsrc (by omega)
  obtain ⟨n, rfl⟩ := Nat.exists_eq_succ_of_ne_zero hn.ne'
  rw [h.decodeOf_eq (clearOf_mono hsrc (by omega)), lzTokens_control hn hp,
    show src + 4 + 1 = src + 5 from add_ofNat_add src 4 1]

theorem map_range_getD {n i : Nat} (f : Nat → Byte) (hi : i < n) : ((List.range n).map f).getD i 0 = f i := by
  rw [List.getD_eq_getElem _ _ (by simpa using hi), List.getElem_map, List.getElem_range]

/-- The literals that open the stream. -/
def opening (m : Memory) (src : Word) (q : Nat) : List Byte :=
  (List.range q).map fun i => m.read (src + BitVec.ofNat 32 (5 + i)).toNat

@[simp] theorem opening_length (m : Memory) (src : Word) (q : Nat) : (opening m src q).length = q := by simp [opening]

theorem opening_getD {m : Memory} {src : Word} {q i : Nat} (hi : i < q) :
    (opening m src q).getD i 0 = m.read (src + BitVec.ofNat 32 (5 + i)).toNat := map_range_getD _ hi

section
variable {s : State} {src : Word} {n q : Nat} (h : Decodable s src n) (hq : q ≤ 7) (hn : q < n)
  (hctrl : (s.mem.read (src + 4).toNat).toNat / 2 ^ (7 - q) = 1)
include h hq hn hctrl

/-- The decode once the control byte and the literals that open the stream are read. -/
theorem Decodable.decodeOf_opened (hsrc : clearOf src (5 + q)) :
    decodeOf s src = lzTokens s.mem n (n - q) (s.mem.read (src + 4).toNat) (8 - q) (src + BitVec.ofNat 32 (5 + q))
      (opening s.mem src q) := by
  rw [h.decodeOf_control (by omega) (clearOf_mono hsrc (by omega))]
  exact lzTokens_open hq hn.le (fun i hi _ => (getLsbD_of_leading hctrl).2 i hi) hsrc hn.le

theorem Decodable.decodeOf_opening_refused (hsrc : ¬ clearOf src (5 + q)) :
    decodeOf s src = .error .engineAccessToRegisters := by
  by_cases h5 : clearOf src 5
  · rw [h.decodeOf_control (by omega) h5]
    exact lzTokens_open_refused hq hn.le (fun i hi _ => (getLsbD_of_leading hctrl).2 i hi) h5 hsrc hn.le
  · by_cases h4 : clearOf src 4
    · obtain ⟨n, rfl⟩ := Nat.exists_eq_succ_of_ne_zero (Nat.ne_zero_of_lt hn)
      rw [h.decodeOf_eq h4]
      exact lzTokens_control_refused (Nat.succ_pos n) fun hc => h5 (clearOf_append (i := 4) (n := 1) h4 hc)
    · exact decodeOf_header_refused h4

/-- A stream of which a byte up to the back-reference's last lies in REGSET. -/
theorem Decodable.decodeOf_backref_refused (hsrc : ¬ clearOf src (7 + q)) :
    decodeOf s src = .error .engineAccessToRegisters := by
  by_cases hopen : clearOf src (5 + q)
  · have hp : ¬ clearOf (src + BitVec.ofNat 32 (5 + q)) 2 := fun hp => hsrc (by
      rw [show 7 + q = 5 + q + 2 by omega]
      exact clearOf_append hopen hp)
    rw [h.decodeOf_opened hq hn hctrl hopen, show 8 - q = 7 - q + 1 by omega, show n - q = n - q - 1 + 1 by omega]
    exact lzTokens_backref_refused (by simpa using hn) (getLsbD_of_leading hctrl).1 hp
  · exact h.decodeOf_opening_refused hq hn hctrl hopen

/-- The back-reference after the literals, where the stream is readable and the output ends within its copy. -/
theorem Decodable.decodeOf_backref {len dist : Nat} (hsrc : clearOf src (7 + q))
    (hlen : len = (s.mem.read (src + BitVec.ofNat 32 (5 + q)).toNat).toNat / 16 + 3)
    (hdist : dist = (s.mem.read (src + BitVec.ofNat 32 (5 + q)).toNat).toNat % 16 * 256
      + (s.mem.read (src + BitVec.ofNat 32 (6 + q)).toNat).toNat + 1) (hcut : n ≤ q + len) :
    decodeOf s src = if q < dist then .ok (.abort .backref)
      else .ok (.done (copyBack dist (n - q) (opening s.mem src q))) := by
  have hsecond : src + BitVec.ofNat 32 (5 + q) + 1 = src + BitVec.ofNat 32 (6 + q) := by
    rw [show 6 + q = 5 + q + 1 by omega]
    exact add_ofNat_add src (5 + q) 1
  rw [← hsecond] at hdist
  rw [h.decodeOf_opened hq hn hctrl (clearOf_mono hsrc (by omega)), show 8 - q = 7 - q + 1 by omega,
    show n - q = n - q - 1 + 1 by omega,
    lzTokens_backref (by simpa using hn) (getLsbD_of_leading hctrl).1 (clearOf_sub hsrc (by omega)) hlen hdist,
    opening_length, lzTokens_full (by rw [copyBack_length, opening_length]; omega),
    show min len (n - q) = n - q - 1 + 1 by omega]

end

/-! ### Delta unfilters (R208, R209) -/

theorem readLE_two_eq (m : Memory) (addr : Word) :
    readLE m 2 addr = (m.read addr.toNat).toNat + 256 * (m.read (addr + 1).toNat).toNat := by
  rw [readLE, readLE_one_eq]

/-- An unfilter whose `k` elements are readable and may be written completes, and writes their running sums where it writes
over none of them. -/
theorem unfilterCall_sums {m : Memory} {src dst : Word} {w k : Nat} (hm : m.wf memBytes = true)
    (hk : k = declaredSize m src / w) (hsrc : clearOf src (4 + k * w)) (hdst : clearOf dst (k * w))
    (ha : apart (src + 4) (k * w) dst (k * w)) : ∃ m', unfilterCall w src dst m = .ok m' ∧
      (∀ j i, j < k → i < w → m'.read (dst + BitVec.ofNat 32 (j * w + i)).toNat =
        BitVec.ofNat 8 ((∑ l ∈ Finset.range (j + 1), readLE m w (src + BitVec.ofNat 32 (4 + l * w))) / 256 ^ i)) ∧
      ∀ a, outside a dst (k * w) → m'.read a = m.read a := by
  obtain ⟨m', h⟩ := unfilter_completes (acc := 0) m (clearOf_sub (i := 4) hsrc le_rfl) hdst
  have hlen : k * w ≤ 2 ^ 32 := by
    have := declaredSize_lt m src
    have := Nat.div_mul_le_self (declaredSize m src) w
    rw [hk]
    omega
  refine ⟨m', ?_, fun j i hj hi => ?_, (unfilter_frame h).2⟩
  · rw [unfilterCall, readHeader_eq_ok.mpr ⟨clearOf_mono hsrc (by omega), rfl⟩, ok_bind, headerSize_eq, ← hk]
    exact h
  · rw [unfilter_sums hm hlen ha h j i hj hi, Nat.zero_add]
    simp only [show src + 4 = src + BitVec.ofNat 32 4 from rfl, add_ofNat_add]

end Sys2Proof.Machine

namespace Sys2Proof.Certificates
open Sys2Proof.Machine

/-- Settles O49: a fill reads its unit and stores it in every unit of the destination; of no units it touches nothing. -/
theorem cpusetFills : Obligations.CpusetFills := by
  intro s src dst control w n hp hw hn
  rw [exec_cpuset, ← hw, ← hn]
  refine ⟨?empty, ?fills, ?refused⟩
  case empty =>
    rintro rfl
    exact memoryCall_completes hp (blockSet_zero ..)
  case fills =>
    intro hpos hfill hm hs hd
    rw [hfill]
    obtain ⟨m, hset⟩ := blockSet_completes (m := s.mem) (fill := true)
      (by rwa [if_pos rfl, Nat.min_eq_left hpos, Nat.one_mul]) hd
    exact ⟨m, memoryCall_completes hp hset, fun k i hk hi => blockSet_fills hm (blockBytes_le hw hn) hset hk hi,
      (blockSet_frame hset).2⟩
  case refused =>
    intro hpos hfill hmeets
    rw [hfill]
    exact memoryCall_stops hp (blockSet_refused _ (by rwa [if_pos rfl, Nat.min_eq_left hpos, Nat.one_mul]))

/-- Settles O50: a copy is unit by unit, so that what it stores depends on whether the two ranges meet. -/
theorem cpusetCopies : Obligations.CpusetCopies := by
  intro s src dst control w n hp hw hn hcopy
  rw [exec_cpuset, ← hw, ← hn, hcopy]
  refine ⟨fun hm hs hd => ?copies, fun hmeets => memoryCall_stops hp (blockSet_refused _ hmeets)⟩
  obtain ⟨m, hset⟩ := blockSet_completes (m := s.mem) (fill := false) hs hd
  have hcopied := blockSet_copy.symm.trans hset
  have hlen := blockBytes_le hw hn
  refine ⟨m, memoryCall_completes hp hset, fun ha => copyUnits_copies hm hlen ha hcopied, fun hup k i hk hi => ?replicates,
    (blockSet_frame hset).2⟩
  rw [blockUnit, add_ofNat_add]
  exact copyUnits_replicates hm hlen hup hcopied k i hk hi

/-- Settles O51: the two commands are one block copy or fill. -/
theorem cpufastsetTruncates : Obligations.CpufastsetTruncates := by
  intro s src dst control control' n read hn hread hcount hfill hw
  have hfast := exec_cpufastset src dst control s
  rw [← hn] at hfast
  subst hread
  refine ⟨?equal, ?empty, ?completes, ?refused⟩
  case equal => rw [hfast, exec_cpuset, hcount, hfill, hw, if_pos rfl]
  case empty =>
    rintro hp rfl
    exact hfast.trans (memoryCall_completes hp (blockSet_zero ..))
  case completes =>
    intro hp hs hd
    obtain ⟨m, hset⟩ := blockSet_completes (m := s.mem) hs hd
    exact ⟨m, hfast.trans (memoryCall_completes hp hset)⟩
  case refused => exact fun hp hmeets => hfast.trans (memoryCall_stops hp (blockSet_refused _ hmeets))

/-- Settles O52: the copy finds in X what the fill left there. -/
theorem fillThenCopy : Obligations.FillThenCopy := by
  intro s t u src x y fill copy w n hm hfill hcopy hw hw' hn hn' ha ht hu k i hk hi
  rw [exec_cpuset, hfill, ← hw, ← hn] at ht
  rw [exec_cpuset, hcopy, ← hw', ← hn'] at hu
  obtain ⟨-, mt, hset, rfl⟩ := standalone_memoryCall.mp ht
  obtain ⟨-, mu, hset', rfl⟩ := standalone_memoryCall.mp hu
  have hlen := blockBytes_le hw hn
  have hbyte : k * w + i < n * w := by
    have := Nat.mul_le_mul_right w (show k + 1 ≤ n from hk)
    rw [Nat.succ_mul] at this
    omega
  calc mu.read (blockUnit y w k + BitVec.ofNat 32 i).toNat
      = mt.read (blockUnit x w k + BitVec.ofNat 32 i).toNat := by
        rw [blockUnit, blockUnit, add_ofNat_add, add_ofNat_add]
        exact copyUnits_copies ((blockSet_frame hset).1 hm) hlen ha (blockSet_copy.symm.trans hset') _ hbyte
    _ = s.mem.read (alignDown src w + BitVec.ofNat 32 i).toNat := blockSet_fills hm hlen hset hk hi

/-- Settles O53, by the declared type and size and by how the decode ends. -/
theorem lz77CompletesOrAborts : Obligations.Lz77CompletesOrAborts := by
  intro s src dst hp
  refine ⟨?completes, fun h4 => lz77_of_decode_refused hp (decodeOf_header_refused h4),
    fun e he => onlyEngine_lzCall _ _ _ e ((lz77_refused_iff hp).mp he), ?badType, ?scratchAlloc, ?frame⟩
  case completes =>
    intro hsrc hdst
    obtain ⟨r, hr⟩ := decodeOf_completes hsrc
    cases r with
    | abort code => exact ⟨_, lz77_of_abort hp hr⟩
    | done out =>
      obtain ⟨m, hexec, -⟩ := lz77_of_commit hp hr (lzDecode_length hr ▸ hdst)
      exact ⟨_, hexec⟩
  case badType =>
    intro h4 htype
    exact lz77_of_abort hp (by rw [decodeOf_header h4, if_pos htype])
  case scratchAlloc =>
    intro h4 htype hsize
    exact lz77_of_abort hp (by rw [decodeOf_header h4, if_neg (not_not.mpr htype), if_pos hsize])
  case frame =>
    intro t ht
    obtain ⟨-, s', hcall, rfl⟩ := execLz77_eq_next.mp ht
    rcases lzCall_ok hcall with ⟨code, rfl⟩ | ⟨out, m, hlen, hm, rfl⟩
    · exact ⟨rfl, .inl ⟨rfl, code, rfl⟩⟩
    · exact ⟨rfl, .inr ⟨rfl, fun a ha => (writeBytes_frame hm).2 a (hlen ▸ ha)⟩⟩

/-- Settles O54: the decode is the literals, which are committed where they may be. -/
theorem lz77Literals : Obligations.Lz77Literals := by
  intro s src dst n hp htype hsize hfits hgranted hzero
  have h : Decodable s src n := ⟨htype, hsize, hfits, hgranted⟩
  constructor
  · intro hm hsrc hdst
    obtain ⟨m, hexec, hread, hframe⟩ := lz77_of_commit hp (h.decodeOf_literals hzero hsrc) (by simpa using hdst)
    simp only [List.length_map, List.length_range] at hread hframe
    exact ⟨m, hexec, fun i hi => (hread hm i hi).trans (map_range_getD _ hi), hframe⟩
  · intro hmeets
    by_cases hsrc : clearOf src (4 + n + (n + 7) / 8)
    · exact lz77_of_commit_refused hp (h.decodeOf_literals hzero hsrc) (by simpa using fun hd => hmeets ⟨hsrc, hd⟩)
    · exact lz77_of_decode_refused hp (h.decodeOf_literals_refused hzero hsrc)

/-- Settles O55: the decode is the literals and the copy that goes on from them, or an abort. -/
theorem lz77BackReference : Obligations.Lz77BackReference := by
  intro s src dst n q len dist hp hm htype hsize hfits hgranted hq hctrl hlen hdist hn hcut
  have h : Decodable s src n := ⟨htype, hsize, hfits, hgranted⟩
  have hrefused : ¬ clearOf src (7 + q) → exec (.lz77 src dst) s = .refused .engineAccessToRegisters := fun hsrc =>
    lz77_of_decode_refused hp (h.decodeOf_backref_refused hq hn hctrl hsrc)
  have hdecode := fun hsrc => h.decodeOf_backref hq hn hctrl hsrc hlen hdist hcut
  obtain ⟨out, hout⟩ : ∃ out, out = copyBack dist (n - q) (opening s.mem src q) := ⟨_, rfl⟩
  have hlength : out.length = n := by
    rw [hout, copyBack_length, opening_length]
    omega
  rw [← hout] at hdecode
  refine ⟨hrefused, fun hsrc hreach => lz77_of_abort hp (by rw [hdecode hsrc, if_pos hreach]), ?commitRefused, ?commit⟩
  case commitRefused =>
    intro hreach hdst
    by_cases hsrc : clearOf src (7 + q)
    · exact lz77_of_commit_refused hp (by rw [hdecode hsrc, if_neg (by omega)]) (by rwa [hlength])
    · exact hrefused hsrc
  case commit =>
    intro hsrc hreach hdst
    obtain ⟨m, hexec, hread, hframe⟩ :=
      lz77_of_commit hp (by rw [hdecode hsrc, if_neg (by omega)]) (by rwa [hlength])
    rw [hlength] at hread hframe
    have hcopy := fun i => copyBack_getD (k := n - q) (out := opening s.mem src q) (by omega : 1 ≤ dist) (by simpa) i
    rw [← hout, opening_length] at hcopy
    refine ⟨m, hexec, fun i hi => ?literal, fun i hqi hi => ?copied, hframe⟩
    case literal => rw [hread hm i (by omega), (hcopy i).1 hi, opening_getD hi]
    case copied => rw [hread hm i hi, hread hm (i - dist) (by omega), (hcopy i).2 hqi (by omega)]

/-- Settles O56: both are one unfilter, of elements of 1 and of 2 bytes. -/
theorem deltaUnfilters : Obligations.DeltaUnfilters := by
  intro s src dst n n' hp hn hn'
  have hbytes : n' = n / 2 * 2 := by rw [hn', Nat.mul_comm]
  have hbytes8 : n = n / 1 * 1 := by omega
  refine ⟨?sums8, ?sums16, fun hmeets => ?refused8, fun hmeets => ?refused16⟩
  case sums8 =>
    intro hm hsrc hdst ha
    rw [hbytes8] at hsrc hdst ha
    obtain ⟨m, hcall, hsums, hframe⟩ := unfilterCall_sums hm (by rw [hn]) hsrc hdst ha
    rw [← hbytes8] at hframe
    refine ⟨m, memoryCall_completes hp hcall, fun k hk => ?_, hframe⟩
    simpa only [readLE_one_eq, Nat.mul_one, Nat.add_zero, pow_zero, Nat.div_one] using
      hsums k 0 (by omega) Nat.one_pos
  case sums16 =>
    intro hm hsrc hdst ha sum hsum
    rw [hbytes] at hsrc hdst ha ⊢
    obtain ⟨m, hcall, hsums, hframe⟩ := unfilterCall_sums hm (by rw [hn]) hsrc hdst ha
    have hsecond : ∀ l, src + BitVec.ofNat 32 (4 + l * 2) + 1 = src + BitVec.ofNat 32 (5 + 2 * l) := fun l => by
      rw [show 5 + 2 * l = 4 + l * 2 + 1 by omega]
      exact add_ofNat_add src (4 + l * 2) 1
    have htotal : ∀ k, ∑ l ∈ Finset.range (k + 1), readLE s.mem 2 (src + BitVec.ofNat 32 (4 + l * 2)) = sum k := fun k => by
      rw [hsum k]
      refine Finset.sum_congr rfl fun l _ => ?_
      rw [readLE_two_eq, hsecond, Nat.mul_comm l 2]
    refine ⟨m, memoryCall_completes hp hcall, fun k hk => ?_, hframe⟩
    rw [Nat.mul_comm 2 k, ← htotal]
    exact ⟨by simpa using hsums k 0 hk (by omega), by simpa using hsums k 1 hk (by omega)⟩
  case refused8 =>
    exact memoryCall_stops hp (unfilterCall_refused (by rwa [← hn, ← hbytes8]))
  case refused16 =>
    exact memoryCall_stops hp (unfilterCall_refused (by rwa [← hn, ← hbytes]))

end Sys2Proof.Certificates
end

section
/-! PROOFS. The family spec/45_storage.md: the bounds check by its status (R221), and the two transfers within the region
(R222, R223). Both commands are one storage call with a transfer of their own, so that a statement is a law of the call or
of the transfer. -/

namespace Sys2Proof.Machine

/-! ### The status of a request (R220, R221) -/

theorem StorageStatus.code_eq_zero {st : StorageStatus} : st.code = 0 ↔ st = .ok := by
  cases st <;> decide

/-- The code of the check, comparison by comparison. -/
theorem storageStatus_code (offset length : Word) (s : State) : (storageStatus offset length s).code =
    if s.cfg.storageSize < length.toNat then 1
    else if offset.toInt < 0 then 2
    else if (s.cfg.storageSize : Int) < offset.toInt + length.toNat then 3
    else 0 := by
  rw [storageStatus, storageCheck, storageOffset]
  split_ifs <;> rfl

/-- The check says ok exactly where the bytes of the request lie in the region. -/
theorem storageStatus_ok_iff {offset length : Word} {s : State} : storageStatus offset length s = .ok ↔
    0 ≤ offset.toInt ∧ offset.toNat + length.toNat ≤ s.cfg.storageSize := by
  rw [storageStatus, storageCheck_ok, storageOffset]
  constructor
  · rintro ⟨-, h0, hend⟩
    rw [(offset_toNat h0).1] at hend
    exact ⟨h0, by exact_mod_cast hend⟩
  · rintro ⟨h0, hend⟩
    rw [(offset_toNat h0).1]
    exact ⟨by omega, by omega, by exact_mod_cast hend⟩

/-! ### A storage command by its transfer -/

section
variable {s : State} {offset length : Word} {transfer : Nat → Except Refusal State}

/-- A storage command that answers returns the code of the check. -/
theorem storageCommand_res {t : State}
    (h : standalone s (storageCall offset length (beginCommand s) transfer) = .next t) :
    t.port.res = (storageStatus offset length s).code := by
  obtain ⟨-, r, s', hcall, rfl⟩ := standalone_eq_next.mp h
  exact (storageCall_eq_ok hcall).1

variable (hp : portFree s = true)
include hp

theorem storageCommand_rejected (hc : storageStatus offset length s ≠ .ok) :
    standalone s (storageCall offset length (beginCommand s) transfer) =
      .next { s with busy := false, port := { s.port with res := (storageStatus offset length s).code } } :=
  standalone_eq_next.mpr ⟨hp, _, _, storageCall_rejected (b := beginCommand s) hc, rfl⟩

variable (h0 : 0 ≤ offset.toInt) (hend : offset.toNat + length.toNat ≤ s.cfg.storageSize)
include h0 hend

theorem storageCommand_completes {s' : State} (h : transfer offset.toNat = .ok s') :
    standalone s (storageCall offset length (beginCommand s) transfer) = .next (endCommand 0 s') := by
  have hok : storageStatus offset length (beginCommand s) = .ok := storageStatus_ok_iff.mpr ⟨h0, hend⟩
  rw [← (offset_toNat h0).2] at h
  exact standalone_eq_next.mpr ⟨hp, _, _, storageCall_ok hok h, rfl⟩

theorem storageCommand_refused {e : Refusal} (h : transfer offset.toNat = .error e) :
    standalone s (storageCall offset length (beginCommand s) transfer) = .refused e := by
  have hok : storageStatus offset length (beginCommand s) = .ok := storageStatus_ok_iff.mpr ⟨h0, hend⟩
  rw [standalone_refused hp, storageCall, if_pos hok, (offset_toNat h0).2, h]

end

/-! ### The two commands (R222, R223) -/

theorem exec_sramRead (dest offset length : Word) (s : State) :
    exec (.sramRead dest offset length) s = standalone s (storageCall offset length (beginCommand s) fun off =>
      storeToMem s.store length.toNat off dest s.mem >>= fun m => pure { beginCommand s with mem := m }) := rfl

theorem exec_sramWrite (offset src length : Word) (s : State) :
    exec (.sramWrite offset src length) s = standalone s (storageCall offset length (beginCommand s) fun off =>
      memToStore s.mem length.toNat off src s.store >>= fun store => pure { beginCommand s with store := store }) := rfl

/-! ### From STORE to MEM -/

section
variable {store m m' : Memory} {k off : Nat} {d : Word}

theorem storeToMem_completes (m : Memory) (hd : clearOf d k) : ∃ m', storeToMem store k off d m = .ok m' := by
  rw [storeToMem_eq]
  exact writeBytes_completes m (by rwa [storeBytes_length])

theorem storeToMem_refused (m : Memory) (hd : ¬ clearOf d k) :
    storeToMem store k off d m = .error .engineAccessToRegisters := by
  rw [storeToMem_eq]
  exact writeBytes_refused m (by rwa [storeBytes_length])

theorem storeToMem_frame (h : storeToMem store k off d m = .ok m') {a : Nat} (ha : outside a d k) :
    m'.read a = m.read a := by
  rw [storeToMem_eq] at h
  exact (writeBytes_frame h).2 a (by rwa [storeBytes_length])

theorem storeToMem_copies (hm : m.wf memBytes = true) (hk : k ≤ 2 ^ 32) (h : storeToMem store k off d m = .ok m')
    {i : Nat} (hi : i < k) : m'.read (d + BitVec.ofNat 32 i).toNat = store.read (off + i) := by
  rw [storeToMem_eq] at h
  rw [writeBytes_read hm (by rwa [storeBytes_length]) h i (by rwa [storeBytes_length])]
  simp [storeBytes]

end

end Sys2Proof.Machine

namespace Sys2Proof.Certificates
open Sys2Proof.Machine

/-- Settles O57: `code` is the code of the check, which is 0 exactly where the check says ok. -/
theorem storageBoundsCheck : Obligations.StorageBoundsCheck := by
  intro s buffer offset length code hp hcode
  rw [← storageStatus_code] at hcode
  subst hcode
  rw [ne_eq, StorageStatus.code_eq_zero]
  refine ⟨fun hc => ⟨?read, ?write⟩, fun hc => ⟨hc, storageStatus_ok_iff.mp hc⟩, ?res⟩
  case read =>
    rw [exec_sramRead]
    exact storageCommand_rejected hp hc
  case write =>
    rw [exec_sramWrite]
    exact storageCommand_rejected hp hc
  case res =>
    rintro t (ht | ht)
    · exact storageCommand_res ((exec_sramRead ..).symm.trans ht)
    · exact storageCommand_res ((exec_sramWrite ..).symm.trans ht)

/-- Settles O58, by whether a destination byte lies in REGSET. -/
theorem sramReadCopies : Obligations.SramReadCopies := by
  intro s dest offset length hp hm h0 hend
  rw [exec_sramRead]
  refine ⟨fun hd => ?completes, fun hd => ?refused⟩
  case completes =>
    obtain ⟨m, hmoved⟩ := storeToMem_completes (store := s.store) (off := offset.toNat) s.mem hd
    refine ⟨m, ?answer, fun i hi => storeToMem_copies hm length.isLt.le hmoved hi,
      fun a ha => storeToMem_frame hmoved ha⟩
    exact storageCommand_completes (s' := { beginCommand s with mem := m }) hp h0 hend
      (bind_eq_ok.mpr ⟨m, hmoved, rfl⟩)
  case refused =>
    exact storageCommand_refused hp h0 hend (by rw [storeToMem_refused s.mem hd, error_bind])

/-- Settles O59, by whether a source byte lies in REGSET. -/
theorem sramWriteStores : Obligations.SramWriteStores := by
  intro s offset src length hp hstore h0 hend
  rw [exec_sramWrite]
  refine ⟨fun hs => ?completes, fun hs => ?refused⟩
  case completes =>
    obtain ⟨store, hmoved⟩ := memToStore_completes (m := s.mem) (off := offset.toNat) s.store hs
    refine ⟨store, ?answer, memToStore_stores hstore hend hmoved,
      (memToStore_frame (bound := s.cfg.storageSize) hmoved).2⟩
    exact storageCommand_completes (s' := { beginCommand s with store := store }) hp h0 hend
      (bind_eq_ok.mpr ⟨store, hmoved, rfl⟩)
  case refused =>
    exact storageCommand_refused hp h0 hend (by rw [memToStore_refused s.store hs, error_bind])

end Sys2Proof.Certificates
end

section
/-! PROOFS. The family spec/60_exceptions.md: no step faults (R243), the occurrence of a source (R233), the return of a
handler and what is left of the suspended command (R236), and the registration of handlers (R238). -/

namespace Sys2Proof.Machine

/-! ### The return of a handler (R236) -/

theorem handlerReturn_suspended {s : State} {x : Suspension} (hd : s.hdepth = true) (hx : s.susp = some x) :
    handlerReturn s = lineSteps x.cmd 227 (phasesAfter x.phase) (leaveHandler x s) := by
  simp only [handlerReturn, hd, hx]
  rfl

theorem handlerReturn_outside {s : State} (hd : s.hdepth = false) :
    handlerReturn s = .refused .returnOutsideHandler := by
  simp [handlerReturn, hd]

/-- The state the suspended command goes on from, `rest` being what is still to be presented: the handler of `src` left
(spec/60_exceptions.md R236), BUSY = 1 again (log 9). -/
def resumed (src : Source) (rest : List Input) (s : State) : State :=
  { s with
    inputs := rest
    trace := s.trace ++ [.ret src]
    insvc := clearFlag s.insvc src
    hdepth := false
    susp := none
    busy := true }

/-- The step at a return in a handler: the suspended command goes on with the phases left of its line step. -/
theorem step_of_ret {s : State} {rest : List Input} {x : Suspension} (hs : s.inputs = .ret :: rest)
    (hd : s.hdepth = true) (hx : s.susp = some x) :
    step s = lineSteps x.cmd 227 (phasesAfter x.phase) (resumed x.src rest s) :=
  (step_of_input hs).trans (handlerReturn_suspended (s := { s with inputs := rest }) hd hx)

/-- A trigger does the same once the handler has returned. -/
theorem dmaTrigger_resumed {ev : Trigger} {s u : State} (src : Source) (rest : List Input)
    (h : dmaTrigger ev s = .ok u) :
    dmaTrigger ev (resumed src rest s) = .ok (withDma (resumed src rest s) u) :=
  dmaTrigger_moved (s := s) rfl rfl h

/-- Inside a handler a command is suspended (spec/10_state.md R31). -/
theorem handlerContext.suspended {s : State} (h : handlerContext s) (hd : s.hdepth = true) :
    ∃ x, s.susp = some x := by
  unfold handlerContext at h
  split at h
  · obtain ⟨-, hd', -⟩ := h
    exact absurd (hd'.symm.trans hd) (by decide)
  · exact ⟨_, ‹_›⟩

/-! ### No fault (R243) -/

theorem handlerReturn_ne_fault {s : State} {f : Fault} (h : handlerContext s) : handlerReturn s ≠ .fault f := by
  cases hd : s.hdepth with
  | false => simp [handlerReturn_outside hd]
  | true =>
    obtain ⟨x, hx⟩ := h.suspended hd
    rw [handlerReturn_suspended hd hx]
    exact lineSteps_ne_fault

theorem presentOp_ne_fault {p : PortOp} {s : State} {f : Fault} : presentOp p s ≠ .fault f := by
  cases hp : decode p with
  | error e => simp [presentOp, hp]
  | ok i =>
    rw [presentOp_of_decode s hp]
    exact exec_ne_fault

theorem takeInput_ne_fault {x : Input} {s : State} {f : Fault} (h : handlerContext s) : takeInput x s ≠ .fault f := by
  cases x with
  | op p => exact presentOp_ne_fault
  | ret => exact handlerReturn_ne_fault h
  | reset =>
    show resetEvent s ≠ _
    unfold resetEvent
    split <;> simp
  | host w => simp [takeInput]
  | store addr b =>
    show platformStore addr b s ≠ _
    unfold platformStore
    split <;> simp

/-! ### What is left of a HALT -/

/-- A HALT whose line step ends is complete: BUSY = 0 and `res` = 0 (spec/30_encoding.md R77). -/
theorem lineSteps_halt_of_go {more : Nat} {ps : List Phase} {s t : State} (h : runPhases .halt ps s = .go t) :
    lineSteps .halt more ps s = .next { t with busy := false, port := { t.port with res := 0 } } := by
  rw [lineSteps_halt, h]
  rfl

/-- A command in progress that is suspended at a handler, the latch and its clearing as one mask. -/
theorem lineSteps_entered {cmd : TimingCmd} {more : Nat} {ps : List Phase} {p : Phase} {src : Source} {ref : Word}
    {s t : State} {v m : BitVec 14} (hm : m = ~~~(1#14 <<< src.val))
    (h : runPhases cmd ps s = .call (invoke cmd p src ref { t with ifReg := setFlag v src })) :
    lineSteps cmd more ps s = .next { t with
      hdepth := true
      ifReg := v &&& m
      insvc := setFlag t.insvc src
      susp := some { src := src, phase := p, cmd := cmd }
      trace := t.trace ++ [.call src ref] } := by
  rw [lineSteps_call h, invoke_latched cmd p ref t v m hm]

/-- The return points after which only the line is left to advance: every phase still to come is another line's
(spec/41_timing_engine.md R120). -/
theorem runPhases_advance {cmd : TimingCmd} {p : Phase} {s : State}
    (h : p = .p9 ∨ (p = .p4 ∧ s.line.toNat ≠ 160) ∨ (p = .p1 ∧ 160 < s.line.toNat)) :
    runPhases cmd (phasesAfter p) s = .go { s with line := nextLine s.line } := by
  obtain rfl | ⟨rfl, hl⟩ | ⟨rfl, hl⟩ := h
  · rfl
  · exact runPhases_noVblank hl
  · exact runPhases_blanking hl

/-- After the VCOUNT handler of a visible line: DRAW, the HBLANK transfers `u` and the HBLANK handler
(spec/41_timing_engine.md R122, R123). -/
theorem lineSteps_hblank_entered {cmd : TimingCmd} {more : Nat} {r u : State} {ref : Word} (hl : r.line.toNat < 160)
    (hu : dmaTrigger .hblank r = .ok u) (hi : served srcHblank ref r) :
    lineSteps cmd more (phasesAfter .p1) r = .next { r with
      mem := u.mem
      dma := u.dma
      hdepth := true
      ifReg := r.ifReg &&& 0x3FFD#14
      insvc := r.insvc ||| 0x0002#14
      susp := some { src := srcHblank, phase := .p4, cmd := cmd }
      trace := r.trace ++ [.draw r.line, .call srcHblank ref] } := by
  rw [lineSteps_entered (v := r.ifReg)
    (t := { r with mem := u.mem, dma := u.dma, trace := r.trace ++ [.draw r.line] }) rfl
    (runPhases_visible_served (s := r) (u := u) hl hu hi), List.append_assoc]
  rfl

/-- After the VCOUNT handler of line 160: the VBLANK transfers `u` and the VBLANK handler (spec/41_timing_engine.md
R124). -/
theorem lineSteps_vblank_entered {cmd : TimingCmd} {more : Nat} {r u : State} {ref : Word} (hl : r.line.toNat = 160)
    (hu : dmaTrigger .vblank r = .ok u) (hi : served srcVblank ref r) :
    lineSteps cmd more (phasesAfter .p1) r = .next { r with
      mem := u.mem
      dma := u.dma
      hdepth := true
      ifReg := r.ifReg &&& 0x3FFE#14
      insvc := r.insvc ||| 0x0001#14
      susp := some { src := srcVblank, phase := .p6, cmd := cmd }
      trace := r.trace ++ [.call srcVblank ref] } :=
  lineSteps_entered (v := r.ifReg) (t := { r with mem := u.mem, dma := u.dma }) rfl
    (runPhases_vblank_served (s := r) (u := u) hl hu hi)

/-! ### A HALT that goes on to the flush of line 160 (spec/41_timing_engine.md R125 to R129) -/

/-- What is left of a line step of line 160 after phase `p`, in state `r`, is its flush and what follows, in state
`f`. -/
structure ReachesFlush (p : Phase) (r f : State) : Prop where
  line : r.line.toNat = 160
  run : runPhases .halt (phasesAfter p) r = runPhases .halt (phasesAfter .p6) f
  frame : f = { r with mem := f.mem, dma := f.dma, ifReg := f.ifReg }

theorem reachesFlush_of_vblank {r : State} (hl : r.line.toNat = 160) : ReachesFlush .p6 r r := ⟨hl, rfl, rfl⟩

/-- After the VCOUNT handler, where VBLANK enters none after the transfers `u`. -/
theorem reachesFlush_of_vcount {r u : State} (hl : r.line.toNat = 160) (hu : dmaTrigger .vblank r = .ok u)
    (hi : unserved srcVblank r) : ReachesFlush .p1 r { r with
      mem := u.mem
      dma := u.dma
      ifReg := r.ifReg ||| (r.ie &&& 0x0001#14) } :=
  ⟨hl, runPhases_vblank hl hu hi, rfl⟩

section
variable {p : Phase} {more : Nat} {r f v : State} (h : ReachesFlush p r f)
include h

theorem ReachesFlush.line_eq : f.line.toNat = 160 := by
  rw [h.frame]
  exact h.line

/-- A HALT whose frame is refused. -/
theorem ReachesFlush.refused {e : Refusal} (hmix : soundMixFrame (emit .present f) = .error e) :
    lineSteps .halt more (phasesAfter p) r = .refused e :=
  lineSteps_stop (h.run.trans (runPhases_flush_stop h.line_eq hmix))

variable (hmix : soundMixFrame (emit .present f) = .ok v)
include hmix

/-- A HALT from its flush to its end: pacing, the poll, the next line. -/
theorem ReachesFlush.completes (hk : keypadHit r → unserved srcKeypad r) :
    lineSteps .halt more (phasesAfter p) r =
      .next { afterFlush v with busy := false, port := { r.port with res := 0 } } := by
  have hport : (afterFlush v).port = r.port := by
    rw [(afterFlush_kept v).2.1, (soundMixFrame_frame hmix).1, h.frame]
    rfl
  rw [← hport]
  exact lineSteps_halt_of_go (h.run.trans (runPhases_flush h.line_eq hmix (by rw [h.frame]; exact hk)))

/-- A HALT from its flush to the KEYPAD handler, after the pacing and the poll. -/
theorem ReachesFlush.keypad_entered {ref : Word} (hk : keypadHit r) (hi : served srcKeypad ref r) :
    lineSteps .halt more (phasesAfter p) r = .next { pacingWait v with
      hdepth := true
      keysnap := r.host.keys
      ifReg := f.ifReg &&& 0x2FFF#14
      insvc := r.insvc ||| 0x1000#14
      susp := some { src := srcKeypad, phase := .p9, cmd := .halt }
      trace := (pacingWait v).trace ++ [.call srcKeypad ref] } := by
  have hframe := (soundMixFrame_frame hmix).1
  have hhost : v.host = r.host := by rw [hframe, h.frame]; rfl
  have hif : v.ifReg = f.ifReg := by rw [hframe]; rfl
  have hinsvc : (pacingWait v).insvc = r.insvc := by rw [(pacingWait_frame v).1, hframe, h.frame]; rfl
  rw [← hhost, ← hif, ← hinsvc]
  exact lineSteps_entered (t := { pacingWait v with keysnap := v.host.keys }) rfl
    (h.run.trans (runPhases_flush_served h.line_eq hmix (by rw [h.frame]; exact hk) (by rw [h.frame]; exact hi)))

end

/-! ### What is left of a VSYNC (spec/41_timing_engine.md R131) -/

/-- Phases do the same whichever command runs them, but for the command a handler suspends. -/
theorem runPhases_changeCmd (c c' : TimingCmd) (ps : List Phase) (s : State) :
    runPhases c ps s = (runPhases c' ps s).withPort s.busy s.port c :=
  runPhases_withPort s.busy s.port c c' ps s

theorem runPhases_changeCmd_of_go (c : TimingCmd) {c' : TimingCmd} {ps : List Phase} {s t : State}
    (h : runPhases c' ps s = .go t) : runPhases c ps s = .go t := by
  have f := (runPhases_frame h).1
  have hbusy : t.busy = s.busy := by rw [f]
  have hport : t.port = s.port := by rw [f]
  rw [runPhases_changeCmd c c', h, ← hbusy, ← hport]
  rfl

theorem runPhases_changeCmd_of_call (c : TimingCmd) {c' : TimingCmd} {ps : List Phase} {s t : State}
    (h : runPhases c' ps s = .call t) :
    runPhases c ps s = .call { t with susp := t.susp.map fun x => { x with cmd := c } } := by
  obtain ⟨hbusy, hport, -⟩ := runPhases_called h
  rw [runPhases_changeCmd c c', h, ← hbusy, ← hport]
  rfl

section
variable {more more' : Nat} {ps : List Phase} {r u : State}

/-- A VSYNC in progress is refused where a HALT is. -/
theorem lineSteps_vsync_refused {e : Refusal} (h : lineSteps .halt more ps r = .refused e) :
    lineSteps .vsync more' ps r = .refused e := by
  rw [lineSteps_halt] at h
  cases hrun : runPhases .halt ps r with
  | stop e' =>
    rw [hrun] at h
    obtain rfl := Host.Outcome.refused.inj h
    exact lineSteps_stop (by rw [runPhases_changeCmd .vsync .halt, hrun]; rfl)
  | go t =>
    rw [hrun] at h
    cases h
  | call t =>
    rw [hrun] at h
    cases h

variable (h : lineSteps .halt more ps r = .next u)
include h

/-- A VSYNC in progress is suspended where a HALT is, as a VSYNC (log 3). -/
theorem lineSteps_vsync_suspended (hr : r.susp = none) {y : Suspension} (hy : u.susp = some y) :
    lineSteps .vsync more' ps r = .next { u with susp := some { y with cmd := .vsync } } := by
  obtain ⟨t, hgo, rfl⟩ | hcall := lineSteps_halt_next h
  · have ht : t.susp = none := by rw [(runPhases_frame hgo).1]; exact hr
    exact absurd (ht.symm.trans hy) (by simp)
  · rw [lineSteps_call (runPhases_changeCmd_of_call .vsync hcall), hy]
    rfl

/-- Where no handler is entered, the line step of the VSYNC ends as that of the HALT. -/
theorem runPhases_vsync_of_halt (hu : u.susp = none) : ∃ t, runPhases .vsync ps r = .go t ∧ u = endTiming t := by
  obtain ⟨t, hgo, rfl⟩ | hcall := lineSteps_halt_next h
  · exact ⟨t, runPhases_changeCmd_of_go .vsync hgo, rfl⟩
  · obtain ⟨-, -, -, x, hx, -⟩ := runPhases_called hcall
    exact absurd (hu.symm.trans hx) (by simp)

/-- At line 160 the VSYNC ends with that line step. -/
theorem lineSteps_vsync_ends (hu : u.susp = none) (hl : u.line.toNat = 160) :
    lineSteps .vsync (more' + 1) ps r = .next u := by
  obtain ⟨t, hgo, rfl⟩ := runPhases_vsync_of_halt h hu
  have hdone : commandDone .vsync t = true := decide_eq_true hl
  rw [lineSteps, hgo]
  exact if_pos hdone

/-- On any other line what is left is a VSYNC from there, the port's wires still those of the suspended one. -/
theorem lineSteps_vsync_restarts (hbusy : r.busy = true) (hd : r.hdepth = false) (hu : u.susp = none)
    (hl : u.line.toNat ≠ 160) : lineSteps .vsync 227 ps r = exec .vsync { u with port := r.port } := by
  obtain ⟨t, hgo, rfl⟩ := runPhases_vsync_of_halt h hu
  have f := (runPhases_frame hgo).1
  have tbusy : t.busy = true := by rw [f]; exact hbusy
  have tport : t.port = r.port := by rw [f]
  have tmain : mainFlow { endTiming t with port := r.port } := ⟨rfl, by rw [f]; exact hd⟩
  have tline : t.line.toNat ≠ 160 := hl
  have hdone : ¬ commandDone .vsync t = true := fun hdone => tline (of_decide_eq_true hdone)
  have tbegin : beginCommand { endTiming t with port := r.port } = t := by
    rw [← tport, show beginCommand { endTiming t with port := t.port } = { t with busy := true } from rfl, ← tbusy]
  calc lineSteps .vsync 227 ps r = lineSteps .vsync 226 allPhases t := by
        rw [lineSteps, hgo]
        exact if_neg hdone
    _ = lineSteps .vsync 227 allPhases t := (lineSteps_vsync_succ (by have := t.line.isLt; omega)).symm
    _ = exec .vsync { endTiming t with port := r.port } := by
        rw [← congrArg (lineSteps .vsync 227 allPhases) tbegin]
        exact (exec_timingOp .vsync tmain).symm

end

/-! ### Handler registration (R238) -/

theorem exec_irqSetHandler {s : State} (hp : portFree s = true) (source ref : Word) :
    exec (.irqSetHandler source ref) s = .next (endCommand 0 (registerHandler source ref (beginCommand s))) :=
  standalone_eq_next.mpr ⟨hp, 0, _, rfl, rfl⟩

theorem registerHandler_ignored {source : Word} (ref : Word) (s : State) (h : 14 ≤ source.toNat) :
    registerHandler source ref s = s := dif_neg (by omega)

theorem registerHandler_source {source : Word} {src : Source} (ref : Word) (s : State) (h : source.toNat = src.val) :
    registerHandler source ref s = { s with vec := s.vec.set src (handlerOf ref) } := by
  simp [registerHandler, h]

end Sys2Proof.Machine

namespace Sys2Proof.Certificates
open Sys2Proof.Machine

/-- Settles O4: an item taken in a consistent state does not fault. -/
theorem noStepFaults : Obligations.NoStepFaults := by
  intro s f h
  cases hs : s.inputs with
  | nil => simp [step_of_no_input hs]
  | cons x rest =>
    rw [step_of_input hs]
    exact takeInput_ne_fault (s := { s with inputs := rest }) h

/-- Settles O35, by the three cases of an occurrence. -/
theorem occurrenceOfASource : Obligations.OccurrenceOfASource := by
  intro cmd p src s
  refine ⟨?dropped, ?latched, ?delivered⟩
  case dropped =>
    intro hie
    simp [raiseIrq, hie]
  case latched =>
    intro hie hgate
    rw [raiseIrq_unserved (.inr hgate), if_pos hie]
    exact ⟨_, rfl, rfl, fun k => by rw [flagOf_setFlag, Bool.or_comm]⟩
  case delivered =>
    intro ref hie hime hvec
    refine ⟨_, raiseIrq_served ⟨hie, hime, hvec⟩, rfl, fun k => ?_, fun k => ?_⟩
    · rw [invoke_ifReg, flagOf_clearFlag, flagOf_setFlag]
      by_cases hk : k = src <;> simp [hk]
    · rw [invoke_insvc, flagOf_setFlag, Bool.or_comm]

/-- Settles O36, by the phase at which the handler was entered; a VSYNC by the HALT its line step is. -/
theorem handlerReturnGoesOn : Obligations.HandlerReturnGoesOn := by
  intro s rest hs
  refine ⟨fun hd => (step_of_input hs).trans (handlerReturn_outside (s := { s with inputs := rest }) hd), ?_⟩
  intro src p r hd hr
  obtain rfl : r = resumed src rest s := hr
  refine ⟨fun hx => ?halt, fun hx => ?vsync⟩
  case halt =>
    rw [step_of_ret hs hd hx]
    refine ⟨?advances, ?visible, ?hblankRefused, ?vblankRefused, ?vblank, ?flush⟩
    case advances =>
      intro hp
      exact lineSteps_halt_of_go (runPhases_advance (s := resumed src rest s) hp)
    case visible =>
      rintro rfl hl hclear
      obtain ⟨u, hu⟩ := dmaTrigger_completes hclear
      have hur := dmaTrigger_resumed src rest hu
      refine ⟨u, hu, fun hi => ?completes, fun ref hi => ?entered⟩
      case completes =>
        exact lineSteps_halt_of_go
          (runPhases_visible (s := resumed src rest s) (u := withDma (resumed src rest s) u) hl hur hi)
      case entered => exact lineSteps_hblank_entered (u := withDma (resumed src rest s) u) hl hur hi
    case hblankRefused =>
      rintro rfl hl hmeets
      exact lineSteps_stop (runPhases_visible_stop (s := resumed src rest s) hl (dmaTrigger_refused hmeets))
    case vblankRefused =>
      rintro rfl hl hmeets
      exact lineSteps_stop (runPhases_vblank_stop (s := resumed src rest s) hl (dmaTrigger_refused hmeets))
    case vblank =>
      rintro rfl hl hclear
      obtain ⟨u, hu⟩ := dmaTrigger_completes hclear
      have hur := dmaTrigger_resumed src rest hu
      exact ⟨u, hu, fun ref hi => lineSteps_vblank_entered (u := withDma (resumed src rest s) u) hl hur hi⟩
    case flush =>
      intro frame hl hframe
      obtain ⟨f, h, rfl⟩ : ∃ f, ReachesFlush p (resumed src rest s) f ∧ frame = emit .present f := by
        obtain ⟨rfl, rfl⟩ | ⟨rfl, hi, u, hu, rfl⟩ := hframe
        · exact ⟨_, reachesFlush_of_vblank hl, rfl⟩
        · have hur := dmaTrigger_resumed src rest hu
          exact ⟨_, reachesFlush_of_vcount hl hur hi, rfl⟩
      exact ⟨fun e hmix => h.refused hmix, fun v hmix =>
        ⟨fun hk => h.completes hmix hk, fun ref hk hi => h.keypad_entered hmix hk hi⟩⟩
  case vsync =>
    rintro _ rfl
    rw [step_of_ret hs hd hx, step_of_ret (s := { s with susp := some ⟨src, p, .halt⟩ }) hs hd rfl]
    refine ⟨fun e h => lineSteps_vsync_refused h, fun u h => ⟨fun y hy => ?_, fun hu hl => ?_, fun hu hl => ?_⟩⟩
    · exact lineSteps_vsync_suspended h rfl hy
    · exact lineSteps_vsync_ends h hu hl
    · exact lineSteps_vsync_restarts h rfl rfl hu hl

/-- Settles O60, by whether the index names a source. -/
theorem irqSetHandlerRegisters : Obligations.IrqSetHandlerRegisters := by
  intro s source ref hp
  constructor
  · intro hsource
    rw [exec_irqSetHandler hp, registerHandler_ignored ref _ hsource]
    rfl
  · intro src hsrc
    rw [exec_irqSetHandler hp, registerHandler_source ref _ hsrc]
    rfl

end Sys2Proof.Certificates
end

section
/-! PROOFS. The family spec/70_reset_and_hazards.md: the reset event (R260, R261), and what no operation but HALT and VSYNC
moves (R264). -/

namespace Sys2Proof.Machine

/-! ### The reset event (R260, R261) -/

/-- A command in progress, suspended or not, keeps the reset event out. -/
theorem resetEvent_refused {s : State} (h : s.busy = true ∨ s.hdepth = true) :
    resetEvent s = .refused .resetWhileBusy := by
  rw [resetEvent, if_pos (by simpa using h)]

/-- Between commands the reset event answers a state; `resetEvent_next` says which. -/
theorem resetEvent_completes {s : State} (hm : mainFlow s) : ∃ t, resetEvent s = .next t := by
  obtain ⟨hb, hd⟩ := hm
  exact ⟨_, by rw [resetEvent, if_neg (by simp [hb, hd])]⟩

theorem initial_vec (cfg : Config) (src : Source) : (State.initial cfg).vec[src] = none := by
  simp [State.initial]

theorem initial_dma (cfg : Config) (n : DmaIndex) : (State.initial cfg).dma[n] = DmaChannel.initial := by
  simp [State.initial]

theorem initial_ctl (cfg : Config) (c : Audio) : (State.initial cfg).ctl[c] = SoundCtl.initial := by
  simp [State.initial]

theorem initial_timer (cfg : Config) (u : TimerIndex) : (State.initial cfg).timer[u] = Timer.initial := by
  simp [State.initial]

end Sys2Proof.Machine

namespace Sys2Proof.Certificates
open Sys2Proof.Machine

/-- Settles O6, by the two classes: a register access by the frame of the general procedure and `registerAccess_flags`,
a command by its effect, which leaves every element named here but BUSY. -/
theorem onlyTimingCommandsAdvance : Obligations.OnlyTimingCommandsAdvance := by
  intro i s t hhalt hvsync h
  cases hi : accessOf i with
  | some a =>
    obtain ⟨base, hb⟩ := exec_register hi
    have hr : registerAccess base a s = .next t := (hb s).symm.trans h
    have hflags := registerAccess_flags hr
    have hframe := (registerAccess_frame hr).1
    unfold writeFrame at hframe
    rw [hframe] at hflags ⊢
    exact ⟨rfl, rfl, hflags, rfl, rfl, rfl, rfl, rfl, rfl, fun _ => rfl, fun hn => absurd hn (Option.some_ne_none a)⟩
  | none =>
    rw [(exec_command hi hhalt hvsync h).frame]
    exact ⟨rfl, rfl, BitVec.and_self, rfl, rfl, rfl, rfl, rfl, rfl, fun hn => absurd rfl hn, fun _ => rfl⟩

/-- Settles O14, by whether a command is in progress; the state after the event is the initial one but for DEADLINE and
the elements that the event keeps. -/
theorem resetEvent : Obligations.ResetEvent := by
  intro s rest hs
  rw [step_of_input hs]
  constructor
  · exact resetEvent_refused (s := { s with inputs := rest })
  · intro hb hd
    obtain ⟨t, h⟩ := resetEvent_completes (s := { s with inputs := rest }) ⟨hb, hd⟩
    obtain ⟨-, -, rfl⟩ := resetEvent_next h
    exact ⟨_, h, rfl, rfl, rfl, rfl, rfl, rfl, initial_vec s.cfg, initial_dma s.cfg, initial_ctl s.cfg, rfl,
      initial_timer s.cfg, initial_snd s.cfg, rfl, rfl, rfl, rfl, rfl, rfl, rfl, rfl, rfl, rfl, rfl, rfl, rfl, rfl⟩

end Sys2Proof.Certificates
end
